-- ==== Sys2Proof/Word.lean ====
section
/-! DEFINITION. Word types of the GN-B900-A0 (R4, R92, R164). -/
namespace Sys2Proof

/-- A 64-bit register value, address or CSR value. -/
abbrev Word := BitVec 64

/-- One byte of storage. -/
abbrev Byte := BitVec 8

/-- An integer register number x0 to x31. -/
abbrev XReg := Fin 32

/-- A vector register name v0 to v31. -/
abbrev VReg := Fin 32

/-- A number 0 to 7: tile names m, predicates p, tokens k, shape records sd (R66). -/
abbrev Reg8 := Fin 8

end Sys2Proof
end

