-- ==== Sys2Proof/Syntax.lean ====
section
/-! DEFINITION. The instructions and machine events of the opcode table: one constructor of `Instr` for each row.
Rows with an encoding carry their decoded operands; event rows (spec/95: each row is one whole step) carry what names
the agent and the object they act on. -/
namespace Sys2Proof

/-- Element types with their codes of R67. -/
inductive ElemTy where
  | i8 | i16 | i32 | i64 | n8 | n16 | n32 | n64
  | f32 | f16 | bf16 | e4m3 | e5m2 | e2m1 | mxf8 | mxf4 | i4
  | gf (k : Fin 4)
  deriving DecidableEq, Repr

/-- Storage spaces an ordering instruction names (R62, R146). -/
inductive Space where
  | scratch | glob | both
  deriving DecidableEq, Repr

/-- Scopes with their codes of R62 (R145). -/
inductive Scope where
  | strand | core | hall | die | package | domain | system
  deriving DecidableEq, Repr

/-- Access widths of `lda`, `stl` and scalar memory forms: 1, 2, 4 or 8 bytes. -/
inductive Width where
  | b | h | w | d
  deriving DecidableEq, Repr

/-- Header fields of a long form other than class and opcode (R64, R68, R77). -/
structure Hdr where
  pe   : Bool
  pred : Reg8
  la   : BitVec 4
  deriving DecidableEq, Repr

/-- Register-register operations of the scalar base: RV64I, M and Zba (R59). -/
inductive RegOp where
  | add | sub | sll | slt | sltu | xor | srl | sra | or | and
  | addw | subw | sllw | srlw | sraw
  | mul | mulh | mulhsu | mulhu | div | divu | rem | remu
  | mulw | divw | divuw | remw | remuw
  | addUw | sh1add | sh2add | sh3add | sh1addUw | sh2addUw | sh3addUw
  deriving DecidableEq, Repr

/-- Register-immediate operations with a 12-bit immediate (R59). -/
inductive ImmOp where
  | addi | slti | sltiu | xori | ori | andi | addiw
  deriving DecidableEq, Repr

/-- Immediate shifts; the W forms use five bits of the amount (R59). -/
inductive ShiftOp where
  | slli | srli | srai | slliw | srliw | sraiw | slliUw
  deriving DecidableEq, Repr

/-- The integer computational forms of RV64I, M and Zba (row RV64I_ARITHMETIC). -/
inductive Arith where
  | imm   (f : ImmOp) (rd rs1 : XReg) (i : BitVec 12)
  | shift (f : ShiftOp) (rd rs1 : XReg) (sh : BitVec 6)
  | reg   (f : RegOp) (rd rs1 rs2 : XReg)
  | lui   (rd : XReg) (i : BitVec 20)
  | auipc (rd : XReg) (i : BitVec 20)
  deriving DecidableEq, Repr

/-- Branch conditions of the base. -/
inductive BrCond where
  | eq | ne | lt | ge | ltu | geu
  deriving DecidableEq, Repr

/-- Branches and jumps (row BRANCH_JUMP); offsets are in units of two bytes, as the base encodes them. -/
inductive Jump where
  | br   (c : BrCond) (rs1 rs2 : XReg) (off : BitVec 12)
  | jal  (rd : XReg) (off : BitVec 20)
  | jalr (rd rs1 : XReg) (off : BitVec 12)
  deriving DecidableEq, Repr

/-- Scalar load forms: width and whether the value is zero-extended. -/
inductive LoadOp where
  | lb | lh | lw | ld | lbu | lhu | lwu
  deriving DecidableEq, Repr

/-- Atomic operations of the A extension (R158). -/
inductive AmoOp where
  | swap | add | xor | and | or | min | max | minu | maxu
  deriving DecidableEq, Repr

/-- Fields shared by LR, SC and AMO: .D or .W, and the aq and rl bits. -/
structure AmoHdr where
  dbl : Bool
  aq  : Bool
  rl  : Bool
  deriving DecidableEq, Repr

/-- Zicsr operation: write, set or clear. -/
inductive CsrOp where
  | rw | rs | rc
  deriving DecidableEq, Repr

/-- Zicsr source: a register or a 5-bit immediate. -/
inductive CsrSrc where
  | reg (r : XReg)
  | imm (i : BitVec 5)
  deriving DecidableEq, Repr

/-- Operands of a three-register vector form (R192). -/
structure V3 where
  h  : Hdr
  ty : ElemTy
  vd : VReg
  vs1 : VReg
  vs2 : VReg
  deriving DecidableEq, Repr

/-- Operands of a two-register vector form (R194). -/
structure V2 where
  h  : Hdr
  ty : ElemTy
  vd : VReg
  vs : VReg
  deriving DecidableEq, Repr

/-- Operands of a four-register vector form (R196). -/
structure V4 where
  h  : Hdr
  ty : ElemTy
  vd : VReg
  vs1 : VReg
  vs2 : VReg
  vs3 : VReg
  deriving DecidableEq, Repr

/-- Operands of a vector form with destination, source and an x register (R207, R209). -/
structure VX where
  h  : Hdr
  ty : ElemTy
  vd : VReg
  vs : VReg
  xr : XReg
  deriving DecidableEq, Repr

/-- Conditions of `vcmp` (R71). -/
inductive VCond where
  | eq | ne | lt | le | gt | ge | un
  deriving DecidableEq, Repr

/-- Operands of a predicate operation (R198). -/
structure P3 where
  h  : Hdr
  pd : Reg8
  ps1 : Reg8
  ps2 : Reg8
  deriving DecidableEq, Repr

/-- Operands of a type conversion: destination type, source type (R199 to R201). -/
structure VConv where
  h  : Hdr
  dt : ElemTy
  st : ElemTy
  vd : VReg
  vs : VReg
  deriving DecidableEq, Repr

/-- Operands of a vector memory form (R212): `ordered` is acquire on a load and release on a store. -/
structure VMem where
  h  : Hdr
  ty : ElemTy
  ordered : Bool
  off : BitVec 11
  v  : VReg
  xb : XReg
  deriving DecidableEq, Repr

/-- Combining operation of the reductions of the stack engines (R110). -/
inductive RedOp where
  | add | min | max
  deriving DecidableEq, Repr

/-- Networks of the fabric (R242). -/
inductive Net where
  | req | rep
  deriving DecidableEq, Repr

/-- Operands of `msend` (R244); `len` is L/32 - 1. -/
structure MsgOps where
  la  : BitVec 4
  cls : BitVec 2
  len : BitVec 5
  rel : Bool
  net : Net
  vs  : VReg
  xs  : XReg
  xh  : XReg
  deriving DecidableEq, Repr

/-- Operands of a stack-engine instruction (R110). -/
structure EngOps where
  la : BitVec 4
  k  : Reg8
  xd : XReg
  xs : XReg
  sd : Reg8
  deriving DecidableEq, Repr

/-- Why an instruction fetch failed (R57, R99, R105, R121). -/
inductive FetchCause where
  | pageFault | accessFault | uncorrectable
  deriving DecidableEq, Repr

/-- What a UALink peer asks of this package's local HBM (R158, R363). -/
inductive RemoteOp where
  | read (size : Nat)
  | write (bytes : List Byte)
  | atomic (op : AmoOp) (dbl : Bool) (src : Word)
  deriving DecidableEq, Repr


/-- The instructions and events: one constructor for each row of the opcode table. -/
inductive Instr where
  /-- CLAIM: R277. -/
  | claim (rs : XReg)
  /-- ACQ: R277. -/
  | acq (rs : XReg)
  /-- ACQ_TRY: R277. -/
  | acqTry (rd rs : XReg)
  /-- REL: R277. -/
  | rel (rs : XReg)
  /-- REL_COMPLETE: event: strand k waits in `rel`, R122. -/
  | relComplete (k : Nat)
  /-- SYNC_ACQ: R154. -/
  | syncAcq (sp : Space) (sc : Scope)
  /-- SYNC_REL: R154. -/
  | syncRel (sp : Space) (sc : Scope)
  /-- SYNC_AR: R154. -/
  | syncAr (sp : Space) (sc : Scope)
  /-- LDA: R155. -/
  | lda (w : Width) (sc : Scope) (sp : Space) (rd rs : XReg)
  /-- STL: R155. -/
  | stl (w : Width) (sc : Scope) (sp : Space) (rt rs : XReg)
  /-- KWAIT: R133. -/
  | kwait (mask : BitVec 8)
  /-- KWAIT_PASS: event: strand k waits in `kwait`, R133. -/
  | kwaitPass (k : Nat)
  /-- KPOLL: R134. -/
  | kpoll (rd : XReg) (mask : BitVec 8)
  /-- GBAR: R311. -/
  | gbar (g : BitVec 8)
  /-- GARRIVE: R311. -/
  | garrive (rd : XReg) (g : BitVec 8)
  /-- GWAIT: R311. -/
  | gwait (rs : XReg) (g : BitVec 8)
  /-- BARRIER_WAIT_END: event: strand k waits in `gbar` or `gwait`, R312. -/
  | barrierWaitEnd (k : Nat)
  /-- VSHAPE: R191. -/
  | vshape (ty : ElemTy) (rd rr rc : XReg)
  /-- FL_LAUNCH: R316. -/
  | flLaunch (rd rs : XReg)
  /-- FL_HINT: R317. -/
  | flHint
  /-- WAITPRED: R300. -/
  | waitpred
  /-- WAITPRED_END: event: strand k waits in `waitpred`, R300. -/
  | waitpredEnd (k : Nat)
  /-- TREAD_END: R319. -/
  | treadEnd
  /-- CKPT: R320. -/
  | ckpt (rs : XReg)
  /-- TRET: R322. -/
  | tret
  /-- CTX_SAVE: R324. -/
  | ctxSave (xc xa : XReg)
  /-- CTX_LOAD: R325. -/
  | ctxLoad (xc xa : XReg)
  /-- TLB_INV: R326. -/
  | tlbInv (xv xc : XReg)
  /-- TRACE_CTL: R327. -/
  | traceCtl (xc : XReg)
  /-- RV64I_ARITHMETIC: R59. -/
  | rv64iArith (a : Arith)
  /-- BRANCH_JUMP: R57. -/
  | branchJump (j : Jump)
  /-- LOAD: R60. -/
  | load (f : LoadOp) (rd rs : XReg) (off : BitVec 12)
  /-- STORE: R159. -/
  | store (w : Width) (rt rs : XReg) (off : BitVec 12)
  /-- LR: R60. -/
  | lr (h : AmoHdr) (rd rs : XReg)
  /-- SC: R60. -/
  | sc (h : AmoHdr) (rd rs rt : XReg)
  /-- AMO: R158. -/
  | amo (op : AmoOp) (h : AmoHdr) (rd rs rt : XReg)
  /-- FENCE: R157. -/
  | fence (fm pred succ : BitVec 4)
  /-- FENCE_I: R60. -/
  | fenceI
  /-- SFENCE_VMA: R60. -/
  | sfenceVma (rs rt : XReg)
  /-- MRET: R60. -/
  | mret
  /-- WFI: R60. -/
  | wfi
  /-- ECALL: R307. -/
  | ecall
  /-- EBREAK: R387. -/
  | ebreak
  /-- SRET: R307. -/
  | sret
  /-- CSR_ACCESS: R184. -/
  | csrAccess (op : CsrOp) (src : CsrSrc) (rd : XReg) (csr : BitVec 12)
  /-- SHAPE_WRITE: R167. -/
  | shapeWrite (op : CsrOp) (src : CsrSrc) (rd : XReg)
  /-- SRPTR_WRITE: R181. -/
  | srptrWrite (op : CsrOp) (src : CsrSrc) (rd : XReg)
  /-- SRBASE_WRITE: R181. -/
  | srbaseWrite (op : CsrOp) (src : CsrSrc) (rd : XReg)
  /-- SPMC_WRITE: spmc(3 + n), R380. -/
  | spmcWrite (n : Reg8) (op : CsrOp) (src : CsrSrc) (rd : XReg)
  /-- VADD: R192. -/
  | vadd (o : V3)
  /-- VSUB: R192. -/
  | vsub (o : V3)
  /-- VMUL: R192. -/
  | vmul (o : V3)
  /-- VMULH: R192. -/
  | vmulh (o : V3)
  /-- VDIV: R192. -/
  | vdiv (o : V3)
  /-- VMIN: R192. -/
  | vmin (o : V3)
  /-- VMAX: R192. -/
  | vmax (o : V3)
  /-- VAND: R193. -/
  | vand (o : V3)
  /-- VOR: R193. -/
  | vor (o : V3)
  /-- VXOR: R193. -/
  | vxor (o : V3)
  /-- VSLL: R193. -/
  | vsll (o : V3)
  /-- VSRL: R193. -/
  | vsrl (o : V3)
  /-- VSRA: R193. -/
  | vsra (o : V3)
  /-- VABS: R194. -/
  | vabs (o : V2)
  /-- VNEG: R194. -/
  | vneg (o : V2)
  /-- VSQRT: R194. -/
  | vsqrt (o : V2)
  /-- VRECE: R195. -/
  | vrece (o : V2)
  /-- VRSQE: R195. -/
  | vrsqe (o : V2)
  /-- VFMA: R196. -/
  | vfma (o : V4)
  /-- VFMS: R196. -/
  | vfms (o : V4)
  /-- VFNMA: R196. -/
  | vfnma (o : V4)
  /-- VFNMS: R196. -/
  | vfnms (o : V4)
  /-- VCMP: R197. -/
  | vcmp (h : Hdr) (ty : ElemTy) (cond : VCond) (all : Bool) (pd : Reg8) (vs1 vs2 : VReg)
  /-- PAND: R198. -/
  | pand (o : P3)
  /-- POR: R198. -/
  | por (o : P3)
  /-- PXOR: R198. -/
  | pxor (o : P3)
  /-- PNOT: R198. -/
  | pnot (h : Hdr) (pd ps : Reg8)
  /-- PSET: R198. -/
  | pset (h : Hdr) (pd : Reg8) (xs : XReg)
  /-- PSET_PAT: R198. -/
  | psetPat (h : Hdr) (pd : Reg8) (xs : XReg)
  /-- VCVT: R199. -/
  | vcvt (o : VConv)
  /-- VMXPACK: R200. -/
  | vmxpack (o : VConv) (vsc : VReg)
  /-- VMXUNPACK: R201. -/
  | vmxunpack (o : VConv) (vsc : VReg)
  /-- VREDSUM: R202. -/
  | vredsum (o : V2)
  /-- VREDMAX: R202. -/
  | vredmax (o : V2)
  /-- VREDMIN: R202. -/
  | vredmin (o : V2)
  /-- VREDAMAX: R202. -/
  | vredamax (o : V2)
  /-- VIDX: R203. -/
  | vidx (h : Hdr) (ty : ElemTy) (vd : VReg) (start : BitVec 13) (step : BitVec 10)
  /-- VBCAST: R204. -/
  | vbcast (h : Hdr) (ty : ElemTy) (vd : VReg) (xs : XReg)
  /-- VMVX: R205. -/
  | vmvx (h : Hdr) (ty : ElemTy) (xd : XReg) (vs : VReg) (xi : XReg)
  /-- VMV: R206. -/
  | vmv (o : V2)
  /-- VRESHAPE: R207. -/
  | vreshape (o : VX)
  /-- VPERM: R208. -/
  | vperm (o : V3)
  /-- VSLIDEUP: R209. -/
  | vslideup (o : VX)
  /-- VSLIDEDN: R209. -/
  | vslidedn (o : VX)
  /-- VREP_BEGIN: R210. -/
  | vrepBegin (la : BitVec 4) (n : BitVec 13)
  /-- VREP_GO: R211. -/
  | vrepGo (la : BitVec 4)
  /-- VLD: R214. -/
  | vld (o : VMem) (xp : XReg)
  /-- VLDS: R214. -/
  | vlds (o : VMem) (xp xe : XReg)
  /-- VLDX: R214. -/
  | vldx (o : VMem) (vi : VReg)
  /-- VST: R215. -/
  | vst (o : VMem) (xp : XReg)
  /-- VSTS: R215. -/
  | vsts (o : VMem) (xp xe : XReg)
  /-- VSTX: R215. -/
  | vstx (o : VMem) (vi : VReg)
  /-- MZERO: R226. -/
  | mzero (h : Hdr) (cp : Reg8) (md : Reg8)
  /-- MOP: R227. -/
  | mop (h : Hdr) (cp : Reg8) (ta tb : ElemTy) (md : Reg8) (va : VReg) (a : BitVec 4) (vb : VReg) (b : BitVec 4)
  /-- MOPW: n1 = n - 1, R227. -/
  | mopw (h : Hdr) (cp : Reg8) (sp : Bool) (n1 : BitVec 3) (ta tb : ElemTy) (md : Reg8) (va : VReg) (a : BitVec 4) (xo : XReg)
  /-- WLOAD: R231. -/
  | wload (la : BitVec 4) (xo xs xn : XReg)
  /-- MDRAIN: R233. -/
  | mdrain (h : Hdr) (cp : Reg8) (int : Bool) (dt : ElemTy) (vd : VReg) (ms : Reg8) (xc : XReg) (q : BitVec 2)
  /-- MFILL: R233. -/
  | mfill (h : Hdr) (cp : Reg8) (int : Bool) (st : ElemTy) (md : Reg8) (vs : VReg) (xc : XReg) (q : BitVec 2)
  /-- MSAVE: R237. -/
  | msave (la : BitVec 4) (mem : Bool) (ms : Reg8) (xa : XReg)
  /-- MSAVE_P: R237. -/
  | msaveP (la : BitVec 4) (mem : Bool) (n : Reg8) (xa : XReg)
  /-- MLOAD: R237. -/
  | mload (la : BitVec 4) (mem : Bool) (md : Reg8) (xa : XReg)
  /-- MSEND: R246. -/
  | msend (o : MsgOps)
  /-- MSEND_TRY: R246. -/
  | msendTry (o : MsgOps) (xt : XReg)
  /-- MDONE: R250. -/
  | mdone (la : BitVec 4)
  /-- HOP: R253, R254. -/
  | hop (la : BitVec 4) (cls : BitVec 2) (xa : XReg)
  /-- GBP_ADD: D1 = D - 1, d1 = d - 1, R262. -/
  | gbpAdd (la : BitVec 4) (D1 d1 : BitVec 4) (off : BitVec 4) (vd vs : VReg)
  /-- GBP_ELIM: R263. -/
  | gbpElim (la : BitVec 4) (D1 : BitVec 4) (k : BitVec 4) (vd vs : VReg) (xt : XReg)
  /-- GBP_DAMP: R265. -/
  | gbpDamp (la : BitVec 4) (D1 : BitVec 4) (vd vo vn : VReg) (xb : XReg)
  /-- GBP_RESID: R266. -/
  | gbpResid (la : BitVec 4) (D1 : BitVec 4) (xd : XReg) (va vb : VReg)
  /-- GBP_PACK: R267. -/
  | gbpPack (la : BitVec 4) (D1 : BitVec 4) (vd vs : VReg)
  /-- GBP_UNPACK: R267. -/
  | gbpUnpack (la : BitVec 4) (D1 : BitVec 4) (vd vs : VReg)
  /-- TSHAPE: R126. -/
  | tshape (la : BitVec 4) (sd : Reg8) (xs : XReg)
  /-- TCP: R128. -/
  | tcp (o : EngOps)
  /-- TCP_SCAT: R128. -/
  | tcpScat (o : EngOps)
  /-- TDEAL: R130. -/
  | tdeal (o : EngOps)
  /-- SBIND_RD: R140. -/
  | sbindRd (la : BitVec 4) (port : BitVec 2) (v : VReg) (xs : XReg) (sd : Reg8)
  /-- SBIND_WR: R140. -/
  | sbindWr (la : BitVec 4) (port : BitVec 2) (v : VReg) (xs : XReg) (sd : Reg8)
  /-- SUNBIND: R142. -/
  | sunbind (la : BitVec 4) (port : BitVec 2)
  /-- SG_GATHER: R114. -/
  | sgGather (o : EngOps) (xi : XReg)
  /-- SG_REDUCE: R115. -/
  | sgReduce (o : EngOps) (op : RedOp) (ty : ElemTy)
  /-- SG_CONV: R111. -/
  | sgConv (o : EngOps) (dt st : ElemTy)
  /-- COLL_REDUCE: R116. -/
  | collReduce (o : EngOps) (op : RedOp) (acc : Bool) (ty : ElemTy) (xm : XReg)
  /-- COLL_BCAST: R116. -/
  | collBcast (o : EngOps) (xm : XReg)
  /-- HNOP: R328. -/
  | hnop (la : BitVec 4)
  /-- HPREF: R328. -/
  | hpref (la : BitVec 4) (lvl : BitVec 3) (n1 : BitVec 6) (xs : XReg)
  /-- HMARK: R328. -/
  | hmark (la : BitVec 4) (value : BitVec 38)
  /-- UNDEFINED_HINT: R76. -/
  | undefinedHint (la : BitVec 4) (op : BitVec 7) (payload : BitVec 38)
  /-- INTERRUPT: event: R331. -/
  | interrupt (k : Nat)
  /-- PREEMPTION: event: R334. -/
  | preemption (k : Nat)
  /-- RESUMPTION_GRANT: event: R282. -/
  | resumptionGrant (core idx : Nat)
  /-- BANKER_REEVALUATION: event: R278. -/
  | bankerReevaluation (core : Nat)
  /-- FAIRNESS_HOLD: event: R279. -/
  | fairnessHold (core : Nat)
  /-- COPY_LANDING: event: lands units [lo, lo + n) of 32 bytes, R124. -/
  | copyLanding (core slot lo n : Nat)
  /-- ENGINE_OPERATION: event: R113. -/
  | engineOperation (core slot : Nat)
  /-- STREAM_BIND_ESTABLISH: event: R140. -/
  | streamBindEstablish (k : Nat)
  /-- STREAM_TRANSFER: event: n bytes, R141. -/
  | streamTransfer (core port n : Nat)
  /-- WRITE_THROUGH_DELIVERY: event: R159. -/
  | writeThroughDelivery (core idx : Nat)
  /-- BACKGROUND_SCRUB: event: R104. -/
  | backgroundScrub (stack sector : Nat)
  /-- MESSAGE_DELIVERY: event: R247. -/
  | messageDelivery (core : Nat) (net : Net) (idx : Nat)
  /-- HANDLER_START: event: R249. -/
  | handlerStart (core strand : Nat)
  /-- HOP_START: event: R255. -/
  | hopStart (core strand : Nat)
  /-- VESTIBULE_AGEING: event: R248. -/
  | vestibuleAgeing (core idx : Nat)
  /-- GANG_PLACEMENT: event: R292. -/
  | gangPlacement (die : Nat)
  /-- AGE_BOOST: event: R294. -/
  | ageBoost (die flight : Nat)
  /-- GANG_ROLLBACK: event: R295. -/
  | gangRollback (die : Nat)
  /-- WAIT_TRIGGERED_PREEMPTION: event: R297. -/
  | waitTriggeredPreemption (die flight : Nat)
  /-- SAVED_TREAD_RESUME: event: strand k of the die resumes on strand target, R298. -/
  | savedTreadResume (die k target : Nat)
  /-- FLIGHT_COMPLETION: event: R301. -/
  | flightCompletion (flight : Nat)
  /-- HEAD_ELECTION: event: R303. -/
  | headElection
  /-- SWAP_EXCHANGE: event: R346. -/
  | swapExchange
  /-- TRACE_SAMPLE: event: R389. -/
  | traceSample (part : Nat)
  /-- NOTIFY: event: R357. -/
  | notify (q : Nat) (v : Word)
  /-- SLOT_FETCH: event: R357. -/
  | slotFetch (q : Nat)
  /-- SLOT_REFETCH: event: R357. -/
  | slotRefetch (q : Nat)
  /-- RESYNC: event: R360. -/
  | resync (q : Nat) (v : Word)
  /-- QUEUE_ENABLE: event: a write of QCTL that sets en, R355. -/
  | queueEnable (q : Nat) (v : Word)
  /-- FEATACC_WRITE: event: R354. -/
  | feataccWrite (i : Nat) (v : Word)
  /-- WINBASE_WRITE: event: R351. -/
  | winbaseWrite (v : Word)
  /-- DOMAIN_WRITE: event: R363. -/
  | domainWrite (v : Word)
  /-- SWI: event: R351. -/
  | swi (core strand : Nat)
  /-- ATTREQ: event: R394. -/
  | attreq (v : Word)
  /-- ATTESTATION_REPORT: event: R394. -/
  | attestationReport
  /-- RLCTL_MODE_WRITE: event: R384. -/
  | rlctlModeWrite (part : Nat) (v : Word)
  /-- REGISTER_WRITE: event: R6. -/
  | registerWrite (off size : Nat) (v : Word)
  /-- HOST_WRITE: event: R350. -/
  | hostWrite (off : Nat) (bytes : List Byte) (relaxed : Bool)
  /-- REMOTE_ACCESS: event: R158. -/
  | remoteAccess (off : Nat) (op : RemoteOp)
  /-- NOP: event: R356. -/
  | nop (q : Nat) (seq : Word)
  /-- LAUNCH: event: R356. -/
  | launch (q : Nat) (seq : Word)
  /-- PART_CREATE: event: R361. -/
  | partCreate (q : Nat) (seq : Word)
  /-- PART_DESTROY: event: R361. -/
  | partDestroy (q : Nat) (seq : Word)
  /-- KEY_LOAD: event: R395. -/
  | keyLoad (q : Nat) (seq : Word)
  /-- SWAP: event: R347. -/
  | swap (q : Nat) (seq : Word)
  /-- EVICT: event: R346. -/
  | evict (q : Nat) (seq : Word)
  /-- PWR_STATE: event: R368. -/
  | pwrState (q : Nat) (seq : Word)
  /-- POWER_STATE_CHANGE: event: R367. -/
  | powerStateChange (die : Nat)
  /-- PWR_BUDGET: event: R368. -/
  | pwrBudget (q : Nat) (seq : Word)
  /-- BUDGET_LOWER_EFFECT: event: R370. -/
  | budgetLowerEffect
  /-- MARGIN_ADOPT: event: R373. -/
  | marginAdopt (q : Nat) (seq : Word)
  /-- AGEING_PROPOSAL: event: R373. -/
  | ageingProposal (mv mhz : BitVec 16)
  /-- DIE_FENCE: event: R368. -/
  | dieFence (q : Nat) (seq : Word)
  /-- DIE_RESTORE: event: R368. -/
  | dieRestore (q : Nat) (seq : Word)
  /-- HEARTBEAT_TIMEOUT: event: R366. -/
  | heartbeatTimeout (die : Nat)
  /-- UCIE_LINKS_DOWN: event: R366. -/
  | ucieLinksDown (die : Nat)
  /-- JUNCTION_OVERTEMPERATURE: event: R366. -/
  | junctionOvertemperature (die : Nat)
  /-- LANDING_STATE_ERROR: event: R366. -/
  | landingStateError (die : Nat)
  /-- DIE_RESET_RELEASE: event: R366. -/
  | dieResetRelease (die : Nat)
  /-- PACKAGE_RESET: event: R364. -/
  | packageReset
  /-- WATCHDOG_RESTART: event: R390. -/
  | watchdogRestart
  /-- LOAN_REQUEST: event: R371. -/
  | loanRequest (borrower lender units : Nat)
  /-- LOAN_GRANT: event: R371. -/
  | loanGrant (lender borrower : Nat)
  /-- LOAN_RECEIPT: event: R371. -/
  | loanReceipt (borrower lender : Nat)
  /-- LOAN_REPAY: event: R371. -/
  | loanRepay (borrower lender : Nat)
  /-- REPAY_RECEIPT: event: R371. -/
  | repayReceipt (lender borrower : Nat)
  /-- LOAN_DEADLINE: event: R371. -/
  | loanDeadline (borrower lender : Nat)
  /-- THERMAL_CLAMP: event: R372. -/
  | thermalClamp (die : Nat) (acts : Bool) (kilocycles : Nat)
  /-- CURRENT_CLAMP: event: R372. -/
  | currentClamp (die : Nat) (acts : Bool) (kilocycles : Nat)
  /-- POWER_CLAMP: event: R372. -/
  | powerClamp (die : Nat) (acts : Bool) (kilocycles : Nat)
  /-- PTP_SYNC: event: measured offset in ns and rate correction in ppm, R376. -/
  | ptpSync (gm : BitVec 16) (off : BitVec 32) (slew : Int)
  /-- DEBUG_CHALLENGE: event: R396. -/
  | debugChallenge
  /-- DEBUG_TOKEN: event: R396. -/
  | debugToken (scope : Byte) (key sig : List Byte)
  /-- ILLEGAL_INSTRUCTION: the fetched word or doubleword belongs to no instruction, R58. -/
  | illegalInstruction (bits : Word) (long : Bool)
  /-- INSTRUCTION_FETCH_FAULT: the failing word and why, R57. -/
  | instructionFetchFault (va : Word) (cause : FetchCause)
  /-- UALINK_PORT_TRAINING: event: R363. -/
  | ualinkPortTraining (port : Nat) (peerDomid : BitVec 32) (peerPkg : BitVec 9)
  /-- RESUME: event: the debugger resumes a halted strand from the record at `area`, R388. -/
  | resume (k : Nat) (area : Word)
  deriving DecidableEq, Repr

end Sys2Proof
end

