-- ==== Sys2Proof/WellFormed.lean ====
section
/-! DEFINITION. Which instruction terms have an encoding: the decode-time conditions of R61 to R76, R187, R188,
R221, R223, R224, R244 and R260 on decoded operands. Event rows have no encoding; they are well formed when the
numbers that name their agents exist. -/
namespace Sys2Proof

/-- The type code of R67. -/
def ElemTy.code : ElemTy → Nat
  | .i8 => 0 | .i16 => 1 | .i32 => 2 | .i64 => 3 | .n8 => 4 | .n16 => 5 | .n32 => 6 | .n64 => 7
  | .f32 => 8 | .f16 => 9 | .bf16 => 10 | .e4m3 => 11 | .e5m2 => 12 | .e2m1 => 13 | .mxf8 => 14 | .mxf4 => 15
  | .i4 => 16 | .gf k => 17 + k.val

/-- Signed integer types i8 to i64 (R31); i4 is a matrix and conversion format. -/
def ElemTy.isIInt : ElemTy → Bool
  | .i8 | .i16 | .i32 | .i64 => true
  | _ => false

/-- "Int" of R187: i8 to i64 and n8 to n64. -/
def ElemTy.isInt : ElemTy → Bool
  | .i8 | .i16 | .i32 | .i64 | .n8 | .n16 | .n32 | .n64 => true
  | _ => false

/-- "Float" of R187: f32, f16, bf16. -/
def ElemTy.isFloat : ElemTy → Bool
  | .f32 | .f16 | .bf16 => true
  | _ => false

def ElemTy.isGf : ElemTy → Bool
  | .gf _ => true
  | _ => false

/-- mxf8 and mxf4. -/
def ElemTy.isMx : ElemTy → Bool
  | .mxf8 | .mxf4 => true
  | _ => false

/-- The named types in a 4-bit container (R36, R168). -/
def ElemTy.isNamed4 : ElemTy → Bool
  | .i4 | .e2m1 | .mxf4 => true
  | _ => false

/-- Container bits of a type whose width does not depend on a descriptor (R36, R168); none for gf. -/
def ElemTy.fixedBits : ElemTy → Option Nat
  | .i4 | .e2m1 | .mxf4 => some 4
  | .i8 | .n8 | .e4m3 | .e5m2 | .mxf8 => some 8
  | .i16 | .n16 | .f16 | .bf16 => some 16
  | .i32 | .n32 | .f32 => some 32
  | .i64 | .n64 => some 64
  | .gf _ => none

/-- Types of a floating matrix operand with the container width when it is fixed (R221). -/
def ElemTy.isMatFloat : ElemTy → Bool
  | .e2m1 | .mxf4 | .e4m3 | .e5m2 | .mxf8 | .f16 | .bf16 | .f32 | .gf _ => true
  | _ => false

/-- The A and B pairs of R221 that decode accepts. A gf type goes with every floating type: its width is known only at
execution, where another row takes bad-format (log 22). -/
def matPairOk (ta tb : ElemTy) : Bool :=
  (ta == .i4 && tb == .i4) || (ta == .i8 && tb == .i8) ||
  (ta.isMatFloat && tb.isMatFloat &&
    match ta.fixedBits, tb.fixedBits with
    | some a, some b => a == b
    | _, _ => true)

/-- Types `mdrain` and `mfill` accept (R224). -/
def ElemTy.isDrainTy : ElemTy → Bool
  | .i4 | .i8 | .i16 | .i32 | .f32 | .f16 | .bf16 | .e4m3 | .e5m2 | .e2m1 | .gf _ => true
  | _ => false

/-- The reduction types of R110. -/
def ElemTy.isRedTy : ElemTy → Bool
  | .i32 | .i64 | .n32 | .n64 | .f32 | .f16 | .bf16 => true
  | _ => false

/-- The A-row limit of `mopw` that decode checks for a fixed A type (R224). -/
def mopwRowsOk (ta : ElemTy) (sp : Bool) (a n1 : Nat) : Bool :=
  match ta.fixedBits with
  | none => true
  | some 4 => if sp then a + 2 * (n1 + 1) ≤ 16 else a + n1 ≤ 15
  | some _ => a + n1 ≤ 15

/-- With pe = 0 the predicate field is zero (R68). -/
def Hdr.ok (h : Hdr) : Bool := h.pe || h.pred == 0

/-- With pe = 0 the column predicate field is zero too (R68). -/
def Hdr.okCol (h : Hdr) (cp : Reg8) : Bool := h.pe || (h.pred == 0 && cp == 0)

/-- Whether a Zicsr form writes its CSR: a set or clear whose source field is zero only reads. -/
def csrWrites (op : CsrOp) (src : CsrSrc) : Bool :=
  match op, src with
  | .rw, _ => true
  | _, .reg r => r != 0
  | _, .imm i => i != 0

/-- CSR numbers whose writes are rows of their own: shape, srptr, srbase and spmc3 to spmc10. -/
def csrOwnRow (csr : Nat) : Bool :=
  csr == 0x800 || csr == 0x808 || csr == 0x5C1 || (0x5D8 ≤ csr && csr ≤ 0x5DF)

/-- Shift amounts of the W forms have five bits. -/
def Arith.ok : Arith → Bool
  | .shift .slliw _ _ sh | .shift .srliw _ _ sh | .shift .sraiw _ _ sh => sh.toNat < 32
  | _ => true

/-- Number of strands that exist: 16 on each of 1,152 cores, and the management core (R20, R59). -/
def nStrands : Nat := 18432
def nCores : Nat := 1152
def nDies : Nat := 8

end Sys2Proof

open Sys2Proof in
/-- The decode-time conditions on an instruction's operands; for an event row, that its numbers name agents. -/
def Sys2Proof.Instr.wf : Instr → Bool
  | .vadd o | .vsub o | .vmul o | .vdiv o | .vmin o | .vmax o => o.h.ok && (o.ty.isInt || o.ty.isFloat)
  | .vmulh o | .vand o | .vor o | .vxor o | .vsll o | .vsrl o | .vsra o => o.h.ok && o.ty.isInt
  | .vabs o | .vneg o | .vredsum o | .vredmax o | .vredmin o => o.h.ok && (o.ty.isInt || o.ty.isFloat)
  | .vsqrt o | .vrece o | .vrsqe o | .vredamax o => o.h.ok && o.ty.isFloat
  | .vfma o | .vfms o | .vfnma o | .vfnms o => o.h.ok && (o.ty.isInt || o.ty.isFloat)
  | .vcmp h ty _ _ _ _ _ => h.ok && (ty.isInt || ty.isFloat)
  | .pand o | .por o | .pxor o => o.h.ok
  | .pnot h _ _ | .pset h _ _ | .psetPat h _ _ => h.ok
  | .vcvt o => o.h.ok && !o.dt.isMx && !o.st.isMx && (o.vd != o.vs || o.dt == o.st)
  | .vmxpack o vsc => o.h.ok && o.st.isFloat && (o.dt.isMx || o.dt.isGf) && o.vd != o.vs && o.vd != vsc && o.vs != vsc
  | .vmxunpack o vsc => o.h.ok && o.dt.isFloat && (o.st.isMx || o.st.isGf) && o.vd != o.vs && o.vd != vsc && o.vs != vsc
  | .vidx h ty _ _ _ => h.ok && ty.isInt
  | .vbcast h _ _ _ => h.ok
  | .vmvx h _ _ _ _ => h.ok
  | .vmv o => o.h.ok
  | .vreshape o => o.h.ok && o.vd != o.vs
  | .vperm o => o.h.ok && o.vd != o.vs1 && o.vd != o.vs2
  | .vslideup o => o.h.ok && o.vd != o.vs
  | .vslidedn o => o.h.ok && o.vd != o.vs
  | .vrepBegin _ n => 1 ≤ n.toNat && n.toNat ≤ 32
  | .vld o _ | .vst o _ => o.h.ok
  | .vlds o _ _ | .vsts o _ _ => o.h.ok && !o.ty.isNamed4
  | .vldx o vi | .vstx o vi => o.h.ok && !o.ty.isNamed4 && o.v != vi
  | .mzero h cp _ => h.okCol cp
  | .mop h cp ta tb _ va _ vb _ =>
      h.okCol cp && matPairOk ta tb && !(ta.isMx && va == 31) && !(tb.isMx && vb == 31)
  | .mopw h cp sp n1 ta tb _ va a _ =>
      h.okCol cp && matPairOk ta tb && !(ta.isMx && va == 31) && !(sp && ta == .f32) && mopwRowsOk ta sp a.toNat n1.toNat
  | .mdrain h cp _ dt _ _ _ _ => h.okCol cp && dt.isDrainTy
  | .mfill h cp _ st _ _ _ _ => h.okCol cp && st.isDrainTy
  | .gbpAdd _ D1 d1 off _ _ => off.toNat + d1.toNat ≤ D1.toNat
  | .gbpElim _ D1 k _ _ _ => 1 ≤ k.toNat && k.toNat ≤ D1.toNat
  | .sgReduce _ _ ty => ty.isRedTy
  | .collReduce _ _ _ ty _ => ty.isRedTy
  | .undefinedHint _ op _ => 3 ≤ op.toNat
  | .csrAccess op src _ csr => !(csrOwnRow csr.toNat && csrWrites op src)
  | .shapeWrite op src _ | .srptrWrite op src _ | .srbaseWrite op src _ | .spmcWrite _ op src _ => csrWrites op src
  | .rv64iArith a => a.ok
  | .relComplete k | .kwaitPass k | .barrierWaitEnd k | .waitpredEnd k | .interrupt k | .preemption k
  | .streamBindEstablish k | .resume k _ => k ≤ nStrands
  | .resumptionGrant core _ | .bankerReevaluation core | .fairnessHold core | .copyLanding core _ _ _
  | .engineOperation core _ | .streamTransfer core _ _ | .writeThroughDelivery core _ | .messageDelivery core _ _
  | .vestibuleAgeing core _ => core < nCores
  | .handlerStart core strand | .hopStart core strand | .swi core strand => core < nCores && strand < 16
  | .gangPlacement die | .ageBoost die _ | .gangRollback die | .waitTriggeredPreemption die _ | .savedTreadResume die _ _
  | .heartbeatTimeout die | .ucieLinksDown die | .junctionOvertemperature die | .landingStateError die
  | .dieResetRelease die | .powerStateChange die | .thermalClamp die _ _ | .currentClamp die _ _
  | .powerClamp die _ _ => die < nDies
  | _ => true
end

