-- ==== Sys2Proof/Decode.lean ====
section
/-! DEFINITION. Decoding of every bit pattern that can be fetched (R56 to R76) and, after it, the encoder written from
the same tables. Words are numbers whose bit 0 is the least significant bit of the first byte. -/
namespace Sys2Proof

/-- Why a fetched pattern belongs to no instruction; each raises illegal-instruction (R56, R58). -/
inductive DecodeError where
  | length16 | length48 | length80 | truncated
  | reservedOpcode | reservedFunct | reservedCode | unusedField
  | bit14 | reservedClass | reservedPred | badType | badPair | sameRegister | operandRange
  deriving DecidableEq, Repr

/-- The n-bit field of w whose lowest bit is lo. -/
def fld (w lo n : Nat) : Nat := w / 2 ^ lo % 2 ^ n

/-- The x or v register number in an n-bit field. -/
def fldR (w lo : Nat) : Fin 32 := Fin.ofNat 32 (fld w lo 5)

/-- A number 0 to 7 in a three-bit field. -/
def fld8 (w lo : Nat) : Fin 8 := Fin.ofNat 8 (fld w lo 3)

/-- The type of a code of R67; 21 to 31 are reserved. -/
def ElemTy.ofCode (c : Nat) : Option ElemTy :=
  match c with
  | 0 => some .i8 | 1 => some .i16 | 2 => some .i32 | 3 => some .i64
  | 4 => some .n8 | 5 => some .n16 | 6 => some .n32 | 7 => some .n64
  | 8 => some .f32 | 9 => some .f16 | 10 => some .bf16 | 11 => some .e4m3 | 12 => some .e5m2 | 13 => some .e2m1
  | 14 => some .mxf8 | 15 => some .mxf4 | 16 => some .i4
  | 17 => some (.gf 0) | 18 => some (.gf 1) | 19 => some (.gf 2) | 20 => some (.gf 3)
  | _ => none

/-- Codes of R62. -/
def Scope.ofCode (c : Nat) : Option Scope :=
  match c with
  | 0 => some .strand | 1 => some .core | 2 => some .hall | 3 => some .die
  | 4 => some .package | 5 => some .domain | 6 => some .system | _ => none

def Scope.code : Scope → Nat
  | .strand => 0 | .core => 1 | .hall => 2 | .die => 3 | .package => 4 | .domain => 5 | .system => 6

def Space.ofCode (c : Nat) : Option Space :=
  match c with
  | 1 => some .scratch | 2 => some .glob | 3 => some .both | _ => none

def Space.code : Space → Nat
  | .scratch => 1 | .glob => 2 | .both => 3

def Width.ofCode (c : Nat) : Width :=
  match c with
  | 0 => .b | 1 => .h | 2 => .w | _ => .d

def Width.code : Width → Nat
  | .b => 0 | .h => 1 | .w => 2 | .d => 3

/-- Access size in bytes. -/
def Width.bytes : Width → Nat
  | .b => 1 | .h => 2 | .w => 4 | .d => 8

def RedOp.ofCode (c : Nat) : Option RedOp :=
  match c with
  | 0 => some .add | 1 => some .min | 2 => some .max | _ => none

def RedOp.code : RedOp → Nat
  | .add => 0 | .min => 1 | .max => 2

def VCond.ofCode (c : Nat) : Option VCond :=
  match c with
  | 0 => some .eq | 1 => some .ne | 2 => some .lt | 3 => some .le | 4 => some .gt | 5 => some .ge | 6 => some .un | _ => none

def VCond.code : VCond → Nat
  | .eq => 0 | .ne => 1 | .lt => 2 | .le => 3 | .gt => 4 | .ge => 5 | .un => 6

def CsrOp.code : CsrOp → Nat
  | .rw => 1 | .rs => 2 | .rc => 3

/-- Answer i when the check holds, else the error. -/
def need (c : Bool) (e : DecodeError) (k : Except DecodeError Instr) : Except DecodeError Instr :=
  if c then k else .error e

/-- Continue with the value, or refuse with the error when there is none. -/
def needSome {α : Type} (o : Option α) (e : DecodeError) (k : α → Except DecodeError Instr) : Except DecodeError Instr :=
  match o with
  | some a => k a
  | none => .error e

/-- Register-immediate arithmetic, opcodes OP-IMM and OP-IMM-32 (R59). -/
def decodeOpImm (w : Nat) (word : Bool) : Except DecodeError Instr :=
  let rd := fldR w 7
  let rs := fldR w 15
  let i := BitVec.ofNat 12 (fld w 20 12)
  let sh := BitVec.ofNat 6 (fld w 20 6)
  let top6 := fld w 26 6
  let arith (a : Arith) : Except DecodeError Instr := .ok (.rv64iArith a)
  if word then
    match fld w 12 3 with
    | 0 => arith (.imm .addiw rd rs i)
    | 1 => if fld w 25 7 = 0 then arith (.shift .slliw rd rs sh)
           else if top6 = 2 then arith (.shift .slliUw rd rs sh) else .error .reservedFunct
    | 5 => if fld w 25 7 = 0 then arith (.shift .srliw rd rs sh)
           else if fld w 25 7 = 32 then arith (.shift .sraiw rd rs (BitVec.ofNat 6 (fld w 20 5))) else .error .reservedFunct
    | _ => .error .reservedFunct
  else
    match fld w 12 3 with
    | 0 => arith (.imm .addi rd rs i)
    | 1 => if top6 = 0 then arith (.shift .slli rd rs sh) else .error .reservedFunct
    | 2 => arith (.imm .slti rd rs i)
    | 3 => arith (.imm .sltiu rd rs i)
    | 4 => arith (.imm .xori rd rs i)
    | 5 => if top6 = 0 then arith (.shift .srli rd rs sh)
           else if top6 = 16 then arith (.shift .srai rd rs sh) else .error .reservedFunct
    | 6 => arith (.imm .ori rd rs i)
    | _ => arith (.imm .andi rd rs i)

/-- The operation that funct7 and funct3 name in OP (R59). -/
def regOpOf (f7 f3 : Nat) : Option RegOp :=
  match f7, f3 with
  | 0, 0 => some .add | 0, 1 => some .sll | 0, 2 => some .slt | 0, 3 => some .sltu
  | 0, 4 => some .xor | 0, 5 => some .srl | 0, 6 => some .or | 0, 7 => some .and
  | 32, 0 => some .sub | 32, 5 => some .sra
  | 1, 0 => some .mul | 1, 1 => some .mulh | 1, 2 => some .mulhsu | 1, 3 => some .mulhu
  | 1, 4 => some .div | 1, 5 => some .divu | 1, 6 => some .rem | 1, 7 => some .remu
  | 16, 2 => some .sh1add | 16, 4 => some .sh2add | 16, 6 => some .sh3add
  | _, _ => none

/-- The operation that funct7 and funct3 name in OP-32 (R59). -/
def regOp32Of (f7 f3 : Nat) : Option RegOp :=
  match f7, f3 with
  | 0, 0 => some .addw | 0, 1 => some .sllw | 0, 5 => some .srlw
  | 32, 0 => some .subw | 32, 5 => some .sraw
  | 1, 0 => some .mulw | 1, 4 => some .divw | 1, 5 => some .divuw | 1, 6 => some .remw | 1, 7 => some .remuw
  | 4, 0 => some .addUw
  | 16, 2 => some .sh1addUw | 16, 4 => some .sh2addUw | 16, 6 => some .sh3addUw
  | _, _ => none

def amoOpOf (f5 : Nat) : Option AmoOp :=
  match f5 with
  | 0 => some .add | 1 => some .swap | 4 => some .xor | 8 => some .or | 12 => some .and
  | 16 => some .min | 20 => some .max | 24 => some .minu | 28 => some .maxu
  | _ => none

def brCondOf (f3 : Nat) : Option BrCond :=
  match f3 with
  | 0 => some .eq | 1 => some .ne | 4 => some .lt | 5 => some .ge | 6 => some .ltu | 7 => some .geu | _ => none

def loadOpOf (f3 : Nat) : Option LoadOp :=
  match f3 with
  | 0 => some .lb | 1 => some .lh | 2 => some .lw | 3 => some .ld | 4 => some .lbu | 5 => some .lhu | 6 => some .lwu
  | _ => none

/-- LR, SC and AMO (R59, R60). -/
def decodeAmo (w : Nat) : Except DecodeError Instr :=
  let h : AmoHdr := ⟨fld w 12 3 == 3, fld w 26 1 == 1, fld w 25 1 == 1⟩
  let rd := fldR w 7
  let rs := fldR w 15
  let rt := fldR w 20
  need (fld w 12 3 == 2 || fld w 12 3 == 3) .reservedFunct <|
    match fld w 27 5 with
    | 2 => need (fld w 20 5 == 0) .unusedField (.ok (.lr h rd rs))
    | 3 => .ok (.sc h rd rs rt)
    | f5 => needSome (amoOpOf f5) .reservedFunct fun op => .ok (.amo op h rd rs rt)

/-- A Zicsr form, given its operation and source: writes of the CSRs with rows of their own go there. -/
def csrInstr (op : CsrOp) (src : CsrSrc) (rd : XReg) (csr : Nat) : Instr :=
  if csrWrites op src && csrOwnRow csr then
    if csr = 0x800 then .shapeWrite op src rd
    else if csr = 0x808 then .srptrWrite op src rd
    else if csr = 0x5C1 then .srbaseWrite op src rd
    else .spmcWrite (Fin.ofNat 8 (csr - 0x5D8)) op src rd
  else .csrAccess op src rd (BitVec.ofNat 12 csr)

/-- Opcode SYSTEM (R59, R60). -/
def decodeSystem (w : Nat) : Except DecodeError Instr :=
  let rd := fldR w 7
  let r := fldR w 15
  let i := BitVec.ofNat 5 (fld w 15 5)
  let csr := fld w 20 12
  match fld w 12 3 with
  | 0 =>
    if fld w 25 7 = 9 then need (fld w 7 5 == 0) .unusedField (.ok (.sfenceVma r (fldR w 20)))
    else need (fld w 7 5 == 0 && fld w 15 5 == 0) .reservedFunct <|
      match csr with
      | 0 => .ok .ecall
      | 1 => .ok .ebreak
      | 0x102 => .ok .sret
      | 0x302 => .ok .mret
      | 0x105 => .ok .wfi
      | _ => .error .reservedFunct
  | 1 => .ok (csrInstr .rw (.reg r) rd csr)
  | 2 => .ok (csrInstr .rs (.reg r) rd csr)
  | 3 => .ok (csrInstr .rc (.reg r) rd csr)
  | 5 => .ok (csrInstr .rw (.imm i) rd csr)
  | 6 => .ok (csrInstr .rs (.imm i) rd csr)
  | 7 => .ok (csrInstr .rc (.imm i) rd csr)
  | _ => .error .reservedFunct

/-- The custom-0 map of R62. -/
def decodeCustom0 (w : Nat) : Except DecodeError Instr :=
  let rd := fldR w 7
  let rs := fldR w 15
  let rt := fldR w 20
  let rd0 := fld w 7 5 == 0
  let rs0 := fld w 15 5 == 0
  let rt0 := fld w 20 5 == 0
  let m8 := BitVec.ofNat 8 (fld w 20 8)
  match fld w 12 3 with
  | 0 => need rt0 .unusedField <|
      match fld w 25 7 with
      | 0 => need rd0 .unusedField (.ok (.claim rs))
      | 1 => need rd0 .unusedField (.ok (.acq rs))
      | 2 => .ok (.acqTry rd rs)
      | 3 => need rd0 .unusedField (.ok (.rel rs))
      | _ => .error .reservedFunct
  | 1 => need (rd0 && rs0 && fld w 27 5 == 0) .unusedField <|
      needSome (Space.ofCode (fld w 23 2)) .reservedCode fun sp =>
      needSome (Scope.ofCode (fld w 20 3)) .reservedCode fun sc =>
      match fld w 25 2 with
      | 1 => .ok (.syncAcq sp sc)
      | 2 => .ok (.syncRel sp sc)
      | 3 => .ok (.syncAr sp sc)
      | _ => .error .reservedCode
  | 2 => need rt0 .unusedField <|
      needSome (Scope.ofCode (fld w 27 3)) .reservedCode fun sc =>
      needSome (Space.ofCode (fld w 25 2)) .reservedCode fun sp =>
      .ok (.lda (Width.ofCode (fld w 30 2)) sc sp rd rs)
  | 3 => need rd0 .unusedField <|
      needSome (Scope.ofCode (fld w 27 3)) .reservedCode fun sc =>
      needSome (Space.ofCode (fld w 25 2)) .reservedCode fun sp =>
      .ok (.stl (Width.ofCode (fld w 30 2)) sc sp rt rs)
  | 4 => need rs0 .unusedField <|
      match fld w 28 4 with
      | 0 => need rd0 .unusedField (.ok (.kwait m8))
      | 1 => .ok (.kpoll rd m8)
      | _ => .error .reservedFunct
  | 5 =>
      match fld w 28 4 with
      | 0 => need (rd0 && rs0) .unusedField (.ok (.gbar m8))
      | 1 => need rs0 .unusedField (.ok (.garrive rd m8))
      | 2 => need rd0 .unusedField (.ok (.gwait rs m8))
      | _ => .error .reservedFunct
  | 6 => need (fld w 25 2 == 0) .unusedField <|
      needSome (ElemTy.ofCode (fld w 27 5)) .badType fun ty => .ok (.vshape ty rd rs rt)
  | _ => .error .reservedFunct

/-- The custom-1 map of R63. -/
def decodeCustom1 (w : Nat) : Except DecodeError Instr :=
  let rd := fldR w 7
  let rs := fldR w 15
  let rt := fldR w 20
  let rd0 := fld w 7 5 == 0
  let rs0 := fld w 15 5 == 0
  let rt0 := fld w 20 5 == 0
  match fld w 12 3 with
  | 0 => need rt0 .unusedField <|
      match fld w 25 7 with
      | 0 => .ok (.flLaunch rd rs)
      | 1 => need (rd0 && rs0) .unusedField (.ok .flHint)
      | 2 => need (rd0 && rs0) .unusedField (.ok .waitpred)
      | 3 => need (rd0 && rs0) .unusedField (.ok .treadEnd)
      | 4 => need rd0 .unusedField (.ok (.ckpt rs))
      | _ => .error .reservedFunct
  | 1 => need rd0 .unusedField <|
      match fld w 25 7 with
      | 0 => need (rs0 && rt0) .unusedField (.ok .tret)
      | 1 => .ok (.ctxSave rs rt)
      | 2 => .ok (.ctxLoad rs rt)
      | 3 => .ok (.tlbInv rs rt)
      | 4 => need rt0 .unusedField (.ok (.traceCtl rs))
      | _ => .error .reservedFunct
  | _ => .error .reservedFunct

/-- Every 32-bit form (R56, R59 to R63). -/
def decode32 (w : Nat) : Except DecodeError Instr :=
  let rd := fldR w 7
  let rs := fldR w 15
  let rt := fldR w 20
  match fld w 0 7 with
  | 0x37 => .ok (.rv64iArith (.lui rd (BitVec.ofNat 20 (fld w 12 20))))
  | 0x17 => .ok (.rv64iArith (.auipc rd (BitVec.ofNat 20 (fld w 12 20))))
  | 0x13 => decodeOpImm w false
  | 0x1B => decodeOpImm w true
  | 0x33 => needSome (regOpOf (fld w 25 7) (fld w 12 3)) .reservedFunct fun f => .ok (.rv64iArith (.reg f rd rs rt))
  | 0x3B => needSome (regOp32Of (fld w 25 7) (fld w 12 3)) .reservedFunct fun f => .ok (.rv64iArith (.reg f rd rs rt))
  | 0x63 => needSome (brCondOf (fld w 12 3)) .reservedFunct fun c =>
      .ok (.branchJump (.br c rs rt
        (BitVec.ofNat 12 (fld w 8 4 + 16 * fld w 25 6 + 1024 * fld w 7 1 + 2048 * fld w 31 1))))
  | 0x6F => .ok (.branchJump (.jal rd
      (BitVec.ofNat 20 (fld w 21 10 + 1024 * fld w 20 1 + 2048 * fld w 12 8 + 524288 * fld w 31 1))))
  | 0x67 => need (fld w 12 3 == 0) .reservedFunct (.ok (.branchJump (.jalr rd rs (BitVec.ofNat 12 (fld w 20 12)))))
  | 0x03 => needSome (loadOpOf (fld w 12 3)) .reservedFunct fun f => .ok (.load f rd rs (BitVec.ofNat 12 (fld w 20 12)))
  | 0x23 => need (fld w 12 3 < 4) .reservedFunct
      (.ok (.store (Width.ofCode (fld w 12 3)) rt rs (BitVec.ofNat 12 (fld w 7 5 + 32 * fld w 25 7))))
  | 0x2F => decodeAmo w
  | 0x0F =>
      match fld w 12 3 with
      | 0 => .ok (.fence (BitVec.ofNat 4 (fld w 28 4)) (BitVec.ofNat 4 (fld w 24 4)) (BitVec.ofNat 4 (fld w 20 4)))
      | 1 => .ok .fenceI
      | _ => .error .reservedFunct
  | 0x73 => decodeSystem w
  | 0x0B => decodeCustom0 w
  | 0x2B => decodeCustom1 w
  | _ => .error .reservedOpcode

/-- The header of a long form (R64, R68). -/
def hdrOf (w : Nat) : Hdr := ⟨fld w 15 1 == 1, fld8 w 16, BitVec.ofNat 4 (fld w 10 4)⟩

/-- A field of kind m, p, k or s has zero upper bits (R66). -/
def hi0 (w lo : Nat) : Bool := fld w (lo + 3) 2 == 0

def z5 (w lo : Nat) : Bool := fld w lo 5 == 0

/-- Vector arithmetic of three registers (R71, R187). -/
def dV3 (w : Nat) (ok : ElemTy → Bool) (c : V3 → Instr) : Except DecodeError Instr :=
  needSome (ElemTy.ofCode (fld w 46 5)) .badType fun ty =>
  need (ok ty) .badType <| need (z5 w 41 && fld w 51 13 == 0) .unusedField <|
  .ok (c ⟨hdrOf w, ty, fldR w 26, fldR w 31, fldR w 36⟩)

/-- Vector forms of two registers. -/
def dV2 (w : Nat) (ok : ElemTy → Bool) (c : V2 → Instr) : Except DecodeError Instr :=
  needSome (ElemTy.ofCode (fld w 46 5)) .badType fun ty =>
  need (ok ty) .badType <| need (z5 w 41 && z5 w 36 && fld w 51 13 == 0) .unusedField <|
  .ok (c ⟨hdrOf w, ty, fldR w 26, fldR w 31⟩)

/-- Vector forms of four registers. -/
def dV4 (w : Nat) (c : V4 → Instr) : Except DecodeError Instr :=
  needSome (ElemTy.ofCode (fld w 46 5)) .badType fun ty =>
  need (ty.isInt || ty.isFloat) .badType <| need (fld w 51 13 == 0) .unusedField <|
  .ok (c ⟨hdrOf w, ty, fldR w 26, fldR w 31, fldR w 36, fldR w 41⟩)

/-- Destination, source and x register with f1 and f2 different (R188). -/
def dVX (w : Nat) (c : VX → Instr) : Except DecodeError Instr :=
  needSome (ElemTy.ofCode (fld w 46 5)) .badType fun ty =>
  need (z5 w 41 && fld w 51 13 == 0) .unusedField <| need (fldR w 26 != fldR w 31) .sameRegister <|
  .ok (c ⟨hdrOf w, ty, fldR w 26, fldR w 31, fldR w 36⟩)

def dP3 (w : Nat) (c : P3 → Instr) : Except DecodeError Instr :=
  need (fld w 46 5 == 0) .badType <|
  need (hi0 w 26 && hi0 w 31 && hi0 w 36 && z5 w 41 && fld w 51 13 == 0) .unusedField <|
  .ok (c ⟨hdrOf w, fld8 w 26, fld8 w 31, fld8 w 36⟩)

def isIntOrFloat (t : ElemTy) : Bool := t.isInt || t.isFloat
def anyTy (_ : ElemTy) : Bool := true

/-- Class 000, vector arithmetic (R71). -/
def decodeVec (w : Nat) : Except DecodeError Instr :=
  match fld w 19 7 with
  | 0x00 => dV3 w isIntOrFloat .vadd
  | 0x01 => dV3 w isIntOrFloat .vsub
  | 0x02 => dV3 w isIntOrFloat .vmul
  | 0x03 => dV3 w ElemTy.isInt .vmulh
  | 0x04 => dV3 w isIntOrFloat .vdiv
  | 0x05 => dV3 w isIntOrFloat .vmin
  | 0x06 => dV3 w isIntOrFloat .vmax
  | 0x07 => dV3 w ElemTy.isInt .vand
  | 0x08 => dV3 w ElemTy.isInt .vor
  | 0x09 => dV3 w ElemTy.isInt .vxor
  | 0x0A => dV3 w ElemTy.isInt .vsll
  | 0x0B => dV3 w ElemTy.isInt .vsrl
  | 0x0C => dV3 w ElemTy.isInt .vsra
  | 0x0D => dV2 w isIntOrFloat .vabs
  | 0x0E => dV2 w isIntOrFloat .vneg
  | 0x0F => dV2 w ElemTy.isFloat .vsqrt
  | 0x10 => dV2 w ElemTy.isFloat .vrece
  | 0x11 => dV2 w ElemTy.isFloat .vrsqe
  | 0x12 => dV4 w .vfma
  | 0x13 => dV4 w .vfms
  | 0x14 => dV4 w .vfnma
  | 0x15 => dV4 w .vfnms
  | 0x18 =>
      needSome (ElemTy.ofCode (fld w 46 5)) .badType fun ty =>
      need (isIntOrFloat ty) .badType <|
      need (hi0 w 26 && z5 w 41 && fld w 56 8 == 0) .unusedField <|
      needSome (VCond.ofCode (fld w 51 3)) .reservedCode fun c =>
      need (fld w 54 2 < 2) .reservedCode <|
      .ok (.vcmp (hdrOf w) ty c (fld w 54 2 == 1) (fld8 w 26) (fldR w 31) (fldR w 36))
  | 0x19 => dP3 w .pand
  | 0x1A => dP3 w .por
  | 0x1B => dP3 w .pxor
  | 0x1C =>
      need (fld w 46 5 == 0) .badType <|
      need (hi0 w 26 && hi0 w 31 && z5 w 36 && z5 w 41 && fld w 51 13 == 0) .unusedField <|
      .ok (.pnot (hdrOf w) (fld8 w 26) (fld8 w 31))
  | 0x1D =>
      need (fld w 46 5 == 0) .badType <|
      need (hi0 w 26 && z5 w 36 && z5 w 41 && fld w 52 12 == 0) .unusedField <|
      .ok (if fld w 51 1 = 1 then .psetPat (hdrOf w) (fld8 w 26) (fldR w 31) else .pset (hdrOf w) (fld8 w 26) (fldR w 31))
  | 0x20 =>
      needSome (ElemTy.ofCode (fld w 46 5)) .badType fun st =>
      needSome (ElemTy.ofCode (fld w 51 5)) .badType fun dt =>
      need (!st.isMx && !dt.isMx) .badType <|
      need (z5 w 36 && z5 w 41 && fld w 56 8 == 0) .unusedField <|
      need (fldR w 26 != fldR w 31 || dt == st) .sameRegister <|
      .ok (.vcvt ⟨hdrOf w, dt, st, fldR w 26, fldR w 31⟩)
  | 0x21 =>
      needSome (ElemTy.ofCode (fld w 46 5)) .badType fun st =>
      needSome (ElemTy.ofCode (fld w 51 5)) .badType fun dt =>
      need (st.isFloat && (dt.isMx || dt.isGf)) .badType <|
      need (z5 w 41 && fld w 56 8 == 0) .unusedField <|
      need (fldR w 26 != fldR w 31 && fldR w 26 != fldR w 36 && fldR w 31 != fldR w 36) .sameRegister <|
      .ok (.vmxpack ⟨hdrOf w, dt, st, fldR w 26, fldR w 31⟩ (fldR w 36))
  | 0x22 =>
      needSome (ElemTy.ofCode (fld w 46 5)) .badType fun st =>
      needSome (ElemTy.ofCode (fld w 51 5)) .badType fun dt =>
      need (dt.isFloat && (st.isMx || st.isGf)) .badType <|
      need (z5 w 41 && fld w 56 8 == 0) .unusedField <|
      need (fldR w 26 != fldR w 31 && fldR w 26 != fldR w 36 && fldR w 31 != fldR w 36) .sameRegister <|
      .ok (.vmxunpack ⟨hdrOf w, dt, st, fldR w 26, fldR w 31⟩ (fldR w 36))
  | 0x28 => dV2 w isIntOrFloat .vredsum
  | 0x29 => dV2 w isIntOrFloat .vredmax
  | 0x2A => dV2 w isIntOrFloat .vredmin
  | 0x2B => dV2 w ElemTy.isFloat .vredamax
  | 0x30 =>
      needSome (ElemTy.ofCode (fld w 46 5)) .badType fun ty =>
      need ty.isInt .badType <| need (z5 w 31) .unusedField <|
      .ok (.vidx (hdrOf w) ty (fldR w 26) (BitVec.ofNat 13 (fld w 51 13)) (BitVec.ofNat 10 (fld w 36 10)))
  | 0x31 => dV2 w anyTy fun o => .vbcast o.h o.ty o.vd o.vs
  | 0x32 =>
      needSome (ElemTy.ofCode (fld w 46 5)) .badType fun ty =>
      need (z5 w 41 && fld w 51 13 == 0) .unusedField <|
      .ok (.vmvx (hdrOf w) ty (fldR w 26) (fldR w 31) (fldR w 36))
  | 0x33 => dV2 w anyTy .vmv
  | 0x34 => dVX w .vreshape
  | 0x35 =>
      need (fldR w 26 != fldR w 31 && fldR w 26 != fldR w 36) .sameRegister <| dV3 w anyTy .vperm
  | 0x36 => dVX w .vslideup
  | 0x37 => dVX w .vslidedn
  | 0x38 =>
      need (fld w 46 5 == 0) .badType <|
      need (z5 w 26 && z5 w 31 && fld w 36 10 == 0 && fld w 15 4 == 0) .unusedField <|
      need (1 ≤ fld w 51 13 && fld w 51 13 ≤ 32) .operandRange <|
      .ok (.vrepBegin (BitVec.ofNat 4 (fld w 10 4)) (BitVec.ofNat 13 (fld w 51 13)))
  | 0x39 => need (fld w 26 38 == 0 && fld w 15 4 == 0) .unusedField (.ok (.vrepGo (BitVec.ofNat 4 (fld w 10 4))))
  | _ => .error .reservedOpcode

/-- Class 001, vector memory (R72, R212). -/
def decodeVMem (w : Nat) : Except DecodeError Instr :=
  needSome (ElemTy.ofCode (fld w 46 5)) .badType fun ty =>
  let o (st : Bool) : VMem := ⟨hdrOf w, ty, fld w 51 2 == (if st then 2 else 1), BitVec.ofNat 11 (fld w 53 11), fldR w 26, fldR w 31⟩
  let ordOk (st : Bool) : Bool := fld w 51 2 == 0 || fld w 51 2 == (if st then 2 else 1)
  match fld w 19 7 with
  | 0x00 => need (ordOk false) .reservedCode <| need (z5 w 41) .unusedField (.ok (.vld (o false) (fldR w 36)))
  | 0x01 => need (ordOk false) .reservedCode <| need (!ty.isNamed4) .badType (.ok (.vlds (o false) (fldR w 36) (fldR w 41)))
  | 0x02 => need (ordOk false) .reservedCode <| need (!ty.isNamed4) .badType <| need (z5 w 41) .unusedField <|
      need (fldR w 26 != fldR w 36) .sameRegister (.ok (.vldx (o false) (fldR w 36)))
  | 0x08 => need (ordOk true) .reservedCode <| need (z5 w 41) .unusedField (.ok (.vst (o true) (fldR w 36)))
  | 0x09 => need (ordOk true) .reservedCode <| need (!ty.isNamed4) .badType (.ok (.vsts (o true) (fldR w 36) (fldR w 41)))
  | 0x0A => need (ordOk true) .reservedCode <| need (!ty.isNamed4) .badType <| need (z5 w 41) .unusedField <|
      need (fldR w 26 != fldR w 36) .sameRegister (.ok (.vstx (o true) (fldR w 36)))
  | _ => .error .reservedOpcode

/-- With pe = 0 the column predicate field is zero (R68). -/
def colOk (w : Nat) : Bool := fld w 15 1 == 1 || fld w 60 3 == 0

/-- Class 010, matrix (R73, R224). -/
def decodeMat (w : Nat) : Except DecodeError Instr :=
  let h := hdrOf w
  let la := BitVec.ofNat 4 (fld w 10 4)
  let cp := fld8 w 60
  let a := BitVec.ofNat 4 (fld w 41 4)
  let q := BitVec.ofNat 2 (fld w 41 2)
  let pe0 := fld w 15 1 == 0
  match fld w 19 7 with
  | 0x00 => need (fld w 46 5 == 0) .badType <|
      need (hi0 w 26 && fld w 31 15 == 0 && fld w 51 9 == 0 && fld w 63 1 == 0 && colOk w) .unusedField <|
      .ok (.mzero h cp (fld8 w 26))
  | 0x01 => needSome (ElemTy.ofCode (fld w 46 5)) .badType fun ta =>
      needSome (ElemTy.ofCode (fld w 51 5)) .badType fun tb =>
      need (matPairOk ta tb) .badPair <|
      need (hi0 w 26 && fld w 63 1 == 0 && colOk w) .unusedField <| need (fld w 45 1 == 0) .operandRange <|
      need (!(ta.isMx && fldR w 31 == 31) && !(tb.isMx && fldR w 36 == 31)) .operandRange <|
      .ok (.mop h cp ta tb (fld8 w 26) (fldR w 31) a (fldR w 36) (BitVec.ofNat 4 (fld w 56 4)))
  | 0x02 => needSome (ElemTy.ofCode (fld w 46 5)) .badType fun ta =>
      needSome (ElemTy.ofCode (fld w 51 5)) .badType fun tb =>
      need (matPairOk ta tb) .badPair <|
      need (hi0 w 26 && fld w 63 1 == 0 && colOk w) .unusedField <| need (fld w 45 1 == 0) .operandRange <|
      need (!(ta.isMx && fldR w 31 == 31) && !(fld w 59 1 == 1 && ta == .f32) &&
        mopwRowsOk ta (fld w 59 1 == 1) (fld w 41 4) (fld w 56 3)) .operandRange <|
      .ok (.mopw h cp (fld w 59 1 == 1) (BitVec.ofNat 3 (fld w 56 3)) ta tb (fld8 w 26) (fldR w 31) a (fldR w 36))
  | 0x08 => need (fld w 46 5 == 0) .badType <| need pe0 .reservedPred <|
      need (z5 w 26 && fld w 51 13 == 0) .unusedField <|
      .ok (.wload la (fldR w 31) (fldR w 36) (fldR w 41))
  | 0x10 => needSome (ElemTy.ofCode (fld w 46 5)) .badType fun dt =>
      need dt.isDrainTy .badType <|
      need (hi0 w 31 && fld w 63 1 == 0 && fld w 52 8 == 0 && colOk w) .unusedField <| need (fld w 43 3 == 0) .operandRange <|
      .ok (.mdrain h cp (fld w 51 1 == 1) dt (fldR w 26) (fld8 w 31) (fldR w 36) q)
  | 0x11 => needSome (ElemTy.ofCode (fld w 46 5)) .badType fun st =>
      need st.isDrainTy .badType <|
      need (hi0 w 26 && fld w 63 1 == 0 && fld w 52 8 == 0 && colOk w) .unusedField <| need (fld w 43 3 == 0) .operandRange <|
      .ok (.mfill h cp (fld w 51 1 == 1) st (fld8 w 26) (fldR w 31) (fldR w 36) q)
  | 0x18 => need (fld w 46 5 == 0) .badType <| need pe0 .reservedPred <|
      need (hi0 w 26 && fld w 36 10 == 0 && fld w 53 11 == 0) .unusedField <|
      .ok (if fld w 51 1 = 1 then .msaveP la (fld w 52 1 == 1) (fld8 w 26) (fldR w 31)
           else .msave la (fld w 52 1 == 1) (fld8 w 26) (fldR w 31))
  | 0x19 => need (fld w 46 5 == 0) .badType <| need pe0 .reservedPred <|
      need (hi0 w 26 && fld w 36 10 == 0 && fld w 51 1 == 0 && fld w 53 11 == 0) .unusedField <|
      .ok (.mload la (fld w 52 1 == 1) (fld8 w 26) (fldR w 31))
  | _ => .error .reservedOpcode

/-- Class 011, messages and Gaussian belief propagation (R74, R244, R253, R260). -/
def decodeMsg (w : Nat) : Except DecodeError Instr :=
  let la := BitVec.ofNat 4 (fld w 10 4)
  let D1 := BitVec.ofNat 4 (fld w 60 4)
  let f4x := BitVec.ofNat 4 (fld w 41 4)
  let o : MsgOps := ⟨la, BitVec.ofNat 2 (fld w 60 2), BitVec.ofNat 5 (fld w 54 5), fld w 52 1 == 1,
    if fld w 51 1 = 1 then .rep else .req, fldR w 26, fldR w 31, fldR w 36⟩
  let msgFn0 := fld w 62 2 == 0 && fld w 59 1 == 0 && fld w 53 1 == 0
  let gbp (k : Except DecodeError Instr) : Except DecodeError Instr := need (fld w 46 5 == 8) .badType k
  need (fld w 15 1 == 0) .reservedPred <|
  match fld w 19 7 with
  | 0x00 => need (fld w 46 5 == 0) .badType <| need (msgFn0 && z5 w 41) .unusedField (.ok (.msend o))
  | 0x01 => need (fld w 46 5 == 0) .badType <| need msgFn0 .unusedField (.ok (.msendTry o (fldR w 41)))
  | 0x02 => need (fld w 26 38 == 0) .unusedField (.ok (.mdone la))
  | 0x03 => need (fld w 46 5 == 0) .badType <|
      need (z5 w 26 && fld w 36 10 == 0 && fld w 51 9 == 0 && fld w 62 2 == 0) .unusedField <|
      .ok (.hop la (BitVec.ofNat 2 (fld w 60 2)) (fldR w 31))
  | 0x10 => gbp <| need (z5 w 36 && fld w 51 5 == 0) .unusedField <|
      need (fld w 45 1 == 0 && fld w 41 4 + fld w 56 4 ≤ fld w 60 4) .operandRange <|
      .ok (.gbpAdd la D1 (BitVec.ofNat 4 (fld w 56 4)) f4x (fldR w 26) (fldR w 31))
  | 0x11 => gbp <| need (fld w 51 9 == 0) .unusedField <|
      need (fld w 45 1 == 0 && 1 ≤ fld w 41 4 && fld w 41 4 ≤ fld w 60 4) .operandRange <|
      .ok (.gbpElim la D1 f4x (fldR w 26) (fldR w 31) (fldR w 36))
  | 0x12 => gbp <| need (fld w 51 9 == 0) .unusedField <|
      .ok (.gbpDamp la D1 (fldR w 26) (fldR w 31) (fldR w 36) (fldR w 41))
  | 0x13 => gbp <| need (fld w 51 9 == 0 && z5 w 41) .unusedField <|
      .ok (.gbpResid la D1 (fldR w 26) (fldR w 31) (fldR w 36))
  | 0x14 => gbp <| need (fld w 51 9 == 0 && fld w 36 10 == 0) .unusedField <|
      .ok (.gbpPack la D1 (fldR w 26) (fldR w 31))
  | 0x15 => gbp <| need (fld w 51 9 == 0 && fld w 36 10 == 0) .unusedField <|
      .ok (.gbpUnpack la D1 (fldR w 26) (fldR w 31))
  | _ => .error .reservedOpcode

/-- Class 100, engine (R75, R110, R125). -/
def decodeEng (w : Nat) : Except DecodeError Instr :=
  let la := BitVec.ofNat 4 (fld w 10 4)
  let sd := fld8 w 51
  let o : EngOps := ⟨la, fld8 w 26, fldR w 31, fldR w 36, sd⟩
  let port := BitVec.ofNat 2 (fld w 54 2)
  let ty0 (k : Except DecodeError Instr) : Except DecodeError Instr := need (fld w 46 5 == 0) .badType k
  need (fld w 15 1 == 0) .reservedPred <|
  match fld w 19 7 with
  | 0x00 => ty0 <| need (hi0 w 26 && fld w 36 10 == 0 && fld w 51 13 == 0) .unusedField <|
      .ok (.tshape la (fld8 w 26) (fldR w 31))
  | 0x01 => ty0 <| need (hi0 w 26 && z5 w 41 && fld w 54 2 == 0 && fld w 57 7 == 0) .unusedField <|
      .ok (if fld w 56 1 = 1 then .tcpScat o else .tcp o)
  | 0x02 => ty0 <| need (hi0 w 26 && z5 w 41 && fld w 54 10 == 0) .unusedField (.ok (.tdeal o))
  | 0x08 => ty0 <| need (fld w 36 10 == 0 && fld w 57 7 == 0) .unusedField <|
      .ok (if fld w 56 1 = 1 then .sbindWr la port (fldR w 26) (fldR w 31) sd else .sbindRd la port (fldR w 26) (fldR w 31) sd)
  | 0x09 => ty0 <| need (fld w 26 20 == 0 && fld w 51 3 == 0 && fld w 56 8 == 0) .unusedField (.ok (.sunbind la port))
  | 0x10 => ty0 <| need (hi0 w 26 && fld w 54 10 == 0) .unusedField (.ok (.sgGather o (fldR w 41)))
  | 0x11 => needSome (ElemTy.ofCode (fld w 46 5)) .badType fun ty =>
      need ty.isRedTy .badType <| need (hi0 w 26 && z5 w 41 && fld w 57 7 == 0) .unusedField <|
      needSome (RedOp.ofCode (fld w 54 3)) .reservedCode fun op => .ok (.sgReduce o op ty)
  | 0x12 => needSome (ElemTy.ofCode (fld w 46 5)) .badType fun st =>
      needSome (ElemTy.ofCode (fld w 59 5)) .badType fun dt =>
      need (hi0 w 26 && z5 w 41 && fld w 54 5 == 0) .unusedField (.ok (.sgConv o dt st))
  | 0x18 => needSome (ElemTy.ofCode (fld w 46 5)) .badType fun ty =>
      need ty.isRedTy .badType <| need (hi0 w 26 && fld w 58 6 == 0) .unusedField <|
      needSome (RedOp.ofCode (fld w 54 3)) .reservedCode fun op => .ok (.collReduce o op (fld w 57 1 == 1) ty (fldR w 41))
  | 0x19 => ty0 <| need (hi0 w 26 && fld w 54 10 == 0) .unusedField (.ok (.collBcast o (fldR w 41)))
  | _ => .error .reservedOpcode

/-- Class 111, hints (R76, R328): payload bits a hint does not list are ignored. -/
def decodeHint (w : Nat) : Instr :=
  let la := BitVec.ofNat 4 (fld w 10 4)
  match fld w 19 7 with
  | 0 => .hnop la
  | 1 => .hpref la (BitVec.ofNat 3 (fld w 31 3)) (BitVec.ofNat 6 (fld w 34 6)) (fldR w 26)
  | 2 => .hmark la (BitVec.ofNat 38 (fld w 26 38))
  | op => .undefinedHint la (BitVec.ofNat 7 op) (BitVec.ofNat 38 (fld w 26 38))

/-- Every 64-bit long form (R64 to R76). -/
def decode64 (w : Nat) : Except DecodeError Instr :=
  need (fld w 14 1 == 0) .bit14 <|
  if fld w 7 3 = 7 then .ok (decodeHint w)
  else need (fld w 15 1 == 1 || fld w 16 3 == 0) .reservedPred <|
    match fld w 7 3 with
    | 0 => decodeVec w
    | 1 => decodeVMem w
    | 2 => decodeMat w
    | 3 => decodeMsg w
    | 4 => decodeEng w
    | _ => .error .reservedClass

/-- Length in bytes from the low bits of the first 32-bit word (R56): 4 or 8, or the error of the other lengths. -/
def lengthOf (w : Nat) : Except DecodeError Nat :=
  if fld w 0 2 ≠ 3 then .error .length16
  else if fld w 2 3 ≠ 7 then .ok 4
  else if fld w 0 6 = 0x1F then .error .length48
  else if fld w 0 7 = 0x3F then .ok 8
  else .error .length80

/-- The little-endian number of a list of bytes (R4). -/
def leNat : List Byte → Nat
  | [] => 0
  | b :: bs => b.toNat + 256 * leNat bs

/-- The n low bytes of a number, little-endian (R4). -/
def leBytes : Nat → Nat → List Byte
  | 0, _ => []
  | n + 1, w => BitVec.ofNat 8 w :: leBytes n (w / 256)

/-- Decode the instruction at the head of a byte list and give the bytes after it. -/
def decodeBytes (bs : List Byte) : Except DecodeError (Instr × List Byte) :=
  if bs.length < 4 then .error .truncated
  else
    match lengthOf (leNat (bs.take 4)) with
    | .error e => .error e
    | .ok 4 =>
      match decode32 (leNat (bs.take 4)) with
      | .ok i => .ok (i, bs.drop 4)
      | .error e => .error e
    | .ok _ =>
      if bs.length < 8 then .error .truncated
      else
        match decode64 (leNat (bs.take 8)) with
        | .ok i => .ok (i, bs.drop 8)
        | .error e => .error e

/-- The instruction whose bits are w, w numbered as the opcode table numbers them, nbits of them given and those above
zero: laid out as stored, little-endian, and given to the decoder. -/
def decodeTableWord (_nbits w : Nat) : Option Instr :=
  match decodeBytes (leBytes 8 w) with
  | .ok (i, _) => some i
  | .error _ => none

/-! ### The encoder -/

def RegOp.enc : RegOp → Nat × Nat × Nat
  | .add => (0x33, 0, 0) | .sub => (0x33, 32, 0) | .sll => (0x33, 0, 1) | .slt => (0x33, 0, 2) | .sltu => (0x33, 0, 3)
  | .xor => (0x33, 0, 4) | .srl => (0x33, 0, 5) | .sra => (0x33, 32, 5) | .or => (0x33, 0, 6) | .and => (0x33, 0, 7)
  | .addw => (0x3B, 0, 0) | .subw => (0x3B, 32, 0) | .sllw => (0x3B, 0, 1) | .srlw => (0x3B, 0, 5) | .sraw => (0x3B, 32, 5)
  | .mul => (0x33, 1, 0) | .mulh => (0x33, 1, 1) | .mulhsu => (0x33, 1, 2) | .mulhu => (0x33, 1, 3)
  | .div => (0x33, 1, 4) | .divu => (0x33, 1, 5) | .rem => (0x33, 1, 6) | .remu => (0x33, 1, 7)
  | .mulw => (0x3B, 1, 0) | .divw => (0x3B, 1, 4) | .divuw => (0x3B, 1, 5) | .remw => (0x3B, 1, 6) | .remuw => (0x3B, 1, 7)
  | .addUw => (0x3B, 4, 0) | .sh1add => (0x33, 16, 2) | .sh2add => (0x33, 16, 4) | .sh3add => (0x33, 16, 6)
  | .sh1addUw => (0x3B, 16, 2) | .sh2addUw => (0x3B, 16, 4) | .sh3addUw => (0x3B, 16, 6)

def ImmOp.enc : ImmOp → Nat × Nat
  | .addi => (0x13, 0) | .slti => (0x13, 2) | .sltiu => (0x13, 3) | .xori => (0x13, 4) | .ori => (0x13, 6)
  | .andi => (0x13, 7) | .addiw => (0x1B, 0)

/-- Opcode, upper six bits and funct3 of an immediate shift. -/
def ShiftOp.enc : ShiftOp → Nat × Nat × Nat
  | .slli => (0x13, 0, 1) | .srli => (0x13, 0, 5) | .srai => (0x13, 16, 5)
  | .slliw => (0x1B, 0, 1) | .srliw => (0x1B, 0, 5) | .sraiw => (0x1B, 16, 5) | .slliUw => (0x1B, 2, 1)

def BrCond.enc : BrCond → Nat
  | .eq => 0 | .ne => 1 | .lt => 4 | .ge => 5 | .ltu => 6 | .geu => 7

def LoadOp.enc : LoadOp → Nat
  | .lb => 0 | .lh => 1 | .lw => 2 | .ld => 3 | .lbu => 4 | .lhu => 5 | .lwu => 6

def AmoOp.enc : AmoOp → Nat
  | .add => 0 | .swap => 1 | .xor => 4 | .or => 8 | .and => 12 | .min => 16 | .max => 20 | .minu => 24 | .maxu => 28

def boolNat (b : Bool) : Nat := if b then 1 else 0

/-- R-type word: opcode, rd, funct3, rs1, rs2, funct7 (R61). -/
def encR (op rd f3 rs rt f7 : Nat) : Nat := op + 128 * rd + 4096 * f3 + 32768 * rs + 1048576 * rt + 33554432 * f7

/-- I-type word: opcode, rd, funct3, rs1, imm12 (R61). -/
def encI (op rd f3 rs imm : Nat) : Nat := op + 128 * rd + 4096 * f3 + 32768 * rs + 1048576 * imm

def encArith : Arith → Nat
  | .imm f rd rs i => encI f.enc.1 rd.val f.enc.2 rs.val i.toNat
  | .shift f rd rs sh => encI f.enc.1 rd.val f.enc.2.2 rs.val (sh.toNat + 64 * f.enc.2.1)
  | .reg f rd rs rt => encR f.enc.1 rd.val f.enc.2.2 rs.val rt.val f.enc.2.1
  | .lui rd i => 0x37 + 128 * rd.val + 4096 * i.toNat
  | .auipc rd i => 0x17 + 128 * rd.val + 4096 * i.toNat

def encJump : Jump → Nat
  | .br c rs rt off =>
      let o := off.toNat
      0x63 + 128 * (o / 1024 % 2) + 256 * (o % 16) + 4096 * c.enc + 32768 * rs.val + 1048576 * rt.val
        + 33554432 * (o / 16 % 64) + 2147483648 * (o / 2048)
  | .jal rd off =>
      let o := off.toNat
      0x6F + 128 * rd.val + 4096 * (o / 2048 % 256) + 1048576 * (o / 1024 % 2) + 2097152 * (o % 1024) + 2147483648 * (o / 524288)
  | .jalr rd rs off => encI 0x67 rd.val 0 rs.val off.toNat

def encCsr (op : CsrOp) (src : CsrSrc) (rd csr : Nat) : Nat :=
  match src with
  | .reg r => encI 0x73 rd op.code r.val csr
  | .imm i => encI 0x73 rd (op.code + 4) i.toNat csr

def AmoHdr.enc (h : AmoHdr) (f5 rd rs rt : Nat) : Nat :=
  encR 0x2F rd (if h.dbl then 3 else 2) rs rt (4 * f5 + 2 * boolNat h.aq + boolNat h.rl)

/-- Header of a long form: class, opcode, la, pe and pred (R64). -/
def encHdr (cls opc : Nat) (h : Hdr) : Nat :=
  0x3F + 128 * cls + 1024 * h.la.toNat + 32768 * boolNat h.pe + 65536 * h.pred.val + 524288 * opc

/-- Header with pe = 0. -/
def encHdr0 (cls opc : Nat) (la : BitVec 4) : Nat := encHdr cls opc ⟨false, 0, la⟩

/-- The register fields, ty and fn of sub-format L3 (R65). -/
def encL3 (f1 f2 f3 f4 ty fn : Nat) : Nat :=
  2 ^ 26 * f1 + 2 ^ 31 * f2 + 2 ^ 36 * f3 + 2 ^ 41 * f4 + 2 ^ 46 * ty + 2 ^ 51 * fn

def V3.enc (o : V3) (opc : Nat) : Nat := encHdr 0 opc o.h + encL3 o.vd.val o.vs1.val o.vs2.val 0 o.ty.code 0
def V2.enc (o : V2) (opc : Nat) : Nat := encHdr 0 opc o.h + encL3 o.vd.val o.vs.val 0 0 o.ty.code 0
def V4.enc (o : V4) (opc : Nat) : Nat := encHdr 0 opc o.h + encL3 o.vd.val o.vs1.val o.vs2.val o.vs3.val o.ty.code 0
def VX.enc (o : VX) (opc : Nat) : Nat := encHdr 0 opc o.h + encL3 o.vd.val o.vs.val o.xr.val 0 o.ty.code 0
def P3.enc (o : P3) (opc : Nat) : Nat := encHdr 0 opc o.h + encL3 o.pd.val o.ps1.val o.ps2.val 0 0 0

/-- Sub-format LM (R65, R72). -/
def VMem.enc (o : VMem) (opc ord f3 f4 : Nat) : Nat :=
  encHdr 1 opc o.h + encL3 o.v.val o.xb.val f3 f4 o.ty.code ((if o.ordered then ord else 0) + 4 * o.off.toNat)

def MsgOps.fn (o : MsgOps) : Nat :=
  (match o.net with | .req => 0 | .rep => 1) + 2 * boolNat o.rel + 8 * o.len.toNat + 512 * o.cls.toNat

def EngOps.enc (o : EngOps) (opc f4 ty fnHi : Nat) : Nat :=
  encHdr0 4 opc o.la + encL3 o.k.val o.xd.val o.xs.val f4 ty (o.sd.val + 8 * fnHi)

/-- A long form's length and word. -/
def long (w : Nat) : Option (Nat × Nat) := some (8, w)

/-- A 32-bit form's length and word. -/
def short (w : Nat) : Option (Nat × Nat) := some (4, w)

/-- Length in bytes and word of an instruction; none for event rows, which have no encoding. Fields a decoder ignores
(the unused fields of FENCE, FENCE.I and of hints) are encoded as zero. -/
def encodeWord : Instr → Option (Nat × Nat)
  | .claim rs => short (encR 0x0B 0 0 rs.val 0 0)
  | .acq rs => short (encR 0x0B 0 0 rs.val 0 1)
  | .acqTry rd rs => short (encR 0x0B rd.val 0 rs.val 0 2)
  | .rel rs => short (encR 0x0B 0 0 rs.val 0 3)
  | .syncAcq sp sc => short (encI 0x0B 0 1 0 (sc.code + 8 * sp.code + 32))
  | .syncRel sp sc => short (encI 0x0B 0 1 0 (sc.code + 8 * sp.code + 64))
  | .syncAr sp sc => short (encI 0x0B 0 1 0 (sc.code + 8 * sp.code + 96))
  | .lda wd sc sp rd rs => short (encR 0x0B rd.val 2 rs.val 0 (sp.code + 4 * sc.code + 32 * wd.code))
  | .stl wd sc sp rt rs => short (encR 0x0B 0 3 rs.val rt.val (sp.code + 4 * sc.code + 32 * wd.code))
  | .kwait m => short (encI 0x0B 0 4 0 m.toNat)
  | .kpoll rd m => short (encI 0x0B rd.val 4 0 (256 + m.toNat))
  | .gbar g => short (encI 0x0B 0 5 0 g.toNat)
  | .garrive rd g => short (encI 0x0B rd.val 5 0 (256 + g.toNat))
  | .gwait rs g => short (encI 0x0B 0 5 rs.val (512 + g.toNat))
  | .vshape ty rd rr rc => short (encR 0x0B rd.val 6 rr.val rc.val (4 * ty.code))
  | .flLaunch rd rs => short (encR 0x2B rd.val 0 rs.val 0 0)
  | .flHint => short (encR 0x2B 0 0 0 0 1)
  | .waitpred => short (encR 0x2B 0 0 0 0 2)
  | .treadEnd => short (encR 0x2B 0 0 0 0 3)
  | .ckpt rs => short (encR 0x2B 0 0 rs.val 0 4)
  | .tret => short (encR 0x2B 0 1 0 0 0)
  | .ctxSave xc xa => short (encR 0x2B 0 1 xc.val xa.val 1)
  | .ctxLoad xc xa => short (encR 0x2B 0 1 xc.val xa.val 2)
  | .tlbInv xv xc => short (encR 0x2B 0 1 xv.val xc.val 3)
  | .traceCtl xc => short (encR 0x2B 0 1 xc.val 0 4)
  | .rv64iArith a => short (encArith a)
  | .branchJump j => short (encJump j)
  | .load f rd rs off => short (encI 0x03 rd.val f.enc rs.val off.toNat)
  | .store wd rt rs off => short (encR 0x23 (off.toNat % 32) wd.code rs.val rt.val (off.toNat / 32))
  | .lr h rd rs => short (h.enc 2 rd.val rs.val 0)
  | .sc h rd rs rt => short (h.enc 3 rd.val rs.val rt.val)
  | .amo op h rd rs rt => short (h.enc op.enc rd.val rs.val rt.val)
  | .fence fm p s => short (encI 0x0F 0 0 0 (s.toNat + 16 * p.toNat + 256 * fm.toNat))
  | .fenceI => short 0x100F
  | .sfenceVma rs rt => short (encR 0x73 0 0 rs.val rt.val 9)
  | .mret => short 0x30200073
  | .wfi => short 0x10500073
  | .ecall => short 0x73
  | .ebreak => short 0x100073
  | .sret => short 0x10200073
  | .csrAccess op src rd csr => short (encCsr op src rd.val csr.toNat)
  | .shapeWrite op src rd => short (encCsr op src rd.val 0x800)
  | .srptrWrite op src rd => short (encCsr op src rd.val 0x808)
  | .srbaseWrite op src rd => short (encCsr op src rd.val 0x5C1)
  | .spmcWrite n op src rd => short (encCsr op src rd.val (0x5D8 + n.val))
  | .vadd o => long (o.enc 0x00)
  | .vsub o => long (o.enc 0x01)
  | .vmul o => long (o.enc 0x02)
  | .vmulh o => long (o.enc 0x03)
  | .vdiv o => long (o.enc 0x04)
  | .vmin o => long (o.enc 0x05)
  | .vmax o => long (o.enc 0x06)
  | .vand o => long (o.enc 0x07)
  | .vor o => long (o.enc 0x08)
  | .vxor o => long (o.enc 0x09)
  | .vsll o => long (o.enc 0x0A)
  | .vsrl o => long (o.enc 0x0B)
  | .vsra o => long (o.enc 0x0C)
  | .vabs o => long (o.enc 0x0D)
  | .vneg o => long (o.enc 0x0E)
  | .vsqrt o => long (o.enc 0x0F)
  | .vrece o => long (o.enc 0x10)
  | .vrsqe o => long (o.enc 0x11)
  | .vfma o => long (o.enc 0x12)
  | .vfms o => long (o.enc 0x13)
  | .vfnma o => long (o.enc 0x14)
  | .vfnms o => long (o.enc 0x15)
  | .vcmp h ty c all pd a b =>
      long (encHdr 0 0x18 h + encL3 pd.val a.val b.val 0 ty.code (c.code + 8 * boolNat all))
  | .pand o => long (o.enc 0x19)
  | .por o => long (o.enc 0x1A)
  | .pxor o => long (o.enc 0x1B)
  | .pnot h pd ps => long (encHdr 0 0x1C h + encL3 pd.val ps.val 0 0 0 0)
  | .pset h pd xs => long (encHdr 0 0x1D h + encL3 pd.val xs.val 0 0 0 0)
  | .psetPat h pd xs => long (encHdr 0 0x1D h + encL3 pd.val xs.val 0 0 0 1)
  | .vcvt o => long (encHdr 0 0x20 o.h + encL3 o.vd.val o.vs.val 0 0 o.st.code o.dt.code)
  | .vmxpack o sc => long (encHdr 0 0x21 o.h + encL3 o.vd.val o.vs.val sc.val 0 o.st.code o.dt.code)
  | .vmxunpack o sc => long (encHdr 0 0x22 o.h + encL3 o.vd.val o.vs.val sc.val 0 o.st.code o.dt.code)
  | .vredsum o => long (o.enc 0x28)
  | .vredmax o => long (o.enc 0x29)
  | .vredmin o => long (o.enc 0x2A)
  | .vredamax o => long (o.enc 0x2B)
  | .vidx h ty vd st sp =>
      long (encHdr 0 0x30 h + encL3 vd.val 0 (sp.toNat % 32) (sp.toNat / 32) ty.code st.toNat)
  | .vbcast h ty vd xs => long (encHdr 0 0x31 h + encL3 vd.val xs.val 0 0 ty.code 0)
  | .vmvx h ty xd vs xi => long (encHdr 0 0x32 h + encL3 xd.val vs.val xi.val 0 ty.code 0)
  | .vmv o => long (o.enc 0x33)
  | .vreshape o => long (o.enc 0x34)
  | .vperm o => long (o.enc 0x35)
  | .vslideup o => long (o.enc 0x36)
  | .vslidedn o => long (o.enc 0x37)
  | .vrepBegin la n => long (encHdr0 0 0x38 la + encL3 0 0 0 0 0 n.toNat)
  | .vrepGo la => long (encHdr0 0 0x39 la)
  | .vld o xp => long (o.enc 0x00 1 xp.val 0)
  | .vlds o xp xe => long (o.enc 0x01 1 xp.val xe.val)
  | .vldx o vi => long (o.enc 0x02 1 vi.val 0)
  | .vst o xp => long (o.enc 0x08 2 xp.val 0)
  | .vsts o xp xe => long (o.enc 0x09 2 xp.val xe.val)
  | .vstx o vi => long (o.enc 0x0A 2 vi.val 0)
  | .mzero h cp md => long (encHdr 2 0x00 h + encL3 md.val 0 0 0 0 (512 * cp.val))
  | .mop h cp ta tb md va a vb b =>
      long (encHdr 2 0x01 h + encL3 md.val va.val vb.val a.toNat ta.code (tb.code + 32 * b.toNat + 512 * cp.val))
  | .mopw h cp sp n1 ta tb md va a xo =>
      long (encHdr 2 0x02 h + encL3 md.val va.val xo.val a.toNat ta.code (tb.code + 32 * n1.toNat + 256 * boolNat sp + 512 * cp.val))
  | .wload la xo xs xn => long (encHdr0 2 0x08 la + encL3 0 xo.val xs.val xn.val 0 0)
  | .mdrain h cp int dt vd ms xc q =>
      long (encHdr 2 0x10 h + encL3 vd.val ms.val xc.val q.toNat dt.code (boolNat int + 512 * cp.val))
  | .mfill h cp int st md vs xc q =>
      long (encHdr 2 0x11 h + encL3 md.val vs.val xc.val q.toNat st.code (boolNat int + 512 * cp.val))
  | .msave la mem ms xa => long (encHdr0 2 0x18 la + encL3 ms.val xa.val 0 0 0 (2 * boolNat mem))
  | .msaveP la mem n xa => long (encHdr0 2 0x18 la + encL3 n.val xa.val 0 0 0 (1 + 2 * boolNat mem))
  | .mload la mem md xa => long (encHdr0 2 0x19 la + encL3 md.val xa.val 0 0 0 (2 * boolNat mem))
  | .msend o => long (encHdr0 3 0x00 o.la + encL3 o.vs.val o.xs.val o.xh.val 0 0 o.fn)
  | .msendTry o xt => long (encHdr0 3 0x01 o.la + encL3 o.vs.val o.xs.val o.xh.val xt.val 0 o.fn)
  | .mdone la => long (encHdr0 3 0x02 la)
  | .hop la c xa => long (encHdr0 3 0x03 la + encL3 0 xa.val 0 0 0 (512 * c.toNat))
  | .gbpAdd la D1 d1 off vd vs => long (encHdr0 3 0x10 la + encL3 vd.val vs.val 0 off.toNat 8 (32 * d1.toNat + 512 * D1.toNat))
  | .gbpElim la D1 k vd vs xt => long (encHdr0 3 0x11 la + encL3 vd.val vs.val xt.val k.toNat 8 (512 * D1.toNat))
  | .gbpDamp la D1 vd vo vn xb => long (encHdr0 3 0x12 la + encL3 vd.val vo.val vn.val xb.val 8 (512 * D1.toNat))
  | .gbpResid la D1 xd va vb => long (encHdr0 3 0x13 la + encL3 xd.val va.val vb.val 0 8 (512 * D1.toNat))
  | .gbpPack la D1 vd vs => long (encHdr0 3 0x14 la + encL3 vd.val vs.val 0 0 8 (512 * D1.toNat))
  | .gbpUnpack la D1 vd vs => long (encHdr0 3 0x15 la + encL3 vd.val vs.val 0 0 8 (512 * D1.toNat))
  | .tshape la sd xs => long (encHdr0 4 0x00 la + encL3 sd.val xs.val 0 0 0 0)
  | .tcp o => long (o.enc 0x01 0 0 0)
  | .tcpScat o => long (o.enc 0x01 0 0 4)
  | .tdeal o => long (o.enc 0x02 0 0 0)
  | .sbindRd la port v xs sd => long (encHdr0 4 0x08 la + encL3 v.val xs.val 0 0 0 (sd.val + 8 * port.toNat))
  | .sbindWr la port v xs sd => long (encHdr0 4 0x08 la + encL3 v.val xs.val 0 0 0 (sd.val + 8 * port.toNat + 32))
  | .sunbind la port => long (encHdr0 4 0x09 la + encL3 0 0 0 0 0 (8 * port.toNat))
  | .sgGather o xi => long (o.enc 0x10 xi.val 0 0)
  | .sgReduce o op ty => long (o.enc 0x11 0 ty.code op.code)
  | .sgConv o dt st => long (o.enc 0x12 0 st.code (32 * dt.code))
  | .collReduce o op acc ty xm => long (o.enc 0x18 xm.val ty.code (op.code + 8 * boolNat acc))
  | .collBcast o xm => long (o.enc 0x19 xm.val 0 0)
  | .hnop la => long (encHdr0 7 0 la)
  | .hpref la lvl n1 xs => long (encHdr0 7 1 la + 2 ^ 26 * xs.val + 2 ^ 31 * lvl.toNat + 2 ^ 34 * n1.toNat)
  | .hmark la v => long (encHdr0 7 2 la + 2 ^ 26 * v.toNat)
  | .undefinedHint la op p => long (encHdr0 7 op.toNat la + 2 ^ 26 * p.toNat)
  | _ => none

/-- The bytes of an instruction as they are stored, lowest address first. -/
def encode (i : Instr) : Option (List Byte) := (encodeWord i).map fun p => leBytes p.1 p.2

/-- The 64-bit value `stval` takes for an illegal-instruction trap of this instruction (R58). -/
def Instr.bits (i : Instr) : Word := BitVec.ofNat 64 ((encodeWord i).elim 0 Prod.snd)

/-- Long forms outside class 111: those that enter the vector queue (R69, R76). -/
def Instr.isQueued (i : Instr) : Bool :=
  match encodeWord i with
  | some (8, w) => fld w 7 3 != 7
  | _ => false

end Sys2Proof
end

