-- ==== Sys2Proof/Config.lean ====
section
/-! DEFINITION. What the implementation fixes, and the free values: values the spec leaves open, which no
proof can evaluate (log 9). -/
namespace Sys2Proof.Config

/-- Free values, one for each count of the State field `freeCtr` (log 9). -/
opaque freeNat : Nat → Nat

/-- Bit d: compute die d is present, from fuses (R352, R8). `State.reset` takes them into `regs.present`. -/
opaque presentFuses : Nat

/-- Lifecycle state from fuses, 0 TEST to 3 DEAD (R392, R393). -/
opaque lifecycleFuses : Nat

/-- The 128-bit device identifier from fuses (R392). -/
opaque devId : Nat

/-- SHA-512 hash of the debug unlock key, from fuses (R396). -/
opaque unlockKeyHash : Nat

/-- The device's key-agreement private key, derived from a fuse secret no agent can read (R394, R395). -/
opaque keyAgreementSecret : Nat

/-- The device's report-signing private key, derived likewise (R394). -/
opaque signingSecret : Nat

/-- SHA-512 hash of the public key that firmware images are verified against, from fuses (R391). -/
opaque bootKeyHash : Nat

/-- The firmware images, as bytes: 0 the management core's, 1 the hub dies', 2 the stack bases', 3 the landings' and cores'
(R391). -/
opaque bootImage : Nat → List Nat

/-- The public key and the signature that come with each image, as bytes (R391). -/
opaque bootImageKey : Nat → List Nat
opaque bootImageSig : Nat → List Nat

end Sys2Proof.Config
end

