-- ==== Sys2Proof/Machine/State.lean ====
section
/-! DEFINITION. The state of the package as plain data: strands (R164, R271), cores, compute dies, flights and their
landings (R286 to R305), host queues (R355), partitions (R361), device registers, memory, and the model's own schedule
(log 3). `Fault`, `Refusal`, `State` and `State.reset`. -/
namespace Sys2Proof.Machine

/-- A sparse table keyed by numbers: keys strictly rising, no entry equal to what an unlisted key reads as (log 6). -/
abbrev Tbl (β : Type) := List (Nat × β)

/-- Privilege modes (R59); M only on the management core. -/
inductive Mode where
  | u | s | m
  deriving DecidableEq, Repr

/-- Kinds of strand (R272); a handler keeps its network of origin (R243). -/
inductive Kind where
  | none | tread | reqHandler | repHandler
  deriving DecidableEq, Repr

/-- States of a strand (R271). -/
inductive Status where
  | free | dormant | running | asleep | saved
  deriving DecidableEq, Repr

/-- Accesses as the translation procedure names them (R99). -/
inductive Acc where
  | read | write | exec
  deriving DecidableEq, Repr

/-- A vector over the pools of a core: blocks, tiles, pages (R273). -/
structure Hold where
  blocks : Nat
  tiles  : Nat
  pages  : Nat
  deriving DecidableEq, Repr

/-- A token: pending count, below 2^48, and error flag (R123). -/
structure Token where
  count : Nat
  err   : Bool
  deriving DecidableEq, Repr

/-- A shape record: validity and the 48-byte parameter block, little-endian (R125, R126). -/
structure ShapeRec where
  valid : Bool
  block : BitVec 384
  deriving DecidableEq, Repr

/-- An entry of a vector queue: encoding, address, and the captured x values of fields f1 to f4 (R175, R340), with the
mode and the SUM and MXR bits read at issue (R99). -/
structure Entry where
  enc  : Word
  addr : Word
  x1   : Word
  x2   : Word
  x3   : Word
  x4   : Word
  mode : Mode
  sum  : Bool
  mxr  : Bool
  deriving DecidableEq, Repr

/-- A translation pinned by an instruction in progress (R101). -/
structure Pin where
  va   : Nat
  pa   : Nat
  size : Nat
  enc  : Bool
  asid : Nat
  glob : Bool
  deriving DecidableEq, Repr

/-- The trap frame (R322, R332): queue entries and replay-body entries in program order, and the `vsi` and `msi` that were recorded
with them. -/
structure Frame where
  occ     : Bool
  entries : List Entry
  vsi     : Word
  msi     : Word
  deriving DecidableEq, Repr

/-- The replay buffer and `vrepst` (R210): captured encodings, body length, capture and validity. -/
structure Replay where
  encs  : List Word
  len   : Nat
  cap   : Bool
  valid : Bool
  deriving DecidableEq, Repr

/-- A member's arrival bit and ticket in a group (R310). -/
structure GroupBit where
  g  : Nat
  pv : Bool
  pt : Nat
  deriving DecidableEq, Repr

/-- What a strand waits in at its scalar front; `none` when it issues. `ending` is a `tread.end` past its departure that waits
as `rel` does (R319, R122). `again` is a wait in the instruction of that encoding through which a stop is deferred (R316, R326). -/
inductive Wait where
  | none
  | kwait (mask : BitVec 8)
  | gbar (g : Nat) (t : Nat)
  | gwait (g : Nat) (t : Nat)
  | waitpred
  | acq (q : Hold)
  | rel (q : Hold)
  | ending
  | again (enc : Word)
  deriving DecidableEq, Repr

/-- Places an instruction reads or writes (R77; log 13): registers by number, `ve` elements of row i of a vector register as a mask
of the row's bits, `fld` a field of a CSR. -/
inductive Loc where
  | x (r : Nat) | v (r : Nat) | p (r : Nat) | m (r : Nat) | k (r : Nat) | sd (r : Nat) | fd (r : Nat) | csr (n : Nat)
  | ve (r i m : Nat)
  | fld (n f : Nat)
  deriving DecidableEq, Repr

/-- A lookahead promise in force (R77): instructions still covered, and what its instruction reads and writes. -/
structure Promise where
  left   : Nat
  reads  : List Loc
  writes : List Loc
  deriving DecidableEq, Repr

/-- A cancelled copy (R144, R336). -/
structure SavedCopy where
  block : BitVec 384
  dst   : Word
  src   : Word
  k     : Reg8
  scat  : Bool
  count : Nat
  deriving DecidableEq, Repr

/-- A stream port's binding as a save record keeps it (R143, R336). -/
structure SavedPort where
  port : Nat
  wr   : Bool
  v    : VReg
  block : BitVec 384
  base : Word
  pos  : Nat
  deriving DecidableEq, Repr

/-- Where the register and page parts of a save record lie (R323, R335); `slot` is the partition and save-pool slot
of a landing's pre-emption. -/
structure SaveAt where
  loft : Option Nat
  reg  : Nat
  page : Nat
  slot : Option (Nat × Nat)
  deriving DecidableEq, Repr

/-- Supervisor CSRs of a strand (R307) and the CSRs of spec/07, spec/17. -/
structure Csrs where
  shape      : Word
  fx         : Word
  fd         : Vector Word 4
  vsi        : Word
  msi        : Word
  lamiss     : Word
  srbase     : Word
  srptr      : Word
  vmroot     : Word
  svcp       : Word
  sstatus    : Word
  stvec      : Word
  sscratch   : Word
  sepc       : Word
  scause     : Word
  stval      : Word
  sie        : Word
  ssip       : Bool
  seip       : Bool
  scounteren : Word
  instret    : Word
  pmsel      : Vector Word 8
  pmc        : Vector Word 8
  pmovf      : Word
  dbgctl     : Word
  dbaddr     : Vector Word 4
  dbdata     : Vector Word 2
  deriving DecidableEq, Repr

/-- One strand (R164, R271). `landed` lists, by token, the global destination bytes (address, length) counted on it since it was
last waited for (R133). `settle` says that pending copies and bindings are to be made again before the next instruction (R342).
`heldFor` counts the vector-side instructions that must complete before a scalar access held for its overlap is performed
(R176). `left` is the wait that a trap abandoned, with the pc of its instruction, while the landing's request for its
pre-emption stood (R311, R334). `srAcc` is what of the open strip record's span lay before `srCycle`: cycles in which a context
that has left was resident (R182). -/
structure Strand where
  status    : Status
  kind      : Kind
  flight    : Option Nat
  handlerOf : Option Nat
  tread     : Nat
  mode      : Mode
  pc        : Word
  x         : Vector Word 32
  p         : Vector (BitVec 1024) 8
  k         : Vector Token 8
  sd        : Vector ShapeRec 8
  csr       : Csrs
  gw        : Nat
  claim     : Hold
  blocks    : List Nat
  tiles     : List Nat
  pages     : List Nat
  resv      : Option Nat
  queue     : List Entry
  body      : List Entry
  replay    : Replay
  frame     : Frame
  wait      : Wait
  waitSince : Nat
  promises  : List Promise
  pins      : List Pin
  srSeq     : Nat
  srCycle   : Nat
  srAcc     : Nat
  groups    : List GroupBit
  ckptStep  : Nat
  written   : List Nat
  tagCount  : Nat
  savedTag  : Nat
  saveAt    : Option SaveAt
  preempt   : Bool
  copies    : List SavedCopy
  ports     : List SavedPort
  bindDone  : Bool
  sends     : Nat
  rlCount   : Nat
  haltReq   : Bool
  landed    : List (Nat × Nat × Nat)
  settle    : Bool
  heldFor   : Nat
  left      : Option (Wait × Word)
  deriving DecidableEq, Repr

/-- Where the register part of a record lies: at an offset of a core's loft, or at an address of local HBM (R323). -/
inductive RegPlace where
  | loft (core off : Nat)
  | hbm (addr : Nat)
  deriving DecidableEq, Repr

/-- A vector register block: 16 rows of 512 bytes as one word whose bit 0 is bit 0 of row 0 (R164), its dirty bit and
written extent (R171), the extent its last save recorded, and the record that holds the copy of that save (R172). -/
structure Block where
  data   : BitVec 65536
  dirty  : Bool
  rows   : Nat
  bytes  : Nat
  srows  : Nat
  sbytes : Nat
  home   : Option RegPlace
  deriving DecidableEq, Repr

/-- States of a physical tile (R234). `tag` is the owner's context tag and `ord` its place in the order of
pre-emption. -/
inductive TileSt where
  | free
  | held
  | lazy (tag : Nat) (ord : Nat)
  | bound (tag : Nat) (ord : Nat)
  deriving DecidableEq, Repr

/-- A physical tile: 64 by 64 elements of 32 bits, element (i, j) at bit 32 (64 i + j), and its 32 KiB window (R217,
R218). -/
structure Tile where
  data   : BitVec 131072
  window : BitVec 262144
  st     : TileSt
  deriving DecidableEq, Repr

/-- What an occupied copy slot performs (R127). -/
inductive CopyKind where
  | tcp (scat : Bool)
  | tdeal
  | gather
  | reduce (op : RedOp) (ty : ElemTy)
  | conv (dt st : ElemTy)
  | collReduce (op : RedOp) (acc : Bool) (ty : ElemTy) (mask : Word)
  | collBcast (mask : Word)
  deriving DecidableEq, Repr

/-- An operation in a copy slot. `todo` lists the 32-byte units of dense order not yet landed, as rising intervals;
`aux` the receiving strands of a `tdeal` or the indices of an `sg.gather`, where 2^32 marks
an index that could not be read; `bytes` what it counts on its owner's token;
`age` the order of acceptance; `shape` and `fd` the captured `shape` and descriptors (R111). -/
structure CopyOp where
  kind   : CopyKind
  owner  : Nat
  k      : Reg8
  block  : BitVec 384
  dst    : Word
  src    : Word
  shape  : Word
  fd     : Vector Word 4
  part   : Nat
  pins   : List Pin
  aux    : List Nat
  todo   : List (Nat × Nat)
  bytes  : Nat
  age    : Nat
  deriving DecidableEq, Repr

/-- A stream port bound to a register (R140, R141). `pos` is the stream position in bytes; a read stream holds in `buf`
the bytes [pos, pos + |buf|) read ahead, a write stream the bytes [pos - |buf|, pos) pushed and not yet performed. `susp` says that
`tlb.inv` has suspended the stream: its old footprint stands until it is translated again (R161). -/
structure Port where
  owner : Nat
  wr    : Bool
  v     : VReg
  block : BitVec 384
  base  : Word
  part  : Nat
  pins  : List Pin
  pos   : Nat
  buf   : List Byte
  age   : Nat
  susp  : Bool
  deriving DecidableEq, Repr

/-- What a hop message carries beside the next address: x0 to x15 and the strand's kind, and what the landing keeps of its tread, which
is its number, group bits, checkpoint step and the lines written since that checkpoint (R254, R320). -/
structure Hop where
  x       : List Word
  kind    : Kind
  tread   : Nat
  groups  : List GroupBit
  step    : Nat
  written : List Nat
  deriving DecidableEq, Repr

/-- A message in a send queue or vestibule (R246, R247). -/
structure Msg where
  flight  : Nat
  dest    : Nat
  sender  : Nat
  net     : Net
  cls     : Nat
  slotVa  : Word
  slotPa  : Nat
  handler : Word
  payload : List Byte
  rel     : Bool
  sends   : Nat
  hop     : Option Hop
  since   : Nat
  aged    : Bool
  deriving DecidableEq, Repr

/-- What waits at a core's banker (R279): an `acq` of a strand, the setting aside of a flight's pages (R274), or a
resumption (R282). -/
inductive Request where
  | acq (k : Nat) (q : Hold)
  | flight (id core : Nat) (h : Hold)
  | resume (saved target : Nat) (byLoad : Bool)
  deriving DecidableEq, Repr

/-- A request in the banker queue with the cycle it arrived. -/
structure Waiting where
  req   : Request
  since : Nat
  deriving DecidableEq, Repr

/-- A store in a core's write-through queue (R159): physical address, bytes, the partition and enc bit of the access (R108,
R109), the strand that made it, and the page translation it used (R161). -/
structure WtEntry where
  pa    : Nat
  bytes : List Byte
  tag   : Nat × Bool
  owner : Nat
  pin   : Pin
  deriving DecidableEq, Repr

/-- A TLB or pointer entry (R100). `leaf` is the page-table entry; `va` and `size` the page. -/
structure TlbEntry where
  asid : Nat
  va   : Nat
  size : Nat
  pte  : Word
  deriving DecidableEq, Repr

/-- A pointer entry held from an earlier walk: the table that level `lvl` of `va` reads (R100). -/
structure PtrEntry where
  asid : Nat
  lvl  : Nat
  va   : Nat
  tab  : Nat
  deriving DecidableEq, Repr

/-- A line of an L1 data cache: line number, the partition whose key decrypted it, and its plain bytes (R159, R109). -/
structure L1Line where
  line  : Nat
  part  : Option Nat
  bytes : List Byte
  deriving DecidableEq, Repr

/-- A line's entry in its home directory (R94): the dies that hold it, the die that holds it Modified, and the partition and enc
bit under which their copies are tagged (R109). -/
structure DirEntry where
  pres  : BitVec 8
  owner : Option Nat
  tag   : Nat × Bool
  deriving DecidableEq, Repr

/-- One core. A word of the instruction cache is held with the partition and enc bit of the fetch that filled it (R109). `badRows`
lists the 64-bit words of vector rows (block, row, word) that cannot be corrected, `badTiles` slices, `badWins` window sectors
(R225), `badLoft` loft sectors (R104). -/
structure Core where
  blocks   : Tbl Block
  tiles    : Tbl Tile
  ord      : Nat
  slots    : Tbl (Option CopyOp)
  ports    : Tbl (Option Port)
  age      : Nat
  sqReq    : List Msg
  sqRep    : List Msg
  vest     : List Msg
  drops    : Nat
  unsafeN  : Nat
  shortN   : Nat
  bankq    : List Waiting
  fair     : Bool
  aside    : List (Nat × Hold)
  l1       : List L1Line
  icache   : Tbl (Option (BitVec 32 × Nat × Bool))
  wtq      : List WtEntry
  tlb      : List TlbEntry
  loft     : Tbl Byte
  loftImg  : Option Nat
  imgTiles : List TileSt
  badRows  : List (Nat × Nat × Nat)
  badTiles : List (Nat × Nat)
  badWins  : List (Nat × Nat)
  badLoft  : List Nat
  deriving DecidableEq, Repr

/-- A gang reserved but not yet complete in reservation (R292, R295). -/
structure Reserve where
  flight  : Nat
  gang    : Nat
  strands : List Nat
  deriving DecidableEq, Repr

/-- A loan between dies (R371). -/
structure Loan where
  lender   : Nat
  borrower : Nat
  units    : Nat
  phase    : Nat
  granted  : Nat
  deriving DecidableEq, Repr

/-- One compute die. `saved` lists the strands whose treads its landing has pre-empted, oldest first (R294). -/
structure Die where
  fenced   : Bool
  inReset  : Bool
  resetAt  : Nat
  power    : Nat
  nextPow  : Option Nat
  cycles   : Nat
  fracNs   : Nat
  mhz      : Nat
  pendMhz  : Option (Nat × Nat)
  thr      : Nat
  clamp    : Nat
  tlb      : List TlbEntry
  ptrs     : List PtrEntry
  reserve  : Option Reserve
  saved    : List Nat
  deriving DecidableEq, Repr

/-- A gang in flight on a die: its treads that have not ended, and how many have ended by `tread.end` (R291, R301). A tread that was
dispatched again alone stands in an entry of its own (R297). -/
structure LiveGang where
  gang   : Nat
  treads : List Nat
  ended  : Nat
  deriving DecidableEq, Repr

/-- Gangs of a fenced die that a landing has been given, as intervals, and treads of its own dispatched gangs that were lost with
another die (R304, R255), with the cycle at which it was given them. -/
structure Batch where
  since  : Nat
  gangs  : List (Nat × Nat)
  treads : List Nat
  deriving DecidableEq, Repr

/-- A landing's range of a flight with its mirror (R291): undispatched gangs as half-open intervals in walking order, then
single treads to be placed again, dispatched gangs with their unended treads in dispatch order. A gang in no list is
complete. `later` holds what reissues have appended behind these, oldest first (R304). `since` and `boost` are those of the
oldest undispatched gang (R294). `head` is not 0 while the range's next gang, rolled back, stands at the head of its level;
the gang rolled back last has the highest (R295). -/
structure Range where
  die    : Nat
  todo   : List (Nat × Nat)
  treads : List Nat
  live   : List LiveGang
  since  : Nat
  boost  : Nat
  head   : Nat
  later  : List Batch
  deriving DecidableEq, Repr

/-- A group of a flight (R293, R310). -/
structure Group where
  g        : Nat
  members  : List Nat
  gen      : Nat
  count    : Nat
  required : Nat
  arrived  : List Nat
  deriving DecidableEq, Repr

/-- A tread's checkpoint pair (R343): pool slot pair, the half that is current, its step, and whether both halves have been
written for the tread. -/
structure Ckpt where
  tread : Nat
  pair  : Nat
  half  : Nat
  step  : Nat
  both  : Bool
  deriving DecidableEq, Repr

/-- A launched flight that has not completed: record fields (R286), the launcher's `vmroot`, the partition, and the
landings' state. -/
structure Flight where
  id     : Nat
  addr   : Word
  vmroot : Word
  part   : Nat
  entry  : Word
  arg    : Word
  grptab : Word
  pred   : Word
  done   : Word
  ext    : List Nat
  step   : List Nat
  claim  : Hold
  affinity : Nat
  order  : Nat
  serp   : Bool
  sms    : Bool
  prio   : Nat
  gang   : Nat
  hpc    : Nat
  spp    : Nat
  gpp    : Nat
  simg   : Word
  ssize  : Nat
  gimg   : Word
  gsize  : Nat
  predId : Option Nat
  hinted : Bool
  placed : Bool
  ranges : List Range
  groups : List Group
  cores  : List Nat
  ended  : Nat
  fatal  : Option Nat
  imgErr : Option Nat
  abort  : Option Nat
  ckpts  : List Ckpt
  rlMode : Nat
  cmd    : Option (Nat × Nat)
  deriving DecidableEq, Repr

/-- A partition (R361, R107). While it is swapped out, `outHalls` are the halls whose lofts hold its image, `stash` its
Saved contexts and handler slots, and `stashSaved` those that landings had pre-empted (R346). -/
structure Partition where
  live     : Bool
  halls    : BitVec 72
  pools    : Bool
  saveBase : Nat
  saveN    : Nat
  ckptBase : Nat
  key      : Option (BitVec 512)
  ckptLen  : Nat
  evicted  : Option Nat
  outHalls : BitVec 72
  stash    : Tbl Strand
  stashSaved : List Nat
  trbase   : Word
  trctl    : Word
  trptr    : Word
  trTime   : Nat
  rlbase   : Word
  rlctl    : Word
  rlptr    : Word
  rlstat   : Word
  deriving DecidableEq, Repr

/-- A command fetched from a slot and not yet complete (R356, R357). -/
structure Command where
  seq  : Nat
  data : List Byte
  deriving DecidableEq, Repr

/-- One host queue (R355). -/
structure HostQueue where
  qbase     : Word
  cqbase    : Word
  qctl      : Word
  badnotify : Bool
  consumed  : Nat
  completed : Nat
  notified  : Nat
  cqtail    : Nat
  cqhead    : Nat
  cmds      : List Command
  finished  : List Nat
  refetch   : Option (Nat × Nat × Nat × Nat)
  deriving DecidableEq, Repr

/-- A UALink port (R363): the package number and the domid that its peer reported, and whether it is held down. -/
structure UaPort where
  peer  : Option Nat
  domid : Nat
  down  : Bool
  deriving DecidableEq, Repr

/-- Machine-mode CSRs of the management core (R59, R307; log 10). -/
structure MCsrs where
  mstatus  : Word
  mtvec    : Word
  mscratch : Word
  mepc     : Word
  mcause   : Word
  mtval    : Word
  mie      : Word
  deriving DecidableEq, Repr

/-- Registers and firmware state of hub die 0 and the management core. `joined` says that an offset has been measured since
DOMAIN.en was set, `ran` that a strand has been started since the package's reset (R376). -/
structure Regs where
  featacc   : Vector Word 4
  winbase   : Word
  domain    : Word
  uaports   : List UaPort
  budget    : Nat
  lower     : Option (Nat × Nat)
  ageprop   : Word
  margin    : Option (Nat × Nat)
  ptp       : Word
  stepped   : Bool
  joined    : Bool
  heldOut   : Bool
  ran       : Bool
  rate      : Int
  rateFrac  : Nat
  bootfail  : Bool
  attbuf    : Option Nat
  attdone   : Bool
  opened    : Bool
  meas0     : BitVec 512
  meas1     : BitVec 512
  meas2     : BitVec 512
  dbgpatch  : Word
  nonce     : Option Nat
  failures  : Nat
  restarted : Bool
  lifecycle : Nat
  present   : Nat
  tj        : Tbl Nat
  ecc       : Tbl (Nat × Nat)
  msix      : List Nat
  mcsr      : MCsrs
  swap      : Option (Nat × Nat × Nat × Nat)
  dbgslot   : Nat
  deriving DecidableEq, Repr

/-- A limit of the schedule on the groups or slices that a sequencer performs in a step; `stops` says that the strand stops after
them (R178). -/
structure Limit where
  groups : Nat
  stops  : Bool
  deriving DecidableEq, Repr

/-- What the schedule names next: a strand's front, its sequencer, an event row, the passing of time, or something the
environment does to a cache or a stored sector (log 3, log 4). -/
inductive Choice where
  /-- strand k issues one instruction, executing it at once when its vector queue is empty -/
  | run (k : Nat)
  /-- strand k issues one instruction; a long form only enters the queue -/
  | ahead (k : Nat)
  /-- strand k's sequencer works on its queue head; with a limit, for at most that many groups or slices -/
  | vec (k : Nat) (lim : Option Nat)
  /-- strand k's sequencer works on its queue head for at most that many groups or slices, and the strand stops there: at its front, or
  by the event row given (R178) -/
  | stop (k : Nat) (n : Nat) (by_ : Option Instr)
  /-- an event row happens -/
  | event (i : Instr)
  /-- the always-on counter advances -/
  | elapse (ns : Nat)
  /-- a core's L1 drops the line at pa -/
  | evictL1 (core pa : Nat)
  /-- a core's instruction cache drops the word at pa -/
  | evictIcache (core pa : Nat)
  /-- a core's TLB drops an entry -/
  | evictTlb (core idx : Nat)
  /-- a die's TLB drops an entry -/
  | evictDieTlb (die idx : Nat)
  /-- a die drops its held pointer entries -/
  | evictPtrs (die : Nat)
  /-- a home recalls the line at pa (R95) -/
  | recall (pa : Nat)
  /-- a stored sector becomes uncorrectable (R105) -/
  | corrupt (sector : Nat)
  /-- a stored sector takes a correctable error (R104) -/
  | softError (sector : Nat)
  /-- a 64-bit word of a vector row, a tile slice or a window sector of a core becomes uncorrectable (R104, R225) -/
  | corruptRow (core blk row word : Nat)
  | corruptTile (core tile slice : Nat)
  | corruptWin (core tile sector : Nat)
  /-- a 32-byte sector of a core's loft becomes uncorrectable (R104) -/
  | corruptLoft (core sector : Nat)
  /-- a read of a die cache, loft, register row, tile or window of a die meets a corrected error (R104; log 97) -/
  | corrected (die : Nat)
  /-- the management core sets a strand's external interrupt pending on host command (R331) -/
  | external (k : Nat) (v : Bool)
  /-- the debugger asks for a halt of strand k (R388) -/
  | halt (k : Nat)
  /-- the debugger names the save slot of debug halts (R388) -/
  | debugSlot (area : Nat)
  /-- the debugger writes bytes at an offset of the save slot of debug halts (R388) -/
  | debugEdit (off : Nat) (bytes : List Byte)
  /-- the host reads n bytes at an offset of BAR2 (R349) -/
  | hostRead (off n : Nat)
  /-- the hottest junction of a die is sensed at a number of degrees C (R369) -/
  | heat (die celsius : Nat)
  deriving DecidableEq, Repr

/-- How the machine may stop for good. -/
inductive Fault where
  /-- lifecycle DEAD: nothing runs beyond the boot ROM (R393). Raised by `step` for every choice but a package reset, whose boot
  ROM runs. Safe: the spec lets nothing else run. -/
  | deviceDead
  deriving DecidableEq, Repr

/-- Why the model gives no next state. -/
inductive Refusal where
  /-- an instruction whose meaning is not written; named by its mnemonic. Raised by an arm of `exec`. Safe: the model
  stops where the hardware goes on. -/
  | notModelled (mnemonic : String)
  deriving DecidableEq, Repr

/-- The package. `mem` lists bytes that differ from 0, the value an unlisted byte reads as (log 2); `bad` and `soft`
are sorted sector numbers (address / 32); `dir` is the home directory by line (address / 128). -/
structure State where
  sched   : List Choice
  cur     : Nat
  lim     : Option Limit
  freeCtr : Nat
  mem     : List Host.Cell
  bad     : List Nat
  soft    : List Nat
  dir     : Tbl DirEntry
  time    : Nat
  strands : Tbl Strand
  cores   : Tbl Core
  dies    : Tbl Die
  flights : List Flight
  nextId  : Nat
  gallery : List (Nat × Nat × Nat)
  head    : Option Nat
  elect   : Bool
  parts   : Tbl Partition
  queues  : Tbl HostQueue
  loans   : List Loan
  regs    : Regs
  deriving DecidableEq, Repr

/-- Holding nothing. -/
def Hold.zero : Hold := ⟨0, 0, 0⟩

/-- `shape` at strand start: osp 3, osc 4, ty 8 (f32), rows 1, len 16 (R167). -/
def shapeReset : Word := 0xE008010010

/-- `sstatus` with UXL = 2 and every other field 0 (R307). -/
def sstatusReset : Word := 0x200000000

/-- Every per-strand CSR at the Reset value of its map, or at the value the log names (R184; log 1). -/
def Csrs.reset : Csrs :=
  { shape := shapeReset, fx := 0, fd := Vector.replicate 4 0, vsi := 0, msi := 0, lamiss := 0, srbase := 0, srptr := 0,
    vmroot := 0, svcp := 0, sstatus := sstatusReset, stvec := 0, sscratch := 0, sepc := 0, scause := 0, stval := 0,
    sie := 0, ssip := false, seip := false, scounteren := 0, instret := 0, pmsel := Vector.replicate 8 0,
    pmc := Vector.replicate 8 0, pmovf := 0, dbgctl := 0, dbaddr := Vector.replicate 4 0, dbdata := Vector.replicate 2 0 }

def Frame.empty : Frame := ⟨false, [], 0, 0⟩
def Replay.empty : Replay := ⟨[], 0, false, false⟩

/-- A strand after reset: Free, with the register files as at strand start (R164). -/
def Strand.reset : Strand :=
  { status := .free, kind := .none, flight := none, handlerOf := none, tread := 0, mode := .s, pc := 0,
    x := Vector.replicate 32 0, p := Vector.replicate 8 (BitVec.allOnes 1024), k := Vector.replicate 8 ⟨0, false⟩,
    sd := Vector.replicate 8 ⟨false, 0⟩, csr := Csrs.reset, gw := 32, claim := Hold.zero, blocks := [], tiles := [],
    pages := [], resv := none, queue := [], body := [], replay := Replay.empty, frame := Frame.empty, wait := .none,
    waitSince := 0, promises := [], pins := [], srSeq := 0, srCycle := 0, srAcc := 0, groups := [], ckptStep := 0, written := [],
    tagCount := 0, savedTag := 0, saveAt := none, preempt := false, copies := [], ports := [], bindDone := false,
    sends := 0, rlCount := 0, haltReq := false, landed := [], settle := false, heldFor := 0, left := none }

def Block.zero : Block := ⟨0, false, 0, 0, 0, 0, none⟩
def Tile.reset : Tile := ⟨0, 0, .free⟩

/-- A core after reset (R364). -/
def Core.reset : Core :=
  { blocks := [], tiles := [], ord := 0, slots := [], ports := [], age := 0, sqReq := [], sqRep := [], vest := [],
    drops := 0, unsafeN := 0, shortN := 0, bankq := [], fair := false, aside := [], l1 := [],
    icache := [], wtq := [], tlb := [], loft := [], loftImg := none, imgTiles := [], badRows := [], badTiles := [], badWins := [], badLoft := [] }

/-- A die after reset: D0 at 1,700 MHz (R367, R369). -/
def Die.reset : Die :=
  { fenced := false, inReset := false, resetAt := 0, power := 0, nextPow := none, cycles := 0, fracNs := 0,
    mhz := 1700, pendMhz := none, thr := 0, clamp := 0, tlb := [], ptrs := [], reserve := none,
    saved := [] }

/-- A partition that does not exist. -/
def Partition.none : Partition :=
  { live := false, halls := 0, pools := false, saveBase := 0, saveN := 0, ckptBase := 0, key := .none, ckptLen := 0,
    evicted := .none, outHalls := 0, stash := [], stashSaved := [], trbase := 0, trctl := 0, trptr := 0, trTime := 0, rlbase := 0, rlctl := 0,
    rlptr := 0, rlstat := 0 }

/-- The halls of the dies of a mask: nine a die (R15, R361). -/
def activeHalls (present : Nat) : BitVec 72 :=
  BitVec.ofNat 72 ((List.range 8).foldl (fun a d => if present.testBit d then a + 511 * 2 ^ (9 * d) else a) 0)

/-- Partition 0 after reset: every active hall, no pools (R361). -/
def Partition.zero (present : Nat) : Partition := { Partition.none with live := true, halls := activeHalls present }

def HostQueue.reset : HostQueue :=
  { qbase := 0, cqbase := 0, qctl := 0, badnotify := false, consumed := 0, completed := 0, notified := 0, cqtail := 0,
    cqhead := 0, cmds := [], finished := [], refetch := none }

def MCsrs.reset : MCsrs := ⟨0, 0, 0, 0, 0, 0, 0⟩

/-- The registers of hub die 0 after reset (R351, R369, R392). -/
def Regs.reset : Regs :=
  { featacc := ⟨#[1, 0, 0, 0], rfl⟩, winbase := 0, domain := 0, uaports := List.replicate 16 ⟨none, 0, true⟩,
    budget := 2400, lower := none, ageprop := 0, margin := none, ptp := 0, stepped := false, joined := false, heldOut := false, ran := false, rate := 0, rateFrac := 0, bootfail := false,
    attbuf := none, attdone := false, opened := false, meas0 := 0, meas1 := 0, meas2 := 0, dbgpatch := 0, nonce := none,
    failures := 0, restarted := false, lifecycle := Config.lifecycleFuses % 4, present := Config.presentFuses % 256, tj := [], ecc := [], msix := [], mcsr := MCsrs.reset,
    swap := none, dbgslot := 0 }

/-- The lowest-numbered die of a mask. -/
def firstDie (present : Nat) : Option Nat := (List.range 8).find? fun d => present.testBit d

/-- The machine right after a package reset (R364): every unit at its reset value, the values that the spec does not
give as log 1 names them. -/
def State.reset : State :=
  { sched := [], cur := 0, lim := none, freeCtr := 0, mem := [], bad := [], soft := [], dir := [], time := 0,
    strands := [], cores := [], dies := [], flights := [], nextId := 1, gallery := [], head := firstDie Regs.reset.present, elect := false,
    parts := [(0, Partition.zero Regs.reset.present)], queues := [], loans := [], regs := Regs.reset }

end Sys2Proof.Machine
end

