-- ==== Sys2Proof/Machine/Table.lean ====
section
/-! DEFINITION. Sparse tables and sorted sets in canonical form (log 6): reading, writing, and the form itself. -/
namespace Sys2Proof.Machine

/-- The value a table gives key k; d where k is unlisted. -/
def Tbl.get {β : Type} (d : β) : Tbl β → Nat → β
  | [], _ => d
  | (a, b) :: t, k => if a = k then b else Tbl.get d t k

/-- Put an entry for k at its sorted place, replacing the one there. -/
def Tbl.put {β : Type} (v : β) (k : Nat) : Tbl β → Tbl β
  | [] => [(k, v)]
  | (a, b) :: t => if k < a then (k, v) :: (a, b) :: t else if k = a then (k, v) :: t else (a, b) :: Tbl.put v k t

/-- Drop every entry of k. -/
def Tbl.del {β : Type} (k : Nat) : Tbl β → Tbl β
  | [] => []
  | (a, b) :: t => if a = k then Tbl.del k t else (a, b) :: Tbl.del k t

/-- Make key k read as v, keeping the canonical form. -/
def Tbl.set {β : Type} [DecidableEq β] (d : β) (t : Tbl β) (k : Nat) (v : β) : Tbl β :=
  if v = d then Tbl.del k t else Tbl.put v k t

/-- Change every listed value; an entry that becomes the default is dropped. f must keep the default. -/
def Tbl.mapV {β : Type} [DecidableEq β] (d : β) (f : β → β) (t : Tbl β) : Tbl β :=
  t.foldr (fun e r => Tbl.set d r e.1 (f e.2)) []

/-- The canonical form above a bound: keys strictly rising, no entry equal to the default. -/
def Tbl.okAbove {β : Type} [DecidableEq β] (d : β) : Nat → Tbl β → Bool
  | _, [] => true
  | n, (a, b) :: t => decide (n ≤ a) && decide (b ≠ d) && Tbl.okAbove d (a + 1) t

/-- The canonical form. -/
def Tbl.wf {β : Type} [DecidableEq β] (d : β) (t : Tbl β) : Bool := Tbl.okAbove d 0 t

/-- Put n into a rising list. -/
def insNat (n : Nat) : List Nat → List Nat
  | [] => [n]
  | a :: t => if n < a then n :: a :: t else if n = a then a :: t else a :: insNat n t

/-- Take n out of a list. -/
def delNat (n : Nat) (l : List Nat) : List Nat := l.filter (fun a => decide (a ≠ n))

/-! ### Memory as bytes -/

/-- The byte at a; an unlisted byte reads 0 (log 2). -/
def memByte (m : List Host.Cell) (a : Nat) : Byte := Tbl.get 0 m a

/-- Write one byte, keeping the canonical form. -/
def memPut (m : List Host.Cell) (a : Nat) (b : Byte) : List Host.Cell := Tbl.set 0 m a b

/-- The n bytes from a. -/
def memRead (m : List Host.Cell) : Nat → Nat → List Byte
  | _, 0 => []
  | a, n + 1 => memByte m a :: memRead m (a + 1) n

/-- Write a run of bytes from a. -/
def memWrite (m : List Host.Cell) : Nat → List Byte → List Host.Cell
  | _, [] => m
  | a, b :: bs => memWrite (memPut m a b) (a + 1) bs

/-- Memory's canonical form. -/
abbrev Memory.wf (m : List Host.Cell) : Bool := Tbl.wf (0 : Byte) m

/-- Replace the element at index i. -/
def listSet {α : Type} : List α → Nat → α → List α
  | [], _, _ => []
  | _ :: t, 0, v => v :: t
  | a :: t, i + 1, v => a :: listSet t i v

/-- Drop the element at index i. -/
def listDel {α : Type} : List α → Nat → List α
  | [], _ => []
  | _ :: t, 0 => t
  | a :: t, i + 1 => a :: listDel t i

/-- Fold over 0 to n - 1 with a state. -/
def iter {σ : Type} (f : Nat → σ → σ) : Nat → σ → σ
  | 0, s => s
  | n + 1, s => f n (iter f n s)

/-- Fold over 0 to n - 1 that may stop with an error. -/
def iterE {ε σ : Type} (f : Nat → σ → Except ε σ) : Nat → σ → Except ε σ
  | 0, s => .ok s
  | n + 1, s =>
    match iterE f n s with
    | .ok s' => f n s'
    | .error e => .error e

end Sys2Proof.Machine
end

