-- ==== Sys2Proof/Machine/Bits.lean ====
section
/-! DEFINITION. Bit fields, sign extension, byte order (R4) and the layout of packed words. -/
namespace Sys2Proof.Machine

/-- Bits [lo + n - 1 : lo] of a word as a number. -/
def bits {w : Nat} (x : BitVec w) (lo n : Nat) : Nat := (x.toNat >>> lo) % 2 ^ n

/-- Bit i of a word. -/
def bit {w : Nat} (x : BitVec w) (i : Nat) : Bool := bits x i 1 == 1

/-- Word x with bits [lo + n - 1 : lo] replaced by the low bits of v. -/
def setBits {w : Nat} (x : BitVec w) (lo n v : Nat) : BitVec w :=
  BitVec.ofNat w (x.toNat - (bits x lo n) * 2 ^ lo + (v % 2 ^ n) * 2 ^ lo)

/-- A number as a 64-bit word. -/
def w64 (n : Nat) : Word := BitVec.ofNat 64 n

/-- The low n bits of v read as a signed number. -/
def sextNat (n v : Nat) : Int :=
  let u := v % 2 ^ n
  if n = 0 then 0 else if u < 2 ^ (n - 1) then (u : Int) else (u : Int) - 2 ^ n

/-- A signed number modulo 2^n. -/
def wrapInt (n : Nat) (v : Int) : Nat := (v % (2 ^ n : Int)).toNat

/-- The low n bits of v sign-extended to a word. -/
def sext64 (n v : Nat) : Word := w64 (wrapInt 64 (sextNat n v))

/-- 1 for true. -/
def b2n (b : Bool) : Nat := if b then 1 else 0

/-- The packing of `hold`: pages [22:16], tiles [11:8], blocks [6:0] (R174). -/
def Hold.pack (h : Hold) : Word := w64 (h.blocks % 128 + 256 * (h.tiles % 16) + 65536 * (h.pages % 128))

/-- The vector that a packed word names. -/
def Hold.unpack (w : Word) : Hold := ⟨bits w 0 7, bits w 8 4, bits w 16 7⟩

/-- The reserved bits of a packed word, [63:23], [15:12] and [7]. -/
def Hold.resv (w : Word) : Nat := bits w 23 41 + bits w 12 4 + bits w 7 1

/-- Comparison in every pool. -/
def Hold.le (a b : Hold) : Bool := a.blocks ≤ b.blocks && a.tiles ≤ b.tiles && a.pages ≤ b.pages
def Hold.add (a b : Hold) : Hold := ⟨a.blocks + b.blocks, a.tiles + b.tiles, a.pages + b.pages⟩
def Hold.sub (a b : Hold) : Hold := ⟨a.blocks - b.blocks, a.tiles - b.tiles, a.pages - b.pages⟩

/-- The pool sizes of a core (R273). -/
def Hold.pool : Hold := ⟨64, 8, 64⟩

/-- A token in its CSR layout: error in [63], count in [47:0] (R174). -/
def Token.pack (t : Token) : Word := w64 (t.count % 2 ^ 48 + 2 ^ 63 * b2n t.err)

/-- `vrepst`: valid [7], capture [6], captured count [5:0] (R174). -/
def Replay.status (r : Replay) : Word := w64 (r.encs.length % 64 + 64 * b2n r.cap + 128 * b2n r.valid)

/-- `isaver` of this part: stepping 0, major 4, minor 0 (R82). -/
def isaver : Word := 0x0400

/-- Mode U. -/
def Mode.isU (a : Mode) : Bool := a == .u

/-! ### Fields of shape records (R125) -/

def ShapeRec.esz (b : BitVec 384) : Nat := bits b 0 8
def ShapeRec.e0 (b : BitVec 384) : Nat := bits b 32 32
def ShapeRec.e1 (b : BitVec 384) : Nat := bits b 64 32
def ShapeRec.e2 (b : BitVec 384) : Nat := bits b 96 32
def ShapeRec.st1 (b : BitVec 384) : Int := sextNat 64 (bits b 128 64)
def ShapeRec.st2 (b : BitVec 384) : Int := sextNat 64 (bits b 192 64)
def ShapeRec.dblk (b : BitVec 384) : Nat := bits b 256 32
def ShapeRec.dfirst (b : BitVec 384) : Nat := bits b 288 8
def ShapeRec.dcount (b : BitVec 384) : Nat := bits b 296 8
def ShapeRec.dstep (b : BitVec 384) : Nat := bits b 304 8
def ShapeRec.dgroup (b : BitVec 384) : Nat := bits b 312 8

/-- Row bytes e0 × es of a record (R128). -/
def ShapeRec.rowBytes (b : BitVec 384) : Nat := ShapeRec.e0 b * 2 ^ ShapeRec.esz b

/-- Total bytes e0 × e1 × e2 × es (R128). -/
def ShapeRec.total (b : BitVec 384) : Nat := ShapeRec.rowBytes b * ShapeRec.e1 b * ShapeRec.e2 b

/-- Record offset of row n = i2 × e1 + i1 (R128). -/
def ShapeRec.rowOff (b : BitVec 384) (n : Nat) : Int :=
  let e1 := ShapeRec.e1 b
  (n / e1 : Nat) * ShapeRec.st2 b + (n % e1 : Nat) * ShapeRec.st1 b

/-- Base plus a signed offset, modulo 2^64. -/
def addOff (a : Word) (o : Int) : Word := w64 (wrapInt 64 (a.toNat + o))

end Sys2Proof.Machine
end

