-- ==== Sys2Proof/Machine/Access.lean ====
section
/-! DEFINITION. Reading and writing the parts of the state: strands, cores, dies, partitions, queues, and the registers
of the executing strand, `State.cur`. -/
namespace Sys2Proof.Machine

/-- A precise trap to be taken: cause of R330, `stval`, and the ECCCNT unit of a consumed uncorrectable sector. -/
structure Trap where
  cause : Nat
  tval  : Word
  ecc   : Option Nat := none
  deriving DecidableEq, Repr

/-- Key of the management core's strand. -/
def mgmtKey : Nat := 18432

def State.strand (s : State) (k : Nat) : Strand := Tbl.get Strand.reset s.strands k
def State.setStrand (s : State) (k : Nat) (t : Strand) : State := { s with strands := Tbl.set Strand.reset s.strands k t }
def State.core (s : State) (c : Nat) : Core := Tbl.get Core.reset s.cores c
def State.setCore (s : State) (c : Nat) (t : Core) : State := { s with cores := Tbl.set Core.reset s.cores c t }
def State.die (s : State) (d : Nat) : Die := Tbl.get Die.reset s.dies d
def State.setDie (s : State) (d : Nat) (t : Die) : State := { s with dies := Tbl.set Die.reset s.dies d t }
def State.part (s : State) (p : Nat) : Partition := Tbl.get Partition.none s.parts p
def State.setPart (s : State) (p : Nat) (t : Partition) : State := { s with parts := Tbl.set Partition.none s.parts p t }
def State.queue (s : State) (q : Nat) : HostQueue := Tbl.get HostQueue.reset s.queues q
def State.setQueue (s : State) (q : Nat) (t : HostQueue) : State := { s with queues := Tbl.set HostQueue.reset s.queues q t }

/-- Core number of a strand (R20, R174). -/
def coreOf (k : Nat) : Nat := k / 16
/-- Die of a core, and hall of a core within the package. -/
def dieOfCore (c : Nat) : Nat := c / 144
def hallOfCore (c : Nat) : Nat := c / 16
def dieOf (k : Nat) : Nat := dieOfCore (coreOf k)

/-- The executing strand. -/
def State.me (s : State) : Strand := s.strand s.cur
def State.setMe (s : State) (t : Strand) : State := s.setStrand s.cur t

def State.myCore (s : State) : Core := s.core (coreOf s.cur)
def State.setMyCore (s : State) (c : Core) : State := s.setCore (coreOf s.cur) c

/-- `sid`: core in [14:4], strand in [3:0] (R174). -/
def sidOf (k : Nat) : Word := w64 (k % 16 + 16 * (coreOf k % 2048))

/-- Register x r of a strand; x0 reads zero (R164). -/
def Strand.getX (t : Strand) (r : XReg) : Word := if r = 0 then 0 else t.x[r]

/-- Write register x r of a strand; a write to x0 is discarded (R164). -/
def Strand.setX (t : Strand) (r : XReg) (v : Word) : Strand := if r = 0 then t else { t with x := t.x.set r v }

/-- Register x r of the executing strand. -/
def State.getX (s : State) (r : XReg) : Word := s.me.getX r

/-- Write register x r of the executing strand. -/
def State.setX (s : State) (r : XReg) (v : Word) : State := s.setMe (s.me.setX r v)

/-- The flight with an identifier. -/
def State.flight? (s : State) (id : Nat) : Option Flight := s.flights.find? (fun f => f.id == id)

/-- The executing strand's flight. -/
def State.myFlight? (s : State) : Option Flight :=
  match s.me.flight with
  | some id => s.flight? id
  | none => none

/-- Replace the flight that has f's identifier. -/
def State.setFlight (s : State) (f : Flight) : State :=
  { s with flights := s.flights.map (fun g => if g.id = f.id then f else g) }

/-- The partition a strand belongs to: its flight's, else partition 0 (R361). -/
def State.partOf (s : State) (k : Nat) : Nat :=
  match (s.strand k).flight with
  | some id => match s.flight? id with | some f => f.part | none => 0
  | none => 0

/-- Is a swap of a partition under way, or is it swapped out (R346)? -/
def State.swapOf (s : State) (p : Nat) : Bool :=
  (match s.regs.swap with | some w => w.1 == p | none => false) || (s.part p).outHalls != 0

/-- A fresh free value (log 9). -/
def State.freeVal (s : State) : Nat := Config.freeNat s.freeCtr

/-- The counter of free values moves on. -/
def State.useFree (s : State) : State := { s with freeCtr := s.freeCtr + 1 }

/-- Is die d live: present and not fenced (R288, R352)? -/
def State.dieLive (s : State) (d : Nat) : Bool := s.regs.present.testBit d && !(s.die d).fenced

/-- Is a die changing its power state or its margin, so that nothing issues on it (R367, R373)? -/
def Die.changing (x : Die) : Bool := x.nextPow.isSome || (x.pendMhz.isSome && x.power == 0)

/-- Does nothing issue on a die: stopped, off, held in reset, or changing (R367)? -/
def Die.stopped (x : Die) : Bool := x.changing || decide (3 ≤ x.power) || x.inReset

/-- Is strand k on a die on which nothing issues: what it waits for is looked at when the die runs again (R367)? -/
def State.haltedDie (s : State) (k : Nat) : Bool := (s.die (dieOf k)).stopped

/-- Hottest junction of die d in degrees C, as last sensed (R369). -/
def State.junction (s : State) (d : Nat) : Nat := Tbl.get 0 s.regs.tj d

/-- The resource vector a strand holds (R273). -/
def Strand.hold (t : Strand) : Hold := ⟨t.blocks.length, t.tiles.length, t.pages.length⟩

/-- A strand that the banker counts (R271). -/
def Strand.counted (t : Strand) : Bool := t.status == .running || t.status == .asleep

/-- Physical block data. -/
def Core.block (c : Core) (b : Nat) : Block := Tbl.get Block.zero c.blocks b
def Core.setBlock (c : Core) (b : Nat) (v : Block) : Core := { c with blocks := Tbl.set Block.zero c.blocks b v }
def Core.tile (c : Core) (n : Nat) : Tile := Tbl.get Tile.reset c.tiles n
def Core.setTile (c : Core) (n : Nat) (v : Tile) : Core := { c with tiles := Tbl.set Tile.reset c.tiles n v }
def Core.slot (c : Core) (n : Nat) : Option CopyOp := Tbl.get none c.slots n
def Core.setSlot (c : Core) (n : Nat) (v : Option CopyOp) : Core := { c with slots := Tbl.set none c.slots n v }
def Core.port (c : Core) (n : Nat) : Option Port := Tbl.get none c.ports n
def Core.setPort (c : Core) (n : Nat) (v : Option Port) : Core := { c with ports := Tbl.set none c.ports n v }

/-- Write bytes of a loft: sectors written in full are failing no more, and a failing one takes nothing less (R104, R106). -/
def Core.loftWrite (c : Core) (a : Nat) (bs : List Byte) : Core :=
  let covered (b : Nat) : Bool := a ≤ 32 * b && 32 * b + 32 ≤ a + bs.length
  if c.badLoft.isEmpty then { c with loft := memWrite c.loft a bs }
  else
    let bad := c.badLoft.filter fun b => !covered b
    { c with
      badLoft := bad
      loft := (List.range bs.length).foldl (fun m i => if bad.contains ((a + i) / 32) then m else memPut m (a + i) (bs.getD i 0)) c.loft }

/-- The offset of the first failing byte among n bytes of a loft from a (R104; log 96). -/
def Core.loftBadAt (c : Core) (a n : Nat) : Option Nat :=
  if n = 0 then none else (c.badLoft.find? fun b => a / 32 ≤ b && b ≤ (a + n - 1) / 32).map fun b => 32 * b - a

/-- A strand of the package has been started (R376). -/
def State.noteRan (s : State) : State := if s.regs.ran then s else { s with regs := { s.regs with ran := true } }

/-- No vector-side instruction of the strand is outstanding (R176, R177). -/
def Strand.idle (t : Strand) : Bool := t.queue.isEmpty && t.body.isEmpty

/-- The address of the oldest vector-side instruction not yet complete; the pc when there is none (R177). -/
def Strand.vcp (t : Strand) : Word :=
  match t.queue with
  | e :: _ => e.addr
  | [] => match t.body with
    | e :: _ => e.addr
    | [] => t.pc

/-- `vcp` in the layout of `svcp`; `vt` is 0 (R179). -/
def Strand.vcpWord (t : Strand) : Word := setBits t.vcp 0 2 0

/-- The value of x r that the instruction at the queue head captured in field position i (1 to 4); the register itself
when no entry is queued. -/
def State.capX (s : State) (i : Nat) (r : XReg) : Word :=
  match s.me.queue with
  | e :: _ => match i with | 1 => e.x1 | 2 => e.x2 | 3 => e.x3 | _ => e.x4
  | [] => s.getX r

/-- The mode, SUM and MXR that govern a vector-side access (R99). -/
def State.capMode (s : State) : Mode × Bool × Bool :=
  match s.me.queue with
  | e :: _ => (e.mode, e.sum, e.mxr)
  | [] => (s.me.mode, bit s.me.csr.sstatus 18, bit s.me.csr.sstatus 19)

end Sys2Proof.Machine
end

