-- ==== Sys2Proof/Machine/Counters.lean ====
section
/-! DEFINITION. The per-strand event counters (R377 to R380). -/
namespace Sys2Proof.Machine

/-- Does counter i of a strand count event `ev` now: its selector names it and the mode is enabled (R378)? -/
def Strand.counts (t : Strand) (i : Fin 8) (ev : Nat) : Bool :=
  let sel := t.csr.pmsel[i]
  bits sel 0 8 == ev && ((t.mode == .u && bit sel 62) || (t.mode == .s && bit sel 61))

/-- Add n to counter i, wrapping; a carry sets ovf bit i + 3 (R380). -/
def Csrs.bump (c : Csrs) (i : Fin 8) (n : Nat) : Csrs :=
  let v := (c.pmc[i]).toNat + n
  { c with pmc := c.pmc.set i (w64 v), pmovf := if v < 2 ^ 64 then c.pmovf else c.pmovf ||| w64 (2 ^ (i.val + 3)) }

/-- Count n occurrences of an event for a strand. -/
def Strand.count (t : Strand) (ev n : Nat) : Strand :=
  (List.finRange 8).foldl (fun t i => if t.counts i ev then { t with csr := t.csr.bump i n } else t) t

/-- Count n occurrences of an event for strand k; nothing to do when no counter is selected. -/
def State.countEv (s : State) (k ev n : Nat) : State :=
  if n = 0 || !((List.finRange 8).any fun i => (s.strand k).counts i ev) then s else s.setStrand k ((s.strand k).count ev n)

/-- Interrupt 13 is pending while some ovf bit is 1 whose counter has oie = 1 (R380). -/
def Strand.ovfPending (t : Strand) : Bool :=
  (List.finRange 8).any fun i => bit t.csr.pmovf (i.val + 3) && bit (t.csr.pmsel[i]) 63

end Sys2Proof.Machine
end

