-- ==== Sys2Proof/Machine/Crypto.lean ====
section
/-! DEFINITION. The published algorithms the spec names: AES-256 and XTS (IEEE 1619, R108), AES key wrap (RFC 3394),
SHA-512, HMAC and HKDF (RFC 5869), and elliptic curves on P-521 (R391, R394 to R396). Bytes are numbers below 256. -/
namespace Sys2Proof.Machine.Crypto

/-- Product in GF(2^8) of AES, by the n low bits of b from the highest. -/
def gmul (a b : Nat) : Nat :=
  let step (acc i : Nat) : Nat :=
    let d := acc * 2
    let r := if d < 256 then d else d ^^^ 0x11B
    if b.testBit (7 - i) then r ^^^ a else r
  (List.range 8).foldl step 0

/-- Inverse in GF(2^8) as the 254th power; 0 for 0. -/
def ginv (a : Nat) : Nat :=
  let a2 := gmul a a
  let a3 := gmul a2 a
  let a6 := gmul a3 a3
  let a12 := gmul a6 a6
  let a15 := gmul a12 a3
  let a30 := gmul a15 a15
  let a60 := gmul a30 a30
  let a120 := gmul a60 a60
  let a126 := gmul a120 a6
  let a127 := gmul a126 a
  gmul a127 a127

/-- Rotate a byte left. -/
def rotb (a n : Nat) : Nat := (a * 2 ^ n % 256) ||| (a / 2 ^ (8 - n))

def sbox (a : Nat) : Nat :=
  let i := ginv a
  i ^^^ rotb i 1 ^^^ rotb i 2 ^^^ rotb i 3 ^^^ rotb i 4 ^^^ 0x63

def sboxInv (a : Nat) : Nat := ginv (rotb a 1 ^^^ rotb a 3 ^^^ rotb a 6 ^^^ 0x05)

def xorL (a b : List Nat) : List Nat := List.zipWith (· ^^^ ·) a b

/-- Key schedule words, newest first; i is the index of the next word. -/
def expandGo : Nat → Nat → Nat → List (List Nat) → List (List Nat)
  | 0, _, _, ws => ws
  | n + 1, i, rcon, ws =>
    let prev := ws.headD []
    let old := ws.getD 7 []
    let t :=
      if i % 8 = 0 then xorL ((prev.drop 1 ++ prev.take 1).map sbox) [rcon, 0, 0, 0]
      else if i % 8 = 4 then prev.map sbox else prev
    expandGo n (i + 1) (if i % 8 = 0 then rcon * 2 else rcon) (xorL old t :: ws)

/-- Cut a list into pieces of n, at most fuel of them. -/
def chunks (n : Nat) : Nat → List Nat → List (List Nat)
  | 0, _ => []
  | f + 1, l => if l.isEmpty then [] else l.take n :: chunks n f (l.drop n)

/-- The fifteen round keys of a 32-byte key. -/
def roundKeys (key : List Nat) : List (List Nat) :=
  chunks 16 15 ((expandGo 52 8 1 (chunks 4 8 key).reverse).reverse.flatten)

/-- ShiftRows by row offset: element r + 4c takes row r of column c + k r. -/
def shiftRows (k : Nat) (st : List Nat) : List Nat :=
  (List.range 16).map fun i => st.getD (i % 4 + 4 * ((i / 4 + k * (i % 4)) % 4)) 0

def mixCol (m : List Nat) (c : List Nat) : List Nat :=
  (List.range 4).map fun r =>
    (List.range 4).foldl (fun acc j => acc ^^^ gmul (m.getD ((j + 4 - r) % 4) 0) (c.getD j 0)) 0

def mixCols (m : List Nat) (st : List Nat) : List Nat := ((chunks 4 4 st).map (mixCol m)).flatten

/-- AES-256 encryption of one 16-byte block. -/
def aesEnc (key blk : List Nat) : List Nat :=
  match roundKeys key with
  | [] => blk
  | k0 :: ks =>
    let mid := (ks.take 13).foldl (fun st k => xorL (mixCols [2, 3, 1, 1] (shiftRows 1 (st.map sbox))) k) (xorL blk k0)
    xorL (shiftRows 1 (mid.map sbox)) (ks.getD 13 [])

/-- AES-256 decryption of one 16-byte block. -/
def aesDec (key blk : List Nat) : List Nat :=
  match (roundKeys key).reverse with
  | [] => blk
  | k14 :: ks =>
    let mid := (ks.take 13).foldl
      (fun st k => mixCols [14, 11, 13, 9] (xorL ((shiftRows 3 st).map sboxInv) k)) (xorL blk k14)
    xorL ((shiftRows 3 mid).map sboxInv) (ks.getD 13 [])

def leNum : List Nat → Nat
  | [] => 0
  | b :: bs => b + 256 * leNum bs

def leList : Nat → Nat → List Nat
  | 0, _ => []
  | n + 1, v => v % 256 :: leList n (v / 256)

def beList (n v : Nat) : List Nat := (leList n v).reverse
def beNum (l : List Nat) : Nat := leNum l.reverse

/-- Multiply an XTS tweak by alpha. -/
def xtsDbl (t : Nat) : Nat := if t < 2 ^ 127 then 2 * t else (2 * t) % 2 ^ 128 ^^^ 0x87

/-- XTS-AES-256 over one 32-byte data unit with tweak number t; the 64-byte key is the data key, then the tweak key. -/
def xts (decrypt : Bool) (key : List Nat) (t : Nat) (unit : List Nat) : List Nat :=
  let k1 := key.take 32
  let t0 := leNum (aesEnc (key.drop 32) (leList 16 t))
  let one (tw : Nat) (b : List Nat) : List Nat :=
    let m := leList 16 tw
    xorL (if decrypt then aesDec k1 (xorL b m) else aesEnc k1 (xorL b m)) m
  one t0 (unit.take 16) ++ one (xtsDbl t0) (unit.drop 16)

/-- RFC 3394 unwrap: six rounds over the registers, last first; none when the integrity value differs. -/
def unwrapGo (kek : List Nat) (n : Nat) : Nat → List Nat → List (List Nat) → List Nat × List (List Nat)
  | 0, a, rs => (a, rs)
  | t + 1, a, rs =>
    let i := t % n
    let b := aesDec kek (beList 8 (beNum a ^^^ (t + 1)) ++ rs.getD i [])
    unwrapGo kek n t (b.take 8) ((List.range n).map fun j => if j = i then b.drop 8 else rs.getD j [])

def keyUnwrap (kek wrapped : List Nat) : Option (List Nat) :=
  let cs := chunks 8 (wrapped.length / 8) wrapped
  let n := cs.length - 1
  let (a, rs) := unwrapGo kek n (6 * n) (cs.headD []) (cs.drop 1)
  if a = List.replicate 8 0xA6 then some rs.flatten else none

/-! ### SHA-512 -/

def isPrime (n : Nat) : Bool := 2 ≤ n && (List.range (n - 2)).all fun d => n % (d + 2) ≠ 0

def primes80 : List Nat := ((List.range 410).filter isPrime).take 80

/-- Largest r with r^k ≤ v, from bit n - 1 down. -/
def rootGo (k v : Nat) : Nat → Nat → Nat
  | 0, r => r
  | n + 1, r => if (r + 2 ^ n) ^ k ≤ v then rootGo k v n (r + 2 ^ n) else rootGo k v n r

/-- The first 64 bits of the fractional part of the square or cube root of p. -/
def fracRoot (k p : Nat) : Nat := rootGo k (p * 2 ^ (64 * k)) 70 0 % 2 ^ 64

def rotr64 (x n : Nat) : Nat := (x / 2 ^ n) ||| (x * 2 ^ (64 - n) % 2 ^ 64)

/-- Message schedule, newest first. -/
def schedGo : Nat → List Nat → List Nat
  | 0, ws => ws
  | n + 1, ws =>
    let a := ws.getD 14 0
    let b := ws.getD 1 0
    let s0 := rotr64 a 1 ^^^ rotr64 a 8 ^^^ a / 2 ^ 7
    let s1 := rotr64 b 19 ^^^ rotr64 b 61 ^^^ b / 2 ^ 6
    schedGo n ((ws.getD 15 0 + s0 + ws.getD 6 0 + s1) % 2 ^ 64 :: ws)

def shaRound (st : List Nat) (kw : Nat × Nat) : List Nat :=
  match st with
  | [a, b, c, d, e, f, g, h] =>
    let s1 := rotr64 e 14 ^^^ rotr64 e 18 ^^^ rotr64 e 41
    let ch := (e &&& f) ^^^ ((2 ^ 64 - 1 - e) &&& g)
    let t1 := h + s1 + ch + kw.1 + kw.2
    let s0 := rotr64 a 28 ^^^ rotr64 a 34 ^^^ rotr64 a 39
    let mj := (a &&& b) ^^^ (a &&& c) ^^^ (b &&& c)
    [(t1 + s0 + mj) % 2 ^ 64, a, b, c, (d + t1) % 2 ^ 64, e, f, g]
  | _ => st

def shaBlock (ks : List Nat) (h : List Nat) (blk : List Nat) : List Nat :=
  let ws := (schedGo 64 ((chunks 8 16 blk).map beNum).reverse).reverse
  List.zipWith (fun a b => (a + b) % 2 ^ 64) h ((List.zip ks ws).foldl shaRound h)

/-- SHA-512 of a list of bytes. -/
def sha512 (m : List Nat) : List Nat :=
  let pad := m ++ 0x80 :: List.replicate ((239 - m.length % 128) % 128) 0 ++ beList 16 (8 * m.length)
  let ks := primes80.map (fracRoot 3)
  let h0 := (primes80.take 8).map (fracRoot 2)
  ((chunks 128 (pad.length / 128) pad).foldl (shaBlock ks) h0).flatMap (beList 8)

def hmac512 (key m : List Nat) : List Nat :=
  let k := key ++ List.replicate (128 - key.length) 0
  sha512 (k.map (· ^^^ 0x5C) ++ sha512 (k.map (· ^^^ 0x36) ++ m))

/-- The first 64 bytes of HKDF-SHA-512 for short salts. -/
def hkdf512 (salt ikm info : List Nat) : List Nat := hmac512 (hmac512 salt ikm) (info ++ [1])

/-! ### P-521 -/

def pP : Nat := 2 ^ 521 - 1
def pN : Nat := 2 ^ 521 - 2 ^ 260 + 0xA51868783BF2F966B7FCC0148F709A5D03BB5C9B8899C47AEBB6FB71E91386409
def pB : Nat := 0x51953EB9618E1C9A1F929A21A0B68540EEA2DA725B99B315F3B8B489918EF109E156193951EC7E937B1652C0BD3BB1BF073573DF883D2C34F1EF451FD46B503F00
def pGx : Nat := 0xC6858E06B70404E9CD9E3ECB662395B4429C648139053FB521F828AF606B4D3DBAA14B5E77EFE75928FE1DC127A2FFA8DE3348B3C1856A429BF97E7E31C2E5BD66
def pGy : Nat := 0x11839296A789A3BC0045C8A5FB42C7D1BD998F54449579B446817AFBD17273E662C97EE72995EF42640C550B9013FAD0761353C7086A272C24088BE94769FD16650

/-- a^e mod m over the n low bits of e. -/
def powMod (m : Nat) : Nat → Nat → Nat → Nat
  | 0, _, _ => 1
  | n + 1, a, e =>
    let h := powMod m n (a * a % m) (e / 2)
    if e % 2 = 1 then h * a % m else h

def invMod (m a : Nat) : Nat := powMod m 521 (a % m) (m - 2)

/-- Sum of two points; none is the point at infinity. -/
def ptAdd (p q : Option (Nat × Nat)) : Option (Nat × Nat) :=
  match p, q with
  | none, q => q
  | p, none => p
  | some (x1, y1), some (x2, y2) =>
    if x1 = x2 ∧ (y1 + y2) % pP = 0 then none
    else
      let l :=
        if x1 = x2 then (3 * x1 * x1 + (pP - 3)) * invMod pP (2 * y1) % pP
        else (y2 + pP - y1) * invMod pP (x2 + pP - x1) % pP
      let x3 := (l * l + 2 * pP - x1 - x2) % pP
      some (x3, (l * (x1 + pP - x3) + pP - y1) % pP)

/-- k times a point over the n low bits of k. -/
def ptMul : Nat → Nat → Option (Nat × Nat) → Option (Nat × Nat)
  | 0, _, _ => none
  | n + 1, k, p =>
    let h := ptMul n (k / 2) (ptAdd p p)
    if k % 2 = 1 then ptAdd h p else h

/-- Is the pair a point of the curve? -/
def onCurve (x y : Nat) : Bool := x < pP && y < pP && y * y % pP == (x * x * x + (pP - 3) * x + pB) % pP

/-- A 133-byte uncompressed public key as a point. -/
def pubKey (l : List Nat) : Option (Nat × Nat) :=
  let x := beNum ((l.drop 1).take 66)
  let y := beNum ((l.drop 67).take 66)
  if l.length = 133 && l.headD 0 == 4 && onCurve x y then some (x, y) else none

/-- The 133 bytes of a point. -/
def pubBytes (p : Option (Nat × Nat)) : List Nat :=
  match p with
  | some (x, y) => 4 :: beList 66 x ++ beList 66 y
  | none => 4 :: List.replicate 132 0

/-- ECDSA verification of a 132-byte signature over a 64-byte hash. -/
def ecdsaVerify (key hash sig : List Nat) : Bool :=
  match pubKey key with
  | none => false
  | some q =>
    let r := beNum (sig.take 66)
    let s := beNum (sig.drop 66)
    let w := invMod pN s
    let z := beNum hash
    sig.length == 132 && 1 ≤ r && r < pN && 1 ≤ s && s < pN &&
      match ptAdd (ptMul 521 (z * w % pN) (some (pGx, pGy))) (ptMul 521 (r * w % pN) (some q)) with
      | none => false
      | some (x, _) => x % pN == r

/-- ECDSA signature with secret d and per-signature number k. -/
def ecdsaSign (d k : Nat) (hash : List Nat) : List Nat :=
  match ptMul 521 k (some (pGx, pGy)) with
  | none => List.replicate 132 0
  | some (x, _) =>
    let r := x % pN
    beList 66 r ++ beList 66 (invMod pN k * (beNum hash + r * d) % pN)

/-- The 66-byte shared X coordinate of a secret and a public key. -/
def ecdh (d : Nat) (key : List Nat) : Option (List Nat) :=
  match pubKey key with
  | none => none
  | some q =>
    match ptMul 521 d (some q) with
    | none => none
    | some (x, _) => some (beList 66 x)

end Sys2Proof.Machine.Crypto
end

