-- ==== Sys2Proof/Machine/Format.lean ====
section
/-! DEFINITION. Number formats and exact arithmetic: decoding (R31 to R39), the rounding procedure (R40 to R44), and
conversions (R51 to R55). -/
namespace Sys2Proof.Machine

/-- Specials modes (R33). -/
inductive Spec where
  | finite | nanTop | ieee
  deriving DecidableEq, Repr

/-- A floating format (R32); `flush` marks f32, f16 and bf16, to which the fz policy applies (R40). -/
structure Fmt where
  s     : Nat
  ew    : Nat
  mw    : Nat
  bias  : Nat
  spec  : Spec
  flush : Bool
  deriving DecidableEq, Repr

def Fmt.f32 : Fmt := ⟨1, 8, 23, 127, .ieee, true⟩
def Fmt.f16 : Fmt := ⟨1, 5, 10, 15, .ieee, true⟩
def Fmt.bf16 : Fmt := ⟨1, 8, 7, 127, .ieee, true⟩
def Fmt.e4m3 : Fmt := ⟨1, 4, 3, 7, .nanTop, false⟩
def Fmt.e5m2 : Fmt := ⟨1, 5, 2, 15, .ieee, false⟩
def Fmt.e2m1 : Fmt := ⟨1, 2, 1, 1, .finite, false⟩

/-- An exact value: `real n d e` is (n / d) × 2^e with n not 0 and d not 0. -/
inductive Num where
  | nan
  | inf (neg : Bool)
  | zero (neg : Bool)
  | real (n : Int) (d : Nat) (e : Int)
  deriving DecidableEq, Repr

/-- Rounding modes (R40); reserved codes are refused before any rounding. -/
inductive Rm where
  | rne | rtz | rdn | rup | rmm
  deriving DecidableEq, Repr

/-- The arithmetic fields of `shape` in force (R40). -/
structure Arithm where
  rm  : Rm
  sat : Bool
  ftz : Bool
  daz : Bool
  deriving DecidableEq, Repr

/-- Exception flags as the low bits of `fx` (R45). -/
def flagNX : Nat := 1
def flagUF : Nat := 2
def flagOF : Nat := 4
def flagDZ : Nat := 8
def flagNV : Nat := 16

/-- The rounding mode of a code; none when reserved (R40). -/
def Rm.ofCode (c : Nat) : Option Rm :=
  match c with
  | 0 => some .rne | 1 => some .rtz | 2 => some .rdn | 3 => some .rup | 4 => some .rmm | _ => none

/-- The arithmetic fields of a `shape` value; none when rm is reserved (R40, R167). -/
def arithmOf (shape : Word) : Option Arithm :=
  (Rm.ofCode (bits shape 29 3)).map fun rm => ⟨rm, bit shape 32, bit shape 33, bit shape 34⟩

/-- Validity of a format descriptor (R38). -/
def fdValid (fd : Word) : Bool :=
  let ew := bits fd 4 4
  let mw := bits fd 8 4
  1 ≤ ew && ew ≤ 8 && mw ≤ 7 && bits fd 0 1 + ew + mw ≤ 8 && bits fd 24 2 ≠ 3

/-- The format a valid descriptor defines (R39). -/
def Fmt.ofFd (fd : Word) : Fmt :=
  ⟨bits fd 0 1, bits fd 4 4, bits fd 8 4, bits fd 16 8,
    match bits fd 24 2 with | 0 => .finite | 1 => .nanTop | _ => .ieee, false⟩

def fdBlk (fd : Word) : Bool := bit fd 26
def fdWidth (fd : Word) : Nat := bits fd 0 1 + bits fd 4 4 + bits fd 8 4

/-- The floating format of a type; mxf8 is e4m3 and mxf4 is e2m1 (R35). -/
def fmtOf (fd : Vector Word 4) : ElemTy → Option Fmt
  | .f32 => some .f32 | .f16 => some .f16 | .bf16 => some .bf16
  | .e4m3 | .mxf8 => some .e4m3 | .e5m2 => some .e5m2 | .e2m1 | .mxf4 => some .e2m1
  | .gf k => some (Fmt.ofFd fd[k])
  | _ => none

/-- Container bits of a type (R36, R168). -/
def containerBits (fd : Vector Word 4) (ty : ElemTy) : Nat :=
  match ty.fixedBits with
  | some n => n
  | none => match ty with | .gf k => if fdWidth fd[k] ≤ 4 then 4 else 8 | _ => 8

/-- Width and signedness of an integer type (R31). -/
def intOf : ElemTy → Option (Nat × Bool)
  | .i4 => some (4, true) | .i8 => some (8, true) | .i16 => some (16, true) | .i32 => some (32, true) | .i64 => some (64, true)
  | .n8 => some (8, false) | .n16 => some (16, false) | .n32 => some (32, false) | .n64 => some (64, false)
  | _ => none

/-- Is the operand block-scaled (R223)? -/
def isBlocked (fd : Vector Word 4) : ElemTy → Bool
  | .mxf8 | .mxf4 => true
  | .gf k => fdBlk fd[k]
  | _ => false

/-! ### Exact values -/

/-- n × 2^e for an integer n. -/
def Num.ofInt (n : Int) (e : Int) : Num := if n = 0 then .zero false else .real n 1 e

/-- Sign of an exact value, true when negative. -/
def Num.isNeg : Num → Bool
  | .nan => false | .inf s => s | .zero s => s | .real n _ _ => n < 0

def Num.neg : Num → Num
  | .nan => .nan | .inf s => .inf !s | .zero s => .zero !s | .real n d e => .real (-n) d e

/-- 2^k for a signed exponent as numerator and denominator. -/
def pow2n (k : Int) : Nat := 2 ^ k.toNat

/-- n1/d1 × 2^e1 + n2/d2 × 2^e2 exactly; none when it is zero. -/
def realAdd (n1 : Int) (d1 : Nat) (e1 : Int) (n2 : Int) (d2 : Nat) (e2 : Int) : Option Num :=
  let e := min e1 e2
  let n := n1 * (pow2n (e1 - e) * d2 : Nat) + n2 * (pow2n (e2 - e) * d1 : Nat)
  if n = 0 then none else some (.real n (d1 * d2) e)

/-- Exact product with its flags: infinity times zero is NaN with NV (R46, R49). -/
def Num.mul (a b : Num) : Num × Nat :=
  let s := a.isNeg != b.isNeg
  match a, b with
  | .nan, _ => (.nan, 0)
  | _, .nan => (.nan, 0)
  | .inf _, .zero _ => (.nan, flagNV)
  | .zero _, .inf _ => (.nan, flagNV)
  | .inf _, _ => (.inf s, 0)
  | _, .inf _ => (.inf s, 0)
  | .zero _, _ => (.zero s, 0)
  | _, .zero _ => (.zero s, 0)
  | .real n1 d1 e1, .real n2 d2 e2 => (.real (n1 * n2) (d1 * d2) (e1 + e2), 0)

/-- The finite part of an exact sum and whether every term is a zero of one sign. -/
structure SumAcc where
  nan   : Bool
  pinf  : Bool
  ninf  : Bool
  tot   : Option Num
  zpos  : Bool
  zneg  : Bool
  deriving DecidableEq, Repr

def SumAcc.start : SumAcc := ⟨false, false, false, none, false, false⟩

/-- Add one term exactly. -/
def SumAcc.add (a : SumAcc) (x : Num) : SumAcc :=
  match x with
  | .nan => { a with nan := true }
  | .inf true => { a with ninf := true }
  | .inf false => { a with pinf := true }
  | .zero true => { a with zneg := true }
  | .zero false => { a with zpos := true }
  | .real n d e =>
    match a.tot with
    | some (.real n' d' e') =>
      match realAdd n' d' e' n d e with
      | some t => { a with tot := some t }
      | none => { a with tot := none, zpos := true, zneg := true }
    | _ => { a with tot := some (.real n d e) }

/-- The value of a sum: NaN wins; both infinities give NaN with NV; an exact zero has the sign of R44. -/
def SumAcc.value (a : SumAcc) (rm : Rm) : Num × Nat :=
  if a.nan then (.nan, if a.pinf && a.ninf then flagNV else 0)
  else if a.pinf && a.ninf then (.nan, flagNV)
  else if a.pinf then (.inf false, 0)
  else if a.ninf then (.inf true, 0)
  else
    match a.tot with
    | some t => (t, 0)
    | none =>
      if a.zpos && a.zneg then (.zero (rm == .rdn), 0)
      else (.zero a.zneg, 0)

/-- Exact sum of terms (R44, R46). -/
def sumExact (rm : Rm) (ts : List Num) : Num × Nat := (ts.foldl SumAcc.add SumAcc.start).value rm

/-- Value times 2^k. -/
def Num.scale (x : Num) (k : Int) : Num :=
  match x with
  | .real n d e => .real n d (e + k)
  | y => y

/-- Compare magnitudes and signs of two values that are not NaN: less than, with -0 below +0 when `ordZero`. -/
def Num.lt (ordZero : Bool) (a b : Num) : Bool :=
  match a, b with
  | .nan, _ => false
  | _, .nan => false
  | .inf true, .inf true => false
  | .inf true, _ => true
  | _, .inf true => false
  | .inf false, _ => false
  | _, .inf false => true
  | .zero s, .zero t => ordZero && s && !t
  | .zero _, .real n _ _ => 0 < n
  | .real n _ _, .zero _ => n < 0
  | .real n1 d1 e1, .real n2 d2 e2 =>
    let e := min e1 e2
    n1 * (pow2n (e1 - e) * d2 : Nat) < n2 * (pow2n (e2 - e) * d1 : Nat)

/-- Equality of values, zeros of either sign equal; NaN equals nothing. -/
def Num.eqv (a b : Num) : Bool :=
  match a, b with
  | .nan, _ => false
  | _, .nan => false
  | a, b => !Num.lt false a b && !Num.lt false b a

/-! ### Rounding -/

/-- floor(log2(n / d)) for n and d above 0. -/
def log2Rat (n d : Nat) : Int :=
  let l : Int := (Nat.log2 n : Int) - (Nat.log2 d : Int)
  if d * pow2n l ≤ n * pow2n (-l) then l else l - 1

/-- The integer that a mode picks for p / q with a sign (R41). -/
def roundInt (rm : Rm) (neg : Bool) (p q : Nat) : Nat :=
  let f := p / q
  let r := p % q
  if r = 0 then f
  else
    match rm with
    | .rne => if 2 * r < q then f else if q < 2 * r then f + 1 else f + f % 2
    | .rmm => if 2 * r < q then f else f + 1
    | .rtz => f
    | .rdn => if neg then f + 1 else f
    | .rup => if neg then f else f + 1

/-- Code of the largest finite magnitude (R32, R41). -/
def Fmt.maxCode (f : Fmt) : Nat :=
  match f.spec with
  | .finite => 2 ^ (f.ew + f.mw) - 1
  | .nanTop => 2 ^ (f.ew + f.mw) - 2
  | .ieee => (2 ^ f.ew - 1) * 2 ^ f.mw - 1

def Fmt.hasInf (f : Fmt) : Bool := f.spec == .ieee
def Fmt.hasNan (f : Fmt) : Bool := f.spec == .nanTop || (f.spec == .ieee && 1 ≤ f.mw)

/-- A magnitude with a sign; an unsigned format has none. -/
def Fmt.signed (f : Fmt) (neg : Bool) (mag : Nat) : Nat := if neg && f.s == 1 then 2 ^ (f.ew + f.mw) + mag else mag

/-- Canonical NaN (R32, R43). -/
def Fmt.nanCode (f : Fmt) : Nat :=
  match f.spec with
  | .nanTop => 2 ^ (f.ew + f.mw) - 1
  | _ => (2 ^ f.ew - 1) * 2 ^ f.mw + 2 ^ (f.mw - 1)

def Fmt.infCode (f : Fmt) : Nat := (2 ^ f.ew - 1) * 2 ^ f.mw

/-- nan_result (R43). -/
def nanResult (f : Fmt) : Nat × Nat := if f.hasNan then (f.nanCode, 0) else (0, flagNV)

/-- inf_result (R43). -/
def infResult (f : Fmt) (neg sat : Bool) : Nat × Nat :=
  if f.hasInf then (f.signed neg f.infCode, 0)
  else if !sat && f.hasNan then (f.nanCode, flagNV)
  else (f.signed neg f.maxCode, flagNV)

/-- overflow (R42). -/
def overflow (f : Fmt) (neg : Bool) (rm : Rm) (sat : Bool) : Nat :=
  let away := rm == .rne || rm == .rmm || (rm == .rup && !neg) || (rm == .rdn && neg)
  if !sat && away then
    if f.hasInf then f.signed neg f.infCode else if f.hasNan then f.nanCode else f.signed neg f.maxCode
  else f.signed neg f.maxCode

/-- round_fmt on a value that is not zero: code and flags (R41). -/
def roundReal (f : Fmt) (a : Arithm) (n : Int) (d : Nat) (e : Int) : Nat × Nat :=
  let neg := decide (n < 0)
  let m := n.natAbs
  let emin : Int := 1 - (f.bias : Int)
  let l := log2Rat m d + e
  let eq := max l emin - (f.mw : Int)
  let p := m * pow2n (e - eq)
  let q := d * pow2n (eq - e)
  let r := roundInt a.rm neg p q
  let nx := if p % q = 0 then 0 else flagNX
  let uf := if l < emin && p % q ≠ 0 then flagUF else 0
  let mag := if r < 2 ^ f.mw then r else (eq + f.mw + f.bias).toNat * 2 ^ f.mw + (r - 2 ^ f.mw)
  if f.maxCode < mag then (overflow f neg a.rm a.sat, nx ||| uf ||| flagOF ||| flagNX)
  else if r = 0 then (f.signed neg 0, nx ||| uf)
  else if mag < 2 ^ f.mw && a.ftz && f.flush then (f.signed neg 0, flagUF ||| flagNX)
  else (f.signed neg mag, nx ||| uf)

/-- round_fmt: code of the result and the flags raised (R41). -/
def roundFmt (f : Fmt) (a : Arithm) (x : Num) : Nat × Nat :=
  match x with
  | .nan => nanResult f
  | .inf neg => if f.s = 0 && neg then (0, flagNV) else infResult f neg a.sat
  | .zero neg => (f.signed neg 0, 0)
  | .real n d e => if f.s = 0 && decide (n < 0) then (0, flagNV) else roundReal f a n d e

/-! ### Decoding -/

/-- The value of a code in a format (R33); bits above the width are ignored (R36). -/
def Fmt.decode (f : Fmt) (code : Nat) : Num :=
  let m := code % 2 ^ f.mw
  let e := code / 2 ^ f.mw % 2 ^ f.ew
  let neg := f.s == 1 && (code / 2 ^ (f.ew + f.mw)) % 2 == 1
  let top := 2 ^ f.ew - 1
  let sg (v : Nat) : Int := if neg then -(v : Int) else v
  let normal : Num := .real (sg (2 ^ f.mw + m)) 1 ((e : Int) - f.bias - f.mw)
  if e = top && f.spec == .ieee then (if m = 0 then .inf neg else .nan)
  else if e = top && f.spec == .nanTop && m = 2 ^ f.mw - 1 then .nan
  else if e = 0 then (if m = 0 then .zero neg else .real (sg m) 1 (1 - (f.bias : Int) - f.mw))
  else normal

/-- Is a code a subnormal, not zero? -/
def Fmt.isSub (f : Fmt) (code : Nat) : Bool := code / 2 ^ f.mw % 2 ^ f.ew == 0 && code % 2 ^ f.mw != 0

/-- Decoding as an input, where DAZ reads a subnormal as a zero of its sign (R40). -/
def Fmt.input (f : Fmt) (daz : Bool) (code : Nat) : Num :=
  if daz && f.flush && f.isSub code then .zero (f.decode code).isNeg else f.decode code

/-- The value of an e8m0 scale; none is NaN (R34). -/
def e8m0 (x : Nat) : Option Int := if x % 256 = 255 then none else some ((x % 256 : Nat) - 127 : Int)

/-- A value times an e8m0 scale; a scale of 0xFF gives NaN (R35). -/
def Num.scaleBy (x : Num) (sc : Option Int) : Num :=
  match sc with
  | none => .nan
  | some k => x.scale k

/-! ### Integers -/

/-- The value of an integer code. -/
def intVal (w : Nat) (signed : Bool) (code : Nat) : Int := if signed then sextNat w code else (code % 2 ^ w : Nat)

def intMin (w : Nat) (signed : Bool) : Int := if signed then -(2 ^ (w - 1) : Int) else 0
def intMax (w : Nat) (signed : Bool) : Int := if signed then (2 ^ (w - 1) : Int) - 1 else (2 ^ w : Int) - 1

def clampInt (lo hi v : Int) : Int := if v < lo then lo else if hi < v then hi else v

/-- Clamp when sat = 1, otherwise keep the low bits. -/
def narrowInt (w : Nat) (signed sat : Bool) (v : Int) : Nat :=
  wrapInt w (if sat then clampInt (intMin w signed) (intMax w signed) v else v)

/-- Integer of an exact value under a mode, with whether it was inexact. -/
def roundToInt (rm : Rm) (n : Int) (d : Nat) (e : Int) : Int × Bool :=
  let neg := decide (n < 0)
  let p := n.natAbs * pow2n e
  let q := d * pow2n (-e)
  let r := roundInt rm neg p q
  (if neg then -(r : Int) else r, p % q ≠ 0)

/-- Floating to integer (R52): result code and flags. -/
def toInt (w : Nat) (signed : Bool) (rm : Rm) (x : Num) : Nat × Nat :=
  match x with
  | .nan => (0, flagNV)
  | .zero _ => (0, 0)
  | .inf neg => (wrapInt w (if neg then intMin w signed else intMax w signed), flagNV)
  | .real n d e =>
    let (v, ix) := roundToInt rm n d e
    if v < intMin w signed || intMax w signed < v then (wrapInt w (clampInt (intMin w signed) (intMax w signed) v), flagNV)
    else (wrapInt w v, if ix then flagNX else 0)

/-- A value to a destination type, floating or integer: code and flags (R51 to R53). -/
def toTy (fd : Vector Word 4) (ty : ElemTy) (a : Arithm) (x : Num) : Nat × Nat :=
  match fmtOf fd ty with
  | some f => roundFmt f a x
  | none =>
    match intOf ty with
    | some (w, sg) => toInt w sg a.rm x
    | none => (0, 0)

/-- The value of an element code of any type, DAZ applied. -/
def valOf (fd : Vector Word 4) (ty : ElemTy) (daz : Bool) (code : Nat) : Num :=
  match fmtOf fd ty with
  | some f => f.input daz code
  | none =>
    match intOf ty with
    | some (w, sg) => Num.ofInt (intVal w sg code) 0
    | none => .zero false

/-- One element from a source to a destination type: R54 between integers, R51 to R53 otherwise; the same type is
rounded again when floating and unchanged when integer (R199). -/
def convCode (fd : Vector Word 4) (st dt : ElemTy) (a : Arithm) (code : Nat) : Nat × Nat :=
  match intOf st, intOf dt with
  | some (w, sg), some (w', sg') => (narrowInt w' sg' a.sat (intVal w sg code), 0)
  | _, _ => toTy fd dt a (valOf fd st a.daz code)

/-- The smaller (or larger) of two values, -0 below +0; NaN when either is (R115, R192). -/
def Num.pick (larger : Bool) (a b : Num) : Num :=
  match a, b with
  | .nan, _ => .nan
  | _, .nan => .nan
  | a, b => if Num.lt true a b == larger then b else a

/-- Exact square root rounded to odd far below any format's precision, so that one rounding of it is the rounding of the
root (R194). -/
def sqrtReal (n : Int) (e : Int) : Num :=
  let m := n.natAbs
  let (m, e) := if e % 2 = 0 then (m, e) else (2 * m, e - 1)
  let v := m * 2 ^ 160
  let r := Crypto.rootGo 2 v (Nat.log2 v / 2 + 1) 0
  if r * r = v then .real r 1 (e / 2 - 80) else .real (2 * r + 1) 1 (e / 2 - 81)

/-- Exponent of the format's largest finite value (R55). A descriptor whose largest finite value is 0 (ieee or nan-top with ew = 1
and mw = 0) has no such exponent; the model takes 0 (log 80). -/
def Fmt.emaxE (f : Fmt) : Int :=
  match f.decode f.maxCode with
  | .real n d e => log2Rat n.natAbs d + e
  | _ => 0

/-- The scale code and element codes of one packed block of values, with flags (R55). -/
def packBlock (f : Fmt) (rm : Rm) (xs : List Num) : Nat × List (Nat × Nat) × Nat :=
  let special := xs.any fun x => match x with | .nan | .inf _ => true | _ => false
  if special then (0xFF, xs.map fun _ => (0, 0), if f.hasNan then 0 else flagNV)
  else
    let mags := xs.filterMap fun x => match x with | .real n d e => some (log2Rat n.natAbs d + e) | _ => none
    match mags with
    | [] => (0, xs.map fun x => (f.signed x.isNeg 0, 0), 0)
    | m :: ms =>
      let sc := clampInt (-127) 127 (ms.foldl max m - f.emaxE)
      ((sc + 127).toNat, xs.map fun x => roundFmt f ⟨rm, true, false, false⟩ (x.scale (-sc)), 0)

end Sys2Proof.Machine
end

