-- ==== Sys2Proof/Machine/Flags.lean ====
section
/-! DEFINITION. Exception flags: accrual into `fx` and the choice of trap (R45 to R47). -/
namespace Sys2Proof.Machine

/-- Flags whose enable bit is 1: NVE [8], DZE [9], OFE [10]; UF and NX never trap (R45). -/
def enabledFlags (fx : Word) : Nat :=
  (if bit fx 8 then flagNV else 0) + (if bit fx 9 then flagDZ else 0) + (if bit fx 10 then flagOF else 0)

/-- The cause an element's flags raise: the first of invalid-operation, divide-by-zero, fp-overflow (R47). -/
def eventCause (enab fl : Nat) : Option Nat :=
  let e := enab &&& fl
  if e = 0 then none
  else if e &&& flagNV ≠ 0 then some 49
  else if e &&& flagDZ ≠ 0 then some 50
  else some 51

/-- Flags accrue into `fx` and are never cleared (R45). -/
def accrue (fx : Word) (fl : Nat) : Word := fx ||| w64 (fl % 32)

/-- The trap of a list of computed elements with their indices and flags: the first whose enabled flags are raised. -/
def firstEvent (fx : Word) (rs : List (Nat × Nat)) : Option Trap :=
  rs.findSome? fun r => (eventCause (enabledFlags fx) r.2).map fun c => ⟨c, w64 r.1, none⟩

/-- The OR of all flags. -/
def orFlags (fs : List Nat) : Nat := fs.foldl (· ||| ·) 0

end Sys2Proof.Machine
end

