-- ==== Sys2Proof/Machine/Phys.lean ====
section
/-! DEFINITION. Physical memory: the map of R92, the interleave of R93, sectors that fail (R105, R106), encrypted
sectors (R108), the home directory (R94, R365), the write-through queue and the L1 data cache (R159, R160). -/
namespace Sys2Proof.Machine

/-- Regions of the physical map (R92). -/
inductive Region where
  | hbm
  | gallery (hall : Nat)
  | pad (core : Nat)
  | device
  | window (pkg off : Nat)
  | host
  | none
  deriving DecidableEq, Repr

def hbmTop : Nat := 0xC000000000
def galleryBase : Nat := 0x10000000000
def galleryTop : Nat := 0x10048000000
def padBase : Nat := 0x11000000000
def padTop : Nat := 0x11048000000
def deviceBase : Nat := 0x12000000000
def deviceTop : Nat := 0x12010000000
def windowBase : Nat := 0x1000000000000
def windowTop : Nat := 0x2800000000000
def hostBase : Nat := 0x8000000000000
def hostTop : Nat := 0x10000000000000

/-- The region of a physical address; hall of a gallery is 9d + h (R92). -/
def regionOf (pa : Nat) : Region :=
  if pa < hbmTop then .hbm
  else if galleryBase ≤ pa && pa < galleryTop then .gallery ((pa - galleryBase) / 0x1000000)
  else if padBase ≤ pa && pa < padTop then .pad ((pa - padBase) / 0x100000)
  else if deviceBase ≤ pa && pa < deviceTop then .device
  else if windowBase ≤ pa && pa < windowTop then .window ((pa - windowBase) / 0x10000000000) ((pa - windowBase) % 0x10000000000)
  else if hostBase ≤ pa && pa < hostTop then .host
  else .none

/-- Galleries and scratchpads are scratch; every other region is global (R146). -/
def Region.isScratch : Region → Bool
  | .gallery _ | .pad _ => true
  | _ => false

/-- Where a local HBM address lies (R93): stack base, channel within the stack, byte offset within the channel. -/
structure HbmPlace where
  stack  : Nat
  chan   : Nat
  offset : Nat
  deriving DecidableEq, Repr

/-- The hash of R93. -/
def hbmPlace (pa : Nat) : HbmPlace :=
  let g := pa / 256 % 2 ^ 32
  let q := g / 384
  let rem := g % 384
  let n := 128 * (rem / 128) + ((rem % 128) ^^^ (q % 128))
  ⟨n % 12, n / 12, 256 * q + pa % 256⟩

/-- The local HBM address of a place: the inverse of the hash, which is a bijection (R93). -/
def hbmAddr (h : HbmPlace) : Nat :=
  let q := h.offset / 256
  let n := 12 * h.chan + h.stack
  256 * (384 * q + 128 * (n / 128) + ((n % 128) ^^^ (q % 128))) + h.offset % 256

/-- Stack base of a local HBM address (R93). -/
def stackOf (pa : Nat) : Nat := (hbmPlace pa).stack

/-- The ECCCNT unit that counts an error at pa: a stack base, else the compute die of the scratch store (R392). -/
def eccUnit (pa : Nat) : Option Nat :=
  match regionOf pa with
  | .hbm => some (12 + stackOf pa)
  | .gallery h => some (h / 9)
  | .pad c => some (dieOfCore c)
  | _ => none

/-- The sector numbers of n bytes from pa. -/
def sectorsOf (pa n : Nat) : List Nat := if n = 0 then [] else (List.range ((pa + n - 1) / 32 + 1 - pa / 32)).map (· + pa / 32)

/-- The key of a partition as 64 bytes. -/
def State.keyBytes (s : State) (p : Nat) : Option (List Nat) := (s.part p).key.map fun k => Crypto.leList 64 k.toNat

/-- Bytes as numbers and back. -/
def toNats (l : List Byte) : List Nat := l.map BitVec.toNat
def ofNats (l : List Nat) : List Byte := l.map (BitVec.ofNat 8)

/-- A sector's plain bytes: as stored, or decrypted under the key with tweak pa[51:5] (R108). -/
def State.sectorPlain (s : State) (key : Option (List Nat)) (sec : Nat) : List Byte :=
  let raw := memRead s.mem (32 * sec) 32
  match key with
  | none => raw
  | some k => ofNats (Crypto.xts true k sec (toNats raw))

/-- The first failing sector among n bytes from pa. -/
def State.badIn (s : State) (pa n : Nat) : Option Nat :=
  if n = 0 then none else s.bad.find? fun b => pa / 32 ≤ b && b ≤ (pa + n - 1) / 32

/-- Read n bytes from pa; the error is the offset of the first requested byte in a failing sector (R105). -/
def State.physRead (s : State) (key : Option (List Nat)) (pa n : Nat) : Except Nat (List Byte) :=
  match s.badIn pa n with
  | some b => .error (32 * b - pa)
  | none =>
    match key with
    | none => .ok (memRead s.mem pa n)
    | some _ => .ok ((((sectorsOf pa n).map (s.sectorPlain key)).flatten.drop (pa % 32)).take n)

/-- Write bytes that lie in one sector: a failing sector takes only a write of all 32 bytes (R106). -/
def State.writeSector (s : State) (key : Option (List Nat)) (pa : Nat) (bs : List Byte) : State :=
  let sec := pa / 32
  if s.bad.contains sec && bs.length < 32 then s
  else
    let s := { s with bad := delNat sec s.bad, soft := if bs.length < 32 then s.soft else delNat sec s.soft }
    match key with
    | none => { s with mem := memWrite s.mem pa bs }
    | some k =>
      let old := s.sectorPlain key sec
      let new := old.take (pa % 32) ++ bs ++ old.drop (pa % 32 + bs.length)
      { s with mem := memWrite s.mem (32 * sec) (ofNats (Crypto.xts false k sec (toNats new))) }

/-- Write a run of bytes sector by sector; the first argument bounds the sectors. -/
def State.physWriteGo (key : Option (List Nat)) : Nat → State → Nat → List Byte → State
  | 0, s, _, _ => s
  | f + 1, s, pa, bs =>
    if bs.isEmpty then s
    else
      let l := 32 - pa % 32
      State.physWriteGo key f (s.writeSector key pa (bs.take l)) (pa + l) (bs.drop l)

/-- Write a run of bytes (R106, R108). -/
def State.physWrite (s : State) (key : Option (List Nat)) (pa : Nat) (bs : List Byte) : State :=
  State.physWriteGo key (bs.length / 32 + 2) s pa bs

/-! ### The home directory (R94, R365) -/

/-- Lines of 128 bytes that n bytes from pa touch. -/
def linesOf (pa n : Nat) : List Nat := if n = 0 then [] else (List.range ((pa + n - 1) / 128 + 1 - pa / 128)).map (· + pa / 128)

def dirNone : DirEntry := ⟨0, none, (0, false)⟩

/-- Lines that one die cache holds: 96 MiB of 128 bytes (R15, R28). -/
def dieCacheLines : Nat := 786432

/-- Die d holds a copy. -/
def DirEntry.heldBy (e : DirEntry) (d : Nat) : Bool := bit e.pres d

/-- Die d's copy goes, written back first if it is Modified; with no copy left the home keeps no entry (R94, R95). -/
def DirEntry.without (e : DirEntry) (d : Nat) : DirEntry :=
  let p := e.pres &&& ~~~(BitVec.ofNat 8 (2 ^ d))
  if p = 0 then dirNone else ⟨p, if e.owner = some d then none else e.owner, e.tag⟩

/-- An access under a tag meets the copies: under another tag, the Modified copy is written back and every copy is
invalidated (R109). -/
def DirEntry.under (e : DirEntry) (tag : Nat × Bool) : DirEntry := if e.tag = tag then e else { dirNone with tag := tag }

/-- A die cache over its size gives up a copy: the lowest-numbered line but the one just taken (R28; log 70). -/
def dirFit (t : Tbl DirEntry) (d line : Nat) : Tbl DirEntry :=
  if t.length ≤ dieCacheLines then t
  else if (t.filter fun e => e.2.heldBy d).length ≤ dieCacheLines then t
  else
    match t.find? fun e => e.1 ≠ line && e.2.heldBy d with
    | some e => Tbl.set dirNone t e.1 (e.2.without d)
    | none => t

/-- Die d reads a line under a tag: a Modified copy of another die is recalled, and d joins the sharers. -/
def dirRead (t : Tbl DirEntry) (d : Nat) (tag : Nat × Bool) (line : Nat) : Tbl DirEntry :=
  let e := (Tbl.get dirNone t line).under tag
  dirFit (Tbl.set dirNone t line ⟨e.pres ||| BitVec.ofNat 8 (2 ^ d), if e.owner = some d then some d else none, tag⟩) d line

/-- Die d writes a line under a tag: every other copy is invalidated and d holds it Modified. -/
def dirWrite (t : Tbl DirEntry) (d : Nat) (tag : Nat × Bool) (line : Nat) : Tbl DirEntry :=
  dirFit (Tbl.set dirNone t line ⟨BitVec.ofNat 8 (2 ^ d), some d, tag⟩) d line

/-- The home recalls a line: the Modified copy is written back and no die holds it (R95, R96). -/
def dirRecall (t : Tbl DirEntry) (line : Nat) : Tbl DirEntry := Tbl.set dirNone t line dirNone

/-- The home recalls a line's Modified copy, if there is one; clean copies stay (R96). -/
def dirClean (t : Tbl DirEntry) (line : Nat) : Tbl DirEntry :=
  let e := Tbl.get dirNone t line
  if e.owner.isSome then Tbl.set dirNone t line { e with owner := none } else t

/-- Only local HBM has lines. -/
def dirLines (pa n : Nat) : List Nat := if regionOf pa = .hbm then linesOf pa n else []

/-- Die d's cache reads n bytes from pa under a tag. -/
def State.dirReadBy (s : State) (d : Nat) (tag : Nat × Bool) (pa n : Nat) : State :=
  { s with dir := (dirLines pa n).foldl (fun t l => dirRead t d tag l) s.dir }

/-- A stack engine, or an agent at the home, reads n bytes from pa: Modified copies are recalled (R96). -/
def State.homeRead (s : State) (pa n : Nat) : State := { s with dir := (dirLines pa n).foldl dirClean s.dir }

/-- The key of an access under a tag; none where the tag is encrypted and its partition has no key (R108). -/
def State.keyFor (s : State) (tag : Nat × Bool) : Option (Option (List Nat)) :=
  if tag.2 then (s.keyBytes tag.1).map some else some none

/-- The key under a tag, none for plain data. -/
def State.tagKey (s : State) (tag : Nat × Bool) : Option (List Nat) := if tag.2 then s.keyBytes tag.1 else none

/-- Write bytes at pa through die d's cache under a tag (R94, R108, R159). A write through an encrypted page whose partition
has no key is not performed (log 71). -/
def State.writeVia (s : State) (d : Nat) (tag : Nat × Bool) (pa : Nat) (bs : List Byte) : State :=
  match s.keyFor tag with
  | none => s
  | some key =>
    let s := s.physWrite key pa bs
    { s with dir := (dirLines pa bs.length).foldl (fun t l => dirWrite t d tag l) s.dir }

/-- A write of n bytes at pa by agent `by` (none: not a strand): every other strand whose granule it meets loses its
reservation (R60). -/
def State.breakResv (s : State) (by_ : Option Nat) (pa n : Nat) : State :=
  let hit (k : Nat) : Bool :=
    by_ ≠ some k && match (s.strand k).resv with | some g => 64 * g < pa + n && pa < 64 * g + 64 | none => false
  ((s.strands.map Prod.fst).filter hit).foldl (fun s k => s.setStrand k { s.strand k with resv := none }) s

/-- Write bytes at their home for an agent, which invalidates every die-cache copy first (R96, R159). -/
def State.writeHome (s : State) (by_ : Option Nat) (key : Option (List Nat)) (pa : Nat) (bs : List Byte) : State :=
  let s := (s.physWrite key pa bs).breakResv by_ pa bs.length
  { s with dir := (dirLines pa bs.length).foldl dirRecall s.dir }

/-! ### The write-through queue and the L1 data cache (R159, R160) -/

def WtEntry.meets (e : WtEntry) (pa n : Nat) : Bool := e.pa < pa + n && pa < e.pa + e.bytes.length

/-- Deliver one queued store of core c to the die cache: other strands' reservations on its granule are lost (R60). -/
def State.deliverOne (s : State) (c : Nat) (e : WtEntry) : State :=
  (s.writeVia (dieOfCore c) e.tag e.pa e.bytes).breakResv (some e.owner) e.pa e.bytes.length

/-- Deliver, in order, every queued store of core c that meets the predicate. -/
def State.deliverIf (s : State) (c : Nat) (p : WtEntry → Bool) : State :=
  let q := (s.core c).wtq
  let s := (q.filter p).foldl (fun s e => s.deliverOne c e) s
  s.setCore c { s.core c with wtq := q.filter fun e => !p e }

/-- Deliver core c's queued stores when one of them meets n bytes from pa. -/
def State.deliverOver (s : State) (c pa n : Nat) : State :=
  if (s.core c).wtq.any (fun e => e.meets pa n) then s.deliverIf c (fun _ => true) else s

/-- Drain core c's write-through queue (R160). -/
def State.drainWt (s : State) (c : Nat) : State :=
  if (s.core c).wtq.isEmpty then s else s.deliverIf c (fun _ => true)

/-- Lines of an L1 data cache: 64 KiB of 128 bytes (R27; log 8). -/
def l1Lines : Nat := 512

/-- Fill a line of core c's L1; a full cache gives up the line filled longest ago (R27; log 70). -/
def State.fillL1 (s : State) (c line : Nat) (part : Option Nat) (bs : List Byte) : State :=
  s.setCore c { s.core c with l1 := (⟨line, part, bs⟩ :: (s.core c).l1.filter fun e => e.line ≠ line).take l1Lines }

/-- Invalidate core c's L1 lines that overlap n bytes from pa. -/
def State.dropL1 (s : State) (c pa n : Nat) : State :=
  if (s.core c).l1.isEmpty then s
  else s.setCore c { s.core c with l1 := (s.core c).l1.filter fun e => !(128 * e.line < pa + n && pa < 128 * e.line + 128) }

/-- Invalidate every line of core c's L1 data cache (R160). -/
def State.clearL1 (s : State) (c : Nat) : State :=
  if (s.core c).l1.isEmpty then s else s.setCore c { s.core c with l1 := [] }

/-! ### Ordering points (R150, R160) -/

/-- Scope at least as wide as another. -/
def scopeGe (a b : Scope) : Bool := b.code ≤ a.code

/-- A release point of strand k: from core scope up, the write-through queue of its core is drained (R160). -/
def State.releasePoint (s : State) (k : Nat) (sc : Scope) : State := if scopeGe sc .core then s.drainWt (coreOf k) else s

/-- An acquire point of strand k: from hall scope up over global space, the L1 of its core is invalidated (R160). -/
def State.acquirePoint (s : State) (k : Nat) (sc : Scope) (sp : Space) : State :=
  if scopeGe sc .hall && sp != .scratch then s.clearL1 (coreOf k) else s

/-- A full point: both actions (R160). -/
def State.fullPoint (s : State) (k : Nat) (sc : Scope) (sp : Space) : State :=
  (s.releasePoint k sc).acquirePoint k sc sp

end Sys2Proof.Machine
end

