-- ==== Sys2Proof/Machine/Translate.lean ====
section
/-! DEFINITION. Translation (R97 to R101): the page-table walk, the TLBs and held pointer entries, and pins. -/
namespace Sys2Proof.Machine

/-- Whose access is translated: core of the TLB (none for a landing, which walks), partition, `vmroot`, mode and the SUM
and MXR bits. -/
structure Ctx where
  core   : Option Nat
  part   : Nat
  vmroot : Word
  mode   : Mode
  sum    : Bool
  mxr    : Bool
  deriving DecidableEq, Repr

/-- A translated address: physical address, encryption, and the page as a pin. -/
structure Xlat where
  pa  : Nat
  enc : Bool
  pin : Pin
  deriving DecidableEq, Repr

/-- The page fault of an access (R99, R330). -/
def pageFault (acc : Acc) (va : Nat) : Trap :=
  ⟨match acc with | .read => 13 | .write => 15 | .exec => 12, w64 va, none⟩

/-- The access fault of an access. -/
def accessFault (acc : Acc) (va : Nat) : Trap :=
  ⟨match acc with | .read => 5 | .write => 7 | .exec => 1, w64 va, none⟩

/-- memory-uncorrectable (R105). -/
def uncorrectable (va pa : Nat) : Trap := ⟨24, w64 va, eccUnit pa⟩

/-- Lowest VA bit of a level (R98). -/
def lvlLo : Nat → Nat
  | 0 => 16 | 1 => 21 | 2 => 29 | 3 => 35 | _ => 46

/-- Index bits of a level. -/
def lvlBits : Nat → Nat
  | 0 => 5 | 1 => 8 | 2 => 6 | _ => 11

/-- Bytes of a level's table, also its alignment. -/
def tableSize (lvl : Nat) : Nat := 8 * 2 ^ lvlBits lvl

def pageSize (lvl : Nat) : Nat := 2 ^ lvlLo lvl

/-- `vmroot` fields (R97). -/
def vmAsid (w : Word) : Nat := bits w 48 16
def vmEn (w : Word) : Bool := bit w 47
def vmRoot (w : Word) : Nat := bits w 0 38 * 2 ^ 14

/-- The leaf checks of R99 at a level, in order. -/
def leafCheck (c : Ctx) (acc : Acc) (va lvl : Nat) (pte : Word) : Except Trap Xlat :=
  let r := bit pte 1
  let w := bit pte 2
  let x := bit pte 3
  let u := bit pte 4
  let base := bits pte 16 44 * 2 ^ 8
  let size := pageSize lvl
  let pa := base + va % size
  let enc := bit pte 8
  let pf : Except Trap Xlat := .error (pageFault acc va)
  if lvl = 4 || (w && !r) then pf
  else if base % size ≠ 0 then pf
  else if !bit pte 6 || (acc == .write && !bit pte 7) then pf
  else if (acc == .read && !(r || (c.mxr && x))) || (acc == .write && !w) || (acc == .exec && !x) then pf
  else if c.mode == .u && !u then pf
  else if c.mode == .s && u && (acc == .exec || !c.sum) then pf
  else if enc && regionOf pa ≠ .hbm then pf
  else .ok ⟨pa, enc, ⟨va - va % size, base, size, enc, vmAsid c.vmroot, bit pte 5⟩⟩

/-- Walk from level lvl, whose table is at a; answers the translation, the leaf entry met and the tables below that were
met on the way. -/
def walk (s : State) (c : Ctx) (acc : Acc) (va : Nat) : Nat → Nat → Nat → List PtrEntry → Except Trap (Xlat × Word × List PtrEntry)
  | 0, _, _, _ => .error (pageFault acc va)
  | f + 1, lvl, a, ptrs =>
    let ea := a + 8 * (va / 2 ^ lvlLo lvl % 2 ^ lvlBits lvl)
    match s.physRead none ea 8 with
    | .error _ => .error (uncorrectable va ea)
    | .ok bs =>
      let pte := w64 (leNat bs)
      if !bit pte 0 || bits pte 60 4 ≠ 0 || bits pte 9 7 ≠ 0 then .error (pageFault acc va)
      else if bits pte 1 3 = 0 then
        if lvl = 0 || bits pte 4 5 ≠ 0 then .error (pageFault acc va)
        else
          let t := bits pte 16 44 * 2 ^ 8
          if t % tableSize (lvl - 1) ≠ 0 then .error (pageFault acc va)
          else if regionOf t ≠ .hbm then .error (accessFault acc va)
          else walk s c acc va f (lvl - 1) t (⟨vmAsid c.vmroot, lvl - 1, va / 2 ^ lvlLo lvl, t⟩ :: ptrs)
      else match leafCheck c acc va lvl pte with
        | .ok x => .ok (x, pte, ptrs)
        | .error e => .error e

/-- The addresses of the page-table entries that a walk of va reads from level lvl, whose table is at a (R99). -/
def walkReads (s : State) (va : Nat) : Nat → Nat → Nat → List Nat
  | 0, _, _ => []
  | f + 1, lvl, a =>
    let ea := a + 8 * (va / 2 ^ lvlLo lvl % 2 ^ lvlBits lvl)
    ea ::
      match s.physRead none ea 8 with
      | .error _ => []
      | .ok bs =>
        let pte := w64 (leNat bs)
        let t := bits pte 16 44 * 2 ^ 8
        if bit pte 0 && bits pte 60 4 = 0 && bits pte 9 7 = 0 && bits pte 1 3 = 0 && lvl ≠ 0 && bits pte 4 5 = 0 &&
            t % tableSize (lvl - 1) = 0 && regionOf t = .hbm then walkReads s va f (lvl - 1) t
        else []

/-- The level of a page size. -/
def lvlOfSize (size : Nat) : Nat := if size = 2 ^ 16 then 0 else if size = 2 ^ 21 then 1 else if size = 2 ^ 29 then 2 else 3

/-- A TLB entry that grants the access: it covers the address, is tagged with the ASID or global, and passes the leaf
checks (R100). An entry that does not grant is not used (log 11). -/
def tlbFind (es : List TlbEntry) (c : Ctx) (acc : Acc) (va : Nat) : Option (Xlat × TlbEntry) :=
  es.findSome? fun e =>
    if e.va ≤ va && va < e.va + e.size && (e.asid == vmAsid c.vmroot || bit e.pte 5) then
      match leafCheck c acc va (lvlOfSize e.size) e.pte with
      | .ok x => some (x, e)
      | .error _ => none
    else none

/-- Enter a translation in the TLB of a core and of its die, and the pointer entries in the die's walker. -/
def State.fillTlb (s : State) (core : Nat) (e : TlbEntry) (ptrs : List PtrEntry) : State :=
  let d := dieOfCore core
  let s := s.setCore core { s.core core with tlb := (e :: (s.core core).tlb.filter (· ≠ e)).take 96 }
  s.setDie d { s.die d with
    tlb := (e :: (s.die d).tlb.filter (· ≠ e)).take 16384
    ptrs := ptrs ++ (s.die d).ptrs.filter (fun p => !ptrs.contains p) }

/-- The deepest held pointer entry that serves the address: level and table. -/
def ptrFind (ps : List PtrEntry) (c : Ctx) (va : Nat) : Option (Nat × Nat) :=
  ((List.range 4).findSome? fun lvl =>
    ps.find? fun p => p.lvl == lvl && p.asid == vmAsid c.vmroot && p.va == va / 2 ^ lvlLo (lvl + 1)).map fun p => (p.lvl, p.tab)

/-- A walk from the root (R99). -/
def walkRoot (s : State) (c : Ctx) (acc : Acc) (va : Nat) : Except Trap (Xlat × Word × List PtrEntry) :=
  if regionOf (vmRoot c.vmroot) ≠ .hbm then .error (accessFault acc va) else walk s c acc va 5 4 (vmRoot c.vmroot) []

/-- A walk from the deepest held pointer entry, falling back to the root. -/
def walkHeld (s : State) (c : Ctx) (core : Nat) (acc : Acc) (va : Nat) : Except Trap (Xlat × Word × List PtrEntry) :=
  match ptrFind (s.die (dieOfCore core)).ptrs c va with
  | some (lvl, t) =>
    match walk s c acc va 5 lvl t [] with
    | .ok r => .ok r
    | .error _ => walkRoot s c acc va
  | none => walkRoot s c acc va

/-- The entries that the walk of walkRoot reads. -/
def rootReads (s : State) (c : Ctx) (va : Nat) : List Nat :=
  if regionOf (vmRoot c.vmroot) ≠ .hbm then [] else walkReads s va 5 4 (vmRoot c.vmroot)

/-- The entries that the walk of walkHeld reads. -/
def heldReads (s : State) (c : Ctx) (core : Nat) (acc : Acc) (va : Nat) : List Nat :=
  match ptrFind (s.die (dieOfCore core)).ptrs c va with
  | some (lvl, t) => walkReads s va 5 lvl t ++ (if (walk s c acc va 5 lvl t []).isOk then [] else rootReads s c va)
  | none => rootReads s c va

/-- Count an uncorrectable sector consumed, or corrected errors, in ECCCNT (R392). -/
def State.eccAdd (s : State) (unit : Option Nat) (unc cor : Nat) : State :=
  match unit with
  | none => s
  | some i =>
    let e := Tbl.get (0, 0) s.regs.ecc i
    let cap (n : Nat) : Nat := min n (2 ^ 32 - 1)
    { s with regs := { s.regs with ecc := Tbl.set (0, 0) s.regs.ecc i (cap (e.1 + unc), cap (e.2 + cor)) } }

/-- Count the corrected errors met by a read of n bytes from pa (R104). -/
def State.noteSoft (s : State) (pa n : Nat) : State :=
  (s.soft.filter (fun c => pa < 32 * c + 32 && 32 * c < pa + n)).foldl (fun s c => s.eccAdd (eccUnit (32 * c)) 0 1) s

/-- An agent at the home reads bytes: Modified copies are recalled (R96), corrected errors are counted, and a failing sector counts
as an uncorrectable error consumed (R104, R105, R392). -/
def State.noteReads (s : State) (rs : List (Nat × Nat)) : State :=
  rs.foldl (fun s r =>
    let s := (s.homeRead r.1 r.2).noteSoft r.1 r.2
    (s.bad.filter fun b => r.2 ≠ 0 && r.1 / 32 ≤ b && b ≤ (r.1 + r.2 - 1) / 32).foldl (fun s b => s.eccAdd (eccUnit (32 * b)) 1 0) s) s

/-- What a walk leaves beside its answer: its reads go through the die's cache as plain data of the partition (R99, R94), met
corrected errors are counted (R104), and it counts for the executing strand whether it answers or faults (R379 event 12). -/
def State.walked (s : State) (c : Ctx) (core : Nat) (eas : List Nat) : State :=
  (eas.foldl (fun (s : State) ea => (s.dirReadBy (dieOfCore core) (c.part, false) ea 8).noteSoft ea 8) s).countEv s.cur 12 1

/-- The translation of R99, with the TLBs of R100; M mode is not translated (log 10). A fault is answered with the state that its
walk leaves. A landing's walk reads at the home, and its faults raise no trap, so that errors it meets are counted here. -/
def translate (s : State) (c : Ctx) (acc : Acc) (va : Nat) : Except (State × Trap) (State × Xlat) :=
  if c.mode == .m || !vmEn c.vmroot then
    if c.mode == .u || va / 2 ^ 52 ≠ 0 then .error (s, accessFault acc va)
    else .ok (s, ⟨va, false, ⟨va - va % 65536, va - va % 65536, 65536, false, 0, true⟩⟩)
  else if va / 2 ^ 56 ≠ 0 && va / 2 ^ 56 ≠ 255 then .error (s, pageFault acc va)
  else
    match c.core with
    | none =>
      let s1 := s.noteReads ((rootReads s c va).map fun ea => (ea, 8))
      match walkRoot s c acc va with
      | .ok (x, _, _) => .ok (s1, x)
      | .error e => .error (s1, e)
    | some core =>
      match tlbFind (s.core core).tlb c acc va with
      | some (x, _) => .ok (s, x)
      | none =>
        match tlbFind (s.die (dieOfCore core)).tlb c acc va with
        | some (x, e) => .ok (s.fillTlb core e [], x)
        | none =>
          let s1 := s.walked c core (heldReads s c core acc va)
          match walkHeld s c core acc va with
          | .ok (x, pte, ptrs) => .ok (s1.fillTlb core ⟨vmAsid c.vmroot, x.pin.va, x.pin.size, pte⟩ ptrs, x)
          | .error e => .error (s1, e)

/-- The context of a scalar access of the executing strand. -/
def State.ctx (s : State) : Ctx :=
  ⟨some (coreOf s.cur), s.partOf s.cur, s.me.csr.vmroot, s.me.mode, bit s.me.csr.sstatus 18, bit s.me.csr.sstatus 19⟩

/-- The context of a vector-side access: mode, SUM and MXR as read at issue (R99). -/
def State.vctx (s : State) : Ctx :=
  let (md, sm, mx) := s.capMode
  ⟨some (coreOf s.cur), s.partOf s.cur, s.me.csr.vmroot, md, sm, mx⟩

/-- The tag of an access: its partition, and whether it goes through an encrypted page (R109). -/
def State.tagOfEnc (s : State) (enc : Bool) : Nat × Bool := (s.partOf s.cur, enc)

/-- The key an access uses: none for plain pages; an encrypted page needs the partition's key (R108). -/
def State.accessKey (s : State) (c : Ctx) (enc : Bool) (acc : Acc) (va : Nat) : Except Trap (Option (List Nat)) :=
  if enc then
    match s.keyBytes c.part with
    | some k => .ok (some k)
    | none => .error (accessFault acc va)
  else .ok none

/-- Is a domain package reachable: joined, trained, and not this package (R92, R363)? -/
def State.pkgReachable (s : State) (p : Nat) : Bool :=
  bit s.regs.domain 63 && !s.regs.heldOut && p != bits s.regs.domain 0 9 && s.regs.uaports.any (fun u => !u.down && u.peer == some p)

/-- Does a strand's flight have a scratchpad page of a core set aside: pages [64 - spp, 64) (R292)? -/
def State.asidePad (s : State) (flight : Option Nat) (core page : Nat) : Bool :=
  match flight with
  | some id => (s.core core).aside.any (fun a => a.1 == id && 64 - a.2.pages ≤ page)
  | none => false

/-- Does a flight have a gallery page of a hall set aside: pages [256 - gpp, 256) (R292)? -/
def State.asideGal (s : State) (flight : Option Nat) (hall page : Nat) : Bool :=
  match flight with
  | some id => s.gallery.any (fun g => g.1 == id && g.2.1 == hall && 256 - g.2.2 ≤ page)
  | none => false

/-- Strand numbers of a core. -/
def strandsOf (core : Nat) : List Nat := (List.range 16).map (· + 16 * core)

/-- Accessors of R120 and R121. -/
inductive Accessor where
  | plain      -- load, store, LR, SC, AMO, stream
  | stream
  | copy       -- `tcp`, stack-engine operation
  deriving DecidableEq, Repr

/-- May strand k reach the physical address as this accessor (R92, R120, R121)? -/
def State.admits (s : State) (k : Nat) (a : Accessor) (pa : Nat) : Bool :=
  let t := s.strand k
  let c := coreOf k
  match regionOf pa with
  | .hbm => true
  | .host => true
  | .window p off => s.pkgReachable p && off < 0xC000000000
  | .device => a == .plain
  | .none => false
  | .pad c' =>
    let page := (pa - padBase) % 0x100000 / 0x4000
    if c' = c then t.pages.contains page || s.asidePad t.flight c' page
    else
      a == .copy &&
      (s.asidePad t.flight c' page ||
        (t.flight.isSome && (strandsOf c').any (fun j => (s.strand j).flight == t.flight && (s.strand j).pages.contains page)))
  | .gallery h =>
    let page := (pa - galleryBase) % 0x1000000 / 0x10000
    (a == .copy || h / 9 == dieOfCore c) && s.asideGal t.flight h page

end Sys2Proof.Machine
end

