-- ==== Sys2Proof/Machine/Operands.lean ====
section
/-! DEFINITION. Operand forms of the vector side: the grant (R167 to R170), element access, blocks by name (R165,
R171), predicates, and the checks of R186 that are common to vector instructions. -/
namespace Sys2Proof.Machine

/-- Granted rows and row length (R167). -/
def grantRows (shape : Word) : Nat := bits shape 16 5
def grantLen (shape : Word) : Nat := bits shape 0 11

/-- Number of element positions under the grant (R170). -/
def grantCount (shape : Word) : Nat := grantRows shape * grantLen shape

/-- Row-length limit of a container width (R168). -/
def limBits (w : Nat) : Nat := 4096 / w

/-- Element (i, j) of a register in containers of w bits. -/
def elem (b : BitVec 65536) (w i j : Nat) : Nat := bits b (4096 * i + w * j) w

/-- A register with element (i, j) replaced. -/
def setElem (b : BitVec 65536) (w i j v : Nat) : BitVec 65536 := setBits b (4096 * i + w * j) w v

/-- Flat byte f of a register. -/
def flatByte (b : BitVec 65536) (f : Nat) : Byte := BitVec.ofNat 8 (bits b (8 * f) 8)

/-- Flat bytes [lo, lo + n). -/
def flatBytes (b : BitVec 65536) (lo n : Nat) : List Byte := leBytes n (bits b (8 * lo) (8 * n))

/-- A register with flat bytes from lo replaced. -/
def setFlat (b : BitVec 65536) (lo : Nat) (bs : List Byte) : BitVec 65536 := setBits b (8 * lo) (8 * bs.length) (leNat bs)

/-- The physical block that a name is bound to (R165). -/
def Strand.blockOf (t : Strand) (r : VReg) : Option Nat := t.blocks[r.val]?

/-- The physical tile that a name is bound to (R165). -/
def Strand.tileOf (t : Strand) (r : Reg8) : Option Nat := t.tiles[r.val]?

/-- Contents of a named register of the executing strand; 0 where it is not held (never read then, R166). -/
def State.vget (s : State) (r : VReg) : BitVec 65536 :=
  match s.me.blockOf r with
  | some b => (s.myCore.block b).data
  | none => 0

/-- Failing words of a named register that a write covers in full, by row and 64-bit word, are failing no more (R225). -/
def State.vheal (s : State) (r : VReg) (covers : Nat → Nat → Bool) : State :=
  match s.me.blockOf r with
  | some b =>
    let c := s.myCore
    if c.badRows.isEmpty then s
    else s.setMyCore { c with badRows := c.badRows.filter fun p => !(p.1 == b && covers p.2.1 p.2.2) }
  | none => s

/-- Write a named register, raising the written extent to cover `rows` rows of `bytes` bytes and setting the dirty bit
(R171). -/
def State.vput (s : State) (r : VReg) (data : BitVec 65536) (rows bytes : Nat) : State :=
  match s.me.blockOf r with
  | some b =>
    let c := s.myCore
    let k := c.block b
    let nb := { k with data := data, dirty := true, rows := max k.rows rows, bytes := max k.bytes ((bytes + 31) / 32 * 32) }
    s.setMyCore (c.setBlock b nb)
  | none => s

/-- Bit j of a predicate of the executing strand. -/
def State.predBit (s : State) (p : Reg8) (j : Nat) : Bool := bit (s.me.p[p]) j

/-- Is column j enabled by the header's predicate (R68, R169)? -/
def State.enabled (s : State) (h : Hdr) (j : Nat) : Bool := !h.pe || s.predBit h.pred j

/-- not-held, `stval` 0x000 + register number (R166). -/
def notHeldV (r : Nat) : Trap := ⟨26, w64 r, none⟩
def notHeldM (r : Nat) : Trap := ⟨26, w64 (0x100 + r), none⟩

/-- Every named v register held, in field order (R166). -/
def State.needV (s : State) (rs : List VReg) : Except Trap Unit :=
  match rs.find? (fun r => (s.me.blockOf r).isNone) with
  | some r => .error (notHeldV r.val)
  | none => .ok ()

/-- bad-format of a descriptor (R38). -/
def badFormat (k : Fin 4) : Trap := ⟨48, w64 k.val, none⟩

/-- The descriptor a type names, when it fails a test. -/
def gfFails (fd : Vector Word 4) (ok : Word → Bool) : ElemTy → Option (Fin 4)
  | .gf k => if ok fd[k] then none else some k
  | _ => none

/-- Every gf descriptor among the types passes the test (R186 order 2). -/
def State.needGf (s : State) (ok : Word → Bool) (tys : List ElemTy) : Except Trap Unit :=
  match tys.findSome? (gfFails s.me.csr.fd ok) with
  | some k => .error (badFormat k)
  | none => .ok ()

/-- illegal-instruction raised on the vector side, with the encoding as `stval` (R58). -/
def State.illegalV (s : State) (enc : Word) : Trap := ⟨2, match s.me.queue with | e :: _ => e.enc | [] => enc, none⟩

/-- shape.rm not reserved when the instruction rounds (R40). -/
def State.needRm (s : State) (rounds : Bool) (enc : Word) : Except Trap Unit :=
  if rounds && (arithmOf s.me.csr.shape).isNone then .error (s.illegalV enc) else .ok ()

/-- vector-shape with a `stval` (R185). -/
def vectorShape (v : Nat) : Trap := ⟨52, w64 v, none⟩

/-- len within lim(t) of each type named, in order (R185). -/
def State.needLen (s : State) (tys : List ElemTy) : Except Trap Unit :=
  match tys.find? (fun t => limBits (containerBits s.me.csr.fd t) < grantLen s.me.csr.shape) with
  | some t => .error (vectorShape t.code)
  | none => .ok ()

/-- Run checks in order; the first failure is taken. -/
def checkAll : List (Except Trap Unit) → Except Trap Unit
  | [] => .ok ()
  | .ok _ :: t => checkAll t
  | .error e :: _ => .error e

/-- The checks of R186, orders 1 to 4. -/
def State.vchecks (s : State) (regs : List VReg) (tys : List ElemTy) (rounds : Bool) (enc : Word) : Except Trap Unit :=
  checkAll [s.needV regs, s.needGf fdValid tys, s.needRm rounds enc, s.needLen tys]

/-- Positions (e, i, j) of element group g under a count of `total` elements in rows of `len` (R170). -/
def groupPos (total len g : Nat) : List (Nat × Nat × Nat) :=
  (List.range (min 64 (total - 64 * g))).map fun n => (64 * g + n, (64 * g + n) / len, (64 * g + n) % len)

/-- The performed positions of a group under the grant: those whose column the predicate enables (R169). -/
def State.performed (s : State) (h : Hdr) (g : Nat) : List (Nat × Nat × Nat) :=
  (groupPos (grantCount s.me.csr.shape) (grantLen s.me.csr.shape) g).filter fun p => s.enabled h p.2.2

/-- Arithmetic fields in force; a reserved rm reads as RNE where the instruction does not round. -/
def State.arithm (s : State) : Arithm :=
  match arithmOf s.me.csr.shape with
  | some a => a
  | none => ⟨.rne, bit s.me.csr.shape 32, bit s.me.csr.shape 33, bit s.me.csr.shape 34⟩

/-- Container bits of a type under the executing strand's descriptors. -/
def State.cbits (s : State) (ty : ElemTy) : Nat := containerBits s.me.csr.fd ty

/-- Rows and row bytes that a list of written positions reaches. -/
def extentOf (w : Nat) (ps : List (Nat × Nat)) : Nat × Nat :=
  ps.foldl (fun acc p => (max acc.1 (p.1 + 1), max acc.2 ((w * (p.2 + 1) + 7) / 8))) (0, 0)

/-- Write elements (i, j, code) of a register in containers of w bits; nothing is touched when the list is empty. -/
def State.vputElems (s : State) (r : VReg) (w : Nat) (es : List (Nat × Nat × Nat)) : State :=
  if es.isEmpty then s
  else
    let b := es.foldl (fun b p => setElem b w p.1 p.2.1 p.2.2) (s.vget r)
    let x := extentOf w (es.map fun p => (p.1, p.2.1))
    (s.vput r b x.1 x.2).vheal r fun i k => (List.range (64 / w)).all fun n => es.any fun p => p.1 == i && p.2.1 == k * (64 / w) + n

end Sys2Proof.Machine
end

