-- ==== Sys2Proof/Machine/Engine.lean ====
section
/-! DEFINITION. Copies, dealt copies, stack-engine operations and streams in progress: footprints (R135 to R137), landing
(R123, R124), the engines' arithmetic (R111 to R117), and stream transfers (R141). -/
namespace Sys2Proof.Machine

/-! ### Footprints -/

/-- The physical address that pins give a virtual address, with encryption. -/
def pinPa (pins : List Pin) (va : Nat) : Option (Nat × Bool) :=
  (pins.find? fun p => p.va ≤ va && va < p.va + p.size).map fun p => (p.pa + (va - p.va), p.enc)

/-- Physical ranges (address, length) of n bytes from va, cut at page ends; the first argument bounds the pieces. -/
def physRanges (pins : List Pin) : Nat → Nat → Nat → List (Nat × Nat)
  | 0, _, _ => []
  | f + 1, va, n =>
    if n = 0 then []
    else
      match pins.find? fun p => p.va ≤ va && va < p.va + p.size with
      | none => []
      | some p =>
        let l := min n (p.va + p.size - va)
        (p.pa + (va - p.va), l) :: physRanges pins f (va + l) (n - l)

/-- Do two lists of physical ranges share a 32-byte sector (R135)? -/
def rangesMeet (a b : List (Nat × Nat)) : Bool :=
  a.any fun x => b.any fun y => x.1 / 32 ≤ (y.1 + y.2 - 1) / 32 && y.1 / 32 ≤ (x.1 + x.2 - 1) / 32 && x.2 ≠ 0 && y.2 ≠ 0

/-- Element bytes of the engines' type: dimension-0 bytes of n elements of w bits. -/
def eltBytes (w n : Nat) : Nat := (w * n + 7) / 8

/-- Virtual rows (address, bytes) of a record from a base, rows of rb bytes (R128, R111). -/
def recordRows (b : BitVec 384) (base : Word) (rb : Nat) : List (Nat × Nat) :=
  (List.range (ShapeRec.e1 b * ShapeRec.e2 b)).map fun n => ((addOff base (ShapeRec.rowOff b n)).toNat, rb)

/-- Dies named by a mask word's low byte and the region stride [63:16] (R116). -/
def maskDies (m : Word) : List Nat := (List.range 8).filter fun d => bit m d
def maskStride (m : Word) : Nat := bits m 16 48

/-- Container bits of the element an engine operation reads and writes; `sg.gather` and `coll.bcast` have ty 0, one
byte (R110, R111; log 14). -/
def CopyOp.srcBits (o : CopyOp) : Nat :=
  match o.kind with
  | .tcp _ | .tdeal => 8 * 2 ^ ShapeRec.esz o.block
  | .gather | .collBcast _ => 8
  | .reduce _ ty | .collReduce _ _ ty _ => containerBits o.fd ty
  | .conv _ st => containerBits o.fd st

def CopyOp.dstBits (o : CopyOp) : Nat :=
  match o.kind with
  | .conv dt _ => containerBits o.fd dt
  | _ => o.srcBits

/-- Number of elements e0 × e1 × e2. -/
def recCount (b : BitVec 384) : Nat := ShapeRec.e0 b * ShapeRec.e1 b * ShapeRec.e2 b

/-- Virtual ranges of an operation's source, in footprint order. -/
def CopyOp.srcVa (o : CopyOp) : List (Nat × Nat) :=
  let rb := eltBytes o.srcBits (ShapeRec.e0 o.block)
  let rows (base : Word) : List (Nat × Nat) := recordRows o.block base rb
  let dense (base : Nat) : List (Nat × Nat) := [(base, rb * ShapeRec.e1 o.block * ShapeRec.e2 o.block)]
  match o.kind with
  | .tcp false => rows o.src
  | .tcp true => dense o.src.toNat
  | .tdeal => rows o.src
  | .gather => (o.aux.filter fun (i : Nat) => i < 2 ^ 32).map fun (i : Nat) => ((addOff o.src ((i : Nat) * ShapeRec.st1 o.block)).toNat, rb)
  | .reduce _ _ => rows o.src
  | .conv _ st =>
      rows o.src ++ (if isBlocked o.fd st then [((o.src + w64 (eltBytes o.srcBits (recCount o.block))).toNat, recCount o.block / 32)] else [])
  | .collReduce _ _ _ m => ((maskDies m).map fun j => rows (o.src + w64 (j * maskStride m))).flatten
  | .collBcast _ => rows o.src

/-- Does the operation read its destination as well: a reduced destination (R112)? -/
def CopyOp.reduces (o : CopyOp) : Bool :=
  match o.kind with
  | .reduce _ _ | .collReduce _ true _ _ => true
  | _ => false

/-- Virtual ranges an operation reads: its source, and a reduced destination. -/
def CopyOp.readVa (o : CopyOp) : List (Nat × Nat) :=
  o.srcVa ++ (if o.reduces then [(o.dst.toNat, eltBytes o.srcBits (ShapeRec.e0 o.block) * ShapeRec.e1 o.block * ShapeRec.e2 o.block)] else [])

/-- Virtual ranges an operation writes. A `tdeal`'s destinations have no virtual address and are given by `dealRanges`. -/
def CopyOp.writeVa (o : CopyOp) : List (Nat × Nat) :=
  let n := eltBytes o.dstBits (recCount o.block)
  match o.kind with
  | .tcp true => recordRows o.block o.dst (eltBytes o.srcBits (ShapeRec.e0 o.block))
  | .tdeal => []
  | .gather => [(o.dst.toNat, eltBytes 8 (ShapeRec.e0 o.block) * o.aux.length)]
  | .conv dt _ => [(o.dst.toNat, n + if isBlocked o.fd dt then recCount o.block / 32 else 0)]
  | .collBcast m => (maskDies m).map fun j => ((o.dst + w64 (j * maskStride m)).toNat, n)
  | _ => [(o.dst.toNat, n)]

/-- Physical destination of dense byte n of a `tdeal` with page offset `off` in the issuer's hall (R130). -/
def dealPa (b : BitVec 384) (hall off n : Nat) : Nat :=
  let j := n / ShapeRec.dblk b
  let c := ShapeRec.dfirst b + (j % ShapeRec.dcount b) * ShapeRec.dstep b
  padBase + (16 * hall + c) * 0x100000 + off + j / ShapeRec.dcount b * ShapeRec.dblk b + n % ShapeRec.dblk b

/-- The scratchpad offset that a `tdeal`'s destination address names. -/
def CopyOp.dealOff (o : CopyOp) : Nat :=
  match pinPa o.pins o.dst.toNat with
  | some (pa, _) => (pa - padBase) % 0x100000
  | none => 0

/-- Virtual source of dense byte n of a `tcp` or `tdeal` (R128). -/
def CopyOp.unitSrc (o : CopyOp) (n : Nat) : Nat :=
  let rb := ShapeRec.rowBytes o.block
  match o.kind with
  | .tcp true => (o.src + w64 n).toNat
  | _ => (addOff o.src (ShapeRec.rowOff o.block (n / rb) + (n % rb : Nat))).toNat

/-- Physical destination of dense byte n. -/
def CopyOp.unitDst (o : CopyOp) (n : Nat) : Option (Nat × Bool) :=
  let rb := ShapeRec.rowBytes o.block
  match o.kind with
  | .tdeal => some (dealPa o.block (hallOfCore (coreOf o.owner)) o.dealOff n, false)
  | .tcp true => pinPa o.pins (addOff o.dst (ShapeRec.rowOff o.block (n / rb) + (n % rb : Nat))).toNat
  | _ => pinPa o.pins (o.dst + w64 n).toNat

/-- Units of an interval list. -/
def unitsOf (iv : List (Nat × Nat)) : List Nat := (iv.map fun p => (List.range (p.2 - p.1)).map (· + p.1)).flatten

/-- Interval list without [lo, hi). -/
def cutIv (iv : List (Nat × Nat)) (lo hi : Nat) : List (Nat × Nat) :=
  (iv.map fun p => [(p.1, min p.2 lo), (max p.1 hi, p.2)]).flatten.filter fun p => p.1 < p.2

/-- Is the operation a copy that lands unit by unit? -/
def CopyOp.byUnit (o : CopyOp) : Bool := match o.kind with | .tcp _ | .tdeal => true | _ => false

/-- Physical ranges not yet read, and not yet written. -/
def CopyOp.pendRead (o : CopyOp) : List (Nat × Nat) :=
  if o.byUnit then (unitsOf o.todo).filterMap fun n => (pinPa o.pins (o.unitSrc (32 * n))).map fun p => (p.1, 32)
  else (o.readVa.map fun r => physRanges o.pins 1030 r.1 r.2).flatten

def CopyOp.pendWrite (o : CopyOp) : List (Nat × Nat) :=
  if o.byUnit then (unitsOf o.todo).filterMap fun n => (o.unitDst (32 * n)).map fun p => (p.1, 32)
  else (o.writeVa.map fun r => physRanges o.pins 1030 r.1 r.2).flatten

/-- Every physical range that an operation reads or writes, landed or not (R122, R135). -/
def CopyOp.foot (o : CopyOp) : List (Nat × Nat) :=
  (o.readVa.map fun r => physRanges o.pins 1030 r.1 r.2).flatten ++
    (match o.kind with
      | .tdeal => (List.range (ShapeRec.total o.block / 32)).filterMap fun n => (o.unitDst (32 * n)).map fun p => (p.1, 32)
      | _ => (o.writeVa.map fun r => physRanges o.pins 1030 r.1 r.2).flatten)

/-- Total bytes of a stream's record. -/
def Port.total (p : Port) : Nat := ShapeRec.total p.block

/-- Virtual address of stream byte n (R141). -/
def Port.va (p : Port) (n : Nat) : Nat :=
  let rb := ShapeRec.rowBytes p.block
  (addOff p.base (ShapeRec.rowOff p.block (n / rb) + (n % rb : Nat))).toNat

/-- The position up to which bytes have moved between memory and the port. -/
def Port.moved (p : Port) : Nat := if p.wr then p.pos - p.buf.length else p.pos + p.buf.length

/-- Physical ranges of a stream not yet moved, by 32-byte units of its record. -/
def Port.pend (p : Port) : List (Nat × Nat) :=
  let lo := p.moved / 32
  (List.range ((p.total + 31) / 32 - lo)).filterMap fun n => (pinPa p.pins (p.va (32 * (lo + n)))).map fun q => (q.1, 32)

/-- Every physical range of a bound stream's record (R122, R135). -/
def Port.foot (p : Port) : List (Nat × Nat) :=
  (List.range ((p.total + 31) / 32)).filterMap fun n => (pinPa p.pins (p.va (32 * n))).map fun q => (q.1, 32)

/-- Operations and bound streams of a strand on its core that were accepted before `age`: pending reads and writes. -/
def State.earlier (s : State) (k age : Nat) : List (Nat × Nat) × List (Nat × Nat) :=
  let c := s.core (coreOf k)
  let ops := c.slots.filterMap fun e => match e.2 with | some o => if o.owner = k && o.age < age then some o else none | none => none
  let ps := c.ports.filterMap fun e => match e.2 with | some p => if p.owner = k && p.age < age then some p else none | none => none
  ((ops.map CopyOp.pendRead).flatten ++ ((ps.filter fun p => !p.wr).map Port.pend).flatten,
   (ops.map CopyOp.pendWrite).flatten ++ ((ps.filter fun p => p.wr).map Port.pend).flatten)

/-- May an access of operation age read `r` and write `w` now (R137)? -/
def State.mayMove (s : State) (k age : Nat) (r w : List (Nat × Nat)) : Bool :=
  let e := s.earlier k age
  !rangesMeet e.2 r && !rangesMeet e.2 w && !rangesMeet e.1 w

/-! ### Tokens -/

/-- Add to a pending count. -/
def State.tokAdd (s : State) (k : Nat) (i : Reg8) (n : Nat) : State :=
  let t := s.strand k
  s.setStrand k { t with k := t.k.set i ⟨(t.k[i]).count + n, (t.k[i]).err⟩ }

/-- Bytes land on a token; `err` sets its flag (R123). -/
def State.tokLand (s : State) (k : Nat) (i : Reg8) (n : Nat) (err : Bool) : State :=
  let t := s.strand k
  (s.setStrand k { t with k := t.k.set i ⟨(t.k[i]).count - n, (t.k[i]).err || err⟩ }).countEv k 6 n

/-! ### Landing -/

/-- Is the address in the scratch storage of a fenced die (R117)? -/
def State.inFenced (s : State) (pa : Nat) : Bool :=
  match regionOf pa with
  | .gallery h => (s.die (h / 9)).fenced
  | .pad c => (s.die (dieOfCore c)).fenced
  | _ => false

/-- An operation of a core reads bytes: what `noteReads` does, and the core's L1 lines over them go, so that a later scalar load of
the core reads nothing older than what is read here (R148, R151). -/
def State.opReads (s : State) (core : Nat) (rs : List (Nat × Nat)) : State :=
  rs.foldl (fun s r => s.dropL1 core r.1 r.2) (s.noteReads rs)

/-- Move one 32-byte unit; true when the token's error flag is to be set (R105, R123). A unit on an encrypted page whose
partition's key has been wiped since issue is not moved (log 71). -/
def State.moveUnit (s : State) (o : CopyOp) (n : Nat) : State × Bool :=
  match pinPa o.pins (o.unitSrc (32 * n)), o.unitDst (32 * n) with
  | some (sp, se), some (dp, de) =>
    let s := (s.deliverOver (coreOf o.owner) sp 32).deliverOver (coreOf o.owner) dp 32
    if s.inFenced sp || s.inFenced dp then (s, true)
    else
      match s.keyFor (o.part, se), s.keyFor (o.part, de) with
      | some sk, some dk =>
        let s1 := s.opReads (coreOf o.owner) [(sp, 32)]
        match s1.physRead sk sp 32 with
        | .error _ => (s1, true)
        | .ok bs => (s1.writeHome (some o.owner) dk dp bs, false)
      | _, _ => (s, true)
  | _, _ => (s, true)

/-- Land unit n of the operation in a slot when the footprint rules allow it (R124, R136, R137). -/
def State.landUnit (core slot : Nat) (n : Nat) (s : State) : State :=
  match (s.core core).slot slot with
  | none => s
  | some o =>
    if !o.byUnit || !(unitsOf o.todo).contains n then s
    else
      let r := match pinPa o.pins (o.unitSrc (32 * n)) with | some p => [(p.1, 32)] | none => []
      let w := match o.unitDst (32 * n) with | some p => [(p.1, 32)] | none => []
      if !s.mayMove o.owner o.age r w then s
      else
        let (s, err) := s.moveUnit o n
        let s := s.tokLand o.owner o.k 32 err
        let s := match o.kind, o.unitDst (32 * n) with
          | .tdeal, some (dp, _) =>
            match o.aux.find? fun j => j ≠ o.owner && coreOf j == (dp - padBase) / 0x100000 with
            | some j => s.tokLand j o.k 32 err
            | none => s
          | _, _ => s
        let c := s.core core
        let todo := cutIv o.todo n (n + 1)
        s.setCore core (c.setSlot slot (if todo.isEmpty then none else some { o with todo := todo }))

/-- Land units [lo, lo + n) in order. -/
def State.landUnits (s : State) (core slot lo n : Nat) : State :=
  (List.range n).foldl (fun s i => State.landUnit core slot (lo + i) s) s

/-! ### Engine operations -/

/-- Bytes from va through pins; none where the sector fails, nothing maps it, or its key has been wiped. -/
def State.engRead (s : State) (o : CopyOp) (va n : Nat) : List (Option Byte) :=
  (List.range n).map fun i =>
    match pinPa o.pins (va + i) with
    | none => none
    | some (pa, enc) =>
      match s.keyFor (o.part, enc) with
      | none => none
      | some key =>
        match s.physRead key pa 1 with
        | .ok [b] => some b
        | _ => none

/-- The bytes to be written from va, each at its physical address with the enc bit of its page. -/
def CopyOp.cells (o : CopyOp) (va : Nat) (bs : List (Option Byte)) : List (Nat × Byte × Bool) :=
  (List.range bs.length).filterMap fun i =>
    match bs.getD i none, pinPa o.pins (va + i) with
    | some b, some (pa, e) => some (pa, b, e)
    | _, _ => none

/-- Cells in order as runs of one sector and one enc bit. -/
def cellRuns : List (Nat × Byte × Bool) → List (Nat × List Byte × Bool)
  | [] => []
  | (a, b, e) :: t =>
    match cellRuns t with
    | (x, bs, f) :: rs => if x = a + 1 && x % 32 ≠ 0 && e == f then (a, b :: bs, e) :: rs else (a, [b], e) :: (x, bs, f) :: rs
    | [] => [(a, [b], e)]

/-- Write bytes at va through pins, sector by sector, each under the enc bit of its own page (R106, R108); a hole is not
written, nor is a byte whose key has been wiped (log 71). -/
def State.engWrite (s : State) (o : CopyOp) (va : Nat) (bs : List (Option Byte)) : State :=
  (cellRuns (o.cells va bs)).foldl (fun s r =>
    match s.keyFor (o.part, r.2.2) with
    | some key => s.writeHome none key r.1 r.2.1
    | none => s) s

/-- A code of w bits read at bit offset 0 or, for nibbles, at element parity; none when a byte is missing. -/
def State.engElem (s : State) (o : CopyOp) (w va i : Nat) : Option Nat :=
  if w = 4 then
    match s.engRead o (va + i / 2) 1 with
    | [some b] => some (bits b (4 * (i % 2)) 4)
    | _ => none
  else
    let bs := s.engRead o (va + i * (w / 8)) (w / 8)
    if bs.all Option.isSome then some (leNat (bs.filterMap id)) else none

/-- Combine values of a reduction and round once (R115, R116). -/
def combine (fd : Vector Word 4) (op : RedOp) (ty : ElemTy) (a : Arithm) (xs : List Nat) : Nat :=
  match intOf ty with
  | some (w, sg) =>
    let vs := xs.map (intVal w sg)
    match op, vs with
    | .add, _ => narrowInt w sg a.sat (vs.foldl (· + ·) 0)
    | .min, v :: t => wrapInt w (t.foldl min v)
    | .max, v :: t => wrapInt w (t.foldl max v)
    | _, [] => 0
  | none =>
    match fmtOf fd ty with
    | none => 0
    | some f =>
      let vs := xs.map (f.input a.daz)
      match op, vs with
      | .add, _ => (roundFmt f a (sumExact a.rm vs).1).1
      | .min, v :: t => (roundFmt f a (t.foldl (Num.pick false) v)).1
      | .max, v :: t => (roundFmt f a (t.foldl (Num.pick true) v)).1
      | _, [] => 0

/-- Virtual base and index of record element n: row address and position in the row. -/
def recElem (b : BitVec 384) (base : Word) (n : Nat) : Nat × Nat :=
  ((addOff base (ShapeRec.rowOff b (n / ShapeRec.e0 b))).toNat, n % ShapeRec.e0 b)

/-- The captured arithmetic fields (R111). -/
def CopyOp.arithm (o : CopyOp) : Arithm :=
  match arithmOf o.shape with
  | some a => a
  | none => ⟨.rne, bit o.shape 32, bit o.shape 33, bit o.shape 34⟩

def someNats (l : List (Option Nat)) : Option (List Nat) := if l.all Option.isSome then some (l.filterMap id) else none

/-- A code as its bytes. -/
def codeBytes (w c : Nat) : List (Option Byte) := (leBytes (w / 8) c).map some

/-- Pack element codes of 4 or more bits into bytes, holes staying holes. -/
def packCodes (w : Nat) : List (Option Nat) → List (Option Byte)
  | [] => []
  | [a] => match a with | some c => if w = 4 then [some (BitVec.ofNat 8 c)] else codeBytes w c | none => List.replicate ((w + 7) / 8) none
  | a :: b :: t =>
    if w = 4 then
      (match a, b with | some x, some y => some (BitVec.ofNat 8 (x % 16 + 16 * (y % 16))) | _, _ => none) :: packCodes w t
    else (match a with | some c => codeBytes w c | none => List.replicate (w / 8) none) ++ packCodes w (b :: t)

/-- Perform `sg.conv` (R111, R55): destination bytes, elements then scales. -/
def State.convBytes (s : State) (o : CopyOp) (dt st : ElemTy) : List (Option Byte) :=
  let n := recCount o.block
  let a := o.arithm
  let sb := containerBits o.fd st
  let db := containerBits o.fd dt
  let codes := (List.range n).map fun i => let (base, j) := recElem o.block o.src i; s.engElem o sb base j
  let scaleAt (i : Nat) : Option (Option Int) :=
    if isBlocked o.fd st then (s.engElem o 8 (o.src.toNat + eltBytes sb n) (i / 32)).map e8m0 else some (some 0)
  let vals : List (Option Num) := (List.range n).map fun i =>
    match codes.getD i none, scaleAt i with
    | some c, some sc => some ((valOf o.fd st a.daz c).scaleBy sc)
    | _, _ => none
  if isBlocked o.fd dt then
    match fmtOf o.fd dt with
    | none => []
    | some f =>
      let blocks := (List.range (n / 32)).map fun b =>
        let xs := (List.range 32).map fun i => vals.getD (32 * b + i) none
        if xs.all Option.isSome then
          let (sc, es, _) := packBlock f a.rm (xs.filterMap id)
          (some sc, es.map fun e => some e.1)
        else (none, xs.map fun _ => none)
      packCodes db (blocks.map Prod.snd).flatten ++ (blocks.map fun b => b.1.map (BitVec.ofNat 8))
  else
    let out := (List.range n).map fun i =>
      if isBlocked o.fd st then (vals.getD i none).map fun v => (toTy o.fd dt a v).1
      else (codes.getD i none).map fun c => (convCode o.fd st dt a c).1
    packCodes db out

/-- Does a virtual region reach scratch storage of a fenced die (R117)? -/
def State.regionFenced (s : State) (o : CopyOp) (va n : Nat) : Bool := (physRanges o.pins 1030 va n).any fun r => s.inFenced r.1

/-- Is a whole operation not performed, because a region it reads lies in the gallery of a fenced die (R117)? -/
def State.notPerformed (s : State) (o : CopyOp) : Bool :=
  match o.kind with
  | .collReduce _ _ _ _ => o.readVa.any fun r => s.regionFenced o r.1 r.2
  | _ => false

/-- The destination bytes of a reduction whose element i combines the values that `xs i` reads; an element with one missing is a
hole (R105, R115, R116). -/
def CopyOp.reduced (o : CopyOp) (op : RedOp) (ty : ElemTy) (xs : Nat → List (Option Nat)) : List (Option Byte) :=
  let w := containerBits o.fd ty
  packCodes w ((List.range (recCount o.block)).map fun i => (someNats (xs i)).map (combine o.fd op ty o.arithm))

/-- The regions that an engine operation writes, as virtual addresses with their bytes, holes where a source sector fails; every
value is read before anything is written, which is the model's choice where source and destination overlap (R111, R114 to R117,
R147; log 102). -/
def State.engBytes (s : State) (o : CopyOp) : List (Nat × List (Option Byte)) :=
  match o.kind with
  | .tcp _ | .tdeal => []
  | .gather =>
    let rb := ShapeRec.e0 o.block
    [(o.dst.toNat, (o.aux.map fun ix =>
      if ix < 2 ^ 32 then s.engRead o (addOff o.src ((ix : Nat) * ShapeRec.st1 o.block)).toNat rb else List.replicate rb none).flatten)]
  | .reduce op ty =>
    let w := containerBits o.fd ty
    [(o.dst.toNat, o.reduced op ty fun i =>
      let (base, j) := recElem o.block o.src i
      [s.engElem o w o.dst.toNat i, s.engElem o w base j])]
  | .conv dt st => [(o.dst.toNat, s.convBytes o dt st)]
  | .collReduce op acc ty m =>
    let w := containerBits o.fd ty
    [(o.dst.toNat, o.reduced op ty fun i =>
      (if acc then [s.engElem o w o.dst.toNat i] else []) ++ (maskDies m).map fun j =>
        let (base, e) := recElem o.block (o.src + w64 (j * maskStride m)) i
        s.engElem o w base e)]
  | .collBcast m =>
    let bs := ((recordRows o.block o.src (ShapeRec.e0 o.block)).map fun r => s.engRead o r.1 r.2).flatten
    (maskDies m).map fun j => ((o.dst + w64 (j * maskStride m)).toNat, bs)

/-- The whole of an engine operation, with whether its token's error flag is to be set (R114 to R117). -/
def State.engPerform (s : State) (o : CopyOp) : State × Bool :=
  if s.notPerformed o then (s, true)
  else
    let s := s.opReads (coreOf o.owner) o.pendRead
    (s.engBytes o).foldl (fun (acc : State × Bool) r =>
      if s.regionFenced o r.1 r.2.length then (acc.1, true)
      else (acc.1.engWrite o r.1 r.2,
        acc.2 || !r.2.all Option.isSome || (o.cells r.1 r.2).any fun c => (s.keyFor (o.part, c.2.2)).isNone)) (s, false)

/-- Perform an engine operation that is in a slot, and count its bytes as landed. -/
def State.engineDo (s : State) (core slot : Nat) (o : CopyOp) : State :=
  let s := (o.pendRead ++ o.pendWrite).foldl (fun s r => s.deliverOver core r.1 r.2) s
  let (s, err) := s.engPerform o
  let s := s.tokLand o.owner o.k o.bytes err
  s.setCore core ((s.core core).setSlot slot none)

/-- Perform the engine operation in a slot when the footprint rules allow it. -/
def State.engineRun (s : State) (core slot : Nat) : State :=
  match (s.core core).slot slot with
  | none => s
  | some o => if o.byUnit || !s.mayMove o.owner o.age o.pendRead o.pendWrite then s else s.engineDo core slot o

/-! ### Streams -/

/-- What moving stream bytes met. -/
inductive MoveRes where
  | moved (s : State)
  | blocked
  | failing (va : Nat) (pa : Nat)
  | keyless (va : Nat)
  deriving DecidableEq, Repr

/-- Move the rest of the next sector between memory and port p of a core, whole (R141, R147). A write stream waits for the sector
to be pushed in full, unless `last` says that what has been pushed is all there is. Bytes pushed to an encrypted page
whose key has been wiped are not performed (log 71). The owner core's L1 lines of a written sector are dropped as it is
performed (log 116). -/
def State.portMove (s : State) (core p : Nat) (last : Bool) : MoveRes :=
  match (s.core core).port p with
  | none => .blocked
  | some q =>
    let at_ := q.moved
    let va := q.va at_
    match pinPa q.pins va with
    | none => .blocked
    | some (pa, enc) =>
      let room := if q.wr then q.buf.length else q.total - at_
      let n := min room (32 - at_ % 32)
      if q.susp || n = 0 || (q.wr && !last && at_ % 32 + n < 32) then .blocked
      else
        let rng := [(pa, n)]
        let ok := if q.wr then s.mayMove q.owner q.age [] rng else s.mayMove q.owner q.age rng []
        if !ok then .blocked
        else
          let s := s.deliverOver core pa n
          if q.wr then
            let s := match s.keyFor (q.part, enc) with
              | some key => (s.writeHome (some q.owner) key pa (q.buf.take n)).dropL1 core pa n
              | none => s
            .moved (s.setCore core ((s.core core).setPort p (some { q with buf := q.buf.drop n })))
          else
            match s.keyFor (q.part, enc) with
            | none => .keyless va
            | some key =>
              match s.physRead key pa n with
              | .error o => .failing (va + o - (va + o) % 32) (pa + o)
              | .ok bs =>
                let s := ((s.dirReadBy (dieOfCore core) (q.part, enc) pa n).noteSoft pa n).dropL1 core pa n
                .moved (s.setCore core ((s.core core).setPort p (some { q with buf := q.buf ++ bs })))

/-- Move up to `fuel` sectors. -/
def State.portMoves (core p : Nat) (last : Bool) : Nat → State → State
  | 0, s => s
  | f + 1, s =>
    match s.portMove core p last with
    | .moved s' => State.portMoves core p last f s'
    | _ => s

/-- Drain a write stream's pushed bytes to memory. -/
def State.portDrain (s : State) (core p : Nat) : State :=
  match (s.core core).port p with
  | some q => if q.wr then State.portMoves core p true (q.buf.length / 32 + 2) s else s
  | none => s

/-! ### Completing a strand's operations -/

/-- Is the operation one that pre-emption and a fatal trap wait for: a `tdeal` or a stack-engine operation (R118)? -/
def CopyOp.waitsFor (o : CopyOp) : Bool := match o.kind with | .tcp _ => false | _ => true

/-- Perform what is left of the operation in a slot, as far as the footprint rules allow. -/
def State.runSlot (s : State) (core i : Nat) : State :=
  match (s.core core).slot i with
  | some o => if o.byUnit then (unitsOf o.todo).foldl (fun s u => State.landUnit core i u s) s else s.engineRun core i
  | none => s

/-- The operations and bound ports of strand k on its core, in order of acceptance: the number of a slot, or 32 and the
number of a port. -/
def State.inFlight (s : State) (k : Nat) : List Nat :=
  let c := s.core (coreOf k)
  let mine := (c.slots.filterMap fun e => match e.2 with | some o => if o.owner = k then some (o.age, e.1) else none | none => none) ++
    (c.ports.filterMap fun e => match e.2 with | some q => if q.owner = k then some (q.age, 32 + e.1) else none | none => none)
  (mine.foldr (fun a l => (l.takeWhile fun b => b.1 < a.1) ++ [a] ++ (l.dropWhile fun b => b.1 < a.1)) []).map Prod.snd

/-- Complete one of the items of `inFlight`, whose elders have been treated: a `tdeal` or an engine operation is performed, a
port is drained, and a `tcp` is left as it is. When an elder `tcp` is in its way under R137, the elder ones complete first. A
drained port is freed: with nothing of it left pending, no later item waits for it (R142, R143). -/
def State.completeItem (k : Nat) (elders : List Nat) (i : Nat) (s : State) : State :=
  let core := coreOf k
  let act (s : State) : State :=
    if i < 32 then (match (s.core core).slot i with | some o => if o.waitsFor then s.runSlot core i else s | none => s)
    else s.portDrain core (i - 32)
  let left (s : State) : Bool :=
    if i < 32 then (match (s.core core).slot i with | some o => o.waitsFor | none => false)
    else match (s.core core).port (i - 32) with | some q => q.wr && !q.buf.isEmpty | none => false
  let s := act s
  let s := if left s then act ((elders.filter (· < 32)).foldl (fun s j => s.runSlot core j) s) else s
  if i < 32 then s else s.setCore core ((s.core core).setPort (i - 32) none)

/-- Complete strand k's engine operations at the stack bases when its die is lost, in order of acceptance. What they would have
followed on the die is lost with it (R117; log 73). -/
def State.completeEngines (s : State) (k : Nat) : State :=
  ((s.inFlight k).filter (· < 32)).foldl (fun s i =>
    match (s.core (coreOf k)).slot i with
    | some o => if o.byUnit then s else s.engineDo (coreOf k) i o
    | none => s) s

/-- Complete what a pre-emption, a `tread.end` or a fatal trap of strand k waits for, in order of acceptance: its accepted `tdeal`
and engine operations are performed and its ports are drained and freed (R118, R131, R142 to R144, R281). An incomplete `tcp` is
left for the caller, but one that such an item has to follow under R137 lands first (log 73). -/
def State.completeOps (s : State) (k : Nat) : State :=
  let items := s.inFlight k
  ((List.range items.length).foldl (fun s n => State.completeItem k (items.take n) (items.getD n 0) s) s)

end Sys2Proof.Machine
end

