-- ==== Sys2Proof/Machine/Resource.lean ====
section
/-! DEFINITION. The banker (R273 to R280), tiles by ownership (R234), names (R165), and the footprint test of R122. -/
namespace Sys2Proof.Machine

/-- Sum of vectors. -/
def sumHold (l : List Hold) : Hold := l.foldl Hold.add Hold.zero

/-- The strands of a core that the banker counts. -/
def State.countedOf (s : State) (core : Nat) : List Nat := (strandsOf core).filter fun k => (s.strand k).counted

/-- Claim and holding of every counted strand and flight holder of a core; a strand is keyed by number (R273, R274). -/
def State.holders (s : State) (core : Nat) : List (Option Nat × Hold × Hold) :=
  ((s.countedOf core).map fun k => (some k, (s.strand k).claim, (s.strand k).hold)) ++
    (s.core core).aside.map fun a => (none, a.2, a.2)

/-- Free amounts given holders: pool sizes less what is held (R275). -/
def freeOf (hs : List (Option Nat × Hold × Hold)) : Hold := Hold.sub Hold.pool (sumHold (hs.map fun h => h.2.2))

/-- The first holder whose need fits in `work`, with the rest. -/
def takeFit (work : Hold) : List (Option Nat × Hold × Hold) → Option ((Option Nat × Hold × Hold) × List (Option Nat × Hold × Hold))
  | [] => none
  | h :: t =>
    if (Hold.sub h.2.1 h.2.2).le work then some (h, t)
    else (takeFit work t).map fun r => (r.1, h :: r.2)

/-- The safety algorithm of R275; the first argument bounds its rounds by the number of holders. -/
def safeGo : Nat → Hold → List (Option Nat × Hold × Hold) → Bool
  | _, _, [] => true
  | 0, _, _ :: _ => false
  | n + 1, work, hs =>
    match takeFit work hs with
    | some (h, rest) => safeGo n (Hold.add work h.2.2) rest
    | none => false

/-- Is a set of holders safe (R275)? -/
def safe (hs : List (Option Nat × Hold × Hold)) : Bool := safeGo hs.length (freeOf hs) hs

/-- The holders with strand k holding q more. -/
def holdersPlus (hs : List (Option Nat × Hold × Hold)) (k : Nat) (q : Hold) : List (Option Nat × Hold × Hold) :=
  hs.map fun h => if h.1 = some k then (h.1, h.2.1, Hold.add h.2.2 q) else h

/-- Enough free, and safe once granted (R275). -/
def State.fits (s : State) (core : Nat) (q : Hold) : Bool := q.le (freeOf (s.holders core))
def State.safeWith (s : State) (k : Nat) (q : Hold) : Bool := safe (holdersPlus (s.holders (coreOf k)) k q)
def State.grantable (s : State) (k : Nat) (q : Hold) : Bool := s.fits (coreOf k) q && s.safeWith k q

/-- A fairness hold stands against strand k: the oldest waiting request is not k's (R279). -/
def State.fairAgainst (s : State) (core k : Nat) : Bool :=
  let c := s.core core
  c.fair && match c.bankq with
    | ⟨.acq j _, _⟩ :: _ => j ≠ k
    | _ :: _ => true
    | [] => false

/-- A fairness hold stands against the setting aside of a flight's pages (R274, R279). -/
def State.fairAgainstFlight (s : State) (core id : Nat) : Bool :=
  let c := s.core core
  c.fair && match c.bankq with
    | ⟨.flight i _ _, _⟩ :: _ => i ≠ id
    | _ :: _ => true
    | [] => false

/-! ### Blocks, pages and tiles -/

/-- Physical blocks of a core that no strand holds, lowest first. -/
def State.freeBlocks (s : State) (core : Nat) : List Nat :=
  let used := ((strandsOf core).map fun k => (s.strand k).blocks).flatten
  (List.range 64).filter fun b => !used.contains b

/-- Scratchpad pages of a core that are neither held nor set aside, lowest first. -/
def State.freePages (s : State) (core : Nat) : List Nat :=
  let used := ((strandsOf core).map fun k => (s.strand k).pages).flatten
  (List.range 64).filter fun p => !used.contains p && !(s.core core).aside.any fun a => 64 - a.2.pages ≤ p

/-- Can the highest h.pages pages of a core's scratchpad be set aside for a flight now: unheld, and grantable with a claim equal
to the holding (R274, R275, R292)? -/
def State.asideReady (s : State) (core : Nat) (h : Hold) : Bool :=
  let free := s.freePages core
  (List.range h.pages).all (fun i => free.contains (64 - h.pages + i)) && h.le (freeOf (s.holders core)) &&
    safe ((none, h, h) :: s.holders core)

/-- Set pages aside for a flight on a core (R274). -/
def State.setAside (s : State) (core id : Nat) (h : Hold) : State :=
  let c := s.core core
  s.setCore core { c with aside := c.aside ++ [(id, h)] }

/-- Physical tiles in state Free, lowest first (log 106). -/
def State.freeTiles (s : State) (core : Nat) : List Nat := (List.range 8).filter fun n => ((s.core core).tile n).st == .free

/-- Insert a pair into a list rising by first component. -/
def insPair (a : Nat × Nat) : List (Nat × Nat) → List (Nat × Nat)
  | [] => [a]
  | b :: t => if a.1 ≤ b.1 then a :: b :: t else b :: insPair a t

/-- Physical tiles in state Lazy, oldest pre-emption first, and among those of one pre-emption the lowest number first (R234; log 106). -/
def State.lazyTiles (s : State) (core : Nat) : List Nat :=
  let l := (List.range 8).filterMap fun n => match ((s.core core).tile n).st with | .lazy _ o => some (o, n) | _ => none
  (l.foldr insPair []).map Prod.snd

/-- The tiles a grant of n takes: Free first, then Lazy (R234). -/
def State.grantTiles (s : State) (core n : Nat) : List Nat := (s.freeTiles core ++ s.lazyTiles core).take n

/-- A tile as a grant leaves it: Held and cleared when it was Free, Bound with the owner's data when it was Lazy. -/
def Tile.granted (t : Tile) : Tile :=
  match t.st with
  | .lazy tag o => { t with st := .bound tag o }
  | _ => ⟨0, 0, .held⟩

/-- A tile as its holder gives it up: Free, or Lazy again for its owner (R234). -/
def Tile.givenUp (t : Tile) : Tile :=
  match t.st with
  | .bound tag o => { t with st := .lazy tag o }
  | _ => { t with st := .free }

def Core.mapTiles (c : Core) (ns : List Nat) (f : Tile → Tile) : Core := ns.foldl (fun c n => c.setTile n (f (c.tile n))) c
def Core.zeroBlocks (c : Core) (bs : List Nat) : Core :=
  { bs.foldl (fun c b => c.setBlock b Block.zero) c with badRows := c.badRows.filter fun p => !bs.contains p.1 }

/-- An uncorrectable error in a physical tile or its window. -/
def Core.tileBad (c : Core) (n : Nat) : Bool := c.badTiles.any (fun p => p.1 == n) || c.badWins.any (fun p => p.1 == n)

/-- The errors of a tile go with its contents. -/
def Core.tileHeal (c : Core) (n : Nat) : Core :=
  { c with badTiles := c.badTiles.filter fun p => p.1 ≠ n, badWins := c.badWins.filter fun p => p.1 ≠ n }

/-- Grant q to strand k: zeroed blocks, tiles, and the lowest free pages, under the next names (R277). -/
def State.grant (s : State) (k : Nat) (q : Hold) : State :=
  let core := coreOf k
  let bs := (s.freeBlocks core).take q.blocks
  let ts := s.grantTiles core q.tiles
  let ps := (s.freePages core).take q.pages
  let t := s.strand k
  let c := ((s.core core).zeroBlocks bs).mapTiles ts Tile.granted
  (s.setCore core { c with
      badTiles := c.badTiles.filter fun p => !(ts.contains p.1 && (c.tile p.1).st == .held)
      badWins := c.badWins.filter fun p => !(ts.contains p.1 && (c.tile p.1).st == .held) }).setStrand k
    { t with blocks := t.blocks ++ bs, tiles := t.tiles ++ ts, pages := t.pages ++ ps }

/-- Give up the q.blocks and q.tiles highest names and the q.pages most recently granted pages (R277). -/
def State.giveUp (s : State) (k : Nat) (q : Hold) : State :=
  let core := coreOf k
  let t := s.strand k
  let nb := t.blocks.length - q.blocks
  let nt := t.tiles.length - q.tiles
  let np := t.pages.length - q.pages
  let c := ((s.core core).zeroBlocks (t.blocks.drop nb)).mapTiles (t.tiles.drop nt) Tile.givenUp
  (s.setCore core c).setStrand k { t with blocks := t.blocks.take nb, tiles := t.tiles.take nt, pages := t.pages.take np }

/-- Does a pending copy, dealt share, engine operation or stream of any strand touch one of these pages of a core's
scratchpad (R122)? -/
def State.pagesBusy (s : State) (core : Nat) (pages : List Nat) : Bool :=
  let pr := pages.map fun p => (padBase + core * 0x100000 + p * 0x4000, 0x4000)
  s.cores.any fun c =>
    (c.2.slots.any fun e => match e.2 with | some o => rangesMeet pr o.foot | none => false) ||
    (c.2.ports.any fun e => match e.2 with | some p => rangesMeet pr p.foot | none => false)

/-- The pages that a `rel` of q gives up. -/
def Strand.relPages (t : Strand) (q : Hold) : List Nat := t.pages.drop (t.pages.length - q.pages)

/-- Is a waiting request an `acq` of strand k? -/
def Waiting.isAcqOf (w : Waiting) (k : Nat) : Bool :=
  match w.req with
  | .acq j _ => j == k
  | _ => false

/-- A core's banker queue without the requests that meet a test; the fairness hold ends when the oldest request is one of
them (R279). -/
def Core.dropReq (c : Core) (p : Waiting → Bool) : Core :=
  { c with bankq := c.bankq.filter fun w => !p w, fair := c.fair && !(match c.bankq with | w :: _ => p w | [] => true) }

/-- A strand leaves its core's banker queue (R278). -/
def State.leaveBank (s : State) (k : Nat) : State :=
  let c := s.core (coreOf k)
  if c.bankq.any (fun w => w.isAcqOf k) then s.setCore (coreOf k) (c.dropReq fun w => w.isAcqOf k) else s

/-- Is a waiting request the setting aside of a flight's pages (R274)? -/
def Waiting.isFlightOf (w : Waiting) (id : Nat) : Bool :=
  match w.req with
  | .flight i _ _ => i == id
  | _ => false

/-- Is a waiting request the resumption of the context saved in slot k? -/
def Waiting.isResumeOf (w : Waiting) (k : Nat) : Bool :=
  match w.req with
  | .resume a _ _ => a == k
  | _ => false

/-- Every core's banker queue without the requests that meet a test. -/
def State.dropReqs (s : State) (p : Waiting → Bool) : State :=
  { s with cores := Tbl.mapV Core.reset (fun c => if c.bankq.any p then c.dropReq p else c) s.cores }

/-- Context tag of a strand's slot: core [47:37], strand [36:33], count of records [32:0] (R337). -/
def tagOf (k count : Nat) : Nat := coreOf k % 2048 * 2 ^ 37 + k % 16 * 2 ^ 33 + count % 2 ^ 33

/-- Tiles that are Lazy for a tag become Free when the owner's record is discarded, in a swap image as on the core; a Bound one
is cleared and stays Held by its holder (R238; of a Bound tile it says nothing, log 117). -/
def State.dropOwner (s : State) (tag : Nat) : State :=
  let image (st : TileSt) : TileSt := match st with | .lazy g o => if g = tag then .free else .lazy g o | st => st
  { s with cores := Tbl.mapV Core.reset (fun c => (List.range 8).foldl (fun c n =>
      match (c.tile n).st with
      | .lazy g _ => if g = tag then c.setTile n { c.tile n with st := .free } else c
      | .bound g _ => if g = tag then (c.setTile n ⟨0, 0, .held⟩).tileHeal n else c
      | _ => c) { c with imgTiles := c.imgTiles.map image }) s.cores }

/-! ### Groups (R309 to R313) -/

/-- Step the generation (R311). -/
def Group.stepGen (g : Group) : Group := { g with gen := (g.gen + 1) % 2 ^ 32, count := 0, arrived := [] }

/-- One arrival of tread n. -/
def Group.arrive (g : Group) (n : Nat) : Group :=
  let g := { g with count := g.count + 1, arrived := n :: g.arrived }
  if g.count = g.required then g.stepGen else g

/-- Withdraw tread n's arrival in the current generation. -/
def Group.withdraw (g : Group) (n : Nat) : Group :=
  if g.arrived.contains n then { g with count := g.count - 1, arrived := g.arrived.filter (· ≠ n) } else g

/-- Tread n departs (R313). -/
def Group.depart (g : Group) (n : Nat) : Group :=
  if g.members.contains n then
    let g := g.withdraw n
    let g := { g with required := g.required - 1 }
    if g.count = g.required && g.count ≠ 0 then g.stepGen else g
  else g

/-- The group of an index in a flight, when used. -/
def Flight.group? (f : Flight) (i : Nat) : Option Group := f.groups.find? fun g => g.g == i

def Flight.setGroup (f : Flight) (g : Group) : Flight := { f with groups := f.groups.map fun h => if h.g = g.g then g else h }

/-- A flight whose tread n ends by `tread.end` counts it in its live gang (R301). -/
def Flight.countEnd (f : Flight) (n : Nat) : Flight :=
  { f with ranges := f.ranges.map fun r => { r with live := r.live.map fun l => if l.treads.contains n then { l with ended := l.ended + 1 } else l } }

/-- Entries of dispatched gangs without those that no tread is left in. A gang of which another entry remains is not complete, and its
first one takes over their count. -/
def settleLive (l : List LiveGang) : List LiveGang :=
  let gone := l.filter fun x => x.treads.isEmpty
  ((l.filter fun x => !x.treads.isEmpty).foldl (fun (acc : List LiveGang) x =>
    acc ++ [if acc.any fun y => y.gang == x.gang then x
      else { x with ended := x.ended + ((gone.filter fun y => y.gang == x.gang).map LiveGang.ended).sum }]) [])

/-- A flight after tread n has ended: removed from its live gang; a gang with no tread left is complete (R291). -/
def Flight.endTread (f : Flight) (n : Nat) : Flight :=
  { f with ranges := f.ranges.map fun r => { r with live := settleLive (r.live.map fun l => { l with treads := l.treads.filter (· ≠ n) }) } }

/-- The strand's bits for a group (R310). -/
def Strand.groupBit (t : Strand) (g : Nat) : GroupBit := (t.groups.find? fun b => b.g == g).getD ⟨g, false, 0⟩

def Strand.setGroupBit (t : Strand) (b : GroupBit) : Strand := { t with groups := t.groups.filter (fun c => c.g ≠ b.g) ++ [b] }

end Sys2Proof.Machine
end

