-- ==== Sys2Proof/Machine/Ops.lean ====
section
/-! DEFINITION. Shared operations of a strand: completing an instruction, starting and ending a strand, taking an
exception and returning from it (R178, R179, R322, R332), interrupts (R331), and unbinding (R142). -/
namespace Sys2Proof.Machine

/-- What every meaning answers. -/
abbrev Out := Host.Outcome State Fault Refusal

/-! ### Time -/

/-- The always-on counter as strand k's die reads it (R374, R375). -/
def State.now (s : State) : Word := w64 s.time

/-- Cycle counter of the executing strand's die (R60). -/
def State.cycles (s : State) (k : Nat) : Nat := (s.die (dieOf k)).cycles

/-- Is a tread waiting, as the landing counts it (R296)? -/
def Wait.counts : Wait → Bool
  | .gbar _ _ | .gwait _ _ | .waitpred | .acq _ => true
  | _ => false

/-- A wait through which a stop is deferred: the end of `tread.end` (R319), `fl.launch` (R316), `tlb.inv` (R326). -/
def Wait.deferred : Wait → Bool
  | .ending | .again _ => true
  | _ => false

/-! ### Completing -/

/-- A scalar instruction of n bytes completes: the pc advances and `instret` counts it (R60). -/
def Strand.retire (t : Strand) (n : Nat) : Strand :=
  { t with pc := t.pc + w64 n, csr := { t.csr with instret := t.csr.instret + 1 } }

/-- Strand k completes a 4-byte instruction. -/
def State.retireAt (s : State) (k : Nat) : State := (s.setStrand k ((s.strand k).retire 4)).countEv k 2 1

/-- The executing strand completes a 4-byte instruction. -/
def State.retire (s : State) : State := s.retireAt s.cur

/-- Complete with register rd written. -/
def State.retireX (s : State) (rd : XReg) (v : Word) : State := (s.setX rd v).retire

/-- Body entries enter the queue as it has room (R211). -/
def Strand.refill (t : Strand) : Strand :=
  { t with queue := (t.queue ++ t.body).take 8, body := (t.queue ++ t.body).drop 8 }

/-- The vector-side instruction at the queue head completes: it leaves the queue, `vsi` and `msi` are cleared (R173), its
pins are dropped (R101), and `instret` counts it. -/
def Strand.completeVec (t : Strand) : Strand :=
  Strand.refill { t with
    queue := t.queue.drop 1
    pins := []
    bindDone := false
    heldFor := t.heldFor - 1
    csr := { t.csr with vsi := 0, msi := 0, instret := t.csr.instret + 1 } }

def State.completeVec (s : State) : State := (s.setMe s.me.completeVec).countEv s.cur 2 1

/-- The vector-side instruction at the queue head completes and writes x register rd (R69). -/
def State.completeVecX (s : State) (rd : XReg) (v : Word) : State := (s.setX rd v).completeVec

/-- Act as strand k, and keep the turn of the strand that had it. -/
def State.onStrand (s : State) (k : Nat) (f : State → State) : State := { f { s with cur := k } with cur := s.cur }

/-! ### Starting and ending strands -/

/-- CSRs at a strand start (R184): those of spec/07 and spec/17 take their reset values, but `srbase` and `srptr`, which
the resident supervisor sets; the supervisor CSRs of R307 and `instret` keep their values (log 15). -/
def Csrs.start (c : Csrs) : Csrs :=
  { Csrs.reset with
    srbase := c.srbase, srptr := c.srptr, sstatus := c.sstatus, stvec := c.stvec, sscratch := c.sscratch,
    sepc := c.sepc, scause := c.scause, stval := c.stval, sie := c.sie, ssip := c.ssip, seip := c.seip,
    scounteren := c.scounteren, instret := c.instret }

/-- A strand slot with no context: everything at strand start but what belongs to the slot (R164, R184). The sequence number of
its strip records goes on through strand starts and resumptions: R182 counts the records that "this strand" has closed, and
no record keeps the number (log 81). -/
def Strand.vacant (t : Strand) (st : Status) : Strand :=
  { Strand.reset with
    status := st, handlerOf := t.handlerOf, csr := t.csr.start, tagCount := t.tagCount, srSeq := t.srSeq, srAcc := t.srAcc }

/-- The context of strand k leaves: the cycles it was resident stay in the open span of its strip ring (R182). -/
def State.srPause (s : State) (k : Nat) : State :=
  let t := s.strand k
  if bit t.csr.srbase 4 then s.setStrand k { t with srAcc := t.srAcc + (s.cycles k - t.srCycle) } else s

/-- Is strand k one of the handler strands that its context's flight has on its core, the flight not having completed? -/
def State.ownHandler (s : State) (k : Nat) : Bool :=
  match (s.strand k).handlerOf with
  | some id => (s.strand k).flight == some id && (s.flight? id).isSome
  | none => false

/-- The status a slot takes when its context ends: Dormant when a handler ends on one of its flight's handler strands on
this core; Free when a tread ends, or a handler elsewhere (R250, R271, R319; log 82). -/
def State.endStatus (s : State) (k : Nat) : Status := if (s.strand k).kind ≠ .tread && s.ownHandler k then .dormant else .free

/-- The status of a slot whose Saved context has been resumed on another strand (R271). -/
def State.leftStatus (s : State) (k : Nat) : Status := if s.ownHandler k then .dormant else .free

/-- Ports of a core that strand k has bound. -/
def State.portsOf (s : State) (k : Nat) : List Nat :=
  (List.range 4).filter fun p => match (s.core (coreOf k)).port p with | some q => q.owner == k | none => false

/-- Cancel strand k's incomplete copies, in issue order; each as its record keeps it (R144). -/
def State.cancelCopies (s : State) (k : Nat) : State × List CopyOp :=
  let core := coreOf k
  let mine := (List.range 32).filterMap fun i => match (s.core core).slot i with
    | some o => if o.owner = k && (match o.kind with | .tcp _ => true | _ => false) then some (i, o) else none
    | none => none
  (s.setCore core (mine.foldl (fun c p => c.setSlot p.1 none) (s.core core)),
   ((mine.map fun p => (p.2.age, p.1)).foldr insPair []).filterMap fun a => (mine.find? fun p => p.1 == a.2).map Prod.snd)

/-- Depart every group of strand k's flight of which its tread is a member (R313). -/
def State.departAll (s : State) (k : Nat) : State :=
  match (s.strand k).flight with
  | none => s
  | some id =>
    match s.flight? id with
    | none => s
    | some f => s.setFlight { f with groups := f.groups.map fun g => g.depart (s.strand k).tread }

/-- Record in the flight that strand k's tread has ended, by `tread.end` or fatally with a code (R291, R301). -/
def State.noteTreadEnd (s : State) (k : Nat) (fatal : Bool) : State :=
  match (s.strand k).flight with
  | none => s
  | some id =>
    match s.flight? id with
    | none => s
    | some f =>
      let n := (s.strand k).tread
      let f := if fatal then f.endTread n else (f.countEnd n).endTread n
      s.setFlight (if fatal then { f with fatal := f.fatal.or (some n) } else { f with ended := f.ended + 1 })

/-- A strand that ends is a receiver of no `tdeal` any more: what is still to land on its core lowers no token of a strand that takes
its slot (R123). -/
def State.leaveDeals (s : State) (k : Nat) : State :=
  let hit (o : CopyOp) : Bool := (match o.kind with | .tdeal => true | _ => false) && o.owner != k && o.aux.contains k
  let cut (o : Option CopyOp) : Option CopyOp := o.map fun o => if hit o then { o with aux := o.aux.filter (· ≠ k) } else o
  { s with cores := Tbl.mapV Core.reset (fun (c : Core) =>
      if c.slots.any fun e => match e.2 with | some o => hit o | none => false then { c with slots := Tbl.mapV none cut c.slots } else c) s.cores }

/-- Release everything strand k holds, its claim becoming 0 (R281). -/
def State.releaseAll (s : State) (k : Nat) : State :=
  let s := s.giveUp k (s.strand k).hold
  s.setStrand k { s.strand k with claim := Hold.zero }

/-- The strand ends as by a fatal trap (R281, R332): accepted `tdeal` and engine operations complete, incomplete copies
are discarded, ports are unbound, its tread departs its groups, and everything is released. `report` is false for the
ends of R302. Copies of other strands into its pages go on and land after the release (log 120). -/
def State.endFatal (s : State) (k : Nat) (report : Bool) : State :=
  let s := (((s.srPause k).completeOps k).cancelCopies k).1
  let s := (s.leaveBank k).leaveDeals k
  let s :=
    if (s.strand k).kind = .tread then
      let s := if (s.strand k).wait = .ending then s else s.departAll k
      if report then s.noteTreadEnd k true
      else match (s.strand k).flight with
        | none => s
        | some id => match s.flight? id with
          | none => s
          | some f => s.setFlight (f.endTread (s.strand k).tread)
    else s
  let s := s.releaseAll k
  s.setStrand k ((s.strand k).vacant (s.endStatus k))

/-- One more instruction in `instret`. -/
def Strand.countInstr (t : Strand) : Strand := { t with csr := { t.csr with instret := t.csr.instret + 1 } }

/-- The last steps of `tread.end` of strand k, whose groups it has departed: everything is released, the tread is
recorded as ended, and the strand becomes Free (R319). `instret` counts the instruction (R60). -/
def State.finishTread (s : State) (k : Nat) : State :=
  let s := (s.setStrand k (s.strand k).countInstr).srPause k
  let s := s.releaseAll k
  let s := s.noteTreadEnd k false
  s.setStrand k ((s.strand k).vacant (s.endStatus k))

/-! ### Taking an exception -/

/-- Status register on a trap into S mode: SPIE takes SIE, SIE is cleared, SPP takes the mode (R307). -/
def trapStatus (st : Word) (md : Mode) : Word :=
  setBits (setBits (setBits st 5 1 (bits st 1 1)) 1 1 0) 8 1 (if md = .u then 0 else 1)

/-- Status register on a return: SIE takes SPIE, SPIE is set, SPP becomes U (R322). -/
def retStatus (st : Word) : Word := setBits (setBits (setBits st 1 1 (bits st 5 1)) 5 1 1) 8 1 0

/-- The strand as a trap leaves it, at its pointer pair (R178, R179, R322): kept entries go to the frame with `vsi` and
`msi`, the queue is left empty, a wait is abandoned, and a reservation is lost. A wait for which the landing has asked a pre-emption
stays known (R334). A promise of lookahead still in force covers none of
the instructions after the trap (R77 does not say; log 13). `cause` has bit 63 set for an interrupt. -/
def Strand.trapped (t : Strand) (cause tval : Word) (vt : Bool) : Strand :=
  let kept := t.queue ++ t.body
  { t with
    status := .running, mode := .s, pc := t.csr.stvec, wait := .none, resv := none, promises := [], pins := [],
    queue := [], body := [], bindDone := false, settle := false, heldFor := 0
    left := if t.preempt && t.wait.counts then some (t.wait, t.pc) else t.left
    frame := if t.mode = .u || !kept.isEmpty then
        (if kept.isEmpty && !t.frame.entries.isEmpty then { t.frame with occ := true }
         else ⟨true, kept, t.csr.vsi, t.csr.msi⟩)
      else t.frame
    csr := { t.csr with
      sepc := setBits t.pc 0 2 0
      svcp := setBits t.vcp 0 2 (b2n vt)
      scause := cause
      stval := tval
      sstatus := trapStatus t.csr.sstatus t.mode } }

/-- The strand as a trap into M mode leaves it, on the management core (R307; log 10). -/
def State.trapM (s : State) (cause tval : Word) : State :=
  let t := s.me
  let mc := s.regs.mcsr
  let mpp := match t.mode with | .u => 0 | .s => 1 | .m => 3
  let st := setBits (setBits (setBits mc.mstatus 7 1 (bits mc.mstatus 3 1)) 3 1 0) 11 2 mpp
  let s := { s with regs := { s.regs with mcsr := { mc with mepc := setBits t.pc 0 2 0, mcause := cause, mtval := tval, mstatus := st } } }
  s.setMe { t with status := .running, mode := .m, pc := setBits mc.mtvec 0 2 0, wait := .none, resv := none, promises := [], pins := [] }

/-- Is the trap fatal: kept entries of its own while the frame is occupied, or an environment call from S while it is
occupied, except on the management core (R332 cases 1 and 2)? -/
def Strand.trapFatal (t : Strand) (k : Nat) (cause : Nat) : Bool :=
  t.frame.occ && (!(t.queue ++ t.body).isEmpty || (cause == 9 && k != mgmtKey))

/-- Take an exception on the executing strand (R178, R179, R322, R332). `vt` says that the instruction at `vcp` raised
it. A match unit that makes a debug halt instead leaves the strand stopped with the halt asked for (R386, R388). -/
def State.takeTrap (s : State) (t : Trap) (vt : Bool) : State :=
  let k := s.cur
  let s := s.eccAdd t.ecc 1 0
  if t.cause = 0x103 then s.setMe { s.me with haltReq := true }
  else
  let s := s.leaveBank k
  if s.me.mode = .m || (k = mgmtKey && t.cause = 9) then s.trapM (w64 t.cause) t.tval
  else if s.me.trapFatal k t.cause then s.endFatal k true
  else s.setMe (s.me.trapped (w64 t.cause) t.tval vt)

/-- The scalar instruction at pc traps. -/
def State.trapScalar (s : State) (t : Trap) : Out := .next (s.takeTrap t false)

/-- The instruction at `vcp` traps. -/
def State.trapVec (s : State) (t : Trap) : Out := .next (s.takeTrap t true)

/-- A trap with cause and `stval`. -/
def mkTrap (cause : Nat) (tval : Word) : Trap := ⟨cause, tval, none⟩

/-- illegal-instruction of a scalar form, with its word as `stval` (R58). -/
def State.illegal (s : State) (i : Instr) : Out := s.trapScalar (mkTrap 2 i.bits)

/-- Take an interrupt of a number at the scalar front, `svcp.vt` = 0 and `stval` 0 (R331; log 16). -/
def State.takeInterrupt (s : State) (n : Nat) : State :=
  let k := s.cur
  let s := s.leaveBank k
  if s.me.frame.occ && !(s.me.queue ++ s.me.body).isEmpty then s.endFatal k true
  else s.setMe (s.me.trapped (w64 (2 ^ 63 + n)) 0 false)

/-- The interrupt a strand would take now: pending, enabled in `sie`, and, in S mode, enabled by `sstatus.SIE`; external
before software before counter overflow (R331, ratified order). -/
def Strand.interruptNow (t : Strand) : Option Nat :=
  if t.status != .running && t.status != .asleep then none
  else if t.mode = .m || (t.mode = .s && !bit t.csr.sstatus 1) then none
  else if t.csr.seip && bit t.csr.sie 9 then some 9
  else if t.csr.ssip && bit t.csr.sie 1 then some 1
  else if t.ovfPending && bit t.csr.sie 13 then some 13
  else none

/-- Return from an exception (R322): the frame's entries re-enter the queue in order, the first at the frame's `vsi` and
`msi`; mode, SIE, SPIE and SPP are restored; pc := `sepc`. With copies or bindings pending, a return to U mode makes them
again before the entries enter and before any U-mode instruction (R342). -/
def Strand.returned (t : Strand) : Strand :=
  let e := t.frame.entries
  let md : Mode := if bit t.csr.sstatus 8 then .s else .u
  let again := md == .u && !(t.copies.isEmpty && t.ports.isEmpty)
  let r : Strand := { t with
    queue := [], body := e, frame := Frame.empty, settle := again, mode := md
    pc := t.csr.sepc
    csr := { t.csr with
      vsi := if e.isEmpty then t.csr.vsi else t.frame.vsi
      msi := if e.isEmpty then t.csr.msi else t.frame.msi
      sstatus := retStatus t.csr.sstatus
      instret := t.csr.instret + 1 } }
  if again then r else r.refill

/-- Finish a scalar computation that may trap. -/
def State.finish (s : State) (r : Except Trap State) : Out :=
  match r with
  | .ok s' => .next s'
  | .error t => s.trapScalar t

end Sys2Proof.Machine
end

