-- ==== Sys2Proof/Machine/ReplayLog.lean ====
section
/-! DEFINITION. The replay log (R381 to R384). -/
namespace Sys2Proof.Machine

/-- Ring size 2^(sz + 7) and base of a ring register (R392). -/
def ringSize (w : Word) : Nat := 2 ^ (bits w 0 4 + 7)
def ringBase (w : Word) : Nat := bits w 12 52 * 4096

/-- The log mode that a strand's events meet: its flight's, while the strand is in U mode (R381, R384). -/
def State.logMode (s : State) (k : Nat) : Nat :=
  let t := s.strand k
  if t.mode ≠ .u then 0
  else match t.flight with
    | none => 0
    | some id => match s.flight? id with | some f => f.rlMode | none => 0

/-- The mode becomes off for a partition's log, setting bits of RLSTAT (R383, R384). -/
def State.logOff (s : State) (p : Nat) (statusBits : Nat) : State :=
  let q := s.part p
  let s := s.setPart p { q with rlctl := setBits q.rlctl 0 2 0, rlstat := q.rlstat ||| w64 statusBits }
  { s with flights := s.flights.map fun f => if f.part = p then { f with rlMode := 0 } else f }

/-- Entry i of a partition's log: value, core, strand, type, count. -/
def State.logEntry (s : State) (p i : Nat) : Word × Nat × Nat × Nat × Nat :=
  let bs := memRead s.mem (ringBase (s.part p).rlbase + 16 * i) 16
  let f (lo n : Nat) : Nat := leNat ((bs.drop lo).take n)
  (w64 (f 0 8), f 8 2, f 10 1, f 11 1, f 12 4)

/-- What an event of a type by strand k meets before it is performed. -/
inductive LogPre where
  | off
  | record
  | replay (v : Word)
  | wait
  deriving DecidableEq, Repr

/-- In replay, the event's own entry is the one with its strand and count; it waits until that entry is due, and
diverges when there is none or its type differs (R383; log 17). A corrected error that the read of the due entry meets is counted
(R104). -/
def State.logPre (s : State) (k ty : Nat) : State × LogPre :=
  match s.logMode k with
  | 1 => (s, .record)
  | 2 =>
    let p := s.partOf k
    let q := s.part p
    let n := q.rlptr.toNat
    let size := ringSize q.rlbase
    let cnt := (s.strand k).rlCount % 2 ^ 32
    if size ≤ n then (s.logOff p 2, .off)
    else
      let mine (e : Word × Nat × Nat × Nat × Nat) : Bool := e.2.1 == coreOf k && e.2.2.1 == k % 16 && e.2.2.2.2 == cnt
      let e := s.logEntry p n
      let s1 := s.noteSoft (ringBase q.rlbase + 16 * n) 16
      if e.2.2.2.1 = 0 then (s1.logOff p 2, .off)
      else if mine e then (if e.2.2.2.1 = ty then (s1, .replay e.1) else (s1.logOff p 4, .off))
      else if (List.range (size - n)).any fun i => mine (s.logEntry p (n + i)) && (s.logEntry p (n + i)).2.2.2.1 != 0 then (s, .wait)
      else (s1.logOff p 4, .off)
  | _ => (s, .off)

/-- After the event: append its entry in record mode, which stops when that fills the log; in replay mode advance past its entry,
diverging when `v` differs from it (R381, R383). -/
def State.logPost (s : State) (k ty : Nat) (pre : LogPre) (v : Word) : State :=
  let p := s.partOf k
  let q := s.part p
  let t := s.strand k
  match pre with
  | .record =>
    let n := q.rlptr.toNat
    if ringSize q.rlbase ≤ n then s.logOff p 1
    else
      let e := leBytes 8 v.toNat ++ leBytes 2 (coreOf k) ++ leBytes 1 (k % 16) ++ leBytes 1 ty ++ leBytes 4 (t.rlCount % 2 ^ 32)
      let s := s.writeHome none none (ringBase q.rlbase + 16 * n) e
      let s := (s.setPart p { q with rlptr := q.rlptr + 1 }).setStrand k { t with rlCount := t.rlCount + 1 }
      if ringSize q.rlbase ≤ n + 1 then s.logOff p 1 else s
  | .replay w =>
    if v ≠ w then s.logOff p 4
    else
      let s := (s.setPart p { q with rlptr := q.rlptr + 1 }).setStrand k { t with rlCount := t.rlCount + 1 }
      if ringSize q.rlbase ≤ q.rlptr.toNat + 1 then s.logOff p 2 else s
  | _ => s

/-- A read whose value the log may force (types 3 and 5): none when it waits. -/
def State.loggedRead (s : State) (k ty : Nat) (v : Word) : Option (State × Word) :=
  match s.logPre k ty with
  | (_, .wait) => none
  | (s, .replay w) => some (s.logPost k ty (.replay w) w, w)
  | (s, pre) => some (s.logPost k ty pre v, v)

end Sys2Proof.Machine
end

