-- ==== Sys2Proof/Machine/Registers.lean ====
section
/-! DEFINITION. Device registers (R351 to R363, R369, R392): reads and writes at offsets of the device region. Offsets
that hold no register read as zero and ignore writes. -/
namespace Sys2Proof.Machine

/-- Features that GN-B900-A0 offers: bits 0 to 14, none after a failed boot (R353, R391). -/
def State.featOff (s : State) (i : Nat) : Word := if i = 0 && !s.regs.bootfail then 0x7FFF else 0

/-- Is feature bit i accepted (R354)? -/
def State.feature (s : State) (i : Nat) : Bool := bit (s.regs.featacc[0]) i

/-- TOPO (R352). -/
def State.topo (s : State) : Word :=
  let fenced := (List.range 8).foldl (fun a d => a + if (s.die d).fenced then 2 ^ d else 0) 0
  w64 (12 * 2 ^ 40 + 4 * 2 ^ 36 + 16 * 2 ^ 24 + 9 * 2 ^ 20 + fenced * 2 ^ 8 + s.regs.present % 256)

/-- Number of live dies. -/
def State.liveDies (s : State) : List Nat := (List.range 8).filter s.dieLive

/-- The package budget in force: while a lowering waits for loans, the old one (R370). -/
def State.budgetNow (s : State) : Nat := match s.regs.lower with | some p => p.1 | none => s.regs.budget

/-- Share of die d in W (R370). -/
def State.shareOf (s : State) (d : Nat) : Nat := if s.dieLive d then (s.budgetNow - 640) / s.liveDies.length else 0

/-- Current allowance of die d in W: its share of the budget less what it has lent, with what it has borrowed (R370,
R371). -/
def State.allowOf (s : State) (d : Nat) : Nat :=
  let lent := ((s.loans.filter fun l => l.lender == d && decide (1 ≤ l.phase)).map Loan.units).sum
  let got := ((s.loans.filter fun l => l.borrower == d && l.phase == 2).map Loan.units).sum
  s.shareOf d + got - lent

/-- DIEPWR of die d; `tj` is what the sensors last gave (R369). -/
def State.diePwr (s : State) (d : Nat) : Word :=
  let x := s.die d
  w64 (x.thr % 2 ^ 24 * 2 ^ 40 + s.junction d % 256 * 2 ^ 32 + s.allowOf d % 4096 * 2 ^ 20 + x.clamp % 8 * 2 ^ 8 + x.power % 8)

/-- Is the debug port open: in TEST and RMA, and in PROD once a token has opened it (R393, R396)? -/
def State.portOpen (s : State) : Bool := bit s.regs.dbgpatch 16 || s.regs.lifecycle == 0 || s.regs.lifecycle == 2

/-- Is queue q enabled, paused? -/
def HostQueue.en (q : HostQueue) : Bool := bit q.qctl 0
def HostQueue.pause (q : HostQueue) : Bool := bit q.qctl 1
def HostQueue.part (q : HostQueue) : Nat := bits q.qctl 16 4
def HostQueue.vec (q : HostQueue) : Nat := bits q.qctl 24 6
def HostQueue.size (q : HostQueue) : Nat := 2 ^ bits q.qbase 0 4
def HostQueue.cqSize (q : HostQueue) : Nat := 2 ^ bits q.cqbase 0 4

/-- QSTAT (R355). -/
def HostQueue.stat (q : HostQueue) : Word :=
  w64 (b2n q.en + 2 * b2n (q.pause && q.refetch.isNone) + 4 * b2n q.badnotify)

/-- The 64-bit register at an 8-byte aligned offset. -/
def State.regRead (s : State) (off : Nat) : Word :=
  if off = 0 then isaver
  else if off = 8 then s.topo
  else if 0x20 ≤ off && off < 0x40 then s.featOff ((off - 0x20) / 8)
  else if off = 0x40 then s.regs.featacc[0]
  else if off = 0x48 then s.regs.featacc[1]
  else if off = 0x50 then s.regs.featacc[2]
  else if off = 0x58 then s.regs.featacc[3]
  else if off = 0x60 then s.regs.winbase
  else if off = 0x68 then s.regs.domain
  else if 0x10000 ≤ off && off < 0x11000 then
    let q := s.queue ((off - 0x10000) / 0x100)
    match off % 0x100 with
    | 0x00 => q.qbase
    | 0x08 => q.cqbase
    | 0x10 => q.qctl
    | 0x18 => q.stat
    | 0x28 => w64 q.consumed
    | 0x30 => w64 q.completed
    | 0x38 => w64 q.notified
    | 0x40 => w64 q.cqtail
    | 0x48 => w64 q.cqhead
    | _ => 0
  else if off = 0x1000000 then s.now
  else if off = 0x1000008 then s.regs.ptp
  else if off = 0x1000010 then w64 s.regs.budget
  else if 0x1000018 ≤ off && off < 0x1000058 then s.diePwr ((off - 0x1000018) / 8)
  else if off = 0x1000060 then s.regs.ageprop
  else if off = 0x1001000 then w64 Config.devId
  else if off = 0x1001008 then w64 (Config.devId / 2 ^ 64)
  else if off = 0x1001010 then w64 (s.regs.lifecycle % 8 + 8 * b2n s.regs.bootfail)
  else if off = 0x1001020 then w64 (b2n s.regs.attdone + 2 * b2n s.regs.attbuf.isSome)
  else if off = 0x1001028 then setBits s.regs.dbgpatch 16 1 (b2n s.portOpen)
  else if 0x1001100 ≤ off && off < 0x10011C0 then
    let e := Tbl.get (0, 0) s.regs.ecc ((off - 0x1001100) / 8)
    w64 (e.2 % 2 ^ 32 + e.1 % 2 ^ 32 * 2 ^ 32)
  else if 0x1001200 ≤ off && off < 0x1001600 then
    let p := s.part ((off - 0x1001200) / 0x40)
    match off % 0x40 with
    | 0x00 => p.trbase
    | 0x08 => p.trctl
    | 0x10 => p.trptr
    | 0x18 => p.rlbase
    | 0x20 => p.rlctl
    | 0x28 => p.rlptr
    | 0x30 => p.rlstat
    | _ => 0
  else 0

/-- New value of a RW register under a byte mask: masked bits from v, others kept. -/
def masked (mask cur v : Word) : Word := (cur &&& ~~~mask) ||| (v &&& mask)

/-- Fields of a ring base register: [63:12] and [3:0] (R392). -/
def ringMask : Word := 0xFFFFFFFFFFFFF00F

/-! ### Registers with rows of their own -/

/-- FEATACC: offered bits only, bit 0 always 1, ignored while any queue is enabled (R354). -/
def State.setFeatacc (s : State) (i : Nat) (mask v : Word) : State :=
  if s.queues.any (fun q => q.2.en) then s
  else
    match i with
    | 0 => { s with regs := { s.regs with featacc := s.regs.featacc.set 0 ((masked mask s.regs.featacc[0] v &&& s.featOff 0) ||| 1) } }
    | _ => s

/-- WINBASE: [39:36], 0 to 11; a write whose field holds 12 to 15 is ignored (R351). -/
def State.setWinbase (s : State) (mask v : Word) : State :=
  let w := masked mask s.regs.winbase v
  if bits w 36 4 ≤ 11 then { s with regs := { s.regs with winbase := w64 (bits w 36 4 * 2 ^ 36) } } else s

/-- DOMAIN (R363): while en = 1 only en changes; en = 1 with pkg ≥ 384 leaves en at 0. A package that leaves the domain is
aligned to it no more: the counter runs at its own rate, PTPSTAT.lock is 0, and the next en = 1 is a new joining (R376). A port whose
peer has reported another domid, or this package's number, is held down. -/
def State.setDomain (s : State) (mask v : Word) : State :=
  let cur := s.regs.domain
  let w := masked mask cur v &&& 0x8000FFFFFFFF01FF
  let nw := if bit cur 63 then setBits cur 63 1 (bits w 63 1) else if 384 ≤ bits w 0 9 then setBits w 63 1 0 else w
  let held (u : UaPort) : Bool := u.down || u.domid ≠ bits nw 16 32 || u.peer == some (bits nw 0 9)
  let r := { s.regs with domain := nw, uaports := s.regs.uaports.map fun u => { u with down := held u } }
  { s with regs := if bit nw 63 then r else { r with ptp := setBits r.ptp 63 1 0, stepped := false, joined := false, heldOut := false, rate := 0 } }

/-- QCTL (R355): setting en from 0 to 1 restarts the counters; part is fixed while en = 1; after a failed boot en stays
0 (R391). -/
def State.setQctl (s : State) (i : Nat) (mask v : Word) : State :=
  let q := s.queue i
  let w := masked mask q.qctl v &&& 0x3F0F0003
  let w := if q.en then setBits w 16 4 q.part else w
  let w := if s.regs.bootfail then setBits w 0 1 0 else w
  let q' := { q with qctl := w }
  s.setQueue i (if bit w 0 && !q.en then
    { q' with consumed := 0, completed := 0, notified := 0, cqtail := 1, cmds := [], finished := [], refetch := none }
    else q')

/-- NOTIFY (R357). -/
def State.setNotify (s : State) (i v : Nat) : State :=
  let q := s.queue i
  let m32 := 2 ^ 32
  let d := (v + m32 - q.consumed) % m32
  if 0 < d && d ≤ q.size && (v + m32 - q.notified) % m32 < 2 ^ 31 then s.setQueue i { q with notified := v }
  else s.setQueue i { q with badnotify := true }

/-- RESYNC (R360): the slots after u are dropped, one whose fetch is being repeated among them. -/
def State.setResync (s : State) (i v : Nat) : State :=
  let q := s.queue i
  let m32 := 2 ^ 32
  if (v + m32 - q.consumed) % m32 ≤ (q.notified + m32 - q.consumed) % m32 then
    s.setQueue i { q with notified := v, refetch := if v = q.consumed then none else q.refetch }
  else s.setQueue i { q with badnotify := true }

/-- SWI: the strand's supervisor software interrupt becomes pending (R351, R331). -/
def State.setSwi (s : State) (k : Nat) : State :=
  let t := s.strand k
  s.setStrand k { t with csr := { t.csr with ssip := true } }

/-- ATTREQ: starts a report unless one is being made (R392, R394). -/
def State.setAttreq (s : State) (v : Word) : State :=
  if s.regs.attbuf.isSome then s
  else { s with regs := { s.regs with attbuf := some (bits v 6 58 * 64), attdone := false } }

/-- RLCTL.mode (R384, R392): 3 is ignored, and modes other than off need feature bit 12. Setting one of them starts at the log's
first entry (R383; log 88). -/
def State.setRlctl (s : State) (p : Nat) (mask v : Word) : State :=
  let q := s.part p
  let md := bits (masked mask q.rlctl v) 0 2
  if md = 3 || (md ≠ 0 && !s.feature 12) then s else s.setPart p { q with rlctl := w64 md, rlptr := if md = 0 then q.rlptr else 0 }

/-- The cycle count by which a partition's samples are spaced: that of the lowest die that holds a hall of it (R389; log 89). -/
def State.partCycles (s : State) (p : Nat) : Nat :=
  match (List.range 72).find? fun h => bit (s.part p).halls h with
  | some h => (s.die (h / 9)).cycles
  | none => 0

/-- TRCTL (R392): the write that turns sampling on starts the first interval (R389). -/
def State.setTrctl (s : State) (i : Nat) (m v : Word) : State :=
  let p := s.part i
  let w := (masked (m &&& 0x3FFFD) p.trctl v) &&& ~~~(v &&& m &&& 2)
  let on (w : Word) : Bool := bit w 0 && bits w 2 16 ≠ 0
  s.setPart i { p with trctl := w, trTime := if on w && !on p.trctl then s.partCycles i else p.trTime }

/-- Write the 64-bit register at an 8-byte aligned offset, under a mask that selects the written half or halves. -/
def State.regWrite (s : State) (off : Nat) (mask v : Word) : State :=
  let m := mask
  if 0x40 ≤ off && off < 0x60 then s.setFeatacc ((off - 0x40) / 8) m v
  else if off = 0x60 then s.setWinbase m v
  else if off = 0x68 then s.setDomain m v
  else if 0x10000 ≤ off && off < 0x11000 then
    let i := (off - 0x10000) / 0x100
    let q := s.queue i
    match off % 0x100 with
    | 0x00 => if q.en then s else s.setQueue i { q with qbase := masked m q.qbase v &&& 0xFFFFFFFFFFFFF00F }
    | 0x08 => if q.en then s else s.setQueue i { q with cqbase := masked m q.cqbase v &&& 0xFFFFFFFFFFFFF00F }
    | 0x10 => s.setQctl i m v
    | 0x18 => s.setQueue i { q with badnotify := q.badnotify && !bit (v &&& m) 2 }
    | 0x20 => s.setNotify i (bits (v &&& m) 0 32)
    | 0x48 => s.setQueue i { q with cqhead := bits (masked m (w64 q.cqhead) v) 0 32 }
    | 0x50 => s.setResync i (bits (v &&& m) 0 32)
    | _ => s
  else if 0x20000 ≤ off && off < 0x20000 + 8 * 18432 then s.setSwi ((off - 0x20000) / 8)
  else if off = 0x1001018 then s.setAttreq (v &&& m)
  else if off = 0x1001028 then
    { s with regs := { s.regs with dbgpatch := masked (m &&& 0xFFFF) s.regs.dbgpatch v } }
  else if 0x1001200 ≤ off && off < 0x1001600 then
    let i := (off - 0x1001200) / 0x40
    let p := s.part i
    match off % 0x40 with
    | 0x00 => s.setPart i { p with trbase := masked m p.trbase v &&& ringMask }
    | 0x08 => s.setTrctl i m v
    | 0x18 => s.setPart i { p with rlbase := masked m p.rlbase v &&& ringMask }
    | 0x20 => s.setRlctl i m v
    | 0x30 => s.setPart i { p with rlstat := p.rlstat &&& ~~~(v &&& m &&& 7) }
    | _ => s
  else s

/-- Read 4 or 8 bytes at a naturally aligned offset. -/
def State.regLoad (s : State) (off size : Nat) : Nat :=
  let w := s.regRead (off - off % 8)
  if size = 8 then w.toNat else bits w (8 * (off % 8)) 32

/-- Write 4 or 8 bytes at a naturally aligned offset. A 4-byte write acts on its half of the register alone (log 18). -/
def State.regStore (s : State) (off size v : Nat) : State :=
  let sh := 8 * (off % 8)
  if size = 8 then s.regWrite off (BitVec.allOnes 64) (w64 v)
  else s.regWrite (off - off % 8) (w64 ((2 ^ 32 - 1) * 2 ^ sh)) (w64 (v % 2 ^ 32 * 2 ^ sh))

end Sys2Proof.Machine
end

