-- ==== Sys2Proof/Machine/Scalar.lean ====
section
/-! DEFINITION. Scalar accesses to memory: alignment, translation, admission, data match units, the L1 data cache and the
write-through queue (R60, R120, R121, R147, R159, R386). -/
namespace Sys2Proof.Machine

/-- A match makes a debug halt when act = 1 and the debug port is open; otherwise it is breakpoint (R378). -/
def State.haltInstead (s : State) : Bool := bit s.me.csr.dbgctl 1 && s.portOpen

/-- Does an armed data unit of the executing strand meet bytes [va, va + n) in this direction (R378, R386)? A halt already
asked for and deferred (R388) is not asked for again. -/
def State.dataMatch (s : State) (va n : Nat) (wr : Bool) : Bool :=
  bit s.me.csr.dbgctl 0 && !(s.haltInstead && s.me.haltReq) &&
  (List.finRange 2).any fun i =>
    let u := s.me.csr.dbdata[i]
    let size := 32 * 2 ^ bits u 2 3
    let base := bits u 5 59 * 32 / size * size
    (if wr then bit u 1 else bit u 0) && va < base + size && base < va + n

/-- Cause 3 with bit 8 of the cause number marking a debug halt in place of the trap. -/
def State.matchTrap (s : State) (va : Nat) : Trap := if s.haltInstead then ⟨0x103, w64 va, none⟩ else ⟨3, w64 va, none⟩

/-- What a scalar load or store meets before its access: translation, the admission of R120 and R121, the key of an encrypted
page (R108), and only then the match units, which act on an access that would be made (R386). -/
def State.reach (s : State) (acc : Acc) (va n : Nat) : Except (State × Trap) (State × Xlat) :=
  match translate s s.ctx acc va with
  | .error t => .error t
  | .ok (s', x) =>
    let dev := regionOf x.pa = .device && !(n = 4 || n = 8)
    if dev || !s'.admits s'.cur .plain x.pa then .error (s', accessFault acc va)
    else
      match s'.accessKey s'.ctx x.enc acc va with
      | .error t => .error (s', t)
      | .ok _ => if s'.dataMatch va n (acc == .write) then .error (s', s'.matchTrap va) else .ok (s', x)

/-- The bytes of an L1 line, when present under the access's tag (R109). -/
def State.l1Find (s : State) (core line : Nat) (part : Option Nat) : Option (List Byte) :=
  ((s.core core).l1.find? fun e => e.line == line && e.part == part).map L1Line.bytes

/-- A scalar load of local HBM: the L1 may hit; a miss reads the line through the die cache and fills it (R159). A line with
a failing sector is not filled. The miss counts whether the load answers or traps (R379 event 11). -/
def State.l1Load (s : State) (core va pa n : Nat) (part : Option Nat) : Except (State × Trap) (State × List Byte) :=
  let line := pa / 128
  match s.l1Find core line part with
  | some bs => .ok (s, (bs.drop (pa % 128)).take n)
  | none =>
    let s := s.deliverOver core (128 * line) 128
    let s := (s.noteSoft (128 * line) 128).countEv s.cur 11 1
    let key := part.bind s.keyBytes
    match s.physRead key pa n with
    | .error o => .error (s, uncorrectable (va + o) (pa + o))
    | .ok bs =>
      let s := s.dirReadBy (dieOfCore core) (s.tagOfEnc part.isSome) pa n
      match s.physRead key (128 * line) 128 with
      | .ok all => .ok (s.fillL1 core line part all, bs)
      | .error _ => .ok (s, bs)

/-- Read n bytes at a translated address as a scalar load. -/
def State.loadAt (s : State) (va n : Nat) (x : Xlat) : Except (State × Trap) (State × Nat) :=
  let core := coreOf s.cur
  match s.accessKey s.ctx x.enc .read va with
  | .error t => .error (s, t)
  | .ok key =>
    match regionOf x.pa with
    | .hbm =>
      match s.l1Load core va x.pa n (if x.enc then some (s.partOf s.cur) else none) with
      | .ok (s, bs) => .ok (s, leNat bs)
      | .error t => .error t
    | .device => .ok (s, s.regLoad (x.pa - deviceBase) n)
    | _ =>
      match s.physRead key x.pa n with
      | .error o => .error (s, uncorrectable (va + o) (x.pa + o))
      | .ok bs => .ok (s.noteSoft x.pa n, leNat bs)

/-- Write bytes at a translated address as a scalar store. -/
def State.storeAt (s : State) (va : Nat) (bs : List Byte) (x : Xlat) : Except Trap State :=
  let core := coreOf s.cur
  match s.accessKey s.ctx x.enc .write va with
  | .error t => .error t
  | .ok key =>
    match regionOf x.pa with
    | .hbm =>
      let part := if x.enc then some (s.partOf s.cur) else none
      let c := s.core core
      let line := x.pa / 128
      let l1 := c.l1.filterMap fun e =>
        if e.line ≠ line then some e
        else if e.part ≠ part then none
        else some { e with bytes := e.bytes.take (x.pa % 128) ++ bs ++ e.bytes.drop (x.pa % 128 + bs.length) }
      let s := s.setCore core { c with l1 := l1, wtq := c.wtq ++ [⟨x.pa, bs, s.tagOfEnc x.enc, s.cur, x.pin⟩] }
      let t := s.me
      .ok (s.setMe { t with written := insNat line t.written })
    | .device => .ok (s.regStore (x.pa - deviceBase) bs.length (leNat bs))
    | _ => .ok (s.physWrite key x.pa bs)

/-- A scalar load of n bytes (R60, R99, R159): misalignment, translation, admission, match units, then the read. -/
def State.scalarLoad (s : State) (va n : Nat) : Except (State × Trap) (State × Nat × Xlat) :=
  if va % n ≠ 0 then .error (s, mkTrap 4 (w64 va))
  else
    match s.reach .read va n with
    | .error t => .error t
    | .ok (s', x) =>
      match s'.loadAt va n x with
      | .ok (s'', v) => .ok (s'', v, x)
      | .error t => .error t

/-- Does a scalar load of n bytes at va read TIMENS (R381)? -/
def State.readsTimens (s : State) (va n : Nat) : Bool :=
  match translate s s.ctx .read va with
  | .ok (_, x) => va % n == 0 && deviceBase + 0x1000000 ≤ x.pa && x.pa < deviceBase + 0x1000008
  | .error _ => false

/-- A scalar store of bytes (R60, R99, R159). -/
def State.scalarStore (s : State) (va : Nat) (bs : List Byte) : Except (State × Trap) State :=
  if va % bs.length ≠ 0 then .error (s, mkTrap 6 (w64 va))
  else
    match s.reach .write va bs.length with
    | .error t => .error t
    | .ok (s', x) =>
      match s'.storeAt va bs x with
      | .ok s'' => .ok (s''.breakResv (some s.cur) x.pa bs.length)
      | .error t => .error (s', t)

end Sys2Proof.Machine
end

