-- ==== Sys2Proof/Machine/Base.lean ====
section
/-! DEFINITION. The scalar base: arithmetic, branches and jumps, loads and stores, and the base's system instructions
(R57, R59, R60, R307, R387). -/
namespace Sys2Proof.Machine

/-! ### Integer operations, as the ratified base, M and Zba give them (R59) -/

/-- Low 32 bits sign-extended. -/
def sext32 (w : Word) : Word := (w.truncate 32).signExtend 64

/-- The high half of a product of two integers. -/
def mulHigh (a b : Int) : Word := w64 (wrapInt 64 (a * b / 2 ^ 64))

/-- Signed quotient of n-bit operands: -1 when the divisor is 0; the dividend when it overflows. -/
def divS {n : Nat} (a b : BitVec n) : BitVec n := if b = 0 then BitVec.allOnes n else BitVec.sdiv a b
def divU {n : Nat} (a b : BitVec n) : BitVec n := if b = 0 then BitVec.allOnes n else a / b

/-- Remainders: the dividend when the divisor is 0. -/
def remS {n : Nat} (a b : BitVec n) : BitVec n := if b = 0 then a else BitVec.srem a b
def remU {n : Nat} (a b : BitVec n) : BitVec n := if b = 0 then a else a % b

/-- The value of a register-register operation. -/
def regEval (f : RegOp) (a b : Word) : Word :=
  let a32 : BitVec 32 := a.truncate 32
  let b32 : BitVec 32 := b.truncate 32
  let zx : Word := a32.zeroExtend 64
  match f with
  | .add => a + b
  | .sub => a - b
  | .sll => a <<< (b.toNat % 64)
  | .slt => if a.slt b then 1 else 0
  | .sltu => if a.ult b then 1 else 0
  | .xor => a ^^^ b
  | .srl => a >>> (b.toNat % 64)
  | .sra => a.sshiftRight (b.toNat % 64)
  | .or => a ||| b
  | .and => a &&& b
  | .addw => (a32 + b32).signExtend 64
  | .subw => (a32 - b32).signExtend 64
  | .sllw => (a32 <<< (b.toNat % 32)).signExtend 64
  | .srlw => (a32 >>> (b.toNat % 32)).signExtend 64
  | .sraw => (a32.sshiftRight (b.toNat % 32)).signExtend 64
  | .mul => a * b
  | .mulh => mulHigh a.toInt b.toInt
  | .mulhsu => mulHigh a.toInt b.toNat
  | .mulhu => mulHigh a.toNat b.toNat
  | .div => divS a b
  | .divu => divU a b
  | .rem => remS a b
  | .remu => remU a b
  | .mulw => (a32 * b32).signExtend 64
  | .divw => (divS a32 b32).signExtend 64
  | .divuw => (divU a32 b32).signExtend 64
  | .remw => (remS a32 b32).signExtend 64
  | .remuw => (remU a32 b32).signExtend 64
  | .addUw => zx + b
  | .sh1add => (a <<< 1) + b
  | .sh2add => (a <<< 2) + b
  | .sh3add => (a <<< 3) + b
  | .sh1addUw => (zx <<< 1) + b
  | .sh2addUw => (zx <<< 2) + b
  | .sh3addUw => (zx <<< 3) + b

/-- The value of a register-immediate operation. -/
def immEval (f : ImmOp) (a : Word) (i : BitVec 12) : Word :=
  let b := i.signExtend 64
  match f with
  | .addi => regEval .add a b
  | .slti => regEval .slt a b
  | .sltiu => regEval .sltu a b
  | .xori => regEval .xor a b
  | .ori => regEval .or a b
  | .andi => regEval .and a b
  | .addiw => regEval .addw a b

/-- The value of an immediate shift. -/
def shiftEval (f : ShiftOp) (a : Word) (sh : BitVec 6) : Word :=
  let b := sh.zeroExtend 64
  match f with
  | .slli => regEval .sll a b
  | .srli => regEval .srl a b
  | .srai => regEval .sra a b
  | .slliw => regEval .sllw a b
  | .srliw => regEval .srlw a b
  | .sraiw => regEval .sraw a b
  | .slliUw => regEval .sll ((a.truncate 32).zeroExtend 64) b

/-- Destination register of an arithmetic form. -/
def arithRd : Arith → XReg
  | .imm _ rd _ _ | .shift _ rd _ _ | .reg _ rd _ _ | .lui rd _ | .auipc rd _ => rd

/-- The value an arithmetic form computes. -/
def State.arithVal (s : State) (a : Arith) : Word :=
  match a with
  | .imm f _ rs i => immEval f (s.getX rs) i
  | .shift f _ rs sh => shiftEval f (s.getX rs) sh
  | .reg f _ rs rt => regEval f (s.getX rs) (s.getX rt)
  | .lui _ i => (i ++ (0 : BitVec 12)).signExtend 64
  | .auipc _ i => s.me.pc + (i ++ (0 : BitVec 12)).signExtend 64

/-- RV64I_ARITHMETIC (R59). -/
def execRv64iArith (a : Arith) (s : State) : Out := .next (s.retireX (arithRd a) (s.arithVal a))

/-! ### Branches and jumps -/

/-- Is a branch taken? -/
def condHolds (c : BrCond) (a b : Word) : Bool :=
  match c with
  | .eq => a == b
  | .ne => a != b
  | .lt => a.slt b
  | .ge => !a.slt b
  | .ltu => a.ult b
  | .geu => !a.ult b

/-- Complete at a target with register rd written; a target that is not a multiple of 4 traps on the jump, with `stval`
the target (R57). -/
def State.jumpTo (s : State) (rd : XReg) (v target : Word) : Out :=
  if bits target 0 2 ≠ 0 then s.trapScalar (mkTrap 0 target)
  else
    let s := s.retireX rd v
    .next (s.setMe { s.me with pc := target })

/-- BRANCH_JUMP (R57, R59). -/
def execBranchJump (j : Jump) (s : State) : Out :=
  let pc := s.me.pc
  match j with
  | .br c rs1 rs2 off =>
    if condHolds c (s.getX rs1) (s.getX rs2) then s.jumpTo 0 0 (pc + (off.signExtend 64 <<< 1)) else .next s.retire
  | .jal rd off => s.jumpTo rd (pc + 4) (pc + (off.signExtend 64 <<< 1))
  | .jalr rd rs1 off => s.jumpTo rd (pc + 4) (setBits (s.getX rs1 + off.signExtend 64) 0 1 0)

/-! ### Loads and stores -/

/-- Bytes of a load form. -/
def loadBytes : LoadOp → Nat
  | .lb | .lbu => 1
  | .lh | .lhu => 2
  | .lw | .lwu => 4
  | .ld => 8

/-- The register value of a loaded number. -/
def loadExtend (f : LoadOp) (v : Nat) : Word :=
  match f with
  | .lbu | .lhu | .lwu | .ld => w64 v
  | _ => sext64 (8 * (loadBytes f)) v

/-- A loaded value as the replay log sees it: a read of TIMENS is an event of type 3; none while it waits for its turn
(R381, R383). -/
def State.loggedLoad (s : State) (timens : Bool) (v : Nat) : Option (State × Nat) :=
  if timens then (s.loggedRead s.cur 3 (w64 v)).map fun r => (r.1, r.2.toNat) else some (s, v)

/-- LOAD (R60, R159). -/
def execLoad (f : LoadOp) (rd rs : XReg) (off : BitVec 12) (s : State) : Out :=
  let va := (s.getX rs + off.signExtend 64).toNat
  match s.scalarLoad va (loadBytes f) with
  | .error (s', t) => s'.trapScalar t
  | .ok (s', v, _) =>
    match s'.loggedLoad (s.readsTimens va (loadBytes f)) v with
    | none => .next s
    | some (s', v) => .next (s'.retireX rd (loadExtend f v))

/-- STORE (R60, R159). -/
def execStore (w : Width) (rt rs : XReg) (off : BitVec 12) (s : State) : Out :=
  match s.scalarStore (s.getX rs + off.signExtend 64).toNat (leBytes w.bytes (s.getX rt).toNat) with
  | .error (s', t) => s'.trapScalar t
  | .ok s' => .next s'.retire

/-! ### System instructions of the base -/

/-- FENCE_I: the core's instruction cache is emptied, so that fetch reads the core's view of memory (R60, R163). -/
def execFenceI (s : State) : Out := .next (s.setMyCore { s.myCore with icache := [] }).retire

/-- SFENCE_VMA: illegal-instruction in every mode (R60). -/
def execSfenceVma (rs rt : XReg) (s : State) : Out := s.illegal (.sfenceVma rs rt)

/-- MRET: illegal-instruction on every core but the management core, and below M mode there; otherwise the ratified
return: MIE takes MPIE, MPIE is set, the mode and then MPP are those of MPP and U (R60). -/
def execMret (s : State) : Out :=
  if s.cur ≠ mgmtKey || s.me.mode ≠ .m then s.illegal .mret
  else
    let mc := s.regs.mcsr
    let md : Mode := match bits mc.mstatus 11 2 with | 0 => .u | 1 => .s | _ => .m
    let st := setBits (setBits (setBits mc.mstatus 3 1 (bits mc.mstatus 7 1)) 7 1 1) 11 2 0
    let st := if md = .m then st else setBits st 17 1 0
    let s := { s with regs := { s.regs with mcsr := { mc with mstatus := st } } }
    let s := s.retire
    .next (s.setMe { s.me with mode := md, pc := setBits mc.mepc 0 2 0 })

/-- WFI: a no-op in every mode (R60). -/
def execWfi (s : State) : Out := .next s.retire

/-- ECALL: environment-call-from-U or -S; `stval` 0 as ratified. M mode raises the ratified cause 11 (R307). -/
def execEcall (s : State) : Out :=
  s.trapScalar (mkTrap (match s.me.mode with | .u => 8 | .s => 9 | .m => 11) 0)

/-- EBREAK: breakpoint, or stray-breakpoint, with `stval` = pc (R387). -/
def execEbreak (s : State) : Out :=
  let patch := bit s.regs.dbgpatch (s.partOf s.cur % 16)
  s.trapScalar (mkTrap (if bit s.me.csr.dbgctl 0 || !patch then 3 else 25) s.me.pc)

end Sys2Proof.Machine
end

