-- ==== Sys2Proof/Machine/Atomics.lean ====
section
/-! DEFINITION. LR, SC and AMO, FENCE, and the ordering instructions `sync`, `lda` and `stl` (R60, R150, R154 to R160). -/
namespace Sys2Proof.Machine

/-- Targets that admit an LR, SC or AMO (R158); `admits` has already decided the page. -/
def State.atomTarget (s : State) (amo : Bool) (pa : Nat) : Bool :=
  match regionOf pa with
  | .hbm | .pad _ => true
  | .gallery h => amo || h == hallOfCore (coreOf s.cur)
  | .window _ _ => amo
  | _ => false

/-- The directions in which an atomic access reads and writes. -/
inductive AtomKind where
  | lr | sc | amo
  deriving DecidableEq, Repr

/-- Alignment, translation, admission, target and match units of an atomic access, with its key (R60, R99, R158, R386). -/
def State.atomReach (s : State) (kd : AtomKind) (va n : Nat) : Except (State × Trap) (State × Xlat × Option (List Nat)) :=
  let acc : Acc := if kd = .lr then .read else .write
  if va % n ≠ 0 then .error (s, mkTrap (if kd = .lr then 4 else 6) (w64 va))
  else
    match translate s s.ctx acc va with
    | .error t => .error t
    | .ok (s', x) =>
      if !s'.admits s'.cur .plain x.pa || !s'.atomTarget (kd = .amo) x.pa then .error (s', accessFault acc va)
      else
        match s'.accessKey s'.ctx x.enc acc va with
        | .error t => .error (s', t)
        | .ok key =>
          if s'.dataMatch va n (kd ≠ .lr) || (kd = .amo && s'.dataMatch va n false) then .error (s', s'.matchTrap va)
          else .ok (s', x, key)

/-- The old value at the access's home: the core's own queued stores to it are delivered, its L1 line is dropped, and
die-cache copies are recalled (R149, R159, R96). -/
def State.atomRead (s : State) (key : Option (List Nat)) (va pa n : Nat) : Except Trap (State × Nat) :=
  let core := coreOf s.cur
  let s := (s.deliverOver core pa n).dropL1 core pa n
  let s := { s with dir := (dirLines pa n).foldl dirRecall s.dir }
  match s.physRead key pa n with
  | .error o => .error (uncorrectable (va + o) (pa + o))
  | .ok bs => .ok (s.noteSoft pa n, leNat bs)

/-- Write at the home for the executing strand. -/
def State.atomWrite (s : State) (key : Option (List Nat)) (pa n v : Nat) : State :=
  s.writeHome (some s.cur) key pa (leBytes n v)

/-- The release side of an atomic access, at system scope over both spaces (R157). -/
def State.atomRelease (s : State) (rl : Bool) : State := if rl then s.releasePoint s.cur .system else s
def State.atomAcquire (s : State) (aq : Bool) : State := if aq then s.acquirePoint s.cur .system .both else s

/-- Bytes of .D and .W forms. -/
def amoBytes (h : AmoHdr) : Nat := if h.dbl then 8 else 4

/-- A value read by LR or AMO as the register takes it. -/
def amoExtend (h : AmoHdr) (v : Nat) : Word := if h.dbl then w64 v else sext64 32 v

/-- The value an AMO stores. -/
def amoEval (op : AmoOp) (w : Nat) (old src : Nat) : Nat :=
  let a : Word := w64 (old % 2 ^ w)
  let b : Word := w64 (src % 2 ^ w)
  let sa := sextNat w old
  let sb := sextNat w src
  match op with
  | .swap => b.toNat
  | .add => (a.toNat + b.toNat) % 2 ^ w
  | .xor => (a ^^^ b).toNat
  | .and => (a &&& b).toNat
  | .or => (a ||| b).toNat
  | .min => if sa ≤ sb then a.toNat else b.toNat
  | .max => if sa ≤ sb then b.toNat else a.toNat
  | .minu => min a.toNat b.toNat
  | .maxu => max a.toNat b.toNat

/-- Finish an atomic access whose logged result is v (R381, R383). -/
def State.logAtomic (s : State) (pre : LogPre) (v : Word) : State := s.logPost s.cur 2 pre v

/-- LR: a reservation on the 64-byte granule (R60). -/
def execLr (h : AmoHdr) (rd rs : XReg) (s : State) : Out :=
  let va := (s.getX rs).toNat
  match s.atomReach .lr va (amoBytes h) with
  | .error (s', t) => s'.trapScalar t
  | .ok (s1, x, key) =>
    match s1.logPre s1.cur 2 with
    | (_, .wait) => .next s1
    | (s2, pre) =>
      match s2.atomRead key va x.pa (amoBytes h) with
      | .error t => s1.trapScalar t
      | .ok (s3, v) =>
        let s4 := (s3.setMe { s3.me with resv := some (x.pa / 64) }).atomAcquire h.aq
        .next ((s4.logAtomic pre (amoExtend h v)).retireX rd (amoExtend h v))

/-- SC: it stores and answers 0 when the reservation covers its granule, and answers 1 otherwise; the reservation is lost
in either case (R60). The core's queued stores to the bytes are delivered first (R149), and one of another strand of the core to
the granule takes the reservation. -/
def execSc (h : AmoHdr) (rd rs rt : XReg) (s : State) : Out :=
  let va := (s.getX rs).toNat
  match s.atomReach .sc va (amoBytes h) with
  | .error (s', t) => s'.trapScalar t
  | .ok (s1, x, key) =>
    match s1.logPre s1.cur 2 with
    | (_, .wait) => .next s1
    | (s2, pre) =>
      let core := coreOf s2.cur
      let s2 := (s2.atomRelease h.rl).deliverOver core x.pa (amoBytes h)
      let ok := s2.me.resv == some (x.pa / 64)
      let s3 := if ok then (s2.dropL1 core x.pa (amoBytes h)).atomWrite key x.pa (amoBytes h) (s.getX rt).toNat else s2
      let s4 := (s3.setMe { s3.me with resv := none }).atomAcquire (h.aq && h.rl)
      let v : Word := if ok then 0 else 1
      .next ((s4.logAtomic pre v).retireX rd v)

/-- AMO: read, combine and write indivisibly at the home (R158). -/
def execAmo (op : AmoOp) (h : AmoHdr) (rd rs rt : XReg) (s : State) : Out :=
  let va := (s.getX rs).toNat
  let n := amoBytes h
  match s.atomReach .amo va n with
  | .error (s', t) => s'.trapScalar t
  | .ok (s1, x, key) =>
    match s1.logPre s1.cur 2 with
    | (_, .wait) => .next s1
    | (s2, pre) =>
      match (s2.atomRelease h.rl).atomRead key va x.pa n with
      | .error t => s1.trapScalar t
      | .ok (s3, v) =>
        let s4 := (s3.atomWrite key x.pa n (amoEval op (8 * n) v (s.getX rt).toNat)).atomAcquire h.aq
        .next ((s4.logAtomic pre (amoExtend h v)).retireX rd (amoExtend h v))

/-- Has a FENCE an empty predecessor or successor set (R157)? One with a nonzero `fm`, FENCE.TSO or reserved, acts as FENCE RW,RW,
whose sets are not empty (R60; log 99). -/
def fenceEmpty (fm pred succ : BitVec 4) : Bool := fm = 0 && (pred = 0 || succ = 0)

/-- FENCE: a full point at system scope over both spaces; with an empty predecessor or successor set it is a no-op, but a nonzero
`fm` acts as FENCE RW,RW whatever its sets (R60, R157; log 99). -/
def execFence (fm pred succ : BitVec 4) (s : State) : Out :=
  if fenceEmpty fm pred succ then .next s.retire
  else .next (s.fullPoint s.cur .system .both).retire

/-- SYNC_ACQ (R154). -/
def execSyncAcq (sp : Space) (sc : Scope) (s : State) : Out := .next (s.acquirePoint s.cur sc sp).retire

/-- SYNC_REL (R154). -/
def execSyncRel (_ : Space) (sc : Scope) (s : State) : Out := .next (s.releasePoint s.cur sc).retire

/-- SYNC_AR (R154). -/
def execSyncAr (sp : Space) (sc : Scope) (s : State) : Out := .next (s.fullPoint s.cur sc sp).retire

/-- LDA: a scalar load, then the acquire point; the value is sign-extended (R155). -/
def execLda (w : Width) (sc : Scope) (sp : Space) (rd rs : XReg) (s : State) : Out :=
  match s.scalarLoad (s.getX rs).toNat w.bytes with
  | .error (s', t) => s'.trapScalar t
  | .ok (s', v, _) =>
    match s'.loggedLoad (s.readsTimens (s.getX rs).toNat w.bytes) v with
    | none => .next s
    | some (s', v) => .next ((s'.acquirePoint s'.cur sc sp).retireX rd (sext64 (8 * w.bytes) v))

/-- STL: the release point, then a scalar store; a trap leaves it without effect (R155). -/
def execStl (w : Width) (sc : Scope) (_ : Space) (rt rs : XReg) (s : State) : Out :=
  match (s.releasePoint s.cur sc).scalarStore (s.getX rs).toNat (leBytes w.bytes (s.getX rt).toNat) with
  | .error (s', t) => s'.trapScalar t
  | .ok s' => .next s'.retire

end Sys2Proof.Machine
end

