-- ==== Sys2Proof/Machine/Csr.lean ====
section
/-! DEFINITION. Control and status registers (R37, R45, R97, R167, R171, R173, R174, R179, R181, R184, R256, R280, R307,
R331, R377, R378): which numbers exist, who may reach them, what they read as and what a write stores. -/
namespace Sys2Proof.Machine

/-- A word with the bits of a mask taken from v. -/
def maskIn (mask old v : Word) : Word := (old &&& ~~~mask) ||| (v &&& mask)

/-- `sip` (R331): software [1], external [9], counter overflow [13]. -/
def Strand.sip (t : Strand) : Word := w64 (2 * b2n t.csr.ssip + 2 ^ 9 * b2n t.csr.seip + 2 ^ 13 * b2n t.ovfPending)

/-- `vdirty`: the dirty bits of the named blocks (R171). -/
def State.vdirty (s : State) : Word :=
  let c := s.myCore
  w64 ((List.range 32).foldl (fun a n => match s.me.blocks[n]? with | some b => a + 2 ^ n * b2n (c.block b).dirty | none => a) 0)

/-- `hpages`: the held pages (R280). -/
def Strand.hpages (t : Strand) : Word := w64 ((List.range 64).foldl (fun a p => a + 2 ^ p * b2n (t.pages.contains p)) 0)

/-- `mstat` (R256). -/
def Core.mstat (c : Core) : Word :=
  let n (net : Net) : Nat := (c.vest.filter fun e => e.net == net).length
  w64 (256 * c.sqRep.length + 2 ^ 16 * c.sqReq.length + 2 ^ 24 * n .rep + 2 ^ 32 * n .req + 2 ^ 40 * min c.drops (2 ^ 24 - 1))

/-- `bkstat` (R280). -/
def Core.bkstat (c : Core) : Word := w64 (c.shortN % 2 ^ 32 + 2 ^ 32 * (c.unsafeN % 2 ^ 32))

/-- The value a CSR reads as; none for a number that is not implemented (R60, R184). M-mode numbers exist on the
management core alone (log 10). -/
def State.csrValue (s : State) (n : Nat) : Option Word :=
  let t := s.me
  let c := t.csr
  let mc := s.regs.mcsr
  match n with
  | 0x100 => some c.sstatus
  | 0x104 => some c.sie
  | 0x105 => some c.stvec
  | 0x106 => some c.scounteren
  | 0x140 => some c.sscratch
  | 0x141 => some c.sepc
  | 0x142 => some c.scause
  | 0x143 => some c.stval
  | 0x144 => some t.sip
  | 0x300 => if s.cur = mgmtKey then some mc.mstatus else none
  | 0x304 => if s.cur = mgmtKey then some mc.mie else none
  | 0x305 => if s.cur = mgmtKey then some mc.mtvec else none
  | 0x340 => if s.cur = mgmtKey then some mc.mscratch else none
  | 0x341 => if s.cur = mgmtKey then some mc.mepc else none
  | 0x342 => if s.cur = mgmtKey then some mc.mcause else none
  | 0x343 => if s.cur = mgmtKey then some mc.mtval else none
  | 0x344 => if s.cur = mgmtKey then some 0 else none
  | 0x5C0 => some c.vmroot
  | 0x5C1 => some c.srbase
  | 0x5C2 => some c.svcp
  | 0x5E0 => some c.pmovf
  | 0x5E1 => some c.dbgctl
  | 0x800 => some c.shape
  | 0x801 => some c.fx
  | 0x806 => some c.vsi
  | 0x807 => some c.msi
  | 0x808 => some c.srptr
  | 0x809 => some c.lamiss
  | 0xC00 => some (w64 (s.cycles s.cur))
  | 0xC01 => some s.now
  | 0xC02 => some c.instret
  | 0xCC0 => some isaver
  | 0xCC2 => some t.vcp
  | 0xCC3 => some t.hold.pack
  | 0xCC4 => some t.claim.pack
  | 0xCC5 => some s.vdirty
  | 0xCC6 => some (sidOf s.cur)
  | 0xCC7 => some t.replay.status
  | 0xCD0 => some s.myCore.mstat
  | 0xCD1 => some s.myCore.bkstat
  | 0xCD2 => some t.hpages
  | _ =>
    if 0x802 ≤ n && n ≤ 0x805 then some c.fd[Fin.ofNat 4 (n - 0x802)]
    else if 0xCC8 ≤ n && n ≤ 0xCCF then some (t.k[Fin.ofNat 8 (n - 0xCC8)]).pack
    else if 0x5D0 ≤ n && n ≤ 0x5D7 then some c.pmsel[Fin.ofNat 8 (n - 0x5D0)]
    else if 0x5D8 ≤ n && n ≤ 0x5DF then some c.pmc[Fin.ofNat 8 (n - 0x5D8)]
    else if 0x5E2 ≤ n && n ≤ 0x5E5 then some c.dbaddr[Fin.ofNat 4 (n - 0x5E2)]
    else if 0x5E6 ≤ n && n ≤ 0x5E7 then some c.dbdata[Fin.ofNat 2 (n - 0x5E6)]
    else if 0xC03 ≤ n && n ≤ 0xC0A then some c.pmc[Fin.ofNat 8 (n - 0xC03)]
    else if 0xC0B ≤ n && n ≤ 0xC1F then some 0
    else none

/-- May the executing strand make this access (R60, R184, R307, R377)? -/
def State.csrAllowed (s : State) (n : Nat) (wr : Bool) : Bool :=
  let low := n / 256 % 4
  let md := match s.me.mode with | .u => 0 | .s => 1 | .m => 3
  (s.csrValue n).isSome && low ≤ md && !(wr && n / 1024 == 3) &&
  -- counters: U reads are gated
  !(s.me.mode == .u && 0xC00 ≤ n && n ≤ 0xC1F && !bit s.me.csr.scounteren (n - 0xC00)) &&
  -- vsi, msi, srptr and lamiss are written in S mode alone
  !(wr && s.me.mode == .u && 0x806 ≤ n && n ≤ 0x809)

/-- Write a per-strand CSR; the bits that are not RW keep their values (R6). -/
def Csrs.write (c : Csrs) (n : Nat) (v : Word) : Csrs :=
  match n with
  | 0x100 => { c with sstatus := maskIn 0xC0122 c.sstatus v }
  | 0x104 => { c with sie := v &&& 0x2202 }
  | 0x105 => { c with stvec := setBits v 0 2 0 }
  | 0x106 => { c with scounteren := v &&& 0xFFFFFFFF }
  | 0x140 => { c with sscratch := v }
  | 0x141 => { c with sepc := setBits v 0 2 0 }
  | 0x142 => { c with scause := v }
  | 0x143 => { c with stval := v }
  | 0x144 => { c with ssip := bit v 1 }
  | 0x5C0 => { c with vmroot := v &&& 0xFFFF803FFFFFFFFF }
  | 0x5C1 =>
    let nb := (v &&& 0xFFFFFFFFFFFFF01F) ||| (c.srbase &&& 0x20 &&& ~~~v)
    { c with srbase := nb, srptr := setBits c.srptr 0 32 (bits c.srptr 0 32 % 2 ^ (bits v 0 4 + 7)) }
  | 0x5C2 => { c with svcp := setBits v 1 1 0 }
  | 0x5E0 => { c with pmovf := c.pmovf &&& ~~~(v &&& 0x7F8) }
  | 0x5E1 => { c with dbgctl := v &&& 3 }
  | 0x800 => { c with shape := maskIn 0xFFE0000000 c.shape v }
  | 0x801 => { c with fx := v &&& 0x71F }
  | 0x806 => { c with vsi := v &&& 0xFFFC0 }
  | 0x807 => { c with msi := v &&& 0xFF07 }
  | 0x808 => { c with srptr := setBits v 0 32 (bits v 0 32 % 2 ^ (bits c.srbase 0 4 + 7)) }
  | 0x809 => { c with lamiss := v }
  | _ =>
    if 0x802 ≤ n && n ≤ 0x805 then { c with fd := c.fd.set (Fin.ofNat 4 (n - 0x802)) (v &&& 0x7FF0FF1) }
    else if 0x5D0 ≤ n && n ≤ 0x5D7 then { c with pmsel := c.pmsel.set (Fin.ofNat 8 (n - 0x5D0)) (v &&& 0xE0000000000000FF) }
    else if 0x5D8 ≤ n && n ≤ 0x5DF then { c with pmc := c.pmc.set (Fin.ofNat 8 (n - 0x5D8)) v }
    else if 0x5E2 ≤ n && n ≤ 0x5E5 then { c with dbaddr := c.dbaddr.set (Fin.ofNat 4 (n - 0x5E2)) (setBits v 1 1 0) }
    else if 0x5E6 ≤ n && n ≤ 0x5E7 then { c with dbdata := c.dbdata.set (Fin.ofNat 2 (n - 0x5E6)) v }
    else c

/-- Write an M-mode CSR of the management core (log 10). -/
def MCsrs.write (c : MCsrs) (n : Nat) (v : Word) : MCsrs :=
  match n with
  | 0x300 => { c with mstatus := maskIn 0x1888 c.mstatus v }
  | 0x304 => { c with mie := v }
  | 0x305 => { c with mtvec := setBits v 0 2 0 }
  | 0x340 => { c with mscratch := v }
  | 0x341 => { c with mepc := setBits v 0 2 0 }
  | 0x342 => { c with mcause := v }
  | 0x343 => { c with mtval := v }
  | _ => c

/-- Write a CSR of the executing strand. Setting `srbase.en` starts the span of the next strip record (R182). -/
def State.csrWrite (s : State) (n : Nat) (v : Word) : State :=
  if n / 256 = 3 then { s with regs := { s.regs with mcsr := s.regs.mcsr.write n v } }
  else
    let t := s.me
    let t' := { t with csr := t.csr.write n v }
    s.setMe (if n = 0x5C1 && bit v 4 && !bit t.csr.srbase 4 then { t' with srCycle := s.cycles s.cur, srAcc := 0 } else t')

/-- Write a CSR and complete. A counter keeps the value written to it, whatever the completion counts on it; an overflow of its
former value by that count still sets its ovf bit (R380). -/
def State.csrFinish (s : State) (n : Nat) (v : Word) (fin : State → State) : State :=
  if 0x5D8 ≤ n && n ≤ 0x5DF then (fin s).csrWrite n v else fin (s.csrWrite n v)

/-- The event type under which the replay log records a read of a CSR (R381). -/
def csrLogType (n : Nat) : Option Nat :=
  if n = 0xC00 || n = 0xC01 then some 3
  else if n = 0x809 || n = 0xCD0 || n = 0xCD1 || (0xC03 ≤ n && n ≤ 0xC1F) then some 5
  else none

/-- A read as the replay log sees it; none while it waits for its turn (R383). -/
def State.csrRead (s : State) (n : Nat) (v : Word) : Option (State × Word) :=
  match csrLogType n with
  | some ty => s.loggedRead s.cur ty v
  | none => some (s, v)

/-- The operand of a Zicsr form, and whether the form writes. -/
def State.csrOperand (s : State) : CsrSrc → Word
  | .reg r => s.getX r
  | .imm i => i.zeroExtend 64

def csrOpWrites (op : CsrOp) : CsrSrc → Bool
  | .reg r => op == .rw || r ≠ 0
  | .imm i => op == .rw || i ≠ 0

/-- The new value of a read-modify-write. -/
def csrNew (op : CsrOp) (old v : Word) : Word :=
  match op with
  | .rw => v
  | .rs => old ||| v
  | .rc => old &&& ~~~v

/-- A Zicsr access: illegal-instruction where the number or the mode does not admit it; CSRRW with rd = x0 does not read,
CSRRS and CSRRC of x0 or 0 do not write (R59, R60). `i` is the instruction, for `stval`. -/
def State.csrOp (s : State) (i : Instr) (op : CsrOp) (src : CsrSrc) (rd : XReg) (n : Nat) : Out :=
  let wr := csrOpWrites op src
  match s.csrValue n with
  | none => s.illegal i
  | some old =>
    if !s.csrAllowed n wr then s.illegal i
    else
      let v := s.csrOperand src
      if op = .rw && rd = 0 then .next (s.csrFinish n v fun s => s.retire)
      else
        match s.csrRead n old with
        | none => .next s
        | some (s', old) => .next (if wr then s'.csrFinish n (csrNew op old v) fun s => s.retireX rd old else s'.retireX rd old)

/-- CSR_ACCESS (R184). -/
def execCsrAccess (op : CsrOp) (src : CsrSrc) (rd : XReg) (csr : BitVec 12) (s : State) : Out :=
  s.csrOp (.csrAccess op src rd csr) op src rd csr.toNat

/-- SHAPE_WRITE: the RW fields of `shape` take the value; the grant is unchanged (R167). -/
def execShapeWrite (op : CsrOp) (src : CsrSrc) (rd : XReg) (s : State) : Out :=
  s.csrOp (.shapeWrite op src rd) op src rd 0x800

/-- SRPTR_WRITE (R181). -/
def execSrptrWrite (op : CsrOp) (src : CsrSrc) (rd : XReg) (s : State) : Out :=
  s.csrOp (.srptrWrite op src rd) op src rd 0x808

/-- SRBASE_WRITE (R181). -/
def execSrbaseWrite (op : CsrOp) (src : CsrSrc) (rd : XReg) (s : State) : Out :=
  s.csrOp (.srbaseWrite op src rd) op src rd 0x5C1

/-- SPMC_WRITE: spmc(3 + n) (R380). -/
def execSpmcWrite (n : Reg8) (op : CsrOp) (src : CsrSrc) (rd : XReg) (s : State) : Out :=
  s.csrOp (.spmcWrite n op src rd) op src rd (0x5D8 + n.val)

end Sys2Proof.Machine
end

