-- ==== Sys2Proof/Machine/Banker.lean ====
section
/-! DEFINITION. `claim`, `acq`, `acq.try` and `rel` (R276, R277), their waits, and the fairness hold (R279). -/
namespace Sys2Proof.Machine

/-- resource-operand with a code (R276). -/
def resourceOperand (code : Nat) : Trap := mkTrap 56 (w64 code)

/-- The checks of R276 for `acq` and `acq.try`. -/
def Strand.acqCheck (t : Strand) (q : Word) : Option Trap :=
  if Hold.resv q ≠ 0 then some (resourceOperand 5)
  else if !((t.hold.add (Hold.unpack q)).le t.claim) then some (resourceOperand 3)
  else none

/-- CLAIM (R277). -/
def execClaim (rs : XReg) (s : State) : Out :=
  let q := s.getX rs
  if Hold.resv q ≠ 0 then s.trapScalar (resourceOperand 5)
  else if !(Hold.unpack q).le Hold.pool then s.trapScalar (resourceOperand 1)
  else if s.me.hold ≠ Hold.zero then s.trapScalar (resourceOperand 2)
  else .next (s.setMe { s.me with claim := Hold.unpack q }).retire

/-- Count a request found unsafe, or short (R280; log 69). -/
def State.bankCount (s : State) (un sh : Nat) : State :=
  s.setMyCore { s.myCore with unsafeN := s.myCore.unsafeN + un, shortN := s.myCore.shortN + sh }

/-- ACQ: granted at once, or the strand sleeps in the banker queue (R277). -/
def execAcq (rs : XReg) (s : State) : Out :=
  let w := s.getX rs
  match s.me.acqCheck w with
  | some t => s.trapScalar t
  | none =>
    let q := Hold.unpack w
    let core := coreOf s.cur
    if q = Hold.zero then .next s.retire
    else if s.grantable s.cur q && !s.fairAgainst core s.cur then .next (s.grant s.cur q).retire
    else
      let s := s.bankCount (b2n (s.fits core q && !s.safeWith s.cur q)) 0
      let s := s.setMyCore { s.myCore with bankq := s.myCore.bankq ++ [⟨.acq s.cur q, s.cycles s.cur⟩] }
      .next (s.setMe { s.me with status := .asleep, wait := .acq q, waitSince := s.cycles s.cur })

/-- The status `acq.try` finds: 0 grantable, 1 unsafe or held off, 2 short (R277). -/
def State.tryStatus (s : State) (q : Hold) : Nat :=
  let core := coreOf s.cur
  if q = Hold.zero then 0
  else if !s.fits core q then 2
  else if !s.safeWith s.cur q || s.fairAgainst core s.cur then 1
  else 0

/-- ACQ_TRY (R277); an event of type 4 of the replay log (R381, R383). -/
def execAcqTry (rd rs : XReg) (s : State) : Out :=
  let w := s.getX rs
  match s.me.acqCheck w with
  | some t => s.trapScalar t
  | none =>
    let q := Hold.unpack w
    match s.logPre s.cur 4 with
    | (_, .wait) => .next s
    | (s1, .replay v) =>
      if v ≠ 0 then .next ((s1.logPost s1.cur 4 (.replay v) v).retireX rd v)
      else if q = Hold.zero || s1.grantable s1.cur q then
        .next (((s1.grant s1.cur q).logPost s1.cur 4 (.replay v) v).retireX rd 0)
      else .next s
    | (s1, pre) =>
      let st := s1.tryStatus q
      let s2 := if st = 0 then s1.grant s1.cur q else s1.bankCount (b2n (st = 1)) (b2n (st = 2))
      .next ((s2.logPost s2.cur 4 pre (w64 st)).retireX rd (w64 st))

/-- A block that a `rel` of q gives up is named by a bound stream port (R276). -/
def State.relBlockBound (s : State) (q : Hold) : Bool :=
  let n := s.me.blocks.length - q.blocks
  (s.portsOf s.cur).any fun p => match s.myCore.port p with | some r => n ≤ r.v.val | none => false

/-- REL: the given-up resources become free, pages once nothing pending touches them (R277, R122). -/
def execRel (rs : XReg) (s : State) : Out :=
  let w := s.getX rs
  let q := Hold.unpack w
  if Hold.resv w ≠ 0 then s.trapScalar (resourceOperand 5)
  else if !q.le s.me.hold then s.trapScalar (resourceOperand 4)
  else if s.relBlockBound q then s.trapScalar (resourceOperand 6)
  else if s.pagesBusy (coreOf s.cur) (s.me.relPages q) then
    .next (s.setMe { s.me with wait := .rel q, waitSince := s.cycles s.cur })
  else .next (s.giveUp s.cur q).retire

/-- REL_COMPLETE: strand k waits in `rel`, or in the release of `tread.end`, and nothing pending touches its pages any more
(R122, R319). -/
def execRelComplete (k : Nat) (s : State) : Out :=
  if s.haltedDie k then .next s else
  match (s.strand k).wait with
  | .rel q =>
    if s.pagesBusy (coreOf k) ((s.strand k).relPages q) then .next s
    else
      let s := s.giveUp k q
      .next ((s.setStrand k { s.strand k with wait := .none }).retireAt k)
  | .ending => if s.pagesBusy (coreOf k) (s.strand k).pages then .next s else .next (s.finishTread k)
  | _ => .next s

/-- FAIRNESS_HOLD: the oldest waiting request of a core has waited 65,536 cycles (R279). -/
def execFairnessHold (core : Nat) (s : State) : Out :=
  match (s.core core).bankq with
  | w :: _ => if w.since + 65536 ≤ s.cycles (16 * core) then .next (s.setCore core { s.core core with fair := true }) else .next s
  | [] => .next s

end Sys2Proof.Machine
end

