-- ==== Sys2Proof/Machine/Hints.lean ====
section
/-! DEFINITION. The hint space (R76, R328) and the trace ring (R389, R392). -/
namespace Sys2Proof.Machine

/-! ### The trace ring -/

/-- Append a 32-byte record to a partition's trace ring; one that cannot be written is dropped and TRCTL.drop is set
(R389). TRPTR counts the records written (log 20). -/
def State.traceAppend (s : State) (p : Nat) (bs : List Byte) : State :=
  let q := s.part p
  let pa := ringBase q.trbase + 32 * (q.trptr.toNat % ringSize q.trbase)
  if regionOf pa = .hbm then (s.writeHome none none pa bs).setPart p { q with trptr := q.trptr + 1 }
  else s.setPart p { q with trctl := setBits q.trctl 1 1 1 }

/-- A trace record of a strand: type, the word at 4, `a` at 16 (R389). -/
def State.traceRecord (s : State) (k ty w4 : Nat) (a : Word) : List Byte :=
  leBytes 1 ty ++ leBytes 1 (k % 16) ++ leBytes 2 (coreOf k) ++ leBytes 4 w4 ++ leBytes 8 (s.strand k).pc.toNat ++
    leBytes 8 a.toNat ++ leBytes 8 s.now.toNat

/-- TRACE_SAMPLE: while tracing samples and once the interval is over, every Running strand of the partition appends a record;
nothing else of the strand changes (R389). -/
def execTraceSample (part : Nat) (s : State) : Out :=
  let q := s.part part
  let due := q.trTime + 1024 * bits q.trctl 2 16
  if !bit q.trctl 0 || bits q.trctl 2 16 = 0 || s.partCycles part < due then .next s
  else
    let s := s.setPart part { q with trTime := due }
    let ks := (s.strands.filter fun e => e.2.status == .running && s.partOf e.1 == part && !s.haltedDie e.1).map Prod.fst
    .next (ks.foldl (fun s k =>
      let t := s.strand k
      s.traceAppend part (s.traceRecord k 2 (bits t.csr.msi 0 16 + 2 ^ 16 * bits t.csr.vsi 6 14) t.vcpWord)) s)

/-! ### Hints -/

/-- A hint completes at the scalar front (R76). -/
def State.hintDone (s : State) : State := (s.setMe (s.me.retire 8)).countEv s.cur 2 1

/-- HNOP (R328). -/
def execHnop (_la : BitVec 4) (s : State) : Out := .next s.hintDone

/-- An undefined hint executes as a no-op (R76). -/
def execUndefinedHint (_la : BitVec 4) (_op : BitVec 7) (_payload : BitVec 38) (s : State) : Out := .next s.hintDone

/-- Fetch one 128-byte line of local HBM into the L1 (level 0) or the die cache (level 1); none on any fault (R328). -/
def State.prefetchLine (s : State) (lvl va : Nat) : State × Bool :=
  let core := coreOf s.cur
  match translate s s.ctx .read va with
  | .error (s, _) => (s, false)
  | .ok (s, x) =>
    if regionOf x.pa ≠ .hbm then (s, false)
    else
      match s.accessKey s.ctx x.enc .read va with
      | .error _ => (s, false)
      | .ok key =>
        let part := if x.enc then some (s.partOf s.cur) else none
        match s.physRead key x.pa 128 with
        | .error _ => (s, false)
        | .ok bs =>
          let s := (s.dirReadBy (dieOfCore core) (s.tagOfEnc x.enc) x.pa 128).noteSoft x.pa 128
          if lvl = 1 || (s.l1Find core (x.pa / 128) part).isSome then (s, true) else (s.fillL1 core (x.pa / 128) part bs, true)

/-- The n lines from an address, up to the first that faults. -/
def State.prefetchGo (s : State) (lvl va : Nat) : Nat → State × Bool
  | 0 => (s, true)
  | n + 1 =>
    let r := s.prefetchLine lvl (va % 2 ^ 64)
    if r.2 then State.prefetchGo r.1 lvl (va + 128) n else r

/-- The n lines from an address enter the named cache; a fault drops the hint, so that none does (R76, R328). The walks made
have happened, and the core's queued stores are delivered first, so that a line holds them (R149; log 94). -/
def State.prefetch (s : State) (lvl va n : Nat) : State :=
  let s := s.drainWt (coreOf s.cur)
  let r := s.prefetchGo lvl va n
  if r.2 then r.1 else { r.1 with dir := s.dir }.setMyCore { r.1.myCore with l1 := s.myCore.l1 }

/-- HPREF: fetches n lines into the named cache; a fault drops the hint (R328, R76). -/
def execHpref (_la : BitVec 4) (lvl : BitVec 3) (n1 : BitVec 6) (xs : XReg) (s : State) : Out :=
  let a := (s.getX xs).toNat
  if 2 ≤ lvl.toNat then .next s.hintDone
  else .next (s.prefetch lvl.toNat (a - a % 128) (n1.toNat + 1)).hintDone

/-- HMARK: sends value, `sid` and pc to the trace port: a record of type 1 while tracing is on (R328, R389). -/
def execHmark (_la : BitVec 4) (value : BitVec 38) (s : State) : Out :=
  let p := s.partOf s.cur
  let s := if bit (s.part p).trctl 0 then s.traceAppend p (s.traceRecord s.cur 1 0 (w64 value.toNat)) else s
  .next s.hintDone

end Sys2Proof.Machine
end

