-- ==== Sys2Proof/Machine/Sync.lean ====
section
/-! DEFINITION. Waiting on tokens (R133, R134), group barriers (R311, R312), and `waitpred` and `fl.hint` (R317, R318). -/
namespace Sys2Proof.Machine

/-- Tokens of a mask. -/
def maskToks (mask : BitVec 8) : List Reg8 := (List.finRange 8).filter fun i => bit mask i.val

/-- Has every token of the mask a count of 0? -/
def Strand.toksZero (t : Strand) (mask : BitVec 8) : Bool := (maskToks mask).all fun i => (t.k[i]).count == 0

/-- Error flags of a mask, as an 8-bit number. -/
def Strand.tokErrs (t : Strand) (mask : BitVec 8) : Nat :=
  (maskToks mask).foldl (fun (a : Nat) (i : Reg8) => a + 2 ^ i.val * b2n (t.k[i]).err) 0

/-- The acquire of `kwait` for some tokens of strand k: lines of its core's L1 that overlap a global destination counted on
them are invalidated (R133). At core scope nothing else acts (R160). -/
def State.tokAcquire (s : State) (k : Nat) (toks : List Reg8) : State :=
  let t := s.strand k
  let mine (e : Nat × Nat × Nat) : Bool := toks.any fun i => i.val == e.1
  let s := (t.landed.filter mine).foldl (fun s e => s.dropL1 (coreOf k) e.2.1 e.2.2) s
  if t.landed.any mine then s.setStrand k { s.strand k with landed := t.landed.filter fun e => !mine e } else s

/-- `kwait` passes for the executing strand, whose waited tokens are at zero: an error flag traps and is cleared, otherwise
the acquire is taken (R133). -/
def State.kwaitEnd (s : State) (mask : BitVec 8) : State :=
  let e := s.me.tokErrs mask
  if e ≠ 0 then
    let t := s.me
    let s := s.setMe { t with k := (maskToks mask).foldl (fun (v : Vector Token 8) (i : Reg8) => v.set i ⟨(v[i]).count, false⟩) t.k }
    s.takeTrap (mkTrap 29 (w64 e)) false
  else (s.tokAcquire s.cur (maskToks mask)).retire

/-- KWAIT (R133). -/
def execKwait (mask : BitVec 8) (s : State) : Out :=
  if s.me.toksZero mask then .next (s.kwaitEnd mask)
  else .next (s.setMe { s.me with wait := .kwait mask, waitSince := s.cycles s.cur })

/-- KWAIT_PASS: strand k waits in `kwait` and its tokens have come to zero (R133). -/
def execKwaitPass (k : Nat) (s : State) : Out :=
  if s.haltedDie k then .next s else
  match (s.strand k).wait with
  | .kwait mask =>
    if (s.strand k).toksZero mask then
      .next (s.onStrand k fun s => (s.setMe { s.me with wait := .none }).kwaitEnd mask)
    else .next s
  | _ => .next s

/-- KPOLL (R134); an event of type 5 of the replay log. -/
def execKpoll (rd : XReg) (mask : BitVec 8) (s : State) : Out :=
  let t := s.me
  let busy := (maskToks mask).foldl (fun (a : Nat) (i : Reg8) => a + 2 ^ i.val * b2n ((t.k[i]).count != 0)) 0
  match s.loggedRead s.cur 5 (w64 (busy + 256 * t.tokErrs mask)) with
  | none => .next s
  | some (s, v) => .next ((s.tokAcquire s.cur ((maskToks mask).filter fun i => (t.k[i]).count == 0)).retireX rd v)

/-! ### Group barriers -/

/-- group-operand with a `stval` (R311). -/
def groupOperand (v : Nat) : Trap := mkTrap 58 (w64 v)

/-- check(g): the flight and group when the executing strand is a member (R311). A strand outside a flight has no table. -/
def State.groupCheck (s : State) (g : Nat) : Except Trap (Flight × Group) :=
  match s.myFlight? with
  | none => .error (groupOperand (0x300 + g))
  | some f =>
    if f.grptab = 0 then .error (groupOperand (0x300 + g))
    else
      match f.group? g with
      | none => .error (groupOperand g)
      | some gr =>
        if s.me.kind = .tread && gr.members.contains s.me.tread then .ok (f, gr) else .error (groupOperand (0x100 + g))

/-- arrive(g) (R311). -/
def State.groupArrive (s : State) (f : Flight) (gr : Group) : Except Trap State :=
  let b := s.me.groupBit gr.g
  if b.pv && b.pt = gr.gen then .error (groupOperand (0x200 + gr.g))
  else
    let s := s.releasePoint s.cur .package
    let s := s.setMe (s.me.setGroupBit ⟨gr.g, true, gr.gen⟩)
    .ok (s.setFlight (f.setGroup (gr.arrive s.me.tread)))

/-- The generation of group g of strand k's flight now. -/
def State.genOf (s : State) (k g : Nat) : Option Nat :=
  match (s.strand k).flight with
  | none => none
  | some id => ((s.flight? id).bind fun f => f.group? g).map Group.gen

/-- The wait of strand k on ticket t of group g ends: its arrival bit is cleared (by `gwait` when it is that arrival's, by
`gbar` always) and the acquire point is taken (R311). -/
def State.groupPass (s : State) (k g t : Nat) (bar : Bool) : State :=
  let b := (s.strand k).groupBit g
  let s := if bar || (b.pv && b.pt = t) then s.setStrand k ((s.strand k).setGroupBit { b with pv := false }) else s
  let s := s.setStrand k { s.strand k with wait := .none }
  (s.acquirePoint k .package .both).retireAt k

/-- GARRIVE (R311). -/
def execGarrive (rd : XReg) (g : BitVec 8) (s : State) : Out :=
  match s.groupCheck g.toNat with
  | .error t => s.trapScalar t
  | .ok (f, gr) =>
    match s.groupArrive f gr with
    | .error t => s.trapScalar t
    | .ok s' => .next (s'.retireX rd (w64 gr.gen))

/-- GWAIT (R311). -/
def execGwait (rs : XReg) (g : BitVec 8) (s : State) : Out :=
  match s.groupCheck g.toNat with
  | .error t => s.trapScalar t
  | .ok (_, gr) =>
    let t := bits (s.getX rs) 0 32
    if gr.gen ≠ t then .next (s.groupPass s.cur gr.g t false)
    else .next (s.setMe { s.me with wait := .gwait gr.g t, waitSince := s.cycles s.cur })

/-- GBAR: arrives only without an outstanding arrival of its own, then waits for that arrival's generation (R311). -/
def execGbar (g : BitVec 8) (s : State) : Out :=
  match s.groupCheck g.toNat with
  | .error t => s.trapScalar t
  | .ok (f, gr) =>
    match (if (s.me.groupBit gr.g).pv then .ok s else s.groupArrive f gr) with
    | .error t => s.trapScalar t
    | .ok s' =>
      let pt := (s'.me.groupBit gr.g).pt
      if s'.genOf s'.cur gr.g ≠ some pt then .next (s'.groupPass s'.cur gr.g pt true)
      else .next (s'.setMe { s'.me with wait := .gbar gr.g pt, waitSince := s'.cycles s'.cur })

/-- BARRIER_WAIT_END: strand k waits in `gbar` or `gwait` and its generation has stepped (R311, R312). -/
def execBarrierWaitEnd (k : Nat) (s : State) : Out :=
  if s.haltedDie k then .next s else
  match (s.strand k).wait with
  | .gbar g t => if s.genOf k g ≠ some t then .next (s.groupPass k g t true) else .next s
  | .gwait g t => if s.genOf k g ≠ some t then .next (s.groupPass k g t false) else .next s
  | _ => .next s

/-! ### Dependent flights -/

/-- Has strand k's flight a predecessor that has not completed (R300)? -/
def State.predPending (s : State) (k : Nat) : Bool :=
  match (s.strand k).flight with
  | none => false
  | some id =>
    match s.flight? id with
    | none => false
    | some f => match f.predId with | some p => (s.flight? p).isSome | none => false

/-- WAITPRED (R300, R318). -/
def execWaitpred (s : State) : Out :=
  if s.predPending s.cur then .next (s.setMe { s.me with wait := .waitpred, waitSince := s.cycles s.cur })
  else .next (s.acquirePoint s.cur .package .both).retire

/-- WAITPRED_END: strand k waits in `waitpred` and the predecessor has completed (R300). -/
def execWaitpredEnd (k : Nat) (s : State) : Out :=
  if (s.strand k).wait = .waitpred && !s.haltedDie k && !s.predPending k then
    .next (((s.setStrand k { s.strand k with wait := .none }).acquirePoint k .package .both).retireAt k)
  else .next s

/-- FL_HINT: the flight's successors may start early. In a flight that does not let them, or with no successor launched, it
changes nothing (R317, R299). -/
def execFlHint (s : State) : Out :=
  match s.myFlight? with
  | some f =>
    if f.sms && s.flights.any (fun g => g.predId == some f.id) then .next (s.setFlight { f with hinted := true }).retire else .next s.retire
  | none => .next s.retire

end Sys2Proof.Machine
end

