-- ==== Sys2Proof/Machine/Stream.lean ====
section
/-! DEFINITION. The bound stream registers of an instruction (R140, R141), and the loop over element groups that every
group-wise vector instruction runs (R173, R178, R189). -/
namespace Sys2Proof.Machine

/-- The port of the executing strand that a register is bound to. -/
def State.boundPort (s : State) (r : VReg) : Option (Nat × Port) :=
  (List.range 4).findSome? fun p =>
    match s.myCore.port p with
    | some q => if q.owner = s.cur && q.v = r then some (p, q) else none
    | none => none

/-- No port is bound by the executing strand: streams play no part. -/
def State.noStreams (s : State) : Bool := (s.portsOf s.cur).isEmpty

/-- Bytes of the grant's elements before element e: rows × row-bytes with the grant's own type (R141). -/
def State.streamOff (s : State) (e : Nat) : Nat :=
  let len := grantLen s.me.csr.shape
  let w := s.me.gw
  if len = 0 then 0 else e / len * ((len * w + 7) / 8) + (e % len * w + 7) / 8

/-- Elements of the grant before group g. -/
def State.streamElems (s : State) (g : Nat) : Nat := min (64 * g) (grantCount s.me.csr.shape)

/-- engine-operand of a stream access, with the port number (R141). -/
def streamTrap (p : Nat) : Trap := mkTrap 53 (w64 p)

/-- The access fault of a push to a stream whose page is encrypted and whose partition's key has been wiped since the bind, at the
stream's position (R108; log 71). -/
def State.pushRefused (s : State) (r : VReg) : Option Trap :=
  match s.boundPort r with
  | some (_, q) =>
    let va := q.va q.pos
    if q.wr && (match pinPa q.pins va with | some p => (s.keyFor (q.part, p.2)).isNone | none => false) then some (accessFault .write va) else none
  | none => none

/-- Directions, and the end of the record, for the bytes that groups g and later take or push (R141). R186 does not place this
check; it stands after the checks of orders 1 to 4 and before a memory form's alignment (log 75). -/
def State.streamCheck (s : State) (srcs dsts : List VReg) (g : Nat) : Except Trap Unit :=
  if s.noStreams then .ok ()
  else
    let need := s.streamOff (grantCount s.me.csr.shape) - s.streamOff (s.streamElems g)
    let bad (wr : Bool) (r : VReg) : Option Nat :=
      match s.boundPort r with
      | some (p, q) => if q.wr ≠ wr || q.total < q.pos + need then some p else none
      | none => none
    match (srcs.findSome? (bad false)).or (dsts.findSome? (bad true)) with
    | some p => .error (streamTrap p)
    | none =>
      match dsts.findSome? s.pushRefused with
      | some t => .error t
      | none => .ok ()

/-- What performing an element group answers. -/
inductive GRes where
  | ok (s : State)
  | trap (s : State) (t : Trap)
  | stall
  deriving DecidableEq, Repr

/-- Write bytes of elements [lo, hi) of the grant, in containers of the grant's type, row by row. -/
def State.putStream (s : State) (r : VReg) (lo : Nat) (bs : List Byte) : State :=
  let len := grantLen s.me.csr.shape
  let rowB := (len * s.me.gw + 7) / 8
  let off := s.streamOff lo
  let b := (List.range bs.length).foldl (fun b n =>
    let f := off + n
    setFlat b (512 * (f / rowB) + f % rowB) [bs.getD n 0]) (s.vget r)
  (s.vput r b ((off + bs.length + rowB - 1) / rowB) rowB).vheal r fun i k =>
    off ≤ rowB * i + 8 * k && rowB * i + 8 * k + 8 ≤ off + bs.length && 8 * k + 8 ≤ rowB

/-- Take the bytes of group g from a read stream into its register: what reads a later position of the register before that
group has been taken reads the register as it stands (R141 delivers group by group; log 74). The stream is moved
by whole sectors; it reads on demand when it has not read far enough ahead. -/
def State.pullOne (s : State) (g : Nat) (r : VReg) : GRes :=
  match s.boundPort r with
  | none => .ok s
  | some (p, q) =>
    let lo := s.streamElems g
    let n := s.streamOff (s.streamElems (g + 1)) - s.streamOff lo
    let core := coreOf s.cur
    let s1 := if q.buf.length < n then State.portMoves core p false ((n - q.buf.length + 31) / 32) s else s
    match s1.myCore.port p with
    | none => .stall
    | some q1 =>
      if q1.buf.length < n then
        match s1.portMove core p false with
        | .failing va pa => .trap s1 (uncorrectable va pa)
        | .keyless va => .trap s1 (accessFault .read va)
        | _ => .stall
      else
        let s2 := s1.setMyCore (s1.myCore.setPort p (some { q1 with buf := q1.buf.drop n, pos := q1.pos + n }))
        .ok (s2.putStream r lo (q1.buf.take n))

/-- Take group g of every read-bound source, each once. When one of them traps, nothing of the group is taken from any (R105). -/
def State.pullGroup (s : State) (g : Nat) (rs : List VReg) : GRes :=
  let r : GRes := rs.eraseDups.foldl (fun r v => match r with | .ok s => s.pullOne g v | x => x) (.ok s)
  match r with
  | .trap _ t => .trap s t
  | x => x

/-- Push group g of a write-bound destination (R141). -/
def State.pushOne (s : State) (g : Nat) (r : VReg) : State :=
  match s.boundPort r with
  | none => s
  | some (p, q) =>
    let lo := s.streamElems g
    let off := s.streamOff lo
    let n := s.streamOff (s.streamElems (g + 1)) - off
    let rowB := (grantLen s.me.csr.shape * s.me.gw + 7) / 8
    let b := s.vget r
    let bs := (List.range n).map fun i => flatByte b (512 * ((off + i) / rowB) + (off + i) % rowB)
    s.setMyCore (s.myCore.setPort p (some { q with buf := q.buf ++ bs, pos := q.pos + n }))

def State.pushGroup (s : State) (g : Nat) (rs : List VReg) : State := rs.foldl (fun s r => s.pushOne g r) s

/-- Groups of the grant. -/
def State.grantGroups (s : State) : Nat := (grantCount s.me.csr.shape + 63) / 64

/-- Take every group at once, for an instruction that does not work by groups. -/
def State.pullAll (s : State) (srcs : List VReg) : GRes :=
  if s.noStreams then .ok s
  else (List.range s.grantGroups).foldl (fun r g => match r with | .ok s => s.pullGroup g srcs | x => x) (.ok s)

/-- Push every group at once. -/
def State.pushAll (s : State) (dsts : List VReg) : State :=
  if s.noStreams then s else (List.range s.grantGroups).foldl (fun s g => s.pushGroup g dsts) s

/-! ### The loop over element groups -/

/-- How a run of groups ends. -/
inductive LoopRes where
  | done (s : State)
  | stop (s : State) (g : Nat)
  | trap (s : State) (g : Nat) (t : Trap)
  deriving DecidableEq, Repr

/-- Perform n groups from g, at most as many as the schedule allows. -/
def groupLoop (body : Nat → State → GRes) : Nat → Nat → Option Nat → State → LoopRes
  | 0, _, _, s => .done s
  | _ + 1, g, some 0, s => .stop s g
  | n + 1, g, lim, s =>
    match body g s with
    | .ok s' => groupLoop body n (g + 1) (lim.map fun l => l - 1) s'
    | .trap s' t => .trap s' g t
    | .stall => .stop s g

/-- The first element group not yet finished (R173). -/
def State.vsiGroup (s : State) : Nat := bits s.me.csr.vsi 6 14

def State.setVsi (s : State) (g : Nat) : State := s.setMe { s.me with csr := { s.me.csr with vsi := w64 (64 * g % 2 ^ 20) } }

/-- The groups or slices that the schedule allows. -/
def State.maxGroups (s : State) : Option Nat := s.lim.map Limit.groups

/-- Run the instruction's groups from `vsi` on: completion clears `vsi`; a stop or a trap records the group (R173, R178). -/
def State.runGroups (s : State) (total : Nat) (body : Nat → State → GRes) : Out :=
  let g0 := s.vsiGroup
  match groupLoop body (total - g0) g0 s.maxGroups s with
  | .done s' => .next s'.completeVec
  | .stop s' g => .next (s'.setVsi g)
  | .trap s' g t => (s'.setVsi g).trapVec t

/-- A group-wise instruction under the grant: checks, then group by group the sources' stream bytes, the work, and the
destinations' stream bytes; each performed group is counted (R379 event 4). -/
def State.vgroups (s : State) (chk : Except Trap Unit) (srcs dsts : List VReg) (body : Nat → State → GRes) : Out :=
  match checkAll [chk, s.streamCheck srcs dsts s.vsiGroup] with
  | .error t => s.trapVec t
  | .ok _ =>
    s.runGroups s.grantGroups fun g s =>
      match (if s.noStreams then .ok s else s.pullGroup g srcs) with
      | .ok s1 =>
        match body g s1 with
        | .ok s2 => .ok ((if s2.noStreams then s2 else s2.pushGroup g dsts).countEv s2.cur 4 1)
        | .trap _ t => .trap s t
        | .stall => .stall
      | x => x

/-- Does `vsi` stand at or beyond the grant's count, so that a reissued instruction performs no element (R173)? -/
def State.vsiPast (s : State) : Bool := s.vsiGroup ≠ 0 && decide (grantCount s.me.csr.shape ≤ 64 * s.vsiGroup)

/-- An indivisible instruction: checks, every group of the sources, then the work, which answers the next state or a trap
with nothing written (R189). Under a `vsi` past the count it performs nothing (R173); under one between, which only an edit of a
record leaves, it is performed whole (log 104). -/
def State.vwhole (s : State) (chk : Except Trap Unit) (srcs dsts : List VReg) (body : State → Except Trap State) : Out :=
  match checkAll [chk, if s.vsiPast then .ok () else s.streamCheck srcs dsts 0] with
  | .error t => s.trapVec t
  | .ok _ =>
    if s.vsiPast then .next s.completeVec else
    match s.pullAll srcs with
    | .stall => .next s
    | .trap _ t => s.trapVec t
    | .ok s1 =>
      match body s1 with
      | .error t => s.trapVec t
      | .ok s2 => .next ((s2.pushAll dsts).countEv s2.cur 4 s2.grantGroups)

end Sys2Proof.Machine
end

