-- ==== Sys2Proof/Machine/Vector.lean ====
section
/-! DEFINITION. Vector arithmetic: integer and floating operations, compares, predicates, conversions, reductions, moves
and permutations, and `vshape` with strip records (R182, R183, R185 to R209). -/
namespace Sys2Proof.Machine

/-- Bits of an element of a type: the container's, or the format's width for gf (R36). -/
def tyWidth (fd : Vector Word 4) (ty : ElemTy) : Nat :=
  match ty with
  | .gf k => fdWidth fd[k]
  | t => containerBits fd t

/-- Element (i, j) of register contents as an encoding; the container's upper bits are ignored (R36). -/
def State.rd (s : State) (ty : ElemTy) (b : BitVec 65536) (i j : Nat) : Nat :=
  elem b (s.cbits ty) i j % 2 ^ tyWidth s.me.csr.fd ty

/-- Finish a computed group: the first enabled event traps with nothing written; otherwise the codes are written and the
flags accrue (R45, R47). Each entry is an element number, its row and column, its code and its flags. -/
def State.writeGroup (s : State) (vd : VReg) (w : Nat) (rs : List (Nat × Nat × Nat × Nat × Nat)) : GRes :=
  match firstEvent s.me.csr.fx (rs.map fun r => (r.1, r.2.2.2.2)) with
  | some t => .trap s t
  | none =>
    let s := s.vputElems vd w (rs.map fun r => (r.2.1, r.2.2.1, r.2.2.2.1))
    .ok (s.setMe { s.me with csr := { s.me.csr with fx := accrue s.me.csr.fx (orFlags (rs.map fun r => r.2.2.2.2)) } })

/-- An element-wise instruction: f computes code and flags of element (i, j) from the state before the group (R188). -/
def State.elementwise (s : State) (chk : Except Trap Unit) (h : Hdr) (srcs : List VReg) (vd : VReg) (dt : ElemTy)
    (f : State → Nat → Nat → Nat × Nat) : Out :=
  s.vgroups chk srcs [vd] fun g s =>
    s.writeGroup vd (s.cbits dt) ((s.performed h g).map fun p =>
      let r := f s p.2.1 p.2.2
      (p.1, p.2.1, p.2.2, r.1, r.2))

/-- Floating types (R187). -/
def isFloat (fd : Vector Word 4) (ty : ElemTy) : Bool := (fmtOf fd ty).isSome

/-- Round an exact value with its flags to a floating type (R190). -/
def rnd (f : Fmt) (a : Arithm) (x : Num × Nat) : Nat × Nat :=
  let r := roundFmt f a x.1
  (r.1, r.2 ||| x.2)

/-! ### Two-operand arithmetic (R192, R193) -/

/-- Operations of R192 and R193. -/
inductive Op2 where
  | add | sub | mul | mulh | div | min | max | and | or | xor | sll | srl | sra
  deriving DecidableEq, Repr

/-- An exact quotient with its flags (R46, R192). -/
def numDiv (a b : Num) : Num × Nat :=
  let sg := a.isNeg != b.isNeg
  match a, b with
  | .nan, _ => (.nan, 0)
  | _, .nan => (.nan, 0)
  | .zero _, .zero _ => (.nan, flagNV)
  | .inf _, .inf _ => (.nan, flagNV)
  | .inf _, _ => (.inf sg, 0)
  | .zero _, _ => (.zero sg, 0)
  | _, .inf _ => (.zero sg, 0)
  | _, .zero _ => (.inf sg, flagDZ)
  | .real n1 d1 e1, .real n2 d2 e2 => (.real (n1 * d2 * (if n2 < 0 then -1 else 1)) (d1 * n2.natAbs) (e1 - e2), 0)

/-- Integer results of R192 and R193 on encodings of w bits. -/
def int2 (op : Op2) (w : Nat) (sg sat : Bool) (x y : Nat) : Nat :=
  let a := intVal w sg x
  let b := intVal w sg y
  let k := y % w
  match op with
  | .add => narrowInt w sg sat (a + b)
  | .sub => narrowInt w sg sat (a - b)
  | .mul => narrowInt w sg sat (a * b)
  | .mulh => wrapInt w (a * b / 2 ^ w)
  | .div => if b = 0 then 2 ^ w - 1 else narrowInt w sg sat (a.tdiv b)
  | .min => wrapInt w (min a b)
  | .max => wrapInt w (max a b)
  | .and => (w64 x &&& w64 y).toNat
  | .or => (w64 x ||| w64 y).toNat
  | .xor => (w64 x ^^^ w64 y).toNat
  | .sll => x * 2 ^ k % 2 ^ w
  | .srl => x / 2 ^ k
  | .sra => wrapInt w (sextNat w x / 2 ^ k)

/-- Floating results of R192. -/
def float2 (op : Op2) (f : Fmt) (a : Arithm) (x y : Num) : Nat × Nat :=
  match op with
  | .add => rnd f a (sumExact a.rm [x, y])
  | .sub => rnd f a (sumExact a.rm [x, y.neg])
  | .mul => rnd f a (x.mul y)
  | .div => rnd f a (numDiv x y)
  | .min => rnd f a (Num.pick false x y, 0)
  | .max => rnd f a (Num.pick true x y, 0)
  | _ => (0, 0)

/-- Result of a two-operand operation on encodings of a type. -/
def op2 (fd : Vector Word 4) (op : Op2) (ty : ElemTy) (a : Arithm) (x y : Nat) : Nat × Nat :=
  match intOf ty with
  | some (w, sg) => (int2 op w sg a.sat x y, 0)
  | none =>
    match fmtOf fd ty with
    | some f => float2 op f a (f.input a.daz x) (f.input a.daz y)
    | none => (0, 0)

/-- A three-register form. -/
def State.vop2 (s : State) (i : Instr) (op : Op2) (o : V3) : Out :=
  s.elementwise (s.vchecks [o.vd, o.vs1, o.vs2] [o.ty] (isFloat s.me.csr.fd o.ty) i.bits) o.h [o.vs1, o.vs2] o.vd o.ty
    fun s r c => op2 s.me.csr.fd op o.ty s.arithm (s.rd o.ty (s.vget o.vs1) r c) (s.rd o.ty (s.vget o.vs2) r c)

/-- VADD (R192). -/
def execVadd (o : V3) (s : State) : Out := s.vop2 (.vadd o) .add o
/-- VSUB (R192). -/
def execVsub (o : V3) (s : State) : Out := s.vop2 (.vsub o) .sub o
/-- VMUL (R192). -/
def execVmul (o : V3) (s : State) : Out := s.vop2 (.vmul o) .mul o
/-- VMULH (R192). -/
def execVmulh (o : V3) (s : State) : Out := s.vop2 (.vmulh o) .mulh o
/-- VDIV (R192). -/
def execVdiv (o : V3) (s : State) : Out := s.vop2 (.vdiv o) .div o
/-- VMIN (R192). -/
def execVmin (o : V3) (s : State) : Out := s.vop2 (.vmin o) .min o
/-- VMAX (R192). -/
def execVmax (o : V3) (s : State) : Out := s.vop2 (.vmax o) .max o
/-- VAND (R193). -/
def execVand (o : V3) (s : State) : Out := s.vop2 (.vand o) .and o
/-- VOR (R193). -/
def execVor (o : V3) (s : State) : Out := s.vop2 (.vor o) .or o
/-- VXOR (R193). -/
def execVxor (o : V3) (s : State) : Out := s.vop2 (.vxor o) .xor o
/-- VSLL (R193). -/
def execVsll (o : V3) (s : State) : Out := s.vop2 (.vsll o) .sll o
/-- VSRL (R193). -/
def execVsrl (o : V3) (s : State) : Out := s.vop2 (.vsrl o) .srl o
/-- VSRA (R193). -/
def execVsra (o : V3) (s : State) : Out := s.vop2 (.vsra o) .sra o

/-! ### One-operand arithmetic (R194, R195) -/

/-- Operations of R194 and R195. -/
inductive Op1 where
  | abs | neg | sqrt | rece | rsqe | mv
  deriving DecidableEq, Repr

/-- Square root (R194). -/
def numSqrt (x : Num) : Num × Nat :=
  match x with
  | .nan => (.nan, 0)
  | .zero s => (.zero s, 0)
  | .inf false => (.inf false, 0)
  | .inf true => (.nan, flagNV)
  | .real n _ e => if n < 0 then (.nan, flagNV) else (sqrtReal n e, 0)

/-- sign × est8(1 / |a|) (R195). -/
def numRece (x : Num) : Num × Nat :=
  match x with
  | .nan => (.nan, 0)
  | .zero s => (.inf s, flagDZ)
  | .inf s => (.zero s, 0)
  | .real n d e =>
    let q := n.natAbs
    let l := log2Rat d q
    let r := roundInt .rne false (d * pow2n (7 - l)) (q * pow2n (l - 7))
    (.real (if n < 0 then -(r : Int) else r) 1 (l - 7 - e), 0)

/-- est8(1 / sqrt(a)) (R195). Eight bits of a root are never halfway between two of eight bits. -/
def numRsqe (x : Num) : Num × Nat :=
  match x with
  | .nan => (.nan, 0)
  | .zero s => (.inf s, flagDZ)
  | .inf false => (.zero false, 0)
  | .inf true => (.nan, flagNV)
  | .real n _ e =>
    if n < 0 then (.nan, flagNV)
    else
      let q := n.natAbs
      let up : Int := e + (Nat.log2 q : Int) + (if 2 ^ Nat.log2 q = q then 0 else 1)
      let l : Int := (-up) / 2
      let v := pow2n (2 * (8 - l) - e) / q
      let r := (Crypto.rootGo 2 v (Nat.log2 v / 2 + 1) 0 + 1) / 2
      (.real r 1 (l - 7), 0)

/-- Result of a one-operand operation on an encoding of a type. -/
def op1 (fd : Vector Word 4) (op : Op1) (ty : ElemTy) (a : Arithm) (x : Nat) : Nat × Nat :=
  if op = .mv then (x, 0)
  else
    match intOf ty with
    | some (w, sg) =>
      match op with
      | .abs => (if sg then narrowInt w sg a.sat (intVal w sg x).natAbs else x, 0)
      | .neg => (narrowInt w sg a.sat (-(intVal w sg x)), 0)
      | _ => (0, 0)
    | none =>
      match fmtOf fd ty with
      | none => (0, 0)
      | some f =>
        let top := 2 ^ (f.ew + f.mw)
        let v := f.input a.daz x
        match op with
        | .abs => (x % top, 0)
        | .neg => ((x + top) % (2 * top), 0)
        | .sqrt => rnd f a (numSqrt v)
        | .rece => rnd f a (numRece v)
        | .rsqe => rnd f a (numRsqe v)
        | .mv => (x, 0)

/-- A two-register form; `rounds` as R190 gives. -/
def State.vop1 (s : State) (i : Instr) (op : Op1) (rounds : Bool) (o : V2) : Out :=
  s.elementwise (s.vchecks [o.vd, o.vs] [o.ty] rounds i.bits) o.h [o.vs] o.vd o.ty
    fun s r c => op1 s.me.csr.fd op o.ty s.arithm (s.rd o.ty (s.vget o.vs) r c)

/-- VABS (R194). -/
def execVabs (o : V2) (s : State) : Out := s.vop1 (.vabs o) .abs false o
/-- VNEG (R194). -/
def execVneg (o : V2) (s : State) : Out := s.vop1 (.vneg o) .neg false o
/-- VSQRT (R194). -/
def execVsqrt (o : V2) (s : State) : Out := s.vop1 (.vsqrt o) .sqrt true o
/-- VRECE (R195). -/
def execVrece (o : V2) (s : State) : Out := s.vop1 (.vrece o) .rece true o
/-- VRSQE (R195). -/
def execVrsqe (o : V2) (s : State) : Out := s.vop1 (.vrsqe o) .rsqe true o
/-- VMV (R206). -/
def execVmv (o : V2) (s : State) : Out := s.vop1 (.vmv o) .mv false o

/-! ### Fused multiply-add (R196) -/

/-- ±(x × y) ± z on encodings of a type. -/
def op3 (fd : Vector Word 4) (np nc : Bool) (ty : ElemTy) (a : Arithm) (x y z : Nat) : Nat × Nat :=
  match intOf ty with
  | some (w, sg) =>
    let p := intVal w sg x * intVal w sg y
    let c := intVal w sg z
    (narrowInt w sg a.sat ((if np then -p else p) + (if nc then -c else c)), 0)
  | none =>
    match fmtOf fd ty with
    | none => (0, 0)
    | some f =>
      let p := (f.input a.daz x).mul (f.input a.daz y)
      let c := f.input a.daz z
      let e := sumExact a.rm [if np then p.1.neg else p.1, if nc then c.neg else c]
      rnd f a (e.1, e.2 ||| p.2)

/-- A four-register form. -/
def State.vop3 (s : State) (i : Instr) (np nc : Bool) (o : V4) : Out :=
  s.elementwise (s.vchecks [o.vd, o.vs1, o.vs2, o.vs3] [o.ty] (isFloat s.me.csr.fd o.ty) i.bits) o.h [o.vs1, o.vs2, o.vs3] o.vd o.ty
    fun s r c => op3 s.me.csr.fd np nc o.ty s.arithm (s.rd o.ty (s.vget o.vs1) r c) (s.rd o.ty (s.vget o.vs2) r c)
      (s.rd o.ty (s.vget o.vs3) r c)

/-- VFMA (R196). -/
def execVfma (o : V4) (s : State) : Out := s.vop3 (.vfma o) false false o
/-- VFMS (R196). -/
def execVfms (o : V4) (s : State) : Out := s.vop3 (.vfms o) false true o
/-- VFNMA (R196). -/
def execVfnma (o : V4) (s : State) : Out := s.vop3 (.vfnma o) true true o
/-- VFNMS (R196). -/
def execVfnms (o : V4) (s : State) : Out := s.vop3 (.vfnms o) true false o

/-! ### Compares and predicates (R197, R198) -/

/-- A condition on two encodings of a type. -/
def condOf (fd : Vector Word 4) (cond : VCond) (ty : ElemTy) (daz : Bool) (x y : Nat) : Bool :=
  match intOf ty with
  | some (w, sg) =>
    let a := intVal w sg x
    let b := intVal w sg y
    match cond with
    | .eq => a == b | .ne => a != b | .lt => a < b | .le => a ≤ b | .gt => b < a | .ge => b ≤ a | .un => false
  | none =>
    let a := valOf fd ty daz x
    let b := valOf fd ty daz y
    let un := a == .nan || b == .nan
    match cond with
    | .eq => Num.eqv a b
    | .ne => un || !Num.eqv a b
    | .lt => !un && Num.lt false a b
    | .le => !un && !Num.lt false b a
    | .gt => !un && Num.lt false b a
    | .ge => !un && !Num.lt false a b
    | .un => un

/-- Predicate contents with bit j of every enabled column below len replaced (R198). -/
def State.predWrite (s : State) (h : Hdr) (pd : Reg8) (f : Nat → Bool) : State :=
  let old := s.me.p[pd]
  let new := (List.range (grantLen s.me.csr.shape)).foldl (fun b j => if s.enabled h j then setBits b j 1 (b2n (f j)) else b) old
  s.setMe { s.me with p := s.me.p.set pd new }

/-- VCMP (R197). -/
def execVcmp (h : Hdr) (ty : ElemTy) (cond : VCond) (all : Bool) (pd : Reg8) (vs1 vs2 : VReg) (s : State) : Out :=
  s.vwhole (s.vchecks [vs1, vs2] [ty] false (Instr.bits (.vcmp h ty cond all pd vs1 vs2))) [vs1, vs2] [] fun s =>
    let a := s.vget vs1
    let b := s.vget vs2
    let rows := List.range (grantRows s.me.csr.shape)
    let t (j i : Nat) : Bool := condOf s.me.csr.fd cond ty s.arithm.daz (s.rd ty a i j) (s.rd ty b i j)
    .ok (s.predWrite h pd fun j => if all then rows.all (t j) else rows.any (t j)).completeVec

/-- A predicate instruction: nothing is checked, nothing traps (R198). -/
def State.predOp (s : State) (h : Hdr) (pd : Reg8) (f : Nat → Bool) : Out :=
  .next (if s.vsiPast then s else s.predWrite h pd f).completeVec

/-- PAND (R198). -/
def execPand (o : P3) (s : State) : Out := s.predOp o.h o.pd fun j => s.predBit o.ps1 j && s.predBit o.ps2 j
/-- POR (R198). -/
def execPor (o : P3) (s : State) : Out := s.predOp o.h o.pd fun j => s.predBit o.ps1 j || s.predBit o.ps2 j
/-- PXOR (R198). -/
def execPxor (o : P3) (s : State) : Out := s.predOp o.h o.pd fun j => s.predBit o.ps1 j != s.predBit o.ps2 j
/-- PNOT (R198). -/
def execPnot (h : Hdr) (pd ps : Reg8) (s : State) : Out := s.predOp h pd fun j => !s.predBit ps j
/-- PSET (R198). -/
def execPset (h : Hdr) (pd : Reg8) (xs : XReg) (s : State) : Out := s.predOp h pd fun j => j < (s.capX 2 xs).toNat
/-- PSET_PAT (R198). -/
def execPsetPat (h : Hdr) (pd : Reg8) (xs : XReg) (s : State) : Out := s.predOp h pd fun j => bit (s.capX 2 xs) (j % 64)

/-! ### Conversions (R199 to R201) -/

/-- VCVT (R199). No descriptor it names is blocked (R186). -/
def execVcvt (o : VConv) (s : State) : Out :=
  let fd := s.me.csr.fd
  let i : Instr := .vcvt o
  let chk := checkAll [s.needV [o.vd, o.vs], s.needGf (fun d => fdValid d && !fdBlk d) [o.st, o.dt],
    s.needRm (isFloat fd o.dt || isFloat fd o.st) i.bits, s.needLen [o.st, o.dt]]
  s.elementwise chk o.h [o.vs] o.vd o.dt
    fun s r c => convCode s.me.csr.fd o.st o.dt s.arithm (s.rd o.st (s.vget o.vs) r c)

/-- The checks of `vmxpack` and `vmxunpack`: blocked descriptors, and len a multiple of 32 (R185, R187). -/
def State.mxChecks (s : State) (o : VConv) (vsc : VReg) (i : Instr) : Except Trap Unit :=
  let len := grantLen s.me.csr.shape
  checkAll [s.needV [o.vd, o.vs, vsc], s.needGf (fun d => fdValid d && fdBlk d) [o.st, o.dt], s.needRm true i.bits,
    s.needLen [o.st, o.dt, .n8], if len % 32 ≠ 0 then .error (vectorShape len) else .ok ()]

/-- VMXPACK (R200, R55): each block of a group that has a performed element is packed from its performed elements. -/
def execVmxpack (o : VConv) (vsc : VReg) (s : State) : Out :=
  s.vgroups (s.mxChecks o vsc (.vmxpack o vsc)) [o.vs] [o.vd, vsc] fun g s =>
    let fd := s.me.csr.fd
    match fmtOf fd o.dt with
    | none => .ok s
    | some f =>
      let a := s.arithm
      let src := s.vget o.vs
      let ps := s.performed o.h g
      let keys := (ps.map fun p => (p.2.1, p.2.2 / 32)).eraseDups
      let packed := keys.map fun k =>
        let els := ps.filter fun p => p.2.1 == k.1 && p.2.2 / 32 == k.2
        let r := packBlock f a.rm (els.map fun p => valOf fd o.st a.daz (s.rd o.st src p.2.1 p.2.2))
        let codes := (els.zip r.2.1).map fun q => (q.1.1, q.1.2.1, q.1.2.2, q.2.1, q.2.2)
        -- a flag of the whole block is its first performed element's
        let codes := match codes with | c :: cs => (c.1, c.2.1, c.2.2.1, c.2.2.2.1, c.2.2.2.2 ||| r.2.2) :: cs | [] => []
        (k, r.1, codes)
      match s.writeGroup o.vd (s.cbits o.dt) (packed.map fun p => p.2.2).flatten with
      | .ok s => .ok (s.vputElems vsc 8 (packed.map fun p => (p.1.1, p.1.2, p.2.1)))
      | x => x

/-- VMXUNPACK (R201). -/
def execVmxunpack (o : VConv) (vsc : VReg) (s : State) : Out :=
  s.elementwise (s.mxChecks o vsc (.vmxunpack o vsc)) o.h [o.vs, vsc] o.vd o.dt fun s r c =>
    let fd := s.me.csr.fd
    let x := (valOf fd o.st false (s.rd o.st (s.vget o.vs) r c)).scaleBy (e8m0 (elem (s.vget vsc) 8 r (c / 32)))
    toTy fd o.dt s.arithm x

/-! ### Reductions (R202) -/

/-- Reductions of R202. -/
inductive Red where
  | sum | max | min | amax
  deriving DecidableEq, Repr

/-- The reduction of a list of encodings: code and flags; an empty list gives zero. -/
def reduce (fd : Vector Word 4) (op : Red) (ty : ElemTy) (a : Arithm) (xs : List Nat) : Nat × Nat :=
  match intOf ty with
  | some (w, sg) =>
    match op, xs.map (intVal w sg) with
    | _, [] => (0, 0)
    | .sum, vs => (narrowInt w sg a.sat (vs.foldl (· + ·) 0), 0)
    | .max, v :: vs => (wrapInt w (vs.foldl max v), 0)
    | .min, v :: vs => (wrapInt w (vs.foldl min v), 0)
    | .amax, _ => (0, 0)
  | none =>
    match fmtOf fd ty with
    | none => (0, 0)
    | some f =>
      let abs (x : Num) : Num := if x.isNeg then x.neg else x
      match op, xs.map (f.input a.daz) with
      | _, [] => (0, 0)
      | .sum, vs => rnd f a (sumExact a.rm vs)
      | .max, v :: vs => rnd f a (vs.foldl (Num.pick true) v, 0)
      | .min, v :: vs => rnd f a (vs.foldl (Num.pick false) v, 0)
      | .amax, v :: vs => rnd f a (vs.foldl (fun m x => Num.pick true m (abs x)) (abs v), 0)

/-- Reduce every granted row into its element 0; an event's `stval` is i × len of the lowest row that raised it (R189). A row with
no performed element, as every row of a grant of zero length, takes zero (R202). -/
def State.vreduce (s : State) (i : Instr) (op : Red) (o : V2) : Out :=
  s.vwhole (s.vchecks [o.vd, o.vs] [o.ty] (isFloat s.me.csr.fd o.ty) i.bits) [o.vs] [o.vd] fun s =>
    let len := grantLen s.me.csr.shape
    let src := s.vget o.vs
    let cols := (List.range len).filter (s.enabled o.h)
    let rows := List.range (grantRows s.me.csr.shape)
    let res := rows.map fun r =>
      let x := reduce s.me.csr.fd op o.ty s.arithm (cols.map fun c => s.rd o.ty src r c)
      (r * len, r, 0, x.1, x.2)
    match s.writeGroup o.vd (s.cbits o.ty) res with
    | .ok s => .ok s.completeVec
    | .trap _ t => .error t
    | .stall => .ok s

/-- VREDSUM (R202). -/
def execVredsum (o : V2) (s : State) : Out := s.vreduce (.vredsum o) .sum o
/-- VREDMAX (R202). -/
def execVredmax (o : V2) (s : State) : Out := s.vreduce (.vredmax o) .max o
/-- VREDMIN (R202). -/
def execVredmin (o : V2) (s : State) : Out := s.vreduce (.vredmin o) .min o
/-- VREDAMAX (R202). -/
def execVredamax (o : V2) (s : State) : Out := s.vreduce (.vredamax o) .amax o

/-! ### Index, broadcast and moves (R203 to R209) -/

/-- VIDX (R203). -/
def execVidx (h : Hdr) (ty : ElemTy) (vd : VReg) (start : BitVec 13) (step : BitVec 10) (s : State) : Out :=
  s.elementwise (s.vchecks [vd] [ty] false (Instr.bits (.vidx h ty vd start step))) h [] vd ty fun s r c =>
    (wrapInt (s.cbits ty) (start.toInt + ((r * grantLen s.me.csr.shape + c : Nat) : Int) * step.toInt), 0)

/-- VBCAST (R204). -/
def execVbcast (h : Hdr) (ty : ElemTy) (vd : VReg) (xs : XReg) (s : State) : Out :=
  s.elementwise (s.vchecks [vd] [ty] false (Instr.bits (.vbcast h ty vd xs))) h [] vd ty fun s _ _ =>
    ((s.capX 2 xs).toNat % 2 ^ tyWidth s.me.csr.fd ty, 0)

/-- VMVX (R205): the x register is written when it completes (R69). -/
def execVmvx (h : Hdr) (ty : ElemTy) (xd : XReg) (vs : VReg) (xi : XReg) (s : State) : Out :=
  let k := (s.capX 3 xi).toNat
  s.vwhole (s.vchecks [vs] [ty] false (Instr.bits (.vmvx h ty xd vs xi))) [vs] [] fun s =>
    let len := grantLen s.me.csr.shape
    let v : Word :=
      if k < grantCount s.me.csr.shape && s.enabled h (k % len) then
        let e := s.rd ty (s.vget vs) (k / len) (k % len)
        match intOf ty with
        | some (w, true) => sext64 w e
        | _ => w64 e
      else 0
    .ok (s.completeVecX xd v)

/-- VRESHAPE (R207): a flat transposition of the block, by groups of destination flat elements, whatever the grant. -/
def execVreshape (o : VX) (s : State) : Out :=
  let w := s.cbits o.ty
  let p := limBits w
  let n := 16 * p
  let l := (s.capX 3 o.xr).toNat
  let chk := checkAll [s.needV [o.vd, o.vs], s.needGf fdValid [o.ty],
    if l = 0 || n % l ≠ 0 then .error (vectorShape l) else .ok ()]
  let fresh := s.vsiGroup = 0
  match checkAll [chk, if fresh then s.streamCheck [o.vs] [o.vd] 0 else .ok ()] with
  | .error t => s.trapVec t
  | .ok _ =>
    -- a bound source gives its bytes before the first group; one that performs none takes none
    if fresh && s.maxGroups = some 0 then .next s else
    match (if fresh then s.pullAll [o.vs] else .ok s) with
    | .stall => .next s
    | .trap _ t => s.trapVec t
    | .ok s =>
      s.runGroups (n / 64) fun g s =>
        let src := s.vget o.vs
        let q := n / l
        let es := (List.range 64).filterMap fun e =>
          let f := 64 * g + e
          if s.enabled o.h (f % p) then
            let k := f % q * l + f / q
            some (f / p, f % p, s.rd o.ty src (k / p) (k % p))
          else none
        let s := (s.vputElems o.vd w es).countEv s.cur 4 1
        .ok (if g + 1 = n / 64 then s.pushAll [o.vd] else s)

/-- Width of the indices of `vperm` (R208). -/
def permWidth (w : Nat) : Nat := max 8 w

/-- VPERM (R208); the index type n(u) obeys R185. An index into a later group of a read-bound source reads the register before
that group has been taken (log 74). -/
def execVperm (o : V3) (s : State) : Out :=
  let u := permWidth (s.cbits o.ty)
  let idx : ElemTy := match u with | 8 => .n8 | 16 => .n16 | 32 => .n32 | _ => .n64
  s.elementwise (s.vchecks [o.vd, o.vs1, o.vs2] [o.ty, idx] false (Instr.bits (.vperm o))) o.h [o.vs1, o.vs2] o.vd o.ty
    fun s r c =>
      let k := elem (s.vget o.vs2) u r c
      (if k < grantLen s.me.csr.shape then s.rd o.ty (s.vget o.vs1) r k else 0, 0)

/-- VSLIDEUP (R209): columns below k are unchanged. -/
def execVslideup (o : VX) (s : State) : Out :=
  let k := (s.capX 3 o.xr).toNat
  s.vgroups (s.vchecks [o.vd, o.vs] [o.ty] false (Instr.bits (.vslideup o))) [o.vs] [o.vd] fun g s =>
    let src := s.vget o.vs
    s.writeGroup o.vd (s.cbits o.ty) (((s.performed o.h g).filter fun p => k ≤ p.2.2).map fun p =>
      (p.1, p.2.1, p.2.2, s.rd o.ty src p.2.1 (p.2.2 - k), 0))

/-- VSLIDEDN (R209); a read-bound source as for `vperm` (log 74). -/
def execVslidedn (o : VX) (s : State) : Out :=
  let k := (s.capX 3 o.xr).toNat
  s.elementwise (s.vchecks [o.vd, o.vs] [o.ty] false (Instr.bits (.vslidedn o))) o.h [o.vs] o.vd o.ty fun s r c =>
    (if c + k < grantLen s.me.csr.shape then s.rd o.ty (s.vget o.vs) r (c + k) else 0, 0)

/-! ### vshape and strip records (R182, R183, R191) -/

/-- The bytes of a strip record (R182). Its sequence number is that of the records closed before it (log 105). The busy counts are
free values within the span (log 9). -/
def State.stripBytes (s : State) (k : Nat) : List Byte :=
  let t := s.strand k
  let span := t.srAcc + (s.cycles k - t.srCycle)
  let sh := t.csr.shape
  leBytes 1 (bits sh 16 5) ++ leBytes 2 (bits sh 0 11) ++ leBytes 1 (bits sh 24 5) ++ leBytes 2 (sidOf k).toNat ++
    leBytes 2 (t.srSeq % 65536) ++ leBytes 8 span ++ leBytes 8 (s.freeVal % (span + 1)) ++
    leBytes 8 (Config.freeNat (s.freeCtr + 1) % (span + 1))

/-- Close one strip record of strand k: a plain store in its own address space; a fault drops it, sets `drop` and clears
`en` (R182, R183). A dropped record leaves the sequence number and the open span as they were (log 81). -/
def State.closeStrip (s : State) (k : Nat) : State :=
  let t := s.strand k
  let rb := t.csr.srbase
  let next := bits t.csr.srptr 0 32
  let va := (w64 (bits rb 12 52 * 4096 + 32 * next)).toNat
  let bs := s.stripBytes k
  let drop (u : State) : State :=
    let t := u.strand k
    { u.setStrand k { t with csr := { t.csr with srbase := setBits (setBits rb 4 1 0) 5 1 1 } } with cur := s.cur }
  let wr (s : State) : Except State State :=
    match translate s s.ctx .write va with
    | .error e => .error e.1
    | .ok (s', x) =>
      if regionOf x.pa = .device || !s'.admits s'.cur .plain x.pa then .error s'
      else match s'.storeAt va bs x with
        | .ok s'' => .ok (s''.breakResv (some s''.cur) x.pa 32)
        | .error _ => .error s'
  match wr { s with cur := k } with
  | .error u => drop u
  | .ok s1 =>
    let s1 := { s1 with cur := s.cur, freeCtr := s.freeCtr + 2 }
    let t := s1.strand k
    let last := 2 ^ (bits rb 0 4 + 7) - 1
    let ptr := if next < last then setBits t.csr.srptr 0 32 (next + 1)
      else setBits (setBits t.csr.srptr 0 32 0) 32 32 (bits t.csr.srptr 32 32 + 1)
    s1.setStrand k { t with csr := { t.csr with srptr := ptr }, srSeq := (t.srSeq + 1) % 65536, srCycle := s.cycles k, srAcc := 0 }

/-- VSHAPE: the grant of R168, the width it keeps (R172), and a strip record when `srbase.en` = 1 (R191). -/
def execVshape (ty : ElemTy) (rd rr rc : XReg) (s : State) : Out :=
  match s.needGf fdValid [ty] with
  | .error t => s.trapScalar t
  | .ok _ =>
    let w := s.cbits ty
    let rows := min (s.getX rr).toNat 16
    let len := min (s.getX rc).toNat (limBits w)
    let sh := setBits (setBits (setBits s.me.csr.shape 24 5 ty.code) 16 5 rows) 0 11 len
    let s := s.setMe { s.me with csr := { s.me.csr with shape := sh }, gw := w }
    let s := if bit s.me.csr.srbase 4 then s.closeStrip s.cur else s
    .next (s.retireX rd (w64 (bits sh 0 29)))

end Sys2Proof.Machine
end

