-- ==== Sys2Proof/Machine/VectorMem.lean ====
section
/-! DEFINITION. Vector loads and stores (R212 to R215): footprints, the checks of R213, loads and stores by element group,
their ordering points (R156), and the block footprint that other instructions share (R101, R102). -/
namespace Sys2Proof.Machine

/-! ### Translating a footprint (R101, R102) -/

/-- Bytes of a footprint's unit of admission: the scratchpad page, the smallest unit that R120 to R122 tell apart. -/
def chunkSize : Nat := 0x4000

/-- Enter an address into a table of chunks, which keeps the lowest address touched in each. -/
def chunkAdd (t : Tbl Nat) (a : Nat) : Tbl Nat := Tbl.put (min a (Tbl.get a t (a / chunkSize))) (a / chunkSize) t

/-- Chunks of a list of ranges (address, bytes), each with its lowest touched address. -/
def chunksOf (rs : List (Nat × Nat)) : Tbl Nat :=
  rs.foldl (fun t r =>
    if r.2 = 0 then t
    else (List.range ((r.1 + r.2 - 1) / chunkSize - r.1 / chunkSize + 1)).foldl
      (fun t n => chunkAdd t (max r.1 ((r.1 / chunkSize + n) * chunkSize))) t) []

/-- footprint-too-large (R102). -/
def footprintTooLarge : Trap := ⟨31, w64 1025, none⟩

/-- Translate the chunks in their order; each distinct leaf, or 64 KiB block when translation is off, counts one page
(R102). Answers the pins and, for each chunk, its lowest address and translation. -/
def State.pinChunks (s : State) (c : Ctx) (acc : Acc) :
    List Nat → List Pin → List (Nat × Xlat) → Except (State × Trap) (State × List Pin × List (Nat × Xlat))
  | [], pins, xs => .ok (s, pins, xs.reverse)
  | a :: t, pins, xs =>
    match translate s c acc a with
    | .error e => .error e
    | .ok (s', x) =>
      if pins.contains x.pin then State.pinChunks s' c acc t pins ((a, x) :: xs)
      else if 1024 ≤ pins.length then .error (s', footprintTooLarge)
      else State.pinChunks s' c acc t (pins ++ [x.pin]) ((a, x) :: xs)

/-- Pin entries of a core in use: those of its strands' instructions, of the operations in its copy slots and of its bound
streams (R101, R102). -/
def State.pinsUsed (s : State) (c : Nat) : Nat :=
  ((strandsOf c).map fun k => (s.strand k).pins.length).sum +
    ((s.core c).slots.map fun e => match e.2 with | some o => o.pins.length | none => 0).sum +
    ((s.core c).ports.map fun e => match e.2 with | some q => if q.susp then 0 else q.pins.length | none => 0).sum

/-- Has the executing strand's core room for the pins of an instruction at issue, which holds none yet? It has 4,096 entries;
issue stalls while too few are free (R102). -/
def State.pinRoom (s : State) (pins : List Pin) : Bool := s.pinsUsed (coreOf s.cur) + pins.length ≤ 4096

/-- The lowest chunk address that an accessor does not admit, or whose encrypted page has no key (R108, R120, R121). -/
def State.admitChunks (s : State) (c : Ctx) (a : Accessor) (acc : Acc) (xs : List (Nat × Xlat)) : Except Trap Unit :=
  match xs.find? fun x => regionOf x.2.pa == .device || !s.admits s.cur a x.2.pa || (x.2.enc && (s.part c.part).key.isNone) with
  | some x => .error (accessFault acc x.1)
  | none => .ok ()

/-- Translation of a footprint of the executing strand, then its admission (R213 orders 3 to 5). -/
def State.pinFootprint (s : State) (a : Accessor) (acc : Acc) (rs : List (Nat × Nat)) : Except (State × Trap) (State × List Pin) :=
  match s.pinChunks s.vctx acc ((chunksOf rs).map Prod.snd) [] [] with
  | .error e => .error e
  | .ok (s', pins, xs) =>
    match s'.admitChunks s'.vctx a acc xs with
    | .error e => .error (s', e)
    | .ok _ => .ok (s', pins)

/-! ### Addresses -/

/-- The addressing forms of R212. -/
inductive VAddr where
  | unit (xp : XReg)
  | strided (xp xe : XReg)
  | indexed (vi : VReg)
  deriving DecidableEq, Repr

/-- Byte address of element (i, j) (R212); the index register is read from the state given. -/
def State.vaddr (s : State) (o : VMem) (m : VAddr) (i j : Nat) : Nat :=
  let b := s.capX 2 o.xb + sext64 11 o.off.toNat
  let w := s.cbits o.ty
  match m with
  | .unit xp => (b + w64 i * s.capX 3 xp + w64 (j * w / 8)).toNat
  | .strided xp xe => (b + w64 i * s.capX 3 xp + w64 j * s.capX 4 xe).toNat
  | .indexed vi => (b + w64 (elem (s.vget vi) 32 i j)).toNat

/-- Bytes an element occupies: a nibble touches one byte. -/
def State.vbytes (s : State) (o : VMem) : Nat := (s.cbits o.ty + 7) / 8

/-- Performed elements (e, i, j) of groups [g, g1). -/
def State.performedIn (s : State) (h : Hdr) (g g1 : Nat) : List (Nat × Nat × Nat) :=
  ((List.range (g1 - g)).map fun n => s.performed h (g + n)).flatten

/-- Performed elements (e, i, j) of groups g and later. -/
def State.performedFrom (s : State) (h : Hdr) (g : Nat) : List (Nat × Nat × Nat) := s.performedIn h g s.grantGroups

/-- Take n groups of a read-bound register from g on, up to one that the stream cannot deliver, which is answered with the state
before it (R105); none when the register has to wait. -/
def State.takeGroups (vi : VReg) : Nat → Nat → State → Option (State × Nat)
  | 0, g, s => some (s, g)
  | n + 1, g, s =>
    match s.pullGroup g [vi] with
    | .ok s' => State.takeGroups vi n (g + 1) s'
    | .trap _ _ => some (s, g)
    | .stall => none

/-- The state in which the groups from g on of a read-bound index register have been taken, so that its contents give the
footprint, with the group before which the footprint ends: the grant's end, or a group whose indices cannot be read, at which the
instruction traps (R105, R141). Nothing of it is kept. -/
def State.peekIndex (s : State) (m : VAddr) (g : Nat) : Option (State × Nat) :=
  match m with
  | .indexed vi => if s.noStreams then some (s, s.grantGroups) else State.takeGroups vi (s.grantGroups - g) g s
  | _ => some (s, s.grantGroups)

/-- Ordering scope and space of `shape`, when not reserved (R156, R167). -/
def State.ordPoint (s : State) : Option (Scope × Space) :=
  match Scope.ofCode (bits s.me.csr.shape 35 3), Space.ofCode (bits s.me.csr.shape 38 2) with
  | some a, some b => some (a, b)
  | _, _ => none

/-- Orders 1 to 4 of R186 for a vector memory form: strided and indexed forms take no gf type of 4 bits or fewer (R185). -/
def State.vmemChecks (s : State) (i : Instr) (o : VMem) (m : VAddr) : Except Trap Unit :=
  let regs := match m with | .indexed vi => [o.v, vi] | _ => [o.v]
  let tys := match m with | .indexed _ => [o.ty, .n32] | _ => [o.ty]
  checkAll [s.needV regs, s.needGf fdValid [o.ty],
    if o.ordered && s.ordPoint.isNone then .error (s.illegalV i.bits) else .ok (),
    s.needLen tys,
    match m with
      | .unit _ => .ok ()
      | _ => if s.cbits o.ty = 4 then .error (vectorShape o.ty.code) else .ok ()]

/-- The checks of R213 before the first element; answers the state that holds the pins. An instruction that only stalled, or
that the schedule left between groups, still holds its pins (R101) and is not checked again. -/
def State.vmemIssue (s : State) (i : Instr) (o : VMem) (m : VAddr) (acc : Acc) (srcs dsts : List VReg) : Except (State × Trap) State :=
  if !s.me.pins.isEmpty then .ok s else
  match checkAll [s.vmemChecks i o m, s.streamCheck srcs dsts s.vsiGroup] with
  | .error t => .error (s, t)
  | .ok _ =>
    let v := (s.peekIndex m s.vsiGroup).getD (s, s.grantGroups)
    let as := (s.performedIn o.h s.vsiGroup v.2).map fun p => v.1.vaddr o m p.2.1 p.2.2
    let n := s.vbytes o
    match (as.filter fun a => a % n ≠ 0).min? with
    | some a => .error (s, mkTrap (if acc = .write then 6 else 4) (w64 a))
    | none =>
      match s.pinFootprint .plain acc (as.map fun a => (a, n)) with
      | .error t => .error t
      | .ok (s', pins) => .ok (s'.setMe { s'.me with pins := pins })

/-- The elements of a group with their addresses: (e, i, j, va). -/
def State.groupAddrs (s : State) (o : VMem) (m : VAddr) (g : Nat) : List (Nat × Nat × Nat × Nat) :=
  (s.performed o.h g).map fun p => (p.1, p.2.1, p.2.2, s.vaddr o m p.2.1 p.2.2)

/-- The breakpoint of a group: the lowest address of an element that an armed data unit meets (R386). -/
def State.groupMatch (s : State) (n : Nat) (wr : Bool) (as : List Nat) : Option Trap :=
  if !bit s.me.csr.dbgctl 0 then none
  else (as.filter fun a => s.dataMatch a n wr).min?.map fun a => s.matchTrap a

/-- The access fault of a group with an element on an encrypted page whose partition's key has been wiped since issue: the
lowest such address (R108; log 71). -/
def State.groupKey (s : State) (acc : Acc) (as : List Nat) : Option Trap :=
  if (s.me.pins.any fun p => p.enc) && (s.keyBytes (s.partOf s.cur)).isNone then
    (as.filter fun a => match pinPa s.me.pins a with | some p => p.2 | none => false).min?.map (accessFault acc)
  else none

/-- The physical address and encryption that the instruction's pins give. -/
def State.pinned (s : State) (va : Nat) : Nat × Bool := (pinPa s.me.pins va).getD (va, false)

/-- Physical ranges of a group's elements. -/
def State.groupRanges (s : State) (n : Nat) (as : List Nat) : List (Nat × Nat) := as.map fun a => ((s.pinned a).1, n)

/-- Does a group meet a pending footprint it must wait for: writes for a load; reads and writes for a store (R138)? -/
def State.chained (s : State) (wr : Bool) (rs : List (Nat × Nat)) : Bool :=
  let e := s.earlier s.cur s.myCore.age
  rangesMeet e.2 rs || (wr && rangesMeet e.1 rs)

/-- Distinct sectors of physical ranges. -/
def sectorsOfRanges (rs : List (Nat × Nat)) : List Nat := (rs.foldl (fun l r => (sectorsOf r.1 r.2).foldl (fun l x => insNat x l) l) [])

/-! ### Loads (R214) -/

/-- Does the executing instruction reach a physical address through an encrypted page? -/
def State.pinEnc (s : State) (pa : Nat) : Bool :=
  match s.me.pins.find? (fun p => p.pa ≤ pa && pa < p.pa + p.size) with | some p => p.enc | none => false

/-- Deliver the core's queued stores that meet the sectors (R149), then let the die cache read them (R159). The core's L1 lines
over them go, so that a later scalar load of the core reads nothing older than what is read here (R148, R149, R151). -/
def State.readSectors (s : State) (secs : List Nat) : State :=
  let core := coreOf s.cur
  secs.foldl (fun s x =>
    (((s.deliverOver core (32 * x) 32).dropL1 core (32 * x) 32).dirReadBy (dieOfCore core) (s.tagOfEnc (s.pinEnc (32 * x))) (32 * x) 32).noteSoft
      (32 * x) 32) s

/-- The uncorrectable sector that a group's first element in one meets, with the lowest address requested of it (R105). Among
the requested addresses are those of the trapping group, whose access it is (R213 order 6; log 72). -/
def State.groupBad (s : State) (n : Nat) (as : List Nat) : Option Trap :=
  as.findSome? fun a =>
    (s.badIn (s.pinned a).1 n).map fun b =>
      let low := (as.filter fun c => (s.pinned c).1 / 32 ≤ b && b ≤ ((s.pinned c).1 + n - 1) / 32).min?.getD a
      uncorrectable low (32 * b)

/-- A loaded code: the container's bytes, or the nibble, without bits above the format (R36). -/
def State.loadCode (s : State) (o : VMem) (j va : Nat) : Nat :=
  let (pa, enc) := s.pinned va
  let key := if enc then s.keyBytes (s.partOf s.cur) else none
  match s.physRead key pa (s.vbytes o) with
  | .ok bs => (if s.cbits o.ty = 4 then leNat bs / 16 ^ (j % 2) else leNat bs) % 2 ^ tyWidth s.me.csr.fd o.ty
  | .error _ => 0

/-- One element group of a load. -/
def State.loadGroup (o : VMem) (m : VAddr) (g : Nat) (s : State) : GRes :=
  let es := s.groupAddrs o m g
  let as := es.map fun e => e.2.2.2
  let n := s.vbytes o
  let rs := s.groupRanges n as
  if s.chained false rs then .stall
  else
    match (s.groupKey .read as).or (s.groupMatch n false as) with
    | some t => .trap s t
    | none =>
      match s.groupBad n as with
      | some t => .trap s t
      | none =>
        let s := s.readSectors (sectorsOfRanges rs)
        .ok (s.vputElems o.v (s.cbits o.ty) (es.map fun e => (e.2.1, e.2.2.1, s.loadCode o e.2.2.1 e.2.2.2)))

/-- The sectors that groups [g0, g1) touch. -/
def State.groupSectors (s : State) (o : VMem) (m : VAddr) (g0 g1 : Nat) : List Nat :=
  sectorsOfRanges (s.groupRanges (s.vbytes o) (((List.range (g1 - g0)).map fun n => (s.groupAddrs o m (g0 + n)).map fun e => e.2.2.2).flatten))

/-- May the sequencer leave a memory instruction after n groups without a stop of R178: is no sector shared by groups on both sides,
up to group g1 where its footprint ends? Each is one access (R147, R215). -/
def State.memCut (s : State) (o : VMem) (m : VAddr) (g1 n : Nat) : Bool :=
  let g := s.vsiGroup + n
  let a := s.groupSectors o m s.vsiGroup g
  !(s.groupSectors o m g g1).any a.contains

/-- The groups after which the sequencer leaves a memory instruction: the limit of the schedule, raised to where `memCut` allows it
when the strand does not stop there. -/
def State.memLim (s : State) (o : VMem) (m : VAddr) : Option Nat :=
  s.lim.map fun l =>
    let n := s.grantGroups - s.vsiGroup
    let v := (s.peekIndex m s.vsiGroup).getD (s, s.grantGroups)
    if l.stops then l.groups else ((List.range (n + 1)).find? fun i => l.groups ≤ i && v.1.memCut o m v.2 i).getD n

/-- The groups that a memory instruction performs when it would stall after n of them: as many of these as `memCut` allows, all of
them when the strand stops there. -/
def State.memBack (s : State) (o : VMem) (m : VAddr) (n : Nat) : Nat :=
  let v := (s.peekIndex m s.vsiGroup).getD (s, s.grantGroups)
  if s.lim.any Limit.stops then n else ((List.range (n + 1)).reverse.find? fun i => v.1.memCut o m v.2 i).getD 0

/-- Run the groups of a memory instruction; `fin` acts when it completes, `flush` on the groups that were performed. A stall that would
part a sector waits before the first of its groups (R147), unless the strand stops there (R178, R215). -/
def State.vmemRun (s : State) (o : VMem) (m : VAddr) (srcs dsts : List VReg) (body : Nat → State → GRes) (flush : Nat → Nat → State → State) (fin : State → State) : Out :=
  let g0 := s.vsiGroup
  let step (g : Nat) (s : State) : GRes :=
    match (if s.noStreams then .ok s else s.pullGroup g srcs) with
    | .ok s1 =>
      match body g s1 with
      | .ok s2 => .ok ((if s2.noStreams then s2 else s2.pushGroup g dsts).countEv s2.cur 4 1)
      | .trap _ t => .trap s t
      | .stall => .stall
    | x => x
  let run (lim : Option Nat) : LoopRes := groupLoop step (s.grantGroups - g0) g0 lim s
  let r : LoopRes := match run (s.memLim o m) with
    | .stop s' g =>
      let n := s.memBack o m (g - g0)
      if n = g - g0 then .stop s' g else run (some n)
    | r => r
  match r with
  | .done s' => .next (fin (flush g0 s'.grantGroups s')).completeVec
  | .stop s' g => .next ((flush g0 g s').setVsi g)
  | .trap s' g t => ((flush g0 g s').setVsi g).trapVec t

/-- A vector load (R212 to R214); an acquire load takes its point when it completes (R156). -/
def State.vload (s : State) (i : Instr) (o : VMem) (m : VAddr) : Out :=
  let srcs := match m with | .indexed vi => [vi] | _ => []
  if (s.peekIndex m s.vsiGroup).isNone && (s.vmemChecks i o m).isOk then .next s
  else
    match s.vmemIssue i o m .read srcs [o.v] with
    | .error (s1, t) => s1.trapVec t
    | .ok s1 =>
      if s.me.pins.isEmpty && !s.pinRoom s1.me.pins then .next s else
      s1.vmemRun o m srcs [o.v] (State.loadGroup o m) (fun _ _ s => s) fun s =>
        match o.ordered, s.ordPoint with
        | true, some (sc, sp) => s.acquirePoint s.cur sc sp
        | _, _ => s

/-! ### Stores (R215) -/

/-- A store's checks of one group: chaining and match units. -/
def State.storeGroup (o : VMem) (m : VAddr) (g : Nat) (s : State) : GRes :=
  let as := (s.groupAddrs o m g).map fun e => e.2.2.2
  let n := s.vbytes o
  if s.chained true (s.groupRanges n as) then .stall
  else
    match (s.groupKey .write as).or (s.groupMatch n true as) with
    | some t => .trap s t
    | none => .ok s

/-- Enter a byte unless a later element has entered it; an address below every entry goes to the front. -/
def putNew (t : Tbl Byte) (a : Nat) (b : Byte) : Tbl Byte :=
  match t with
  | (x, _) :: _ => if a < x then (a, b) :: t else if t.any (fun e => e.1 == a) then t else Tbl.put b a t
  | [] => [(a, b)]

/-- Bytes that the elements of groups [g0, g1) store, the highest-numbered element deciding each (R215); container bits above
the format are stored as zero (R36). -/
def State.storeBytes (s : State) (o : VMem) (am : VAddr) (g0 g1 : Nat) : Tbl Byte :=
  let es := ((List.range (g1 - g0)).map fun n => s.groupAddrs o am (g0 + n)).flatten
  let w := s.cbits o.ty
  let m := 2 ^ tyWidth s.me.csr.fd o.ty
  let b := s.vget o.v
  if w = 4 then
    let nib (t : Tbl (Option Nat × Option Nat)) (e : Nat × Nat × Nat × Nat) : Tbl (Option Nat × Option Nat) :=
      let v := elem b 4 e.2.1 e.2.2.1 % m
      let a := (s.pinned e.2.2.2).1
      let old := Tbl.get (none, none) t a
      Tbl.put (if e.2.2.1 % 2 = 0 then (some v, old.2) else (old.1, some v)) a t
    (es.foldl nib []).filterMap fun e =>
      match e.2 with
      | (some l, some h) => some (e.1, BitVec.ofNat 8 (l + 16 * h))
      | (l, h) =>
        match s.physRead (s.tagKey (s.tagOfEnc (s.pinEnc e.1))) e.1 1 with
        | .ok [r] => some (e.1, BitVec.ofNat 8 (l.getD (bits r 0 4) + 16 * h.getD (bits r 4 4)))
        | _ => none
  else
    es.reverse.foldl (fun t e =>
      let a := (s.pinned e.2.2.2).1
      (List.range (w / 8)).reverse.foldl (fun t n => putNew t (a + n) (BitVec.ofNat 8 (elem b w e.2.1 e.2.2.1 % m / 256 ^ n))) t) []

/-- The bytes of which groups [g0, g1) store one nibble alone, so that the other is read (R215). -/
def State.halfBytes (s : State) (o : VMem) (am : VAddr) (g0 g1 : Nat) : List Nat :=
  if s.cbits o.ty ≠ 4 then []
  else
    let es := ((List.range (g1 - g0)).map fun n => s.groupAddrs o am (g0 + n)).flatten
    let nibs (q : Nat) : List Nat := (es.filter fun e => e.2.2.1 % 2 = q).map fun e => (s.pinned e.2.2.2).1
    (nibs 0).filter (fun a => !(nibs 1).contains a) ++ (nibs 1).filter fun a => !(nibs 0).contains a

/-- Cut bytes in rising order into runs that stay in one sector. -/
def sectorRuns : Tbl Byte → List (Nat × List Byte)
  | [] => []
  | (a, b) :: t =>
    match sectorRuns t with
    | (x, bs) :: rs => if x = a + 1 && x % 32 ≠ 0 then (a, b :: bs) :: rs else (a, [b]) :: (x, bs) :: rs
    | [] => [(a, [b])]

/-- Perform a vector store's run of bytes in one sector for the executing strand (R159). -/
def State.storeRun (s : State) (pa : Nat) (bs : List Byte) : State :=
  let core := coreOf s.cur
  let s := (s.deliverOver core pa bs.length).writeVia (dieOfCore core) (s.tagOfEnc (s.pinEnc pa)) pa bs
  let s := (s.dropL1 core pa bs.length).breakResv (some s.cur) pa bs.length
  if regionOf pa = .hbm then s.setMe { s.me with written := insNat (pa / 128) s.me.written } else s

/-- Perform the sectors that groups [g0, g1) store; a release store takes its point first (R156). The core's queued stores to
them are delivered first, so that the other nibble of a byte is the strand's own latest (R149, R215), and a corrected error that the
read of such a nibble meets is counted (R104). Every agent sees the bytes at once (log 93). -/
def State.storeFlush (o : VMem) (m : VAddr) (g0 g1 : Nat) (s : State) : State :=
  let s := (s.groupSectors o m g0 g1).foldl (fun s x => s.deliverOver (coreOf s.cur) (32 * x) 32) s
  let s := if s.soft.isEmpty then s
    else (sectorsOfRanges ((s.halfBytes o m g0 g1).map fun a => (a, 1))).foldl (fun s x => s.noteSoft (32 * x) 32) s
  (sectorRuns (s.storeBytes o m g0 g1)).foldl (fun s r => s.storeRun r.1 r.2) s

/-- A vector store (R212, R213, R215). -/
def State.vstore (s : State) (i : Instr) (o : VMem) (m : VAddr) : Out :=
  let srcs := match m with | .indexed vi => [o.v, vi] | _ => [o.v]
  if (s.peekIndex m s.vsiGroup).isNone && (s.vmemChecks i o m).isOk then .next s
  else
    match s.vmemIssue i o m .write srcs [] with
    | .error (s1, t) => s1.trapVec t
    | .ok s1 =>
      if s.me.pins.isEmpty && !s.pinRoom s1.me.pins then .next s else
      let s2 := match o.ordered, s1.ordPoint with
        | true, some (sc, _) => s1.releasePoint s1.cur sc
        | _, _ => s1
      s2.vmemRun o m srcs [] (State.storeGroup o m) (State.storeFlush o m) id

/-- VLD (R214). -/
def execVld (o : VMem) (xp : XReg) (s : State) : Out := s.vload (.vld o xp) o (.unit xp)
/-- VLDS (R214). -/
def execVlds (o : VMem) (xp xe : XReg) (s : State) : Out := s.vload (.vlds o xp xe) o (.strided xp xe)
/-- VLDX (R214). -/
def execVldx (o : VMem) (vi : VReg) (s : State) : Out := s.vload (.vldx o vi) o (.indexed vi)
/-- VST (R215). -/
def execVst (o : VMem) (xp : XReg) (s : State) : Out := s.vstore (.vst o xp) o (.unit xp)
/-- VSTS (R215). -/
def execVsts (o : VMem) (xp xe : XReg) (s : State) : Out := s.vstore (.vsts o xp xe) o (.strided xp xe)
/-- VSTX (R215). -/
def execVstx (o : VMem) (vi : VReg) (s : State) : Out := s.vstore (.vstx o vi) o (.indexed vi)

end Sys2Proof.Machine
end

