-- ==== Sys2Proof/Machine/Matrix.lean ====
section
/-! DEFINITION. The matrix instructions (R217 to R241): panels, updates, `wload`, `mdrain` and `mfill`, and the moves of
whole tiles. -/
namespace Sys2Proof.Machine

/-- matrix-operand with a `stval` (R225 order 5). -/
def matrixOperand (v : Word) : Trap := mkTrap 57 v

/-! ### Tiles and the weight space (R217, R218) -/

/-- Element (i, j) of tile contents. -/
def tileElem (d : BitVec 131072) (i j : Nat) : Nat := bits d (32 * (64 * i + j)) 32

/-- The tile that a name is bound to. -/
def State.mget (s : State) (m : Reg8) : Tile :=
  match s.me.tileOf m with
  | some n => s.myCore.tile n
  | none => Tile.reset

/-- Change the tile that a name is bound to. -/
def State.mput (s : State) (m : Reg8) (f : Tile → Tile) : State :=
  match s.me.tileOf m with
  | some n => s.setMyCore (s.myCore.setTile n (f (s.myCore.tile n)))
  | none => s

/-- Bytes of the strand's weight space. -/
def State.weightSize (s : State) : Nat := 32768 * s.me.tiles.length

/-- n bytes of the weight space from offset o, as a little-endian number; n is at most one window. -/
def State.weightNum (s : State) (o n : Nat) : Nat :=
  let win (k : Nat) : BitVec 262144 := match s.me.tiles[k]? with | some t => (s.myCore.tile t).window | none => 0
  let i := o % 32768
  let n1 := min n (32768 - i)
  bits (win (o / 32768)) (8 * i) (8 * n1) + 2 ^ (8 * n1) * bits (win (o / 32768 + 1)) 0 (8 * (n - n1))

/-- Write bytes of the weight space, all in one window. -/
def State.weightPut (s : State) (o : Nat) (bs : List Byte) : State :=
  match s.me.tiles[o / 32768]? with
  | none => s
  | some t =>
    let c := s.myCore
    let i := o % 32768
    let k := c.tile t
    s.setMyCore { c.setTile t { k with window := setBits k.window (8 * i) (8 * bs.length) (leNat bs) } with
      badWins := c.badWins.filter fun p => !(p.1 == t && i ≤ 32 * p.2 && 32 * p.2 + 32 ≤ i + bs.length) }

/-! ### Checks (R225) -/

/-- tile-unavailable for a name whose tile is Bound (R236). -/
def tileUnavailable (owner phys name : Nat) : Trap := mkTrap 27 (w64 (owner * 2 ^ 16 + phys * 16 + name))

/-- The tile names that weight-space bytes [o, o + n) touch. -/
def State.windowsOf (s : State) (o n : Nat) : List Nat :=
  if n = 0 then [] else (List.range s.me.tiles.length).filter fun k => o < 32768 * (k + 1) && 32768 * k < o + n

/-- No tile name of the list is Bound (R235). -/
def State.needTiles (s : State) (names : List Nat) : Except Trap Unit :=
  match names.findSome? fun m =>
    match s.me.tiles[m]? with
    | some n => match (s.myCore.tile n).st with | .bound tag _ => some (tileUnavailable tag n m) | _ => none
    | none => none with
  | some t => .error t
  | none => .ok ()

/-- A held tile name (R166). -/
def State.needM (s : State) (m : Reg8) : Except Trap Unit := if (s.me.tileOf m).isNone then .error (notHeldM m.val) else .ok ()

/-- The scale register of a block-scaled operand, when the next name exists (R223). -/
def scaleReg (fd : Vector Word 4) (ty : ElemTy) (v : VReg) : Option VReg := if isBlocked fd ty && v ≠ 31 then some (v + 1) else none

/-- Scale registers of operands: those of a type that is certainly or by its descriptor blocked. -/
def State.scaleRegs (s : State) (ops : List (ElemTy × VReg)) : List VReg := ops.filterMap fun p => scaleReg s.me.csr.fd p.1 p.2

/-- Scale registers held. -/
def State.needScales (s : State) (ops : List (ElemTy × VReg)) : Except Trap Unit := s.needV (s.scaleRegs ops)

/-- Container classes of R221 by bits. -/
def widthClass (fd : Vector Word 4) (ty : ElemTy) : Nat := containerBits fd ty

/-- Widths of the pair agree (R221): the descriptor that is at fault otherwise is B's when both are gf. -/
def State.needAgree (s : State) (ta tb : ElemTy) : Except Trap Unit :=
  let fd := s.me.csr.fd
  if widthClass fd ta = widthClass fd tb then .ok ()
  else match ta, tb with
    | _, .gf k => .error (badFormat k)
    | .gf k, _ => .error (badFormat k)
    | _, _ => .ok ()

/-- A blocked gf operand is not in v31 (R223). -/
def State.needNot31 (s : State) (ty : ElemTy) (v : VReg) : Except Trap Unit :=
  match ty with
  | .gf k => if fdBlk s.me.csr.fd[k] && v = 31 then .error (badFormat k) else .ok ()
  | _ => .ok ()

/-! ### Slices (R219, R220) -/

/-- Is element (i, j) enabled (R219)? -/
def State.mEnabled (s : State) (h : Hdr) (cp : Reg8) (i j : Nat) : Bool := !h.pe || (s.predBit h.pred i && s.predBit cp j)

/-- The 512 positions of slice k. -/
def slicePos (k : Nat) : List (Nat × Nat) := (List.range 512).map fun n => (8 * k + n / 64, n % 64)

/-- Replace the elements of slice k by 32-bit codes in row-major order. -/
def sliceSet (d : BitVec 131072) (k : Nat) (cs : List Nat) : BitVec 131072 :=
  setBits d (16384 * k) 16384 (cs.foldr (fun c acc => c % 2 ^ 32 + 2 ^ 32 * acc) 0)

/-- memory-uncorrectable of a unit of the core's own storage (R225). -/
def State.ownBad (s : State) (v : Nat) : Trap := ⟨24, w64 v, some (dieOf s.cur)⟩

/-- An uncorrectable 64-bit word among the first n bits of a vector row: the bytes beyond what is read are ignored (R222). -/
def State.rowBad (s : State) (r : VReg) (row n : Nat) : Option Trap :=
  match s.me.blockOf r with
  | some b => if s.myCore.badRows.any (fun p => p.1 == b && p.2.1 == row && decide (64 * p.2.2 < n)) then some (s.ownBad r.val) else none
  | none => none

/-- A tile slice with an uncorrectable error. -/
def State.sliceBad (s : State) (m : Reg8) (k : Nat) : Option Trap :=
  match s.me.tileOf m with
  | some n => if s.myCore.badTiles.contains (n, k) then some (s.ownBad (0x100 + m.val)) else none
  | none => none

/-- Window bytes with an uncorrectable error. -/
def State.winBad (s : State) (o n : Nat) : Option Trap :=
  (s.windowsOf o n).findSome? fun k =>
    match s.me.tiles[k]? with
    | some t => if s.myCore.badWins.any (fun p => p.1 == t && o < 32768 * k + 32 * p.2 + 32 && 32768 * k + 32 * p.2 < o + n) then some (s.ownBad (0x200 + k)) else none
    | none => none

/-- A write of a whole slice ends its error. -/
def State.sliceHeal (s : State) (m : Reg8) (k : Nat) (whole : Bool) : State :=
  match s.me.tileOf m with
  | some n => if whole && !s.myCore.badTiles.isEmpty then s.setMyCore { s.myCore with badTiles := s.myCore.badTiles.filter (· ≠ (n, k)) } else s
  | none => s

/-- How a run of slices ends: at an update and slice. -/
inductive SliceRes where
  | done (s : State)
  | stop (s : State) (u k : Nat)
  | trap (s : State) (u k : Nat) (t : Trap)
  deriving DecidableEq, Repr

/-- Perform slices (update, slice) in order, at most as many as the schedule allows. -/
def sliceLoop (body : Nat → Nat → State → GRes) : List (Nat × Nat) → Option Nat → State → SliceRes
  | [], _, s => .done s
  | (u, k) :: _, some 0, s => .stop s u k
  | (u, k) :: t, lim, s =>
    match body u k s with
    | .ok s' => sliceLoop body t (lim.map fun l => l - 1) s'
    | .trap s' e => .trap s' u k e
    | .stall => .stop s u k

/-- `msi` fields (R173). -/
def State.msiUpd (s : State) : Nat := bits s.me.csr.msi 8 8
def State.msiSlice (s : State) : Nat := bits s.me.csr.msi 0 3
def State.setMsi (s : State) (u k : Nat) : State := s.setMe { s.me with csr := { s.me.csr with msi := w64 (256 * (u % 256) + k % 8) } }

/-- Slices of n updates from `msi` on, over slices [k0, k1): none when `msi` lies outside them (R230). For `mdrain` and
`mfill` a slice of 0 reads as k0 (R233). -/
def State.slicesFrom (s : State) (n k0 k1 : Nat) : List (Nat × Nat) :=
  let u := s.msiUpd
  let k := if s.msiSlice = 0 then k0 else s.msiSlice
  if n ≤ u || k < k0 || k1 ≤ k then []
  else ((List.range (k1 - k)).map fun i => (u, k + i)) ++
    ((List.range (n - u - 1)).map fun i => (List.range (k1 - k0)).map fun j => (u + 1 + i, k0 + j)).flatten

/-- Run a matrix instruction after its checks: source streams are taken when it starts, destination streams pushed when it
completes (R141). With `msi` outside its slices it performs nothing and completes (R230). -/
def State.runSlices (s : State) (chk : Except Trap Unit) (lim : Option Nat) (srcs dsts : List VReg) (n k0 k1 : Nat)
    (body : Nat → Nat → State → GRes) : Out :=
  let fresh := s.me.csr.msi = 0
  match checkAll [chk, if fresh then s.streamCheck srcs dsts 0 else .ok ()] with
  | .error t => s.trapVec t
  | .ok _ =>
    if (s.slicesFrom n k0 k1).isEmpty then .next s.completeVec else
    match (if fresh then s.pullAll srcs else .ok s) with
    | .stall => .next s
    | .trap _ t => s.trapVec t
    | .ok s1 =>
      match sliceLoop body (s1.slicesFrom n k0 k1) lim s1 with
      | .done s' => .next (s'.pushAll dsts).completeVec
      -- before slice 0 of update 0 nothing has been taken: `msi` could not tell that it had
      | .stop s' u k => .next (if u = 0 && k = 0 then s else s'.setMsi u k)
      | .trap s' u k t => (if u = 0 && k = 0 then s else s'.setMsi u k).trapVec t

/-! ### mzero (R226) -/

/-- MZERO (R226). -/
def execMzero (h : Hdr) (cp : Reg8) (md : Reg8) (s : State) : Out :=
  s.runSlices (checkAll [s.needM md, s.needTiles [md.val]]) none [] [] 1 0 8 fun _ k s =>
    let d := (s.mget md).data
    let cs := (slicePos k).map fun p => if s.mEnabled h cp p.1 p.2 then 0 else tileElem d p.1 p.2
    .ok ((s.mput md fun t => { t with data := sliceSet t.data k cs }).sliceHeal md k
      ((slicePos k).all fun p => s.mEnabled h cp p.1 p.2))

/-! ### mop and mopw (R221 to R229) -/

/-- Products per update by container bits (R221). -/
def rankOf (w : Nat) : Nat := match w with | 4 => 16 | 8 => 4 | 16 => 2 | _ => 1

/-- Panels of an operand: element codes by panel and position, and scale codes by panel and half; an operand that is not
block-scaled has no scales. -/
structure Panels where
  codes  : Array Nat
  scales : Option (Array Nat)
  deriving DecidableEq, Repr

/-- Code of element i of panel k. -/
def Panels.code (p : Panels) (k i : Nat) : Nat := p.codes.getD (64 * k + i) 0

/-- Scale that applies to element i of panel k (R223). -/
def Panels.scale (p : Panels) (k i : Nat) : Option (Option Int) := p.scales.map fun a => e8m0 (a.getD (2 * k + i / 32) 0)

/-- Element codes packed in containers of w bits, masked to the element's own bits. -/
def unpackNum (w ew n x : Nat) : Array Nat := ((List.range n).map fun i => x / 2 ^ (w * i) % 2 ^ ew).toArray

/-- The first n panels of an operand from row a of a register, with the scales of the next register (R222, R223). -/
def State.regPanels (s : State) (ty : ElemTy) (v : VReg) (a n : Nat) : Panels :=
  let fd := s.me.csr.fd
  let w := containerBits fd ty
  let pr := limBits w / 64
  let b := s.vget v
  let sc := match scaleReg fd ty v with | some r => s.vget r | none => 0
  let codes := ((List.range n).map fun k => (unpackNum w (tyWidth fd ty) 64 (bits b (4096 * (a + k / pr) + 64 * w * (k % pr)) (64 * w))).toList).flatten
  ⟨codes.toArray,
   if isBlocked fd ty then some ((List.range (2 * n)).map fun q => bits sc (4096 * (a + q / 2 / pr) + 8 * (2 * (q / 2 % pr) + q % 2)) 8).toArray else none⟩

/-- Bytes of the parts of one update in the weight space: panels, selectors, scales (R228). -/
def weightParts (fd : Vector Word 4) (tb : ElemTy) (sp : Bool) : Nat × Nat × Nat :=
  let w := containerBits fd tb
  let r := rankOf w
  (r * (64 * w / 8), if sp then 16 * r else 0, if isBlocked fd tb then 2 * r else 0)

/-- The step S between updates (R228). -/
def weightStep (fd : Vector Word 4) (tb : ElemTy) (sp : Bool) : Nat :=
  let p := weightParts fd tb sp
  (p.1 + p.2.1 + p.2.2 + 31) / 32 * 32

/-- The panels of one update in the weight space, with the selector bytes (R228, R229). -/
def State.weightPanels (s : State) (tb : ElemTy) (sp : Bool) (o : Nat) : Panels × Nat :=
  let fd := s.me.csr.fd
  let w := containerBits fd tb
  let r := rankOf w
  let p := weightParts fd tb sp
  let all := s.weightNum o (weightStep fd tb sp)
  (⟨unpackNum w (tyWidth fd tb) (64 * r) all,
    if isBlocked fd tb then some ((List.range (2 * r)).map fun i => all / 2 ^ (8 * (p.1 + p.2.1 + i)) % 256).toArray else none⟩,
   all / 2 ^ (8 * p.1) % 2 ^ (8 * p.2.1))

/-- The A panel that compressed panel c of column j multiplies: c itself when dense, else by its selector (R229). -/
def selA (sp : Bool) (sel c j : Nat) : Nat :=
  if sp then
    let nib := sel / 2 ^ (8 * (32 * (c / 2) + j / 2) + 4 * (j % 2)) % 16
    4 * (c / 2) + (if c % 2 = 0 then nib % 4 else nib / 4)
  else c

/-- The value of an element with its scale. -/
def panelVal (fd : Vector Word 4) (ty : ElemTy) (daz : Bool) (p : Panels) (k i : Nat) : Num :=
  let v := valOf fd ty daz (p.code k i)
  match p.scale k i with
  | some sc => v.scaleBy sc
  | none => v

/-- One element of a rank-r update: code and flags (R49, R50). -/
def updElem (fd : Vector Word 4) (ta tb : ElemTy) (a : Arithm) (pa pb : Panels) (sp : Bool) (sel old i j : Nat) : Nat × Nat :=
  let r := rankOf (containerBits fd tb)
  match intOf ta, intOf tb with
  | some (wa, _), some (wb, _) =>
    (narrowInt 32 true a.sat ((List.range r).foldl (fun (x : Int) c =>
      x + sextNat wa (pa.code (selA sp sel c j) i) * sextNat wb (pb.code c j)) (sextNat 32 old)), 0)
  | _, _ =>
    let ps := (List.range r).map fun c => (panelVal fd ta a.daz pa (selA sp sel c j) i).mul (panelVal fd tb a.daz pb c j)
    let e := sumExact a.rm (Fmt.f32.input a.daz old :: ps.map Prod.fst)
    rnd .f32 a (e.1, e.2 ||| orFlags (ps.map Prod.snd))

/-- Finish a slice of a tile: the first enabled event traps with nothing written, otherwise codes are written and flags
accrue. Entries: position, code and flags; none where not enabled. -/
def State.writeSlice (s : State) (md : Reg8) (k : Nat) (cs : List (Option (Nat × Nat))) : GRes :=
  let pos := slicePos k
  let rs := (pos.zip cs).filterMap fun p => p.2.map fun c => (64 * p.1.1 + p.1.2, c.2)
  match firstEvent s.me.csr.fx rs with
  | some t => .trap s t
  | none =>
    let d := (s.mget md).data
    let out := (pos.zip cs).map fun p => match p.2 with | some c => c.1 | none => tileElem d p.1.1 p.1.2
    let s := s.mput md fun t => { t with data := sliceSet t.data k out }
    let s := s.sliceHeal md k (cs.all Option.isSome)
    .ok (s.setMe { s.me with csr := { s.me.csr with fx := accrue s.me.csr.fx (orFlags (rs.map Prod.snd)) } })

/-- Slice k of an update: errors in what it reads trap at the slice (R225), then every enabled element is computed from the
slice's old values (R220). -/
def State.updSlice (s : State) (h : Hdr) (cp : Reg8) (ta tb : ElemTy) (md : Reg8) (bad : List (Option Trap)) (pa pb : Panels)
    (sp : Bool) (sel k : Nat) : GRes :=
  let pos := slicePos k
  if !pos.any fun p => s.mEnabled h cp p.1 p.2 then .ok s
  else
    match (bad ++ [s.sliceBad md k]).findSome? id with
    | some t => .trap s t
    | none =>
      let d := (s.mget md).data
      let fd := s.me.csr.fd
      let a := s.arithm
      s.writeSlice md k (pos.map fun p =>
        if s.mEnabled h cp p.1 p.2 then some (updElem fd ta tb a pa pb sp sel (tileElem d p.1 p.2) p.1 p.2) else none)

/-- Count a completed update after its last slice (R379 event 5). -/
def GRes.countUpd (r : GRes) (k : Nat) : GRes :=
  match r with
  | .ok s => if k = 7 then .ok (s.countEv s.cur 5 1) else .ok s
  | x => x

/-- Errors in the first n panels of an operand row, and in their scales (R222, R223). -/
def State.operandBad (s : State) (ty : ElemTy) (v : VReg) (row n : Nat) : List (Option Trap) :=
  [s.rowBad v row (64 * s.cbits ty * n), (scaleReg s.me.csr.fd ty v).bind fun r => s.rowBad r row (16 * n)]

/-- Checks 1 to 4 of R225 that `mop` and `mopw` share. -/
def State.mopChecks (s : State) (i : Instr) (ta tb : ElemTy) (md : Reg8) (vs : List VReg) (ops : List (ElemTy × VReg)) (wins : List Nat) : Except Trap Unit :=
  checkAll ([s.needM md, s.needV vs, s.needScales ops, s.needTiles (md.val :: wins), s.needGf fdValid [ta, tb], s.needAgree ta tb]
    ++ ops.map (fun p => s.needNot31 p.1 p.2) ++ [s.needRm (intOf ta).isNone i.bits])

/-- MOP (R227). -/
def execMop (h : Hdr) (cp : Reg8) (ta tb : ElemTy) (md : Reg8) (va : VReg) (a : BitVec 4) (vb : VReg) (b : BitVec 4) (s : State) : Out :=
  let chk := s.mopChecks (.mop h cp ta tb md va a vb b) ta tb md [va, vb] [(ta, va), (tb, vb)] []
  let ops := [(ta, va), (tb, vb)]
  s.runSlices chk s.maxGroups ([va, vb] ++ s.scaleRegs ops) [] 1 0 8 fun _ k s =>
    let r := rankOf (s.cbits ta)
    (s.updSlice h cp ta tb md (s.operandBad ta va a.toNat r ++ s.operandBad tb vb b.toNat r)
      (s.regPanels ta va a.toNat r) (s.regPanels tb vb b.toNat r) false 0 k).countUpd k

/-- MOPW (R227 to R229). -/
def execMopw (h : Hdr) (cp : Reg8) (sp : Bool) (n1 : BitVec 3) (ta tb : ElemTy) (md : Reg8) (va : VReg) (a : BitVec 4) (xo : XReg)
    (s : State) : Out :=
  let fd := s.me.csr.fd
  let n := n1.toNat + 1
  let o := (s.capX 3 xo).toNat
  let w := containerBits fd ta
  let rho := if sp && w = 4 then 2 else 1
  let step := weightStep fd tb sp
  let last := a.toNat + rho * n - 1
  let chk := checkAll [s.mopChecks (.mopw h cp sp n1 ta tb md va a xo) ta tb md [va] [(ta, va)] (s.windowsOf o (n * step)),
    if o % 32 ≠ 0 || s.weightSize < o + n * step then .error (matrixOperand (w64 o)) else .ok (),
    if 15 < last then .error (matrixOperand (w64 last)) else .ok ()]
  s.runSlices chk s.maxGroups (va :: s.scaleRegs [(ta, va)]) [] n 0 8 fun u k s =>
    let r := rankOf w
    let row := a.toNat + rho * u
    let per := if sp && w ≠ 4 then 2 * r else r
    let b := s.weightPanels tb sp (o + u * step)
    let bad := s.operandBad ta va row per ++ (if rho = 2 then s.operandBad ta va (row + 1) per else []) ++ [s.winBad (o + u * step) step]
    (s.updSlice h cp ta tb md bad (s.regPanels ta va row (if sp then 2 * r else r)) b.1 sp b.2 k).countUpd k

/-! ### wload (R231) -/

/-- The source of a `wload`: its own core's scratchpad, in pages that the strand may access (R231). -/
def State.wloadAdmit (s : State) (xs : List (Nat × Xlat)) : Except Trap Unit :=
  match xs.find? fun x => !(match regionOf x.2.pa with | .pad c => c == coreOf s.cur | _ => false) || !s.admits s.cur .plain x.2.pa with
  | some x => .error (accessFault .read x.1)
  | none => .ok ()

/-- The checks of a `wload` at a start, over the bytes from `vsi` on; its pins are held from then (R101). Beside R225 and R213 the
whole source is looked at for match units and uncorrectable sectors, so that a trap leaves nothing of this start
performed (R220; log 76). -/
def State.wloadIssue (s : State) (o src n : Nat) : Except (State × Trap) State :=
  let done := 64 * s.vsiGroup
  if !s.me.pins.isEmpty then .ok s
  else
    match checkAll [s.needTiles (s.windowsOf o n),
      if o % 32 ≠ 0 then .error (matrixOperand (w64 o))
      else if src % 32 ≠ 0 then .error (matrixOperand (w64 src))
      else if n % 32 ≠ 0 then .error (matrixOperand (w64 n))
      else if s.weightSize < o + n then .error (matrixOperand (w64 o)) else .ok ()] with
    | .error t => .error (s, t)
    | .ok _ =>
      let rs := if done < n then [(src + done, n - done)] else []
      match s.pinChunks s.vctx .read ((chunksOf rs).map Prod.snd) [] [] with
      | .error t => .error t
      | .ok (s', pins, xs) =>
        match s'.wloadAdmit xs with
        | .error t => .error (s', t)
        | .ok _ =>
          let s1 := s'.setMe { s'.me with pins := pins }
          let as := (List.range (n - done)).map (· + (src + done))
          match (s1.groupMatch 1 false as).or (if s1.bad.isEmpty then none else s1.groupBad 1 as) with
          | some t => .error (s', t)
          | none => .ok s1

/-- WLOAD: groups of 64 bytes, the last perhaps 32 (R231). With `msi.upd` not 0 it performs nothing (R230). -/
def execWload (_la : BitVec 4) (xo xs xn : XReg) (s : State) : Out :=
  let o := (s.capX 2 xo).toNat
  let src := (s.capX 3 xs).toNat
  let n := (s.capX 4 xn).toNat
  match s.wloadIssue o src n with
  | .error (s', t) => s'.trapVec t
  | .ok s1 =>
    if s1.msiUpd ≠ 0 then .next s1.completeVec
    else if s.me.pins.isEmpty && !s.pinRoom s1.me.pins then .next s
    else
    s1.runGroups ((n + 63) / 64) fun g s =>
      let m := min 64 (n - 64 * g)
      let as := (List.range m).map (· + (src + 64 * g))
      let rs := physRanges s.me.pins 3 (src + 64 * g) m
      if s.chained false rs then .stall
      else
        match if s.bad.isEmpty then none else s.groupBad 1 as with
        | some t => .trap s t
        | none =>
          let s := s.readSectors (sectorsOfRanges rs)
          .ok ([0, 1].foldl (fun s h =>
            if 32 * h < m then s.weightPut (o + 64 * g + 32 * h) (as.drop (32 * h) |>.take 32 |>.map fun a => memByte s.mem (s.pinned a).1) else s) s)

/-! ### mdrain and mfill (R232, R233) -/

/-- The control word: upd and the signed exponent (R232). -/
def ctlUpd (c : Word) : Bool := bit c 8
def ctlExp (c : Word) : Int := sextNat 8 (bits c 0 8)

/-- Checks of `mdrain` and `mfill`; names in field order. -/
def State.drainChecks (s : State) (i : Instr) (named : List (Except Trap Unit)) (m : Reg8) (ty : ElemTy) (c : Word) : Except Trap Unit :=
  checkAll (named ++ [s.needTiles [m.val], s.needGf (fun d => fdValid d && !fdBlk d) [ty], s.needRm true i.bits,
    if bits c 9 55 ≠ 0 then .error (matrixOperand c) else .ok ()])

/-- An exact value rounded to an integer and narrowed without flags, for a move between integers (R233, R54). -/
def intMove (w : Nat) (sg : Bool) (a : Arithm) (x : Num) : Nat :=
  match x with
  | .real n d e => narrowInt w sg a.sat (roundToInt a.rm n d e).1
  | _ => 0

/-- The value of a tile element of a kind. -/
def tileVal (int : Bool) (daz : Bool) (c : Nat) : Num := if int then Num.ofInt (sextNat 32 c) 0 else Fmt.f32.input daz c

/-- Convert an exact value to a type, from an integer or a floating side. -/
def moveTo (fd : Vector Word 4) (fromInt : Bool) (ty : ElemTy) (a : Arithm) (x : Num) : Nat × Nat :=
  match fromInt, intOf ty with
  | true, some (w, sg) => (intMove w sg a x, 0)
  | _, _ => toTy fd ty a x

/-- MDRAIN (R233). -/
def execMdrain (h : Hdr) (cp : Reg8) (int : Bool) (dt : ElemTy) (vd : VReg) (ms : Reg8) (xc : XReg) (q : BitVec 2) (s : State) : Out :=
  let c := s.capX 3 xc
  let q := q.toNat
  s.runSlices (s.drainChecks (.mdrain h cp int dt vd ms xc (BitVec.ofNat 2 q)) [s.needV [vd], s.needM ms] ms dt c) s.maxGroups [] [vd] 1 (2 * q) (2 * q + 2)
    fun _ k s =>
      let pos := (slicePos k).filter fun p => s.mEnabled h cp p.1 p.2
      if pos.isEmpty then .ok s
      else
        match s.sliceBad ms k with
        | some t => .trap s t
        | none =>
          let d := (s.mget ms).data
          let a := s.arithm
          let rs := pos.map fun p => (p, moveTo s.me.csr.fd int dt a ((tileVal int a.daz (tileElem d p.1 p.2)).scale (ctlExp c)))
          match firstEvent s.me.csr.fx (rs.map fun r => (64 * r.1.1 + r.1.2, r.2.2)) with
          | some t => .trap s t
          | none =>
            let s := s.vputElems vd (s.cbits dt) (rs.map fun r => (r.1.1 - 16 * q, r.1.2, r.2.1))
            let s := if ctlUpd c then s.mput ms fun t => { t with data := sliceSet t.data k ((slicePos k).map fun p =>
              if s.mEnabled h cp p.1 p.2 then 0 else tileElem t.data p.1 p.2) } else s
            .ok (s.setMe { s.me with csr := { s.me.csr with fx := accrue s.me.csr.fx (orFlags (rs.map fun r => r.2.2)) } })

/-- MFILL (R233). -/
def execMfill (h : Hdr) (cp : Reg8) (int : Bool) (st : ElemTy) (md : Reg8) (vs : VReg) (xc : XReg) (q : BitVec 2) (s : State) : Out :=
  let c := s.capX 3 xc
  let q := q.toNat
  s.runSlices (s.drainChecks (.mfill h cp int st md vs xc (BitVec.ofNat 2 q)) [s.needM md, s.needV [vs]] md st c) s.maxGroups [vs] [] 1 (2 * q) (2 * q + 2)
    fun _ k s =>
      let pos := slicePos k
      if !pos.any fun p => s.mEnabled h cp p.1 p.2 then .ok s
      else
        let rows := (List.range 8).filter fun r => (List.range 64).any fun j => s.mEnabled h cp (8 * k + r) j
        match (rows.map (fun r => s.rowBad vs (8 * k + r - 16 * q) (64 * s.cbits st)) ++ [if ctlUpd c then s.sliceBad md k else none]).findSome? id with
        | some t => .trap s t
        | none =>
          let d := (s.mget md).data
          let b := s.vget vs
          let a := s.arithm
          let fd := s.me.csr.fd
          let one (p : Nat × Nat) : Nat × Nat :=
            let x := (valOf fd st a.daz (s.rd st b (p.1 - 16 * q) p.2)).scale (ctlExp c)
            let e := if ctlUpd c then sumExact a.rm [x, tileVal int a.daz (tileElem d p.1 p.2)] else (x, 0)
            let r := moveTo fd ((intOf st).isSome && int) (if int then .i32 else .f32) a e.1
            (r.1, r.2 ||| e.2)
          s.writeSlice md k (pos.map fun p => if s.mEnabled h cp p.1 p.2 then some (one p) else none)

/-! ### Whole tiles (R237) -/

/-- The 49,152-byte record of a tile. -/
def Tile.record (t : Tile) : List Byte := leBytes 16384 t.data.toNat ++ leBytes 32768 t.window.toNat

/-- A tile's contents from a record. -/
def Tile.load (t : Tile) (bs : List Byte) : Tile :=
  { t with data := BitVec.ofNat 131072 (leNat (bs.take 16384)), window := BitVec.ofNat 262144 (leNat (bs.drop 16384)) }

/-- A cleared tile held by its holder. -/
def Tile.cleared : Tile := ⟨0, 0, .held⟩

/-- The operand of a whole-tile move (R237): a loft offset, with no swap image in the loft, or an address of local HBM. -/
def State.tilePlace (s : State) (mem : Bool) (a : Word) : Except Trap Unit :=
  let n := a.toNat
  let ok := n % 0x1000 == 0 && (if mem then decide (n + 0xC000 ≤ hbmTop) else decide (n + 0xC000 ≤ 0x100000) && s.myCore.loftImg.isNone)
  if ok then .ok () else .error (matrixOperand a)

/-- Write a tile record: to the loft, or as plain data at its home, a full point at package scope over global space. -/
def State.tileOut (s : State) (mem : Bool) (a : Nat) (bs : List Byte) : State :=
  if mem then (((s.fullPoint s.cur .package .glob).writeHome (some s.cur) none a bs).fullPoint s.cur .package .glob)
  else s.setMyCore (s.myCore.loftWrite a bs)

/-- Read a tile record, in memory at its home (R94, R96); the error is the address of a failing sector. -/
def State.tileIn (s : State) (mem : Bool) (a : Nat) : Except Trap (State × List Byte) :=
  if mem then
    let s := s.fullPoint s.cur .package .glob
    match s.physRead none a 0xC000 with
    | .ok bs => .ok ((s.homeRead a 0xC000).noteSoft a 0xC000, bs)
    | .error o => .error (uncorrectable (a + o) (a + o))
  else
    match s.myCore.loftBadAt a 0xC000 with
    | some o => .error (s.ownBad (a + o))
    | none => .ok (s, memRead s.myCore.loft a 0xC000)

/-- A whole-tile move that `msi.upd` puts beyond its one update performs nothing and completes (R230). -/
def State.tileMove (s : State) (r : Out) : Out := if s.msiUpd ≠ 0 then .next s.completeVec else r

/-- MSAVE (R237): the tile of a name, whether Held or Bound. -/
def execMsave (la : BitVec 4) (mem : Bool) (ms : Reg8) (xa : XReg) (s : State) : Out :=
  let a := s.capX 2 xa
  if s.capMode.1 = .u then s.trapVec (s.illegalV (Instr.bits (.msave la mem ms xa)))
  else
    match checkAll [s.needM ms, s.tilePlace mem a], s.me.tileOf ms with
    | .error t, _ => s.trapVec t
    | .ok _, none => s.trapVec (notHeldM ms.val)
    | .ok _, some n =>
      s.tileMove <|
      if s.myCore.tileBad n then
        s.trapVec (s.ownBad ((if s.myCore.badTiles.any (fun p => p.1 == n) then 0x100 else 0x200) + ms.val))
      else
        let t := s.myCore.tile n
        let s := s.tileOut mem a.toNat t.record
        .next (match t.st with
          | .bound _ _ => s.setMyCore (s.myCore.setTile n Tile.cleared)
          | _ => s).completeVec

/-- MSAVE_P (R237): a Lazy or Bound physical tile of the core. -/
def execMsaveP (la : BitVec 4) (mem : Bool) (n : Reg8) (xa : XReg) (s : State) : Out :=
  let a := s.capX 2 xa
  if s.capMode.1 = .u then s.trapVec (s.illegalV (Instr.bits (.msaveP la mem n xa)))
  else
    match s.tilePlace mem a with
    | .error t => s.trapVec t
    | .ok _ =>
      let t := s.myCore.tile n.val
      match t.st with
      | .free | .held => s.trapVec (matrixOperand (w64 n.val))
      | st =>
        s.tileMove <|
        if s.myCore.tileBad n.val then s.useFree.trapVec ⟨24, w64 s.freeVal, some (dieOf s.cur)⟩
        else
          let s := s.tileOut mem a.toNat t.record
          .next (s.setMyCore (s.myCore.setTile n.val (match st with | .bound _ _ => Tile.cleared | _ => Tile.reset))).completeVec

/-- MLOAD (R237). -/
def execMload (la : BitVec 4) (mem : Bool) (md : Reg8) (xa : XReg) (s : State) : Out :=
  let a := s.capX 2 xa
  if s.capMode.1 = .u then s.trapVec (s.illegalV (Instr.bits (.mload la mem md xa)))
  else
    match checkAll [s.needM md, s.needTiles [md.val], s.tilePlace mem a], s.me.tileOf md with
    | .error t, _ => s.trapVec t
    | .ok _, none => s.trapVec (notHeldM md.val)
    | .ok _, some n =>
      s.tileMove <|
      match s.tileIn mem a.toNat with
      | .error t => s.trapVec t
      | .ok (s, bs) => .next (s.setMyCore ((s.myCore.setTile n ((s.myCore.tile n).load bs)).tileHeal n)).completeVec

end Sys2Proof.Machine
end

