-- ==== Sys2Proof/Machine/Gbp.lean ====
section
/-! DEFINITION. The Gaussian belief propagation instructions (R258 to R267): information blocks and packed messages. -/
namespace Sys2Proof.Machine

/-- message-operand with a `stval` (R245, R263, R265). -/
def messageOperand (v : Word) : Trap := mkTrap 55 v

/-- The arithmetic of R261: RNE without saturation or flushing. -/
def gbpArith : Arithm := ⟨.rne, false, false, false⟩

/-- Round an exact value with its flags to f32 (R261). -/
def gbpRnd (x : Num × Nat) : Nat × Nat := rnd .f32 gbpArith x

def gbpVal (c : Nat) : Num := Fmt.f32.decode c

/-- Element (i, j) of an information block of dimension D: Λ from its upper triangle, η at position D (R258). -/
def blockElem (b : BitVec 65536) (D i j : Nat) : Nat := if j < D then elem b 32 (min i j) (max i j) else elem b 32 i D

/-- Positions in the order of R262, R265 and R266: row by row, j from i to D - 1 and then D (log 19). -/
def blockPos (D : Nat) : List (Nat × Nat) := ((List.range D).map fun i => (List.range (D + 1 - i)).map fun n => (i, i + n)).flatten

/-- A computed value at its position, with flags. -/
abbrev BlockVal := (Nat × Nat) × Nat × Nat

/-- Both places of a value: Λ is written mirrored (R258). -/
def mirror (D : Nat) (v : BlockVal) : List (Nat × Nat × Nat) :=
  if v.1.2 < D then [(v.1.1, v.1.2, v.2.1), (v.1.2, v.1.1, v.2.1)] else [(v.1.1, v.1.2, v.2.1)]

/-- Index of a block position in `stval` (R261). -/
def blockIx (p : Nat × Nat) : Nat := 32 * p.1 + p.2

/-- An indivisible GBP instruction: its registers held, its work, which traps with nothing written or answers the completed
state (R261). Streams are taken and pushed as R141 gives; their check follows the operand checks and precedes
singular-block (log 75). -/
def State.gbpRun (s : State) (chk : Except Trap Unit) (srcs dsts : List VReg) (body : State → Except Trap State) : Out :=
  match checkAll [chk, s.streamCheck srcs dsts 0] with
  | .error t => s.trapVec t
  | .ok _ =>
    match s.pullAll srcs with
    | .stall => .next s
    | .trap _ t => s.trapVec t
    | .ok s1 =>
      match body s1 with
      | .error t => s.trapVec t
      | .ok s2 => .next (s2.pushAll dsts)

/-- Accrue the flags of a list of computed values, or trap on the first enabled event in their order (R261). -/
def State.gbpFlags (s : State) (vs : List ((Nat × Nat) × Nat)) : Except Trap State :=
  match firstEvent s.me.csr.fx (vs.map fun v => (blockIx v.1, v.2)) with
  | some t => .error t
  | none => .ok (s.setMe { s.me with csr := { s.me.csr with fx := accrue s.me.csr.fx (orFlags (vs.map Prod.snd)) } })

/-- Write computed values mirrored, and complete. -/
def State.gbpFinish (s : State) (vd : VReg) (D : Nat) (vs : List BlockVal) : Except Trap State :=
  match s.gbpFlags (vs.map fun v => (v.1, v.2.2)) with
  | .error t => .error t
  | .ok s => .ok ((s.vputElems vd 32 (vs.map (mirror D)).flatten).completeVec)

/-- GBP_ADD (R262). -/
def execGbpAdd (_la : BitVec 4) (D1 d1 : BitVec 4) (off : BitVec 4) (vd vs : VReg) (s : State) : Out :=
  let D := D1.toNat + 1
  let d := d1.toNat + 1
  let o := off.toNat
  s.gbpRun (s.needV [vd, vs]) [vd, vs] [vd] fun s =>
    let a := s.vget vd
    let b := s.vget vs
    s.gbpFinish vd D ((blockPos d).map fun p =>
      let q := (o + p.1, if p.2 < d then o + p.2 else D)
      (q, gbpRnd (sumExact .rne [gbpVal (blockElem a D q.1 q.2), gbpVal (blockElem b d p.1 p.2)])))

/-! ### gbp.elim (R263, R264) -/

/-- A square of codes with its η column, kept as rows. -/
abbrev BlockMat := List (List Nat)

def BlockMat.at_ (m : BlockMat) (i j : Nat) : Nat := (m.getD i []).getD j 0

/-- What elimination has computed: the block and the events met, oldest first. -/
structure Elim where
  mat : BlockMat
  evs : List ((Nat × Nat) × Nat)
  deriving DecidableEq, Repr

/-- The larger of two magnitudes, a NaN passed over (R263). -/
def maxMag (a x : Num) : Num :=
  let m := if x.isNeg then x.neg else x
  if x == .nan then a else if Num.lt false a m then m else a

/-- One pivot step at p: the quotients, then every new value from the values of the step before. -/
def elimStep (D p : Nat) (e : Elim) : Elim :=
  let w := e.mat
  let piv := gbpVal (w.at_ p p)
  let l := (List.range p).map fun i => gbpRnd (numDiv (gbpVal (w.at_ i p)) piv)
  let upd (i j : Nat) : Nat × Nat :=
    let pr := (gbpVal (l.getD i (0, 0)).1).mul (gbpVal (w.at_ p j))
    let sm := sumExact .rne [gbpVal (w.at_ i j), pr.1.neg]
    gbpRnd (sm.1, sm.2 ||| pr.2)
  let cols (i : Nat) : List Nat := ((List.range (p - i)).map (· + i)) ++ [D]
  let news : List BlockVal := ((List.range p).map fun i => (cols i).map fun j => ((i, j), upd i j)).flatten
  let look (i j : Nat) : Nat :=
    let q := if j < D then (min i j, max i j) else (i, j)
    match news.find? fun v => v.1 == q with
    | some v => v.2.1
    | none => w.at_ i j
  ⟨(List.range D).map fun i => (List.range (D + 1)).map fun j => look i j,
   e.evs ++ (List.range p).map (fun i => ((i, p), (l.getD i (0, 0)).2)) ++ news.map fun v => (v.1, v.2.2)⟩

/-- Pivots D - 1 down to D - k, the first of n remaining at p; a pivot that is not above τ × s is singular (R263, R264). An
enabled event of an earlier pivot is taken first (log 19). -/
def elimGo (D : Nat) (fx : Word) (ts : Num) : Nat → Nat → Elim → Except Trap Elim
  | 0, _, e => .ok e
  | n + 1, p, e =>
    if !Num.lt false ts (gbpVal (e.mat.at_ p p)) then .error (mkTrap 30 (w64 p))
    else
      let e' := elimStep D p e
      match firstEvent fx (e'.evs.map fun v => (blockIx v.1, v.2)) with
      | some t => .error t
      | none => elimGo D fx ts n (p - 1) e'

/-- GBP_ELIM (R263). With tau zero and an infinite diagonal the block is singular and the product's NV event is passed over (log 118). -/
def execGbpElim (_la : BitVec 4) (D1 : BitVec 4) (k : BitVec 4) (vd vs : VReg) (xt : XReg) (s : State) : Out :=
  let D := D1.toNat + 1
  let E := D - k.toNat
  let x := s.capX 3 xt
  let tau := gbpVal (bits x 0 32)
  let bad := match tau with | .nan | .inf _ => true | .zero _ => false | .real n _ _ => decide (n < 0)
  s.gbpRun (checkAll [s.needV [vd, vs], if bad then .error (messageOperand x) else .ok ()]) [vs] [vd] fun s =>
    let b := s.vget vs
    let w : BlockMat := (List.range D).map fun i => (List.range (D + 1)).map fun j => blockElem b D i j
    let sc := (List.range D).foldl (fun a q => maxMag a (gbpVal (w.at_ q q))) (.zero false)
    match elimGo D s.me.csr.fx (tau.mul sc).1 k.toNat (D - 1) ⟨w, []⟩ with
    | .error t => .error t
    | .ok e =>
      match s.gbpFlags e.evs with
      | .error t => .error t
      | .ok s =>
        let out (i j : Nat) : Nat := if i < E && j < E then e.mat.at_ i j else if i < E && j = E then e.mat.at_ i D else 0
        .ok ((s.vputElems vd 32 ((List.range D).map fun i => (List.range (D + 1)).map fun j => (i, j, out i j)).flatten).completeVec)

/-! ### gbp.damp and gbp.resid (R265, R266) -/

/-- 1 as an exact value. -/
def Num.one : Num := .real 1 1 0

/-- Is an exact value zero? -/
def Num.isZero : Num → Bool
  | .zero _ => true
  | _ => false

/-- GBP_DAMP (R265): a term of weight zero is omitted. -/
def execGbpDamp (_la : BitVec 4) (D1 : BitVec 4) (vd vo vn : VReg) (xb : XReg) (s : State) : Out :=
  let D := D1.toNat + 1
  let x := s.capX 4 xb
  let b := gbpVal (bits x 0 32)
  let bad := match b with | .nan | .inf _ => true | .zero _ => false | .real n _ _ => decide (n < 0) || Num.lt false Num.one b
  s.gbpRun (checkAll [s.needV [vd, vo, vn], if bad then .error (messageOperand x) else .ok ()]) [vo, vn] [vd] fun s =>
    let o := s.vget vo
    let n := s.vget vn
    let c := (sumExact .rne [.one, b.neg]).1
    s.gbpFinish vd D ((blockPos D).map fun p =>
      let ts := (if b.isZero then [] else [b.mul (gbpVal (blockElem o D p.1 p.2))]) ++
        (if c.isZero then [] else [c.mul (gbpVal (blockElem n D p.1 p.2))])
      let e := sumExact .rne (ts.map Prod.fst)
      (p, gbpRnd (e.1, e.2 ||| orFlags (ts.map Prod.snd))))

/-- GBP_RESID (R266): an event is reported at the first position whose exact difference is the maximum (R261). -/
def execGbpResid (_la : BitVec 4) (D1 : BitVec 4) (xd : XReg) (va vb : VReg) (s : State) : Out :=
  let D := D1.toNat + 1
  s.gbpRun (s.needV [va, vb]) [va, vb] [] fun s =>
    let a := s.vget va
    let b := s.vget vb
    let ds := (blockPos D).map fun p =>
      let x := blockElem a D p.1 p.2
      let y := blockElem b D p.1 p.2
      let d := if x = y then .zero false else (sumExact .rne [gbpVal x, (gbpVal y).neg]).1
      (p, if d.isNeg then d.neg else d)
    let best := ds.foldl (fun (acc : (Nat × Nat) × Num) d => if Num.lt false acc.2 d.2 then d else acc) ((0, 0), .zero false)
    let r := if ds.any (fun d => d.2 == .nan) then .nan else best.2
    let e := gbpRnd (r, 0)
    match s.gbpFlags [(best.1, e.2)] with
    | .error t => .error t
    | .ok s => .ok (s.completeVecX xd (w64 e.1))

/-! ### gbp.pack and gbp.unpack (R259, R267) -/

/-- Number of values of a packed message of dimension d, and its bytes L (R259). -/
def packCount (d : Nat) : Nat := d + d * (d + 1) / 2
def packBytes (d : Nat) : Nat := 32 * ((4 * packCount d + 31) / 32)

/-- Positions of a packed message in order: η, then Λ by rows from the diagonal (R259). -/
def packPos (d : Nat) : List (Nat × Nat) :=
  ((List.range d).map fun i => (i, d)) ++ ((List.range d).map fun i => (List.range (d - i)).map fun n => (i, i + n)).flatten

/-- Write flat bytes [0, n) of a register (R171). -/
def State.vputFlat (s : State) (v : VReg) (bs : List Byte) : State :=
  (s.vput v (setFlat (s.vget v) 0 bs) ((bs.length + 511) / 512) (min bs.length 512)).vheal v fun i k => 512 * i + 8 * k + 8 ≤ bs.length

/-- GBP_PACK (R267). -/
def execGbpPack (_la : BitVec 4) (D1 : BitVec 4) (vd vs : VReg) (s : State) : Out :=
  let D := D1.toNat + 1
  s.gbpRun (s.needV [vd, vs]) [vs] [vd] fun s =>
    let b := s.vget vs
    let bs := ((packPos D).map fun p => leBytes 4 (blockElem b D p.1 p.2)).flatten
    .ok (s.vputFlat vd (bs ++ List.replicate (packBytes D - bs.length) 0)).completeVec

/-- GBP_UNPACK (R267). -/
def execGbpUnpack (_la : BitVec 4) (D1 : BitVec 4) (vd vs : VReg) (s : State) : Out :=
  let D := D1.toNat + 1
  s.gbpRun (s.needV [vd, vs]) [vs] [vd] fun s =>
    let b := s.vget vs
    let code (t : Nat) : Nat := leNat (flatBytes b (4 * t) 4)
    let vs : List BlockVal := ((packPos D).zip (List.range (packCount D))).map fun p => (p.1, code p.2, 0)
    .ok (s.vputElems vd 32 (vs.map (mirror D)).flatten).completeVec

end Sys2Proof.Machine
end

