-- ==== Sys2Proof/Machine/Message.lean ====
section
/-! DEFINITION. Messages (R242 to R251), `mdone` (R250), `hop` (R253 to R255), and the events of the fabric and the
vestibule. -/
namespace Sys2Proof.Machine

/-! ### Sending (R244 to R246) -/

def Core.sq (c : Core) (n : Net) : List Msg := match n with | .req => c.sqReq | .rep => c.sqRep
def Core.setSq (c : Core) (n : Net) (l : List Msg) : Core := match n with | .req => { c with sqReq := l } | .rep => { c with sqRep := l }

/-- Code of a network: 0 request, 1 reply. -/
def netCode : Net → Nat | .req => 0 | .rep => 1

/-- Checks 1 to 7 of R245: the slot's physical address when they pass. -/
def State.sendCheck (s : State) (o : MsgOps) : Except (State × Trap) (State × Nat) :=
  let xs := s.capX 2 o.xs
  let xh := s.capX 3 o.xh
  let n := 32 * (o.len.toNat + 1)
  match checkAll [s.needV [o.vs], if s.me.kind = .repHandler then .error (messageOperand 1) else .ok (),
      if xh.toNat % 4 ≠ 0 then .error (messageOperand xh) else .ok (),
      if xs.toNat % 32 ≠ 0 || 1024 < xs.toNat % 1024 + n then .error (messageOperand xs) else .ok ()] with
  | .error t => .error (s, t)
  | .ok _ =>
    match translate s s.vctx .write xs.toNat with
    | .error e => .error e
    | .ok (s', x) =>
      match regionOf x.pa with
      | .pad c =>
        if !s'.admits s'.cur .copy x.pa then .error (s', accessFault .write xs.toNat)
        else if !s'.dieLive (dieOfCore c) then .error (s', messageOperand (w64 c))
        else .ok (s', x.pa)
      | _ => .error (s', accessFault .write xs.toNat)

/-- Place the message in the send queue of its network (R246). -/
def State.sendMsg (s : State) (o : MsgOps) (pa : Nat) : State :=
  let s := if o.rel then s.releasePoint s.cur .package else s
  let t := s.me
  let m : Msg := { flight := t.flight.getD 0, dest := (pa - padBase) / 0x100000, sender := s.cur, net := o.net, cls := o.cls.toNat,
                   slotVa := s.capX 2 o.xs, slotPa := pa, handler := s.capX 3 o.xh,
                   payload := flatBytes (s.vget o.vs) 0 (32 * (o.len.toNat + 1)), rel := o.rel, sends := t.sends + 1, hop := none,
                   since := 0, aged := false }
  let s := s.setMyCore (s.myCore.setSq o.net (s.myCore.sq o.net ++ [m]))
  (s.setMe { s.me with sends := s.me.sends + 1 }).countEv s.cur 13 1

/-- Send, after taking the stream bytes of a read-bound payload register (R141), whose check stands after check 8
of R245 (log 75). -/
def State.sendNow (s : State) (o : MsgOps) (pa : Nat) (fin : State → State) : Out :=
  match s.streamCheck [o.vs] [] 0 with
  | .error t => s.trapVec t
  | .ok _ =>
    match s.pullAll [o.vs] with
    | .stall => .next s
    | .trap _ t => s.trapVec t
    | .ok s1 => .next (fin (s1.sendMsg o pa))

/-- MSEND: a full send queue traps (R245 check 8, R252). -/
def execMsend (o : MsgOps) (s : State) : Out :=
  match s.sendCheck o with
  | .error (s1, t) => s1.trapVec t
  | .ok (s1, pa) =>
    if 16 ≤ (s1.myCore.sq o.net).length then s1.trapVec (mkTrap 28 (w64 (netCode o.net)))
    else s1.sendNow o pa fun s => s.completeVec

/-- MSEND_TRY: status 0 when sent, 1 when the send queue is full (R246); an event of type 5 of the replay log, whose logged
status is followed (R383). -/
def execMsendTry (o : MsgOps) (xt : XReg) (s : State) : Out :=
  match s.sendCheck o with
  | .error (s1, t) => s1.trapVec t
  | .ok (s1, pa) =>
    let full := 16 ≤ (s1.myCore.sq o.net).length
    match s1.logPre s1.cur 5 with
    | (_, .wait) => .next s
    | (s2, .replay v) =>
      if v ≠ 0 then .next ((s2.logPost s2.cur 5 (.replay v) v).completeVecX xt v)
      else if full then .next s
      else s2.sendNow o pa fun s => (s.logPost s.cur 5 (.replay v) v).completeVecX xt 0
    | (s2, pre) =>
      if full then .next ((s2.logPost s2.cur 5 pre 1).completeVecX xt 1)
      else s2.sendNow o pa fun s => (s.logPost s.cur 5 pre 0).completeVecX xt 0

/-! ### mdone (R250) -/

/-- The context of strand k ends, releasing everything: the slot becomes Dormant or Free (R271, R281). -/
def State.endContext (s : State) (k : Nat) : State :=
  let s := (s.srPause k).releaseAll k
  s.setStrand k ((s.strand k).vacant (s.endStatus k))

/-- Is the strand a handler (R272)? -/
def Kind.isHandler : Kind → Bool
  | .reqHandler | .repHandler => true
  | _ => false

/-- Clear the error flags of a mask. -/
def Strand.clearErrs (t : Strand) (mask : BitVec 8) : Strand :=
  { t with k := (maskToks mask).foldl (fun (v : Vector Token 8) (i : Reg8) => v.set i ⟨(v[i]).count, false⟩) t.k }

/-- MDONE: waits as `kwait 0xFF` and then as `rel` of everything, staying at the queue head meanwhile (R250, R133, R122). -/
def execMdone (_la : BitVec 4) (s : State) : Out :=
  if !s.me.kind.isHandler then s.trapVec (messageOperand 2)
  else if !s.me.toksZero 0xFF then .next s
  else
    let e := s.me.tokErrs 0xFF
    if e ≠ 0 then (s.setMe (s.me.clearErrs 0xFF)).trapVec (mkTrap 29 (w64 e))
    else
      let s := (s.tokAcquire s.cur (maskToks 0xFF)).completeOps s.cur
      if s.pagesBusy (coreOf s.cur) s.me.pages then .next s
      else .next (s.completeVec.endContext s.cur)

/-! ### hop (R253 to R255) -/

/-- Does a flight have handler strands on a core (R292)? -/
def State.hasHandlers (s : State) (flight core : Nat) : Bool := (strandsOf core).any fun k => (s.strand k).handlerOf == some flight

/-- eligible(c) of R254. -/
def State.hopEligible (s : State) (f : Flight) (c : Nat) : Bool :=
  let d := dieOfCore c
  c < 1152 && s.dieLive d && f.affinity.testBit d && bit (s.part f.part).halls (hallOfCore c) && s.hasHandlers f.id c

/-- hop_target(pa) of R254. -/
def State.hopTarget (s : State) (pa : Nat) : Nat :=
  let own := coreOf s.cur
  let idx := own % 16
  let hall := own % 144 / 16
  match s.myFlight? with
  | none => own
  | some f =>
    let pick (t : Nat) : Nat := if s.hopEligible f t then t else own
    match regionOf pa with
    | .pad c => pick c
    | .gallery h => pick (16 * h + idx)
    | _ =>
      let h := stackOf pa / 3
      (([2 * h, 2 * h + 1, (2 * h + 7) % 8, (2 * h + 6) % 8].map fun d => 144 * d + 16 * hall + idx).find? fun t => s.hopEligible f t).getD own

/-- HOP (R253, R254). -/
def execHop (_la : BitVec 4) (cls : BitVec 2) (xa : XReg) (s : State) : Out :=
  let t := s.me
  let a := s.capX 2 xa
  if t.kind = .repHandler then s.trapVec (messageOperand 1)
  else if t.hold ≠ Hold.zero || !t.toksZero 0xFF || !s.noStreams || t.replay.cap then s.trapVec (messageOperand 3)
  else
    match translate s s.vctx .read a.toNat with
    | .error (s, e) => s.trapVec e
    | .ok (s, x) =>
      let ok := match regionOf x.pa with | .hbm | .pad _ | .gallery _ => true | _ => false
      if !ok then s.trapVec (accessFault .read a.toNat)
      else
        let c := s.hopTarget x.pa
        if c = coreOf s.cur then .next s.completeVec
        else if 16 ≤ s.myCore.sqReq.length then s.trapVec (mkTrap 28 0)
        else
          let s := s.releasePoint s.cur .package
          let m : Msg := { flight := t.flight.getD 0, dest := c, sender := s.cur, net := .req, cls := cls.toNat, slotVa := 0, slotPa := 0,
                           handler := t.vcp + 8, payload := [], rel := true, sends := t.sends + 1,
                           hop := some ⟨(List.finRange 16).map fun i => t.getX (Fin.castLE (by decide) i), t.kind, t.tread, t.groups, t.ckptStep, t.written⟩,
                           since := 0, aged := false }
          let s := s.setMyCore { s.myCore with sqReq := s.myCore.sqReq ++ [m] }
          .next (s.completeVec.endContext s.cur)

/-! ### The fabric and the vestibule (R247 to R249) -/

/-- Is a page of a core set aside for the flight, or held by a strand of it (R247)? -/
def State.slotAdmitted (s : State) (m : Msg) : Bool :=
  let page := (m.slotPa - padBase) % 0x100000 / 0x4000
  s.asidePad (some m.flight) m.dest page ||
    (strandsOf m.dest).any fun k => (s.strand k).flight == some m.flight && (s.strand k).pages.contains page

/-- Discard a message at a core (R247, R256). -/
def Core.drop (c : Core) : Core := { c with drops := min (c.drops + 1) (2 ^ 24 - 1) }

/-- Free entries of a vestibule for a network: 48 and 16 (R242, R256). -/
def Core.vestRoom (c : Core) (n : Net) : Bool :=
  (c.vest.filter fun m => m.net == n).length < (match n with | .req => 48 | .rep => 16)

/-- MESSAGE_DELIVERY: the fabric delivers the message at place idx of a core's send queue; an earlier one for the same
destination goes first (R247, R251). -/
def execMessageDelivery (core : Nat) (net : Net) (idx : Nat) (s : State) : Out :=
  let q := (s.core core).sq net
  match q[idx]? with
  | none => .next s
  | some m =>
    if (q.take idx).any fun e => e.dest == m.dest then .next s
    else
      let gone := s.setCore core ((s.core core).setSq net (listDel q idx))
      if !s.dieLive (dieOfCore m.dest) then .next gone
      else if (match s.flight? m.flight with | some f => s.swapOf f.part | none => false) then .next s
      else if !(s.core m.dest).vestRoom net then .next s
      else
        let ok := (m.hop.isSome || s.slotAdmitted m) && s.hasHandlers m.flight m.dest && (s.flight? m.flight).isSome
        if !ok then .next (gone.setCore m.dest (gone.core m.dest).drop)
        else
          let s1 := if m.hop.isSome then gone else (gone.physWrite none m.slotPa m.payload).breakResv none m.slotPa m.payload.length
          let c := s1.core m.dest
          .next (s1.setCore m.dest { c with vest := c.vest ++ [{ m with since := s1.cycles (16 * m.dest) }] })

/-- Entries of a vestibule in the order of R248. -/
def vestOrder (v : List Msg) : List Msg :=
  let cls (m : Msg) : Nat := if m.aged then 3 else m.cls
  v.filter (fun m => m.net == .rep) ++
    ([3, 2, 1, 0].map fun c => v.filter fun m => m.net == .req && cls m == c).flatten

/-- The value of a start in the replay log (R381). -/
def Msg.startValue (m : Msg) : Word :=
  w64 (coreOf m.sender % 2048 + m.sender % 16 * 2 ^ 11 + netCode m.net * 2 ^ 15 + m.sends % 2 ^ 32 * 2 ^ 16)

/-- In replay, may the message start on strand k now: is it the one that the next entry of the log records (R383)? -/
def State.startDue (s : State) (k : Nat) (m : Msg) : Bool :=
  match s.flight? m.flight with
  | some f =>
    !s.swapOf f.part && (f.rlMode ≠ 2 ||
      (let q := s.part f.part
       let e := s.logEntry f.part q.rlptr.toNat
       ringSize q.rlbase ≤ q.rlptr.toNat || e.2.2.2.1 == 0 ||
         (e.2.2.2.1 == 1 && e.2.1 == coreOf k && e.2.2.1 == k % 16 && e.1 == m.startValue)))
  | none => false

/-- Dormant handler strands of a flight on a core. -/
def State.dormantOf (s : State) (core flight : Nat) : List Nat :=
  (strandsOf core).filter fun k => (s.strand k).status == .dormant && (s.strand k).handlerOf == some flight

/-- The entry that the vestibule starts next, and on which strands it may (R248). -/
def State.nextStart (s : State) (core : Nat) : Option (Msg × List Nat) :=
  (vestOrder (s.core core).vest).findSome? fun m =>
    match (s.dormantOf core m.flight).filter fun k => s.startDue k m with
    | [] => none
    | ks => some (m, ks)

/-- Start strand k on a message of its flight: U mode, after a hop in S mode too (log 119), in the flight's address space, nothing
held (R249, R255). Its entry
leaves the vestibule, and the start is an event of type 1 of the replay log (R381). -/
def State.startOn (s : State) (k : Nat) (m : Msg) (f : Flight) (kd : Kind) (tread : Nat) (x : Vector Word 32)
    (groups : List GroupBit) (step : Nat) (written : List Nat) : State :=
  let t := (s.strand k).vacant .running
  let s := s.setStrand k { t with
    kind := kd, flight := some f.id, tread := tread, mode := .u, pc := m.handler, x := x, groups := groups, ckptStep := step, written := written, srCycle := s.cycles k
    csr := { t.csr with vmroot := f.vmroot } }
  let core := coreOf k
  let c := s.core core
  let s := s.setCore core { c with vest := c.vest.erase m }
  let s := if m.rel then s.acquirePoint k .package .both else s
  let s := s.noteRan
  match s.logPre k 1 with
  | (s, pre) => s.logPost k 1 pre m.startValue

/-- HANDLER_START: the vestibule's next entry starts on a dormant handler strand of its flight (R249). -/
def execHandlerStart (core strand : Nat) (s : State) : Out :=
  let k := 16 * core + strand
  if s.haltedDie k then .next s else
  match s.nextStart core with
  | none => .next s
  | some (m, ks) =>
    match s.flight? m.flight with
    | none => .next s
    | some f =>
      if m.hop.isSome || !ks.contains k || 16 ≤ strand then .next s
      else
        let arrival := coreOf m.sender % 2048 + m.sender % 16 * 2 ^ 11 + netCode m.net * 2 ^ 15 + m.cls * 2 ^ 16 + (m.payload.length / 32 - 1) * 2 ^ 18
        let x : Vector Word 32 := ((Vector.replicate 32 (0 : Word)).set 10 m.slotVa).set 11 (w64 arrival)
        .next (s.startOn k m f (match m.net with | .req => .reqHandler | .rep => .repHandler) 0 x [] 0 [])

/-- HOP_START: the vestibule's next entry is a hop message, which continues on a dormant handler strand (R255). -/
def execHopStart (core strand : Nat) (s : State) : Out :=
  let k := 16 * core + strand
  if s.haltedDie k then .next s else
  match s.nextStart core with
  | none => .next s
  | some (m, ks) =>
    match s.flight? m.flight, m.hop with
    | some f, some h =>
      if !ks.contains k || 16 ≤ strand then .next s
      else .next (s.startOn k m f h.kind h.tread (Vector.ofFn fun i => h.x.getD i.val 0) h.groups h.step h.written)
    | _, _ => .next s

/-- VESTIBULE_AGEING: entry idx of a vestibule has waited 65,536 cycles (R248). -/
def execVestibuleAgeing (core idx : Nat) (s : State) : Out :=
  let c := s.core core
  match c.vest[idx]? with
  | some m =>
    if m.since + 65536 ≤ s.cycles (16 * core) then .next (s.setCore core { c with vest := listSet c.vest idx { m with aged := true } })
    else .next s
  | none => .next s

end Sys2Proof.Machine
end

