-- ==== Sys2Proof/Machine/Copies.lean ====
section
/-! DEFINITION. The engine class: shape records (R125, R126), copies (R127 to R132), stream ports (R140 to R142), the issue
of stack-engine operations (R110 to R116), and the events that land, perform and transfer. -/
namespace Sys2Proof.Machine

/-- engine-operand and engine-misaligned (R112, R132). -/
def engineOperand (v : Nat) : Trap := mkTrap 53 (w64 v)
def engineMisaligned (v : Word) : Trap := mkTrap 54 v

/-! ### tshape (R126) -/

/-- The checks of a parameter block at an address. -/
def recordCheck (b : BitVec 384) (xs : Word) : Except Trap Unit :=
  let bad (o : Nat) : Except Trap Unit := .error (engineOperand (xs + w64 o).toNat)
  let mis (o : Nat) : Except Trap Unit := .error (engineMisaligned (xs + w64 o))
  if 3 < ShapeRec.esz b then bad 0
  else if bits b 8 24 ≠ 0 then bad 1
  else if bits b 320 64 ≠ 0 then bad 40
  else if ShapeRec.e0 b = 0 then bad 4
  else if ShapeRec.e1 b = 0 then bad 8
  else if ShapeRec.e2 b = 0 then bad 12
  else if ShapeRec.dblk b ≠ 0 && (ShapeRec.dcount b = 0 || 16 < ShapeRec.dcount b || ShapeRec.dstep b = 0 || 15 < ShapeRec.dstep b ||
      15 < ShapeRec.dfirst b + (ShapeRec.dcount b - 1) * ShapeRec.dstep b) then bad 36
  else if ShapeRec.rowBytes b % 32 ≠ 0 then mis 4
  else if ShapeRec.st1 b % 32 ≠ 0 then mis 16
  else if ShapeRec.st2 b % 32 ≠ 0 then mis 24
  else if ShapeRec.dblk b % 32 ≠ 0 then mis 32
  else .ok ()

/-- The six 8-byte words of a `tshape`'s block (R126). -/
def tshapeBytes (a : Word) : List Nat := (List.range 6).map fun i => a.toNat + 8 * i

/-- The checks of a `tshape`'s block read at a start, as those of a vector load of 48 bytes; its pins are held from then (R101, R126). -/
def State.tshapeIssue (s : State) (a : Word) : Except (State × Trap) State :=
  if a.toNat % 8 ≠ 0 then .error (s, mkTrap 4 a)
  else if !s.me.pins.isEmpty then .ok s
  else
    match s.pinFootprint .plain .read [(a.toNat, 48)] with
    | .error t => .error t
    | .ok (s1, pins) => .ok (s1.setMe { s1.me with pins := pins })

/-- TSHAPE (R126): the block is read as a vector load of 48 bytes. -/
def execTshape (_la : BitVec 4) (sd : Reg8) (xs : XReg) (s : State) : Out :=
  let a := s.capX 2 xs
  match s.tshapeIssue a with
  | .error (s1, t) => s1.trapVec t
  | .ok s2 =>
    if s.me.pins.isEmpty && !s.pinRoom s2.me.pins then .next s else
    let as := tshapeBytes a
    let rs := s2.groupRanges 8 as
    if s2.chained false rs then .next s2
    else
      match (s2.groupKey .read as).or (s2.groupMatch 8 false as) with
      | some t => s2.trapVec t
      | none =>
        match s2.groupBad 8 as with
        | some t => s2.trapVec t
        | none =>
          let s3 := s2.readSectors (sectorsOfRanges rs)
          let bs := (as.map fun x =>
            let p := s3.pinned x
            match s3.physRead (s3.tagKey (s3.tagOfEnc p.2)) p.1 8 with | .ok l => l | .error _ => []).flatten
          let b := BitVec.ofNat 384 (leNat bs)
          match recordCheck b a with
          | .error t => s3.trapVec t
          | .ok _ => .next (s3.setMe { s3.me with sd := s3.me.sd.set sd ⟨true, b⟩ }).completeVec

/-! ### Acceptance (R123, R127) -/

/-- The lowest free copy slot of the executing strand's core. -/
def State.freeSlot (s : State) : Option Nat := (List.range 32).find? fun i => (s.myCore.slot i).isNone

/-- Would n more bytes carry the strand's token above its 48 bits (R123)? -/
def State.tokOver (s : State) (k : Nat) (i : Reg8) (n : Nat) : Bool := 2 ^ 48 ≤ ((s.strand k).k[i]).count + n

/-- Destinations in local HBM, whose L1 lines a later wait invalidates (R133). -/
def globalRanges (rs : List (Nat × Nat)) : List (Nat × Nat) := rs.filter fun r => regionOf r.1 = .hbm

/-- Accept an operation into a slot: its bytes are counted on the token, the queue entry completes (R123, R127, R177). -/
def State.accept (s : State) (slot : Nat) (o : CopyOp) : State :=
  let c := s.myCore
  let o := { o with age := c.age }
  let s := s.setMyCore { c.setSlot slot (some o) with age := c.age + 1 }
  let s := s.tokAdd s.cur o.k o.bytes
  let t := s.me
  (s.setMe { t with landed := t.landed ++ (globalRanges o.pendWrite).map fun r => (o.k.val, r.1, r.2) }).completeVec

/-- An operation of the executing strand. -/
def State.newOp (s : State) (kind : CopyKind) (k : Reg8) (block : BitVec 384) (dst src : Word) (pins : List Pin) (aux : List Nat)
    (todo : List (Nat × Nat)) (bytes : Nat) : CopyOp :=
  { kind := kind, owner := s.cur, k := k, block := block, dst := dst, src := src, shape := s.me.csr.shape, fd := s.me.csr.fd,
    part := s.partOf s.cur, pins := pins, aux := aux, todo := todo, bytes := bytes, age := 0 }

/-! ### Translating the footprint of an operation (R101, R102) -/

/-- A translated side: its chunks, each with its lowest address. -/
abbrev Side := List (Nat × Xlat)

/-- Translate a side's ranges, counting pages with those already pinned. -/
def State.pinSide (s : State) (acc : Acc) (rs : List (Nat × Nat)) (pins : List Pin) : Except (State × Trap) (State × List Pin × Side) :=
  s.pinChunks s.vctx acc ((chunksOf rs).map Prod.snd) pins []

/-- Translate a reduced destination, chunk by chunk: each page needs R and W, and the read is tried first, so that a page with
neither takes the load fault (R112 order 5; log 77). -/
def State.pinReduced (s : State) (rs : List (Nat × Nat)) (pins : List Pin) : Except (State × Trap) (State × List Pin × Side) :=
  ((chunksOf rs).map Prod.snd).foldl (fun r a =>
    match r with
    | .error e => .error e
    | .ok (s, pins, xs) =>
      match s.pinChunks s.vctx .read [a] pins [] with
      | .error e => .error e
      | .ok (s, pins, _) =>
        match s.pinChunks s.vctx .write [a] pins [] with
        | .error e => .error e
        | .ok (s, pins, x) => .ok (s, pins, xs ++ x)) (.ok (s, pins, []))

/-- The lowest address of a side in a space the operation does not permit, on a page not admitted (R120), or encrypted
without a key (R108). -/
def State.sideFault (s : State) (acc : Acc) (a : Accessor) (ok : Region → Bool) (xs : Side) : Except Trap Unit :=
  match xs.find? fun x => !ok (regionOf x.2.pa) || !s.admits s.cur a x.2.pa || (x.2.enc && (s.part s.vctx.part).key.isNone) with
  | some x => .error (accessFault acc x.1)
  | none => .ok ()

/-- Every space but the device registers, which admit no copy (R128). -/
def notDevice (r : Region) : Bool := match r with | .device | .none => false | _ => true

/-! ### tcp and tdeal (R128 to R131) -/

/-- A scattered record that could address a byte twice (R129). -/
def scatOverlap (b : BitVec 384) : Bool :=
  let rb : Int := (ShapeRec.rowBytes b : Nat)
  let e1 := ShapeRec.e1 b
  let e2 := ShapeRec.e2 b
  (decide (1 < e1) && decide (ShapeRec.st1 b < rb)) ||
  (decide (1 < e2) && decide (ShapeRec.st2 b < (e1 : Int) * ShapeRec.st1 b)) ||
  (decide (e1 = 1) && decide (1 < e2) && decide (ShapeRec.st2 b < rb))

/-- Alignment of the two addresses (R132 order 6). -/
def align32 (xs : List Word) : Except Trap Unit :=
  match xs.find? fun a => a.toNat % 32 ≠ 0 with
  | some a => .error (engineMisaligned a)
  | none => .ok ()

/-- The checks of R132 on a copy, orders 5 to 10; `bad` is what order 5 finds beside overlap. The answer holds the pins. -/
def State.copyCheck (s : State) (op : CopyOp) (scat bad : Bool) : Except (State × Trap) (State × CopyOp) :=
  match checkAll [if bad || (scat && scatOverlap op.block) then .error (engineOperand 0) else .ok (), align32 [op.src, op.dst]] with
  | .error t => .error (s, t)
  | .ok _ =>
    match s.pinSide .read op.readVa [] with
    | .error e => .error e
    | .ok (s1, p1, x1) =>
      match s1.pinSide .write op.writeVa p1 with
      | .error e => .error e
      | .ok (s2, p2, x2) =>
        match checkAll [s2.sideFault .read .copy notDevice x1, s2.sideFault .write .copy notDevice x2,
            if rangesMeet (op.readVa.map fun v => physRanges p2 1030 v.1 v.2).flatten (op.writeVa.map fun v => physRanges p2 1030 v.1 v.2).flatten
            then .error (engineOperand 0) else .ok ()] with
        | .error t => .error (s2, t)
        | .ok _ => .ok (s2, { op with pins := p2 })

/-- A `tcp` or `tcp.scat` (R128, R129, R132). -/
def State.copyIssue (s : State) (o : EngOps) (scat : Bool) : Out :=
  let r := s.me.sd[o.sd]
  let n := ShapeRec.total r.block
  let op := s.newOp (.tcp scat) o.k r.block (s.capX 2 o.xd) (s.capX 3 o.xs) [] [] [(0, n / 32)] n
  match s.copyCheck op scat (!r.valid || s.tokOver s.cur o.k n) with
  | .error (s', t) => s'.trapVec t
  | .ok (s', op) => if s.pinRoom op.pins then (match s'.freeSlot with | some i => .next (s'.accept i op) | none => .next s') else .next s'

/-- Reissue the executing strand's cancelled copies in issue order, as far as free slots go: the checks of R132 are made
again and the token counts are not raised again. A failed check traps at the pointer pair; that copy and the later ones stay
pending (R144, R342). -/
def State.reissueCopies : List SavedCopy → State → State
  | [], s => s
  | c :: cs, s =>
    let op := s.newOp (.tcp c.scat) c.k c.block c.dst c.src [] [] [(0, ShapeRec.total c.block / 32)] c.count
    match s.copyCheck op c.scat false with
    | .error (s', t) => s'.takeTrap t false
    | .ok (s', op) =>
      match if s.pinRoom op.pins then s'.freeSlot else none with
      | none => s
      | some i =>
        let m := s'.myCore
        let s' := s'.setMyCore { m.setSlot i (some { op with age := m.age }) with age := m.age + 1 }
        let t := s'.me
        State.reissueCopies cs (s'.setMe { t with
          copies := cs, landed := t.landed ++ (globalRanges op.pendWrite).map fun r => (op.k.val, r.1, r.2) })

/-- What a resumed or returning strand does before its next instruction: its copies are reissued; once its bindings are
made as well, its kept entries enter the queue (R342 steps 4 to 6). -/
def State.settleMe (s : State) : State :=
  let s := State.reissueCopies s.me.copies s
  if s.me.settle && s.me.copies.isEmpty && s.me.ports.isEmpty then s.setMe { s.me.refill with settle := false } else s

/-- TCP (R128). -/
def execTcp (o : EngOps) (s : State) : Out := s.copyIssue o false
/-- TCP_SCAT (R128). -/
def execTcpScat (o : EngOps) (s : State) : Out := s.copyIssue o true

/-- Receiving cores in the hall of a deal pattern over nb blocks, in dealing order: those that a block is dealt to. A core of the
pattern that gets none is no receiving core, and need have no runner of the group (R130 order 11; log 78). -/
def dealCores (b : BitVec 384) (nb : Nat) : List Nat := (List.range (min nb (ShapeRec.dcount b))).map fun i => ShapeRec.dfirst b + i * ShapeRec.dstep b

/-- Blocks dealt to the i-th receiving core. -/
def dealShare (b : BitVec 384) (nb i : Nat) : Nat := (nb + ShapeRec.dcount b - 1 - i) / ShapeRec.dcount b

/-- Strands of a core that run a member of a group of a flight (R130). A tread that waits at its end has departed its groups (R313,
R319), so that no later `tdeal` counts on its tokens (R123). -/
def State.groupRunners (s : State) (f : Flight) (g core : Nat) : List Nat :=
  (strandsOf core).filter fun k =>
    let t := s.strand k
    t.flight == some f.id && t.kind == .tread && t.counted && t.wait != .ending &&
      match f.group? g with | some gr => gr.members.contains t.tread | none => false

/-- The receiving strand of a core, when it has exactly one (R130). -/
def State.dealRunner (s : State) (b : BitVec 384) (core : Nat) : Option Nat :=
  match s.myFlight?.map fun f => s.groupRunners f (ShapeRec.dgroup b) core with
  | some [k] => some k
  | _ => none

/-- The receivers of a `tdeal`: the receiving strand of each core, or the first core that has not exactly one (R130). -/
def State.dealReceivers (s : State) (b : BitVec 384) (hall nb : Nat) : Except Nat (List Nat) :=
  (dealCores b nb).foldl (fun r c =>
    match r, s.dealRunner b (16 * hall + c) with
    | .error e, _ => .error e
    | .ok l, some k => .ok (l ++ [k])
    | .ok _, none => .error c) (.ok [])

/-- Would the share of a receiver that is present raise its token too far (R123, R132 order 5)? -/
def State.dealOver (s : State) (b : BitVec 384) (hall nb : Nat) (i : Reg8) : Bool :=
  ((dealCores b nb).zipIdx).any fun c =>
    match s.dealRunner b (16 * hall + c.1) with
    | some k => k ≠ s.cur && s.tokOver k i (dealShare b nb c.2 * ShapeRec.dblk b)
    | none => false

/-- The lowest offset of a scratchpad page that the issuer may not write among the shares of a `tdeal` (R120, R130). -/
def State.dealRefused (s : State) (b : BitVec 384) (hall o nb : Nat) : Option Nat :=
  let cores := dealCores b nb
  (((List.range cores.length).map fun i =>
    let pa := padBase + (16 * hall + cores.getD i 0) * 0x100000 + o
    let n := dealShare b nb i * ShapeRec.dblk b
    ((List.range (n / 0x4000 + 2)).map fun q => max o ((o / 0x4000 + q) * 0x4000)).filter fun f =>
      f < o + n && f < 0x100000 && !s.admits s.cur .copy (pa - o + f)).flatten).min?

/-- The checks of a `tdeal` (R130, R132): the operation with its pins and receivers, and each receiver's bytes. -/
def State.dealCheck (s : State) (e : EngOps) : Except (State × Trap) (State × CopyOp × List (Nat × Nat)) :=
  let r := s.me.sd[e.sd]
  let b := r.block
  let dst := s.capX 2 e.xd
  let src := s.capX 3 e.xs
  let n := ShapeRec.total b
  let blk := ShapeRec.dblk b
  let nb := n / blk
  let hall := hallOfCore (coreOf s.cur)
  match checkAll [if !r.valid || blk = 0 || n % blk ≠ 0 || s.tokOver s.cur e.k n || s.dealOver b hall nb e.k then .error (engineOperand 0) else .ok (),
      align32 [src, dst]] with
  | .error t => .error (s, t)
  | .ok _ =>
    let op := s.newOp .tdeal e.k b dst src [] [] [(0, n / 32)] n
    match s.pinSide .read op.readVa [] with
    | .error e => .error e
    | .ok (s1, p1, x1) =>
      match s1.pinSide .write [(dst.toNat, 1)] p1 with
      | .error e => .error e
      | .ok (s2, p2, x2) =>
        let srcOk (g : Region) : Bool := match g with | .hbm => true | .gallery h => h == hall | _ => false
        let dstOk (g : Region) : Bool := match g with | .pad c => hallOfCore c == hall | _ => false
        let op := { op with pins := p2 }
        let o := op.dealOff
        match checkAll [s2.sideFault .read .copy srcOk x1,
            match x2.find? fun x => !dstOk (regionOf x.2.pa) with | some x => .error (accessFault .write x.1) | none => .ok (),
            match s2.dealRefused b hall o nb with | some f => .error (accessFault .write (dst - w64 o + w64 f).toNat) | none => .ok (),
            if 0x100000 < o + (nb + ShapeRec.dcount b - 1) / ShapeRec.dcount b * blk then .error (engineOperand 0) else .ok ()] with
        | .error t => .error (s2, t)
        | .ok _ =>
          match s2.dealReceivers b hall nb with
          | .error c => .error (s2, engineOperand c)
          | .ok ks => .ok (s2, { op with aux := ks }, (List.range ks.length).map fun i => (ks.getD i 0, dealShare b nb i * blk))

/-- TDEAL (R130, R131). -/
def execTdeal (e : EngOps) (s : State) : Out :=
  match s.dealCheck e with
  | .error (s', t) => s'.trapVec t
  | .ok (s', op, shares) =>
    match if s.pinRoom op.pins then s'.freeSlot else none with
    | none => .next s'
    | some i => .next ((shares.foldl (fun s p => if p.1 = s.cur then s else s.tokAdd p.1 e.k p.2) s').accept i op)

/-! ### Streams (R140 to R142) -/

/-- Translate and admit the footprint of a stream: at its bind, when it is re-established, and when it is translated again
(R132 orders 7 to 9, R143, R161). -/
def State.pinStream (s : State) (wr : Bool) (block : BitVec 384) (base : Word) : Except (State × Trap) (State × List Pin) :=
  let acc : Acc := if wr then .write else .read
  match s.pinSide acc (recordRows block base (ShapeRec.rowBytes block)) [] with
  | .error e => .error e
  | .ok (s1, pins, x) =>
    match s1.sideFault acc .stream notDevice x with
    | .error t => .error (s1, t)
    | .ok _ => .ok (s1, pins)

/-- The checks of a bind (R132 orders 5 to 9, R166); answers the state that holds the pins. -/
def State.bindIssue (s : State) (wr : Bool) (v : VReg) (xs : Word) (sd : Reg8) : Except (State × Trap) State :=
  let r := s.me.sd[sd]
  if s.me.bindDone then .ok s
  else
    match checkAll [s.needV [v], if r.valid then .ok () else .error (engineOperand 0), align32 [xs]] with
    | .error t => .error (s, t)
    | .ok _ =>
      match s.pinStream wr r.block xs with
      | .error e => .error e
      | .ok (s1, pins) => .ok (if s.pinRoom pins then s1.setMe { s1.me with pins := pins, bindDone := true } else s1)

/-- Establish a binding on a free port of a strand's core; it is younger than every operation accepted so far (R137), after a
resumption too (log 103). -/
def State.bindPort (s : State) (k port : Nat) (wr : Bool) (v : VReg) (block : BitVec 384) (base : Word) (pins : List Pin) (pos : Nat) : State :=
  let c := s.core (coreOf k)
  let p : Port := ⟨k, wr, v, block, base, s.partOf k, pins, pos, [], c.age, false⟩
  s.setCore (coreOf k) { c.setPort port (some p) with age := c.age + 1 }

/-- `sbind`: it waits at the queue head, its footprint checked and pinned, until the port is free (R140). -/
def State.bindExec (s : State) (wr : Bool) (port : Nat) (v : VReg) (xs : XReg) (sd : Reg8) : Out :=
  let base := s.capX 2 xs
  match s.bindIssue wr v base sd with
  | .error (s1, t) => s1.trapVec t
  | .ok s1 =>
    if !s1.me.bindDone then .next s1 else
    match s1.myCore.port port with
    | some _ => .next s1
    | none => .next (s1.bindPort s1.cur port wr v (s1.me.sd[sd]).block base s1.me.pins 0).completeVec

/-- SBIND_RD (R140). -/
def execSbindRd (_la : BitVec 4) (port : BitVec 2) (v : VReg) (xs : XReg) (sd : Reg8) (s : State) : Out := s.bindExec false port.toNat v xs sd
/-- SBIND_WR (R140). -/
def execSbindWr (_la : BitVec 4) (port : BitVec 2) (v : VReg) (xs : XReg) (sd : Reg8) (s : State) : Out := s.bindExec true port.toNat v xs sd

/-- SUNBIND: pushed bytes are performed first; a write that must wait for an earlier operation keeps it at the queue head
(R142, R137). -/
def execSunbind (_la : BitVec 4) (port : BitVec 2) (s : State) : Out :=
  match s.myCore.port port.toNat with
  | none => s.trapVec (engineOperand port.toNat)
  | some q =>
    if q.owner ≠ s.cur then s.trapVec (engineOperand port.toNat)
    else
      let s1 := s.portDrain (coreOf s.cur) port.toNat
      match s1.myCore.port port.toNat with
      | some q1 =>
        if q1.wr && !q1.buf.isEmpty then .next s1
        else .next (s1.setMyCore (s1.myCore.setPort port.toNat none)).completeVec
      | none => .next s1

/-- STREAM_BIND_ESTABLISH: the port that strand k's bind waits for is free: that of the `sbind` at its queue head, checked and
pinned, or of a binding that a resumption has still to re-establish (R140, R143). -/
def execStreamBindEstablish (k : Nat) (s : State) : Out :=
  let t := s.strand k
  if s.haltedDie k then .next s else
  match t.ports with
  | p :: ps =>
    if t.status ≠ .running || !t.settle || !t.copies.isEmpty || ((s.core (coreOf k)).port p.port).isSome then .next s
    else
      .next (s.onStrand k fun s =>
        match s.pinStream p.wr p.block p.base with
        | .error (s1, t) => s1.takeTrap t false
        | .ok (s1, pins) =>
          if !s.pinRoom pins then s1 else
          ((s1.setMe { s1.me with ports := ps }).bindPort k p.port p.wr p.v p.block p.base pins p.pos).settleMe)
  | [] =>
    match t.queue with
    | e :: _ =>
      if !t.bindDone || t.status ≠ .running then .next s
      else
        match decode64 e.enc.toNat with
        | .ok (.sbindRd _ port v xs sd) => match s.onStrand k (fun s => match s.bindExec false port.toNat v xs sd with | .next s' => s' | _ => s) with | s' => .next s'
        | .ok (.sbindWr _ port v xs sd) => match s.onStrand k (fun s => match s.bindExec true port.toNat v xs sd with | .next s' => s' | _ => s) with | s' => .next s'
        | _ => .next s
    | [] => .next s

/-- STREAM_TRANSFER: the sectors of n bytes move between memory and a bound port, each whole; a read stream runs ahead by at
most 4 KiB (R141, R147), and a suspended stream moves nothing until it has been translated again (R161). -/
def execStreamTransfer (core port n : Nat) (s : State) : Out :=
  match (s.core core).port port with
  | some q =>
    let m := (n + 31) / 32
    .next (State.portMoves core port false (if q.wr then m else min m ((4096 - q.buf.length) / 32)) s)
  | none => .next s

/-! ### Stack-engine operations (R110 to R116) -/

/-- Does an element type's record meet the operand rules: e0 even for 4-bit containers, a multiple of 32 and, on the source
side, dense for a block-scaled type (R111, R112)? -/
def engElemOk (fd : Vector Word 4) (b : BitVec 384) (source : Bool) (ty : ElemTy) : Bool :=
  let e0 := ShapeRec.e0 b
  let rb : Int := (eltBytes (containerBits fd ty) e0 : Nat)
  (containerBits fd ty ≠ 4 || e0 % 2 = 0) &&
  (!isBlocked fd ty || (e0 % 32 = 0 && (!source ||
    ((ShapeRec.e1 b ≤ 1 || ShapeRec.st1 b == rb) && (ShapeRec.e2 b ≤ 1 || ShapeRec.st2 b == (ShapeRec.e1 b : Int) * rb)))))

/-- The byte span of a list of ranges. -/
def spanOf (rs : List (Int × Nat)) : Nat :=
  match rs with
  | [] => 0
  | r :: t => ((t.foldl (fun a x => max a (x.1 + (x.2 : Int))) (r.1 + (r.2 : Int))) - (t.foldl (fun a x => min a x.1) r.1)).toNat

/-- The mask rules of R116 for a region of a span. -/
def maskOk (m : Word) (span : Nat) : Bool := bits m 0 8 ≠ 0 && bits m 8 8 = 0 && maskStride m % 32 = 0 && span ≤ maskStride m

/-- Spaces of R113. -/
def ownOrHbm (core : Nat) (r : Region) : Bool :=
  match r with | .hbm => true | .pad c => c == core | .gallery h => h == hallOfCore core | _ => false
def hbmOnly (r : Region) : Bool := r == .hbm
def hbmOrGallery (r : Region) : Bool := match r with | .hbm | .gallery _ => true | _ => false
def hbmPadGallery (core : Nat) (r : Region) : Bool := match r with | .hbm | .gallery _ => true | .pad c => c == core | _ => false

/-- What issuing a stack-engine operation needs beyond its operands: types named, whether it rounds, its own operand rules,
further addresses and values to be 32-byte aligned, permitted spaces, and the bytes counted on the token. -/
structure EngPlan where
  kind   : CopyKind
  tys    : List ElemTy
  rounds : Bool
  okOps  : Bool
  align  : List Word
  index  : Option Word
  srcOk  : Region → Bool
  dstOk  : Region → Bool
  bytes  : Nat

/-- The indices of an `sg.gather`: n32 values in order; one that lies in a failing sector is marked (R114, R105). -/
def State.readIndices (s : State) (pins : List Pin) (xi : Word) (n : Nat) : List Nat :=
  (List.range n).map fun i =>
    match pinPa pins (xi + w64 (4 * i)).toNat with
    | none => 2 ^ 32
    | some (pa, enc) =>
      match s.keyFor (s.tagOfEnc enc) with
      | none => 2 ^ 32
      | some key =>
        match s.physRead key pa 4 with
        | .ok bs => leNat bs
        | .error _ => 2 ^ 32

/-- The checks of a stack-engine operation, in order (R112): the operation with its pins, or none while an earlier operation has
still to write the index array of an `sg.gather`. An invalid record and a token that would overflow, which R112 does not
list, take engine-operand 0 with order 2 (log 79). -/
def State.engCheck (s : State) (i : Instr) (o : EngOps) (p : EngPlan) : Except (State × Trap) (State × Option CopyOp) :=
  let r := s.me.sd[o.sd]
  let b := r.block
  let dst := s.capX 2 o.xd
  let src := s.capX 3 o.xs
  let cnt := ShapeRec.e1 b * ShapeRec.e2 b
  match checkAll [s.needGf fdValid p.tys, s.needRm p.rounds i.bits,
      if !r.valid || !p.okOps || s.tokOver s.cur o.k p.bytes then .error (engineOperand 0) else .ok (),
      align32 ([src, dst] ++ p.index.toList ++ [BitVec.ofInt 64 (ShapeRec.st1 b), BitVec.ofInt 64 (ShapeRec.st2 b)] ++ p.align)] with
  | .error t => .error (s, t)
  | .ok _ =>
    let ixRange := match p.index with | some xi => [(xi.toNat, 4 * cnt)] | none => []
    match s.pinSide .read ixRange [] with
    | .error e => .error e
    | .ok (s0, p0, x0) =>
      let ixPhys := (ixRange.map fun v => physRanges p0 1030 v.1 v.2).flatten
      if rangesMeet (s0.earlier s0.cur s0.myCore.age).2 ixPhys then .ok (s0, none)
      else
        let s0 := (ixPhys.foldl (fun s r => s.deliverOver (coreOf s.cur) r.1 r.2) s0)
        let ixs := match p.index with | some xi => s0.readIndices p0 xi cnt | none => []
        let s0 := s0.opReads (coreOf s0.cur) ixPhys
        let op := s0.newOp p.kind o.k b dst src [] ixs [] p.bytes
        match s0.pinSide .read op.srcVa p0 with
        | .error e => .error e
        | .ok (s1, p1, x1) =>
          match if op.reduces then s1.pinReduced op.writeVa p1 else s1.pinSide .write op.writeVa p1 with
          | .error e => .error e
          | .ok (s2, p2, x2) =>
            match checkAll [s2.sideFault .read .copy (ownOrHbm (coreOf s.cur)) x0, s2.sideFault .read .copy p.srcOk x1,
                s2.sideFault .write .copy p.dstOk x2] with
            | .error t => .error (s2, t)
            | .ok _ => .ok (s2, some { op with pins := p2 })

/-- Issue a stack-engine operation (R112): its checks, then acceptance into the lowest free slot; it waits while there is none. -/
def State.engIssue (s : State) (i : Instr) (o : EngOps) (p : EngPlan) : Out :=
  match s.engCheck i o p with
  | .error (s', t) => s'.trapVec t
  | .ok (s', none) => .next s'
  | .ok (s', some op) => if s.pinRoom op.pins then (match s'.freeSlot with | some n => .next (s'.accept n op) | none => .next s') else .next s'

/-- What `sg.gather` needs (R114). Row bytes that are no multiple of 32 are reported as the misaligned stride (R112; log 101). -/
def State.gatherPlan (s : State) (o : EngOps) (xi : XReg) : EngPlan :=
  let b := (s.me.sd[o.sd]).block
  let rb := ShapeRec.e0 b
  { kind := .gather, tys := [], rounds := false, okOps := true, align := [w64 rb], index := some (s.capX 4 xi),
    srcOk := hbmOnly, dstOk := hbmPadGallery (coreOf s.cur), bytes := ShapeRec.e1 b * ShapeRec.e2 b * rb }

/-- What `sg.reduce` needs (R115). -/
def State.reducePlan (s : State) (o : EngOps) (op : RedOp) (ty : ElemTy) : EngPlan :=
  let b := (s.me.sd[o.sd]).block
  { kind := .reduce op ty, tys := [ty], rounds := isFloat s.me.csr.fd ty, okOps := engElemOk s.me.csr.fd b true ty, align := [], index := none,
    srcOk := ownOrHbm (coreOf s.cur), dstOk := hbmOnly, bytes := eltBytes (s.cbits ty) (recCount b) }

/-- What `sg.conv` needs (R111). -/
def State.convPlan (s : State) (o : EngOps) (dt st : ElemTy) : EngPlan :=
  let b := (s.me.sd[o.sd]).block
  let fd := s.me.csr.fd
  { kind := .conv dt st, tys := [st, dt], rounds := isFloat fd dt || isFloat fd st, okOps := engElemOk fd b true st && engElemOk fd b false dt,
    align := [], index := none, srcOk := ownOrHbm (coreOf s.cur), dstOk := hbmOnly,
    bytes := eltBytes (s.cbits dt) (recCount b) + if isBlocked fd dt then recCount b / 32 else 0 }

/-- Offsets of a record's rows from its base, with row bytes. -/
def rowSpan (b : BitVec 384) (rb : Nat) : Nat := spanOf ((List.range (ShapeRec.e1 b * ShapeRec.e2 b)).map fun n => (ShapeRec.rowOff b n, rb))

/-- What `coll.reduce` needs (R116). -/
def State.collReducePlan (s : State) (o : EngOps) (op : RedOp) (acc : Bool) (ty : ElemTy) (xm : XReg) : EngPlan :=
  let b := (s.me.sd[o.sd]).block
  let m := s.capX 4 xm
  let fd := s.me.csr.fd
  { kind := .collReduce op acc ty m, tys := [ty], rounds := isFloat fd ty,
    okOps := engElemOk fd b true ty && maskOk m (rowSpan b (eltBytes (s.cbits ty) (ShapeRec.e0 b))), align := [], index := none,
    srcOk := hbmOrGallery, dstOk := hbmOnly, bytes := eltBytes (s.cbits ty) (recCount b) }

/-- What `coll.bcast` needs (R116). -/
def State.collBcastPlan (s : State) (o : EngOps) (xm : XReg) : EngPlan :=
  let b := (s.me.sd[o.sd]).block
  let m := s.capX 4 xm
  { kind := .collBcast m, tys := [], rounds := false, okOps := maskOk m (recCount b), align := [], index := none,
    srcOk := ownOrHbm (coreOf s.cur), dstOk := hbmOrGallery, bytes := (maskDies m).length * recCount b }

/-- SG_GATHER (R114). -/
def execSgGather (o : EngOps) (xi : XReg) (s : State) : Out := s.engIssue (.sgGather o xi) o (s.gatherPlan o xi)
/-- SG_REDUCE (R115). -/
def execSgReduce (o : EngOps) (op : RedOp) (ty : ElemTy) (s : State) : Out := s.engIssue (.sgReduce o op ty) o (s.reducePlan o op ty)
/-- SG_CONV (R111). -/
def execSgConv (o : EngOps) (dt st : ElemTy) (s : State) : Out := s.engIssue (.sgConv o dt st) o (s.convPlan o dt st)
/-- COLL_REDUCE (R116). -/
def execCollReduce (o : EngOps) (op : RedOp) (acc : Bool) (ty : ElemTy) (xm : XReg) (s : State) : Out :=
  s.engIssue (.collReduce o op acc ty xm) o (s.collReducePlan o op acc ty xm)
/-- COLL_BCAST (R116). -/
def execCollBcast (o : EngOps) (xm : XReg) (s : State) : Out := s.engIssue (.collBcast o xm) o (s.collBcastPlan o xm)

/-! ### Landing and delivery events -/

/-- COPY_LANDING: units of a copy land, as far as the footprint rules allow (R124, R137). -/
def execCopyLanding (core slot lo n : Nat) (s : State) : Out := .next (s.landUnits core slot lo n)

/-- ENGINE_OPERATION: the operation in a slot is performed (R113 to R117). -/
def execEngineOperation (core slot : Nat) (s : State) : Out := .next (s.engineRun core slot)

/-- WRITE_THROUGH_DELIVERY: a core's queue delivers the store at a place, once no earlier one meets its bytes (R159). -/
def execWriteThroughDelivery (core idx : Nat) (s : State) : Out :=
  let q := (s.core core).wtq
  match q[idx]? with
  | none => .next s
  | some e =>
    if (q.take idx).any fun x => x.meets e.pa e.bytes.length then .next s
    else .next ((s.deliverOne core e).setCore core { s.core core with wtq := listDel q idx })

/-- BACKGROUND_SCRUB: a stack base rewrites a corrected sector, which is counted (R104). -/
def execBackgroundScrub (stack sector : Nat) (s : State) : Out :=
  if regionOf (32 * sector) = .hbm && stackOf (32 * sector) = stack && s.soft.contains sector then
    .next ({ s with soft := delNat sector s.soft }.eccAdd (eccUnit (32 * sector)) 0 1)
  else .next s

end Sys2Proof.Machine
end

