-- ==== Sys2Proof/Machine/Deps.lean ====
section
/-! DEFINITION. What an instruction names: the x fields of a long form (R65, R175), and the places it reads and writes as
the rules of lookahead and of the scalar front compare them (R69, R77, R176; log 13). -/
namespace Sys2Proof.Machine

/-- The field positions of kind x of a long form, with true for a destination (R65). -/
def xFields : Instr → List (Nat × XReg × Bool)
  | .pset _ _ xs | .psetPat _ _ xs | .vbcast _ _ _ xs => [(2, xs, false)]
  | .vmvx _ _ xd _ xi => [(1, xd, true), (3, xi, false)]
  | .vreshape o | .vslideup o | .vslidedn o => [(3, o.xr, false)]
  | .vld o xp | .vst o xp => [(2, o.xb, false), (3, xp, false)]
  | .vlds o xp xe | .vsts o xp xe => [(2, o.xb, false), (3, xp, false), (4, xe, false)]
  | .vldx o _ | .vstx o _ => [(2, o.xb, false)]
  | .mopw _ _ _ _ _ _ _ _ _ xo => [(3, xo, false)]
  | .wload _ xo xs xn => [(2, xo, false), (3, xs, false), (4, xn, false)]
  | .mdrain _ _ _ _ _ _ xc _ | .mfill _ _ _ _ _ _ xc _ => [(3, xc, false)]
  | .msave _ _ _ xa | .msaveP _ _ _ xa | .mload _ _ _ xa => [(2, xa, false)]
  | .msend o => [(2, o.xs, false), (3, o.xh, false)]
  | .msendTry o xt => [(2, o.xs, false), (3, o.xh, false), (4, xt, true)]
  | .hop _ _ xa => [(2, xa, false)]
  | .gbpElim _ _ _ _ _ xt => [(3, xt, false)]
  | .gbpDamp _ _ _ _ _ xb => [(4, xb, false)]
  | .gbpResid _ _ xd _ _ => [(1, xd, true)]
  | .tshape _ _ xs | .sbindRd _ _ _ xs _ | .sbindWr _ _ _ xs _ => [(2, xs, false)]
  | .tcp o | .tcpScat o | .tdeal o | .sgReduce o _ _ | .sgConv o _ _ => [(2, o.xd, false), (3, o.xs, false)]
  | .sgGather o xi => [(2, o.xd, false), (3, o.xs, false), (4, xi, false)]
  | .collReduce o _ _ _ xm | .collBcast o xm => [(2, o.xd, false), (3, o.xs, false), (4, xm, false)]
  | .hpref _ _ _ xs => [(1, xs, false)]
  | _ => []

/-- x registers that a long form writes. -/
def longXWrites (i : Instr) : List XReg := ((xFields i).filter fun f => f.2.2).map fun f => f.2.1

/-- x registers that a scalar instruction reads. -/
def scalarXReads : Instr → List XReg
  | .claim rs | .acq rs | .acqTry _ rs | .rel rs | .gwait rs _ | .ckpt rs | .traceCtl rs => [rs]
  | .lda _ _ _ _ rs | .flLaunch _ rs | .load _ _ rs _ | .lr _ _ rs => [rs]
  | .stl _ _ _ rt rs | .store _ rt rs _ | .sc _ _ rs rt | .amo _ _ _ rs rt | .sfenceVma rs rt => [rt, rs]
  | .vshape _ _ rr rc => [rr, rc]
  | .ctxSave a b | .ctxLoad a b | .tlbInv a b => [a, b]
  | .rv64iArith (.imm _ _ r _) | .rv64iArith (.shift _ _ r _) => [r]
  | .rv64iArith (.reg _ _ a b) | .branchJump (.br _ a b _) => [a, b]
  | .branchJump (.jalr _ r _) => [r]
  | .csrAccess _ (.reg r) _ _ | .shapeWrite _ (.reg r) _ | .srptrWrite _ (.reg r) _ | .srbaseWrite _ (.reg r) _
  | .spmcWrite _ _ (.reg r) _ => [r]
  | _ => []

/-- x registers that a scalar instruction writes. -/
def scalarXWrites : Instr → List XReg
  | .acqTry rd _ | .lda _ _ _ rd _ | .kpoll rd _ | .garrive rd _ | .vshape _ rd _ _ | .flLaunch rd _ => [rd]
  | .rv64iArith (.imm _ rd _ _) | .rv64iArith (.shift _ rd _ _) | .rv64iArith (.reg _ rd _ _)
  | .rv64iArith (.lui rd _) | .rv64iArith (.auipc rd _) => [rd]
  | .branchJump (.jal rd _) | .branchJump (.jalr rd _ _) => [rd]
  | .load _ rd _ _ | .lr _ rd _ | .sc _ rd _ _ | .amo _ _ rd _ _ => [rd]
  | .csrAccess _ _ rd _ | .shapeWrite _ _ rd | .srptrWrite _ _ rd | .srbaseWrite _ _ rd | .spmcWrite _ _ _ rd => [rd]
  | _ => []

/-- A Zicsr form: operation, source, destination, CSR. -/
def csrParts : Instr → Option (CsrOp × CsrSrc × XReg × Nat)
  | .csrAccess op src rd n => some (op, src, rd, n.toNat)
  | .shapeWrite op src rd => some (op, src, rd, 0x800)
  | .srptrWrite op src rd => some (op, src, rd, 0x808)
  | .srbaseWrite op src rd => some (op, src, rd, 0x5C1)
  | .spmcWrite n op src rd => some (op, src, rd, 0x5D8 + n.val)
  | _ => none

/-- The CSR a Zicsr form names. -/
def csrNumber (i : Instr) : Option Nat := (csrParts i).map fun p => p.2.2.2

/-- Does a Zicsr form read its CSR (ratified Zicsr)? -/
def csrReads (op : CsrOp) (rd : XReg) : Bool := !(op == .rw && rd == 0)

/-- x registers that an instruction reads, and those it writes; x0 is no place. -/
def xReads (i : Instr) : List XReg :=
  (scalarXReads i ++ ((xFields i).filter fun f => !f.2.2).map fun f => f.2.1).filter (· ≠ 0)
def xWrites (i : Instr) : List XReg := (scalarXWrites i ++ longXWrites i).filter (· ≠ 0)

/-! ### Vector registers, predicates, tiles, records and CSR fields -/

/-- The predicate a header applies. -/
def hdrLoc (h : Hdr) : List Loc := if h.pe then [.p h.pred.val] else []

/-- The column predicate of a matrix form (R68). -/
def colLoc (h : Hdr) (cp : Reg8) : List Loc := if h.pe then [.p h.pred.val, .p cp.val] else []

/-- The descriptor of a gf type. -/
def tyLoc : ElemTy → List Loc
  | .gf k => [.fd k.val]
  | _ => []

/-- The weight windows of a strand as one place: tile number 8 (log 13). -/
def weightLoc : Loc := .m 8

/-- What a long form reads beside x registers, `shape` and `fx`, vector registers whole. -/
def longReads : Instr → List Loc
  | .vadd o | .vsub o | .vmul o | .vmulh o | .vdiv o | .vmin o | .vmax o | .vand o | .vor o | .vxor o | .vsll o | .vsrl o
  | .vsra o | .vperm o => hdrLoc o.h ++ tyLoc o.ty ++ [.v o.vs1.val, .v o.vs2.val]
  | .vabs o | .vneg o | .vsqrt o | .vrece o | .vrsqe o | .vredsum o | .vredmax o | .vredmin o | .vredamax o | .vmv o =>
    hdrLoc o.h ++ tyLoc o.ty ++ [.v o.vs.val]
  | .vfma o | .vfms o | .vfnma o | .vfnms o => hdrLoc o.h ++ tyLoc o.ty ++ [.v o.vs1.val, .v o.vs2.val, .v o.vs3.val]
  | .vcmp h ty _ _ _ a b => hdrLoc h ++ tyLoc ty ++ [.v a.val, .v b.val]
  | .pand o | .por o | .pxor o => hdrLoc o.h ++ [.p o.ps1.val, .p o.ps2.val]
  | .pnot h _ ps => hdrLoc h ++ [.p ps.val]
  | .pset h _ _ | .psetPat h _ _ => hdrLoc h
  | .vcvt o => hdrLoc o.h ++ tyLoc o.dt ++ tyLoc o.st ++ [.v o.vs.val]
  | .vmxpack o _ => hdrLoc o.h ++ tyLoc o.dt ++ tyLoc o.st ++ [.v o.vs.val]
  | .vmxunpack o sc => hdrLoc o.h ++ tyLoc o.dt ++ tyLoc o.st ++ [.v o.vs.val, .v sc.val]
  | .vidx h ty _ _ _ | .vbcast h ty _ _ => hdrLoc h ++ tyLoc ty
  | .vmvx h ty _ vs _ => hdrLoc h ++ tyLoc ty ++ [.v vs.val]
  | .vreshape o | .vslideup o | .vslidedn o => hdrLoc o.h ++ tyLoc o.ty ++ [.v o.vs.val]
  | .vld o _ | .vlds o _ _ => hdrLoc o.h ++ tyLoc o.ty
  | .vldx o vi => hdrLoc o.h ++ tyLoc o.ty ++ [.v vi.val]
  | .vst o _ | .vsts o _ _ => hdrLoc o.h ++ tyLoc o.ty ++ [.v o.v.val]
  | .vstx o vi => hdrLoc o.h ++ tyLoc o.ty ++ [.v o.v.val, .v vi.val]
  | .mzero h cp _ => colLoc h cp
  | .mop h cp ta tb md va _ vb _ => colLoc h cp ++ tyLoc ta ++ tyLoc tb ++ [.m md.val, .v va.val, .v vb.val]
  | .mopw h cp _ _ ta tb md va _ _ => colLoc h cp ++ tyLoc ta ++ tyLoc tb ++ [.m md.val, .v va.val, weightLoc]
  | .mdrain h cp _ dt _ ms _ _ => colLoc h cp ++ tyLoc dt ++ [.m ms.val]
  | .mfill h cp _ st _ vs _ _ => colLoc h cp ++ tyLoc st ++ [.v vs.val]
  | .msave _ _ ms _ => [.m ms.val, weightLoc]
  | .msend o | .msendTry o _ => [.v o.vs.val]
  | .gbpAdd _ _ _ _ vd vs => [.v vd.val, .v vs.val]
  | .gbpElim _ _ _ _ vs _ | .gbpPack _ _ _ vs | .gbpUnpack _ _ _ vs => [.v vs.val]
  | .gbpDamp _ _ _ vo vn _ => [.v vo.val, .v vn.val]
  | .gbpResid _ _ _ va vb => [.v va.val, .v vb.val]
  | .tcp o | .tcpScat o | .tdeal o | .sgGather o _ | .collBcast o _ => [.sd o.sd.val, .k o.k.val]
  | .sgReduce o _ ty | .collReduce o _ _ ty _ => tyLoc ty ++ [.sd o.sd.val, .k o.k.val]
  | .sgConv o dt st => tyLoc dt ++ tyLoc st ++ [.sd o.sd.val, .k o.k.val]
  | .sbindRd _ _ _ _ sd | .sbindWr _ _ _ _ sd => [.sd sd.val]
  | .vrepGo _ => [.fld 0xCC7 0, .fld 0xCC7 1]
  | .mdone _ => (List.range 8).map .k
  | .hop _ _ _ => (List.range 8).map .k ++ [.csr 0xCC3, .fld 0xCC7 1]
  | _ => []

/-- What a long form writes beside x registers, `fx` and `vdirty`, vector registers whole. -/
def longWrites : Instr → List Loc
  | .vadd o | .vsub o | .vmul o | .vmulh o | .vdiv o | .vmin o | .vmax o | .vand o | .vor o | .vxor o | .vsll o | .vsrl o
  | .vsra o | .vperm o => [.v o.vd.val]
  | .vabs o | .vneg o | .vsqrt o | .vrece o | .vrsqe o | .vredsum o | .vredmax o | .vredmin o | .vredamax o | .vmv o =>
    [.v o.vd.val]
  | .vfma o | .vfms o | .vfnma o | .vfnms o => [.v o.vd.val]
  | .vcmp _ ty _ _ pd _ _ => [.p pd.val]
  | .pand o | .por o | .pxor o => [.p o.pd.val]
  | .pnot _ pd _ | .pset _ pd _ | .psetPat _ pd _ => [.p pd.val]
  | .vcvt o => [.v o.vd.val]
  | .vmxpack o sc => [.v o.vd.val, .v sc.val]
  | .vmxunpack o _ => [.v o.vd.val]
  | .vidx _ _ vd _ _ | .vbcast _ _ vd _ => [.v vd.val]
  | .vreshape o | .vslideup o | .vslidedn o => [.v o.vd.val]
  | .vld o _ | .vlds o _ _ | .vldx o _ => [.v o.v.val]
  | .mzero _ _ md => [.m md.val]
  | .mop _ _ _ _ md _ _ _ _ | .mopw _ _ _ _ _ _ md _ _ _ => [.m md.val]
  | .wload .. => [weightLoc]
  | .mdrain _ _ _ _ vd ms _ _ => [.v vd.val, .m ms.val]
  | .mfill _ _ _ _ md _ _ _ => [.m md.val]
  | .mload _ _ md _ => [.m md.val, weightLoc]
  | .gbpAdd _ _ _ _ vd _ | .gbpElim _ _ _ vd _ _ | .gbpDamp _ _ vd _ _ _ | .gbpPack _ _ vd _ | .gbpUnpack _ _ vd _ =>
    [.v vd.val]
  | .tshape _ sd _ => [.sd sd.val]
  | .tcp o | .tcpScat o | .tdeal o | .sgGather o _ | .sgReduce o _ _ | .sgConv o _ _ | .collReduce o _ _ _ _
  | .collBcast o _ => [.k o.k.val]
  | .sbindRd _ _ v _ _ | .sbindWr _ _ v _ _ => [.v v.val]
  | .vrepBegin _ _ => (List.range 4).map (.fld 0xCC7)
  | _ => []

/-- Does a long form run under the grant, and so read rows, len and ty of `shape` (R169)? `vreshape`, the matrix, message, GBP
and engine forms do not (R207, R219, R258, R111). -/
def readsGrant : Instr → Bool
  | .vadd _ | .vsub _ | .vmul _ | .vmulh _ | .vdiv _ | .vmin _ | .vmax _ | .vand _ | .vor _ | .vxor _ | .vsll _ | .vsrl _ | .vsra _ | .vperm _
  | .vabs _ | .vneg _ | .vsqrt _ | .vrece _ | .vrsqe _ | .vredsum _ | .vredmax _ | .vredmin _ | .vredamax _ | .vmv _
  | .vfma _ | .vfms _ | .vfnma _ | .vfnms _ | .vcmp .. | .pand _ | .por _ | .pxor _ | .pnot .. | .pset .. | .psetPat ..
  | .vcvt _ | .vmxpack .. | .vmxunpack .. | .vidx .. | .vbcast .. | .vmvx .. | .vslideup _ | .vslidedn _
  | .vld .. | .vlds .. | .vldx .. | .vst .. | .vsts .. | .vstx .. => true
  | _ => false

/-- Does a long form read the rm, sat or fz field of `shape` (R48)? Integer forms read sat where they narrow (R192, R194, R196,
R202, R54); compares read fz (R197); moves, bitwise forms and the GBP forms read none (R193, R203 to R209, R261). -/
def readsArith : Instr → Bool
  | .vadd _ | .vsub _ | .vmul _ | .vdiv _ | .vfma _ | .vfms _ | .vfnma _ | .vfnms _ | .vredsum _ | .vmxpack .. | .vmxunpack ..
  | .mop .. | .mopw .. | .mdrain .. | .mfill .. | .sgReduce .. | .sgConv .. | .collReduce .. => true
  | .vmin o | .vmax o => (intOf o.ty).isNone
  | .vredmax o | .vredmin o | .vredamax o | .vsqrt o | .vrece o | .vrsqe o => (intOf o.ty).isNone
  | .vabs o => match intOf o.ty with | some (_, sg) => sg | none => false
  | .vneg o => (intOf o.ty).isSome
  | .vcmp _ ty _ _ _ _ _ => (intOf ty).isNone
  | .vcvt o => !((intOf o.dt).isSome && o.dt == o.st)
  | _ => false

/-- Can a long form raise an exception flag, so that it reads the enables of `fx` and accrues flags (R45 to R47)? -/
def raisesFlags : Instr → Bool
  | .vadd o | .vsub o | .vmul o | .vdiv o | .vmin o | .vmax o => (intOf o.ty).isNone
  | .vsqrt o | .vrece o | .vrsqe o | .vredsum o | .vredmax o | .vredmin o | .vredamax o => (intOf o.ty).isNone
  | .vfma o | .vfms o | .vfnma o | .vfnms o => (intOf o.ty).isNone
  | .vcvt o => !((intOf o.dt).isSome && (intOf o.st).isSome)
  | .mop _ _ ta _ _ _ _ _ _ | .mopw _ _ _ _ ta _ _ _ _ _ => (intOf ta).isNone
  | .mdrain _ _ int ty _ _ _ _ | .mfill _ _ int ty _ _ _ _ => !(int && (intOf ty).isSome)
  | .vmxpack .. | .vmxunpack .. | .gbpAdd .. | .gbpElim .. | .gbpDamp .. | .gbpResid .. => true
  | _ => false

/-- What a scalar instruction reads and writes beside x registers. -/
def scalarReads : Instr → List Loc
  | .kwait m | .kpoll _ m => ((List.range 8).filter fun j => bit m j).map .k
  | .treadEnd => (List.range 8).map .k
  | .vshape ty _ _ _ => match ty with | .gf k => [.fd k.val] | _ => []
  | i => match csrParts i with
    | some (op, _, rd, n) =>
      if !csrReads op rd then []
      else if 0x802 ≤ n && n ≤ 0x805 then [.fd (n - 0x802)] else if 0xCC8 ≤ n && n ≤ 0xCCF then [.k (n - 0xCC8)] else [.csr n]
    | none => []
def scalarWrites : Instr → List Loc
  | .vshape .. => [.csr 0x800]
  | .rel _ => [.csr 0xCC3]
  | i => match csrParts i with
    | some (op, src, _, n) =>
      if !csrWrites op src then [] else if 0x802 ≤ n && n ≤ 0x805 then [.fd (n - 0x802)] else [.csr n]
    | none => []

/-- Every place an instruction reads, and every place it writes (R77). -/
def readLocs (i : Instr) : List Loc := (xReads i).map (fun r => .x r.val) ++ longReads i ++ scalarReads i
def writeLocs (i : Instr) : List Loc := (xWrites i).map (fun r => .x r.val) ++ longWrites i ++ scalarWrites i

/-- The lookahead field of a long form, hints among them; 0 for a 32-bit instruction (R77). -/
def laOf (i : Instr) : Nat :=
  match encodeWord i with
  | some (8, w) => fld w 10 4
  | _ => 0

/-- A token that a long form names (R133). -/
def tokenOf : Instr → Option Reg8
  | .tcp o | .tcpScat o | .tdeal o | .sgGather o _ | .sgReduce o _ _ | .sgConv o _ _ | .collReduce o _ _ _ _
  | .collBcast o _ => some o.k
  | _ => none

/-- Is the form a vector load or store (R176)? `wload` and the block read of `tshape` are vector loads (R126, R231). -/
def isVMem : Instr → Bool
  | .vld .. | .vlds .. | .vldx .. | .vst .. | .vsts .. | .vstx .. | .wload .. | .tshape .. => true
  | _ => false

/-- Is it a vector load with ord = acquire (R156)? -/
def isAcqLoad : Instr → Bool
  | .vld o _ | .vlds o _ _ | .vldx o _ => o.ordered
  | _ => false

/-! ### Features (R353, R354) -/

/-- Element types that a long form uses (R354). -/
def formTypes : Instr → List ElemTy
  | .vadd o | .vsub o | .vmul o | .vmulh o | .vdiv o | .vmin o | .vmax o | .vand o | .vor o | .vxor o | .vsll o | .vsrl o
  | .vsra o | .vperm o => [o.ty]
  | .vabs o | .vneg o | .vsqrt o | .vrece o | .vrsqe o | .vredsum o | .vredmax o | .vredmin o | .vredamax o | .vmv o => [o.ty]
  | .vfma o | .vfms o | .vfnma o | .vfnms o => [o.ty]
  | .vcmp _ ty _ _ _ _ _ | .vidx _ ty _ _ _ | .vbcast _ ty _ _ | .vmvx _ ty _ _ _ => [ty]
  | .vcvt o | .vmxpack o _ | .vmxunpack o _ => [o.dt, o.st]
  | .vreshape o | .vslideup o | .vslidedn o => [o.ty]
  | .vld o _ | .vlds o _ _ | .vldx o _ | .vst o _ | .vsts o _ _ | .vstx o _ => [o.ty]
  | .mop _ _ ta tb _ _ _ _ _ | .mopw _ _ _ _ ta tb _ _ _ _ => [ta, tb]
  | .mdrain _ _ _ dt _ _ _ _ => [dt]
  | .mfill _ _ _ st _ _ _ _ => [st]
  | .sgReduce _ _ ty | .collReduce _ _ _ ty _ => [ty]
  | .sgConv _ dt st => [dt, st]
  | _ => []

/-- Feature bits that an element type needs (R354). -/
def tyFeature : ElemTy → List Nat
  | .mxf8 | .mxf4 => [1]
  | .gf _ => [2]
  | _ => []

/-- Feature bits that an instruction needs (R353, R354). -/
def featuresOf (i : Instr) : List Nat :=
  (match i with
    | .mopw _ _ true _ _ _ _ _ _ _ => [3]
    | .gbpAdd .. | .gbpElim .. | .gbpDamp .. | .gbpResid .. | .gbpPack .. | .gbpUnpack .. => [4]
    | .msend _ | .msendTry _ _ | .mdone _ => [5]
    | .hop _ _ _ => [6]
    | .sgGather _ _ | .sgReduce _ _ _ | .sgConv _ _ _ => [7]
    | .collReduce .. | .collBcast _ _ => [8]
    | .traceCtl _ => [11]
    | .ckpt _ => [13]
    | _ => []) ++ ((formTypes i).map tyFeature).flatten

/-- Are all features accepted that an instruction needs (R354)? -/
def State.offered (s : State) (i : Instr) : Bool := (featuresOf i).all fun b => s.feature b

end Sys2Proof.Machine
end

