-- ==== Sys2Proof/Machine/Replay.lean ====
section
/-! DEFINITION. Entering the vector queue (R175, R340), and the replay buffer: capture, `vrep.begin` and `vrep.go` (R210,
R211). -/
namespace Sys2Proof.Machine

/-- The captured value of field i (1 to 4) of a long form: that of its x register, 0 for a field of another kind (R175,
R340). -/
def Strand.captured (t : Strand) (i : Instr) (pos : Nat) : Word :=
  match (xFields i).find? fun f => f.1 == pos with
  | some f => t.getX f.2.1
  | none => 0

/-- The queue entry of a long form: its encoding and address, the captured values of its four register fields, and the
mode, SUM and MXR bits (R175, R340, R99). -/
def Strand.entryOf (t : Strand) (enc addr : Word) : Entry :=
  let f (pos : Nat) : Word := match decode64 enc.toNat with | .ok i => t.captured i pos | .error _ => 0
  ⟨enc, addr, f 1, f 2, f 3, f 4, t.mode, bit t.csr.sstatus 18, bit t.csr.sstatus 19⟩

/-- The buffer after one more captured encoding: at the body length it closes (R210). -/
def Replay.capture (r : Replay) (enc : Word) : Replay :=
  if r.cap then
    let es := r.encs ++ [enc]
    { r with encs := es, cap := es.length < r.len, valid := !(es.length < r.len) }
  else r

/-- Issue a long form outside class 111: it enters the queue, is captured while a body is, and the front moves on (R175,
R210). An entry that starts an idle queue starts at its first element (log 15). -/
def State.enqueue (s : State) (enc : Word) : State :=
  let t := s.me
  let t := if t.idle then { t with csr := { t.csr with vsi := 0, msi := 0 } } else t
  s.setMe { t with queue := t.queue ++ [t.entryOf enc t.pc], pc := t.pc + 8, replay := t.replay.capture enc }

/-- The scalar front's work of `vrep.begin` (R210). -/
def State.repBegin (s : State) (n : Nat) : State := s.setMe { s.me with replay := ⟨[], n, true, false⟩ }

/-- The scalar front's work of `vrep.go` at an address: the body's entries with the x values of now follow the queue
(R211). An earlier promise neither covers them nor is used up by them (log 13). -/
def State.repGo (s : State) (addr : Word) : State :=
  let t := s.me
  s.setMe { t with body := t.body ++ t.replay.encs.map fun e => t.entryOf e addr }

/-- May the front accept the form: `vrep.begin` outside capture, `vrep.go` of a valid body outside capture (R210, R211)? -/
def Strand.repOk (t : Strand) (go : Bool) : Bool := !t.replay.cap && (!go || t.replay.valid)

/-- VREP_BEGIN: the front's work, then its queue entry, which performs nothing, completes (R210). -/
def execVrepBegin (la : BitVec 4) (n : BitVec 13) (s : State) : Out :=
  if !s.me.repOk false then s.illegal (.vrepBegin la n) else .next (s.repBegin n.toNat).completeVec

/-- VREP_GO: the front's work, then its queue entry completes and the body follows it (R211). -/
def execVrepGo (la : BitVec 4) (s : State) : Out :=
  if !s.me.repOk true then s.illegal (.vrepGo la)
  else .next (s.repGo s.me.vcp).completeVec

end Sys2Proof.Machine
end

