-- ==== Sys2Proof/Machine/Record.lean ====
section
/-! DEFINITION. Save records, checkpoint records and frame records (R335 to R340, R421): their layout as bytes, and the
checks of R341 and R421. -/
namespace Sys2Proof.Machine

/-! ### Bytes at offsets -/

/-- A list extended with zeros to n bytes. -/
def padTo (n : Nat) (l : List Byte) : List Byte := l ++ List.replicate (n - l.length) 0

/-- n bytes with pieces at rising offsets, zero elsewhere. -/
def layout (n : Nat) (segs : List (Nat × List Byte)) : List Byte := padTo n (segs.foldl (fun acc p => padTo p.1 acc ++ p.2) [])

/-- The little-endian number of n bytes at an offset. -/
def recN (bs : List Byte) (off n : Nat) : Nat := leNat ((bs.drop off).take n)

/-- Sizes of the register part, the fixed area and the page part (R335), and of a checkpoint slot (R343). -/
def regPart : Nat := 0x44000
def fixedSize : Nat := 0x4000
def pagePart : Nat := 0x100000
def slotSize : Nat := 0x144000
def ckptSize : Nat := 0x1A4000

/-- Magic numbers (R336, R421). -/
def recMagic : Nat := 0xB900
def frameMagic : Nat := 0xB901

/-! ### Reading and writing parts -/

/-- Read n bytes at an offset of the register part; none when a sector fails. -/
def State.regPartRead (s : State) (core : Nat) (a : SaveAt) (off n : Nat) : Option (List Byte) :=
  match a.loft with
  | some o => if ((s.core core).loftBadAt (o + off) n).isSome then none else some (memRead (s.core core).loft (o + off) n)
  | none => match s.physRead none (a.reg + off) n with | .ok bs => some bs | .error _ => none

/-- A read of n bytes at an offset of the register part: in local HBM it acts at the home, and a failing sector, of the loft or of
memory, counts (R94, R104, R392). -/
def State.noteRecord (s : State) (core : Nat) (a : SaveAt) (off n : Nat) : State :=
  match a.loft with
  | some o => if n ≠ 0 && ((s.core core).loftBadAt (o + off) n).isSome then s.eccAdd (some (dieOfCore core)) 1 0 else s
  | none => s.noteReads [(a.reg + off, n)]

/-- Write bytes of a record to memory for a strand of a core: the core's queued stores to those bytes land first, and its L1
lines that hold them are dropped (R149, as for a scalar store; log 21). -/
def State.saveWrite (s : State) (core pa : Nat) (bs : List Byte) : State :=
  ((s.deliverOver core pa bs.length).writeHome none none pa bs).dropL1 core pa bs.length

/-- Write bytes at an offset of the register part. -/
def State.regPartWrite (s : State) (core : Nat) (a : SaveAt) (off : Nat) (bs : List Byte) : State :=
  match a.loft with
  | some o => s.setCore core ((s.core core).loftWrite (o + off) bs)
  | none => s.saveWrite core (a.reg + off) bs

/-- Physical address of page p of a core's scratchpad. -/
def padPage (core p : Nat) : Nat := padBase + core * 0x100000 + p * 0x4000

/-- Deliver the queued stores of a core that meet a range of memory. -/
def State.settleRange (s : State) (core a n : Nat) : State := s.deliverOver core a n

/-! ### The fixed area (R336) -/

/-- A kept entry (R340). -/
def Entry.bytes (e : Entry) : List Byte :=
  (leBytes 8 e.enc.toNat ++ leBytes 8 e.addr.toNat ++ leBytes 8 e.x1.toNat ++ leBytes 8 e.x2.toNat ++ leBytes 8 e.x3.toNat ++ leBytes 8 e.x4.toNat)

/-- n kept entries at an offset, as entries of a mode with SUM and MXR. -/
def readEntries (bs : List Byte) (off n : Nat) (md : Mode) (sum mxr : Bool) : List Entry :=
  (List.range n).map fun i =>
    let f (j : Nat) : Word := w64 (recN bs (off + 48 * i + 8 * j) 8)
    ⟨f 0, f 1, f 2, f 3, f 4, f 5, md, sum, mxr⟩

/-- Does every kept entry decode without illegal-instruction (R58, R354)? A hint does (R76). -/
def State.entriesDecode (s : State) (es : List Entry) : Bool :=
  es.all fun e => e.enc.toNat % 128 == 0x3F && match decode64 e.enc.toNat with | .ok i => s.offered i | .error _ => false

/-- A cancelled copy: 80 bytes. -/
def SavedCopy.bytes (c : SavedCopy) : List Byte :=
  leBytes 48 c.block.toNat ++ leBytes 8 c.dst.toNat ++ leBytes 8 c.src.toNat ++ leBytes 8 (c.k.val + 256 * b2n c.scat) ++ leBytes 8 c.count

/-- A stream port: 96 bytes. -/
def SavedPort.bytes (p : SavedPort) : List Byte :=
  leBytes 1 1 ++ leBytes 1 (b2n p.wr) ++ leBytes 1 p.v.val ++ leBytes 1 p.port ++ leBytes 4 0 ++ leBytes 48 p.block.toNat ++
    leBytes 8 p.base.toNat ++ leBytes 8 p.pos ++ leBytes 24 0

/-- The abandoned wait: kind, group and ticket. -/
def Wait.bytes : Wait → List Byte
  | .gwait g t => leBytes 1 1 ++ leBytes 1 g ++ leBytes 2 0 ++ leBytes 4 t
  | .gbar g t => leBytes 1 2 ++ leBytes 1 g ++ leBytes 2 0 ++ leBytes 4 t
  | .waitpred => leBytes 1 3
  | .acq _ => leBytes 1 4
  | _ => []

/-- Code of a kind of strand. -/
def Kind.code : Kind → Nat
  | .reqHandler => 1 | .repHandler => 2 | _ => 0

/-- `vdirty` of strand k (R171). -/
def State.dirtyMask (s : State) (k : Nat) : Nat :=
  (List.range 32).foldl (fun a n => match (s.strand k).blocks[n]? with | some b => a + 2 ^ n * b2n ((s.core (coreOf k)).block b).dirty | none => a) 0

/-- The CSR slots of a record whose pc is given; with the queue empty `vcp` equals it (R177, R336). -/
def State.csrSlots (s : State) (k : Nat) (pc : Word) : List Byte :=
  let t := s.strand k
  let c := t.csr
  ([pc, if t.idle then setBits pc 0 2 0 else t.vcpWord, c.sstatus, c.stvec, c.sscratch, c.sepc, c.scause, c.stval, c.sie, c.scounteren, c.vmroot, c.shape, c.fx,
    c.fd[0], c.fd[1], c.fd[2], c.fd[3], c.vsi, c.msi, c.lamiss, c.srbase, c.srptr, w64 (s.dirtyMask k), c.instret, w64 t.tread].map
      fun w => leBytes 8 w.toNat).flatten

/-- What a record holds beside the strand's registers. -/
structure RecordHead where
  flags  : Nat
  tag    : Nat
  pc     : Word
  step   : Nat
  wait   : Wait
  kept   : List Entry
  copies : List SavedCopy
  ports  : List SavedPort
  tiles  : List Byte
  exts   : List (Nat × Nat)
  deriving DecidableEq, Repr

/-- The fixed area of strand k's record (R336). -/
def State.fixedArea (s : State) (k : Nat) (h : RecordHead) : List Byte :=
  let t := s.strand k
  layout fixedSize [
    (0x000, leBytes 4 recMagic ++ leBytes 4 h.flags ++ leBytes 8 isaver.toNat ++ leBytes 8 (h.tag % 2 ^ 48)),
    (0x018, leBytes 2 (coreOf k) ++ leBytes 1 (k % 16) ++ leBytes 1 t.kind.code ++ leBytes 1 h.kept.length ++ leBytes 1 h.copies.length),
    (0x020, leBytes 8 t.claim.pack.toNat ++ leBytes 8 t.hold.pack.toNat ++ leBytes 8 t.hpages.toNat ++ leBytes 8 h.step),
    (0x040, ((List.finRange 32).map fun r => leBytes 8 (t.getX r).toNat).flatten),
    (0x140, s.csrSlots k h.pc),
    (0x240, (t.k.toList.map fun v => leBytes 8 v.pack.toNat).flatten),
    (0x280, (t.p.toList.map fun v => leBytes 128 v.toNat).flatten),
    (0x680, (t.sd.toList.map fun r => leBytes 48 r.block.toNat ++ leBytes 16 (b2n r.valid)).flatten),
    (0x880, h.tiles),
    (0x940, ((t.groups.filter fun b => b.pv || b.pt ≠ 0 || b.g ≠ 0).take 4 |>.map fun b => leBytes 1 b.g ++ leBytes 1 (b2n b.pv) ++ leBytes 2 0 ++ leBytes 4 b.pt).flatten),
    (0x960, h.wait.bytes),
    (0x980, ((List.range 4).map fun n => match h.ports.find? fun p => p.port == n with | some p => p.bytes | none => leBytes 96 0).flatten),
    (0xB00, leBytes 8 t.replay.status.toNat ++ leBytes 8 t.replay.len ++ (t.replay.encs.map fun e => leBytes 8 e.toNat).flatten),
    (0xC40, (h.kept.map Entry.bytes).flatten),
    (0x13C0, (h.copies.map SavedCopy.bytes).flatten),
    (0x1DC0, (h.exts.map fun e => leBytes 1 e.1 ++ leBytes 1 0 ++ leBytes 2 e.2).flatten)]

/-! ### The frame record (R421) -/

/-- The frame record of a strand: its frame, and CSR `svcp` (R324). -/
def Strand.frameRecord (t : Strand) : List Byte :=
  layout 0x1000 [
    (0, leBytes 4 frameMagic ++ leBytes 4 t.frame.entries.length),
    (8, leBytes 8 isaver.toNat ++ leBytes 8 t.frame.vsi.toNat ++ leBytes 8 t.frame.msi.toNat ++ leBytes 8 t.csr.svcp.toNat),
    (0x40, (t.frame.entries.map Entry.bytes).flatten)]

/-- Are n bytes at an offset zero? -/
def recZero (bs : List Byte) (p : Nat × Nat) : Bool := recN bs p.1 p.2 == 0

/-- The checks of a frame record, in order (R421). -/
def State.frameOk (s : State) (bs : List Byte) : Bool :=
  let n := recN bs 4 1
  recN bs 0 4 == frameMagic && recN bs 8 8 == isaver.toNat && decide (n ≤ 40) &&
  [(5, 3), (0x28, 0x18), (0x7C0, 0x840)].all (recZero bs) && s.entriesDecode (readEntries bs 0x40 n .u false false)

/-! ### Reading a record -/

/-- Is the record a checkpoint? -/
def recIsCkpt (bs : List Byte) : Bool := recN bs 4 4 % 2 == 1
def recTag (bs : List Byte) : Nat := recN bs 0x10 6
def recClaim (bs : List Byte) : Hold := Hold.unpack (w64 (recN bs 0x20 8))
def recHold (bs : List Byte) : Hold := Hold.unpack (w64 (recN bs 0x28 8))
/-- Recorded page numbers, lowest first. -/
def recPages (bs : List Byte) : List Nat := (List.range 64).filter fun p => (recN bs 0x30 8).testBit p
/-- CSR slot i. -/
def recCsr (bs : List Byte) (i : Nat) : Word := w64 (recN bs (0x140 + 8 * i) 8)
/-- Tile reference of a name: kind, physical tile, core, address (R339). -/
def recTile (bs : List Byte) (m : Nat) : Nat × Nat × Nat × Nat :=
  (recN bs (0x880 + 16 * m) 1, recN bs (0x881 + 16 * m) 1, recN bs (0x882 + 16 * m) 2, recN bs (0x888 + 16 * m) 8)
/-- Block extent of a name. -/
def recExt (bs : List Byte) (n : Nat) : Nat × Nat := (recN bs (0x1DC0 + 4 * n) 1, recN bs (0x1DC2 + 4 * n) 2)
/-- Kept entries and cancelled copies. -/
def recKept (bs : List Byte) (md : Mode) (sum mxr : Bool) : List Entry := readEntries bs 0xC40 (recN bs 0x1C 1) md sum mxr
def recCopies (bs : List Byte) : List SavedCopy :=
  (List.range (recN bs 0x1D 1)).map fun i =>
    let o := 0x13C0 + 80 * i
    let w := recN bs (o + 64) 8
    ⟨BitVec.ofNat 384 (recN bs o 48), w64 (recN bs (o + 48) 8), w64 (recN bs (o + 56) 8), Fin.ofNat 8 w, w.testBit 8, recN bs (o + 72) 8⟩
def recPorts (bs : List Byte) : List SavedPort :=
  (List.range 4).filterMap fun n =>
    let o := 0x980 + 96 * n
    if recN bs o 1 = 0 then none
    else some ⟨recN bs (o + 3) 1 % 4, recN bs (o + 1) 1 == 1, Fin.ofNat 32 (recN bs (o + 2) 1), BitVec.ofNat 384 (recN bs (o + 8) 48),
      w64 (recN bs (o + 56) 8), recN bs (o + 64) 8⟩

/-- The fields of R336 that are zero, beside the step number of a save record. -/
def recZeros : List (Nat × Nat) :=
  [(0x16, 2), (0x1E, 2), (0x40, 8), (0x208, 0x38), (0x900, 0x40), (0x962, 2), (0x968, 0x18), (0xC10, 0x30), (0x1E40, 0x21C0)] ++
  (List.range 8).map (fun i => (0x6B1 + 64 * i, 15)) ++ (List.range 8).map (fun i => (0x884 + 16 * i, 4)) ++
  (List.range 4).map (fun i => (0x942 + 8 * i, 2)) ++ (List.range 4).map (fun i => (0x984 + 96 * i, 4)) ++
  (List.range 4).map (fun i => (0x9C8 + 96 * i, 24)) ++ (List.range 32).map (fun i => (0x1DC1 + 4 * i, 1))

/-- Does a kind-1 reference still find the data of a tag: Lazy for it, or Bound while it holds it (R341 check 3)? -/
def tileHas (c : Core) (p tag : Nat) : Bool :=
  match (c.tile p).st with
  | .lazy g _ | .bound g _ => g == tag
  | _ => false

/-- Check 3 of R341 for one name. -/
def State.refHere (s : State) (core tag : Nat) (r : Nat × Nat × Nat × Nat) : Bool :=
  match r.1 with
  | 1 => r.2.2.1 == core && decide (r.2.1 < 8) && tileHas (s.core core) r.2.1 tag
  | 2 => r.2.2.1 == core
  | _ => true

/-- Check 5 of R341 for one name. -/
def refOk (ck : Bool) (held : Nat) (m : Nat) (r : Nat × Nat × Nat × Nat) : Bool :=
  let a := r.2.2.2
  decide (r.1 ≤ 5) && (if m < held then r.1 ≠ 0 else r.1 = 0) &&
  (match r.1 with
    | 1 | 5 => !ck
    | 2 => !ck && a % 0x1000 == 0 && decide (a + 0xC000 ≤ 0x100000)
    | 3 => a % 0x1000 == 0 && decide (a + 0xC000 ≤ hbmTop)
    | 4 => ck
    | _ => true)

/-- No two names refer to one Lazy tile: a record edited so is not consistent (R339, R341 check 5; log 113). -/
def refsApart (bs : List Byte) : Bool :=
  decide ((((List.range 8).map (recTile bs)).filter fun r => r.1 == 1).map fun r => r.2.1).Nodup

/-- Checks 1 to 5 of R341 on a fixed area, for a resumption on a core. -/
def State.recordOk (s : State) (core : Nat) (bs : List Byte) : Bool :=
  let ck := recIsCkpt bs
  let ver := recN bs 8 8
  let refs := (List.range 8).map fun m => (m, recTile bs m)
  let hold := recHold bs
  recN bs 0 4 == recMagic && decide (recN bs 4 4 < 8) && recZeros.all (recZero bs) && (ck || recN bs 0x38 8 == 0) &&
  (if ck then ver / 256 % 256 == isaver.toNat / 256 % 256 && decide (ver % 256 ≤ isaver.toNat % 256) else ver == isaver.toNat) &&
  refs.all (fun r => s.refHere core (recTag bs) r.2) &&
  decide (recN bs 0x1C 1 ≤ 40) && decide (recN bs 0x1D 1 ≤ 32) && s.entriesDecode (recKept bs .u false false) &&
  refs.all (fun r => refOk ck hold.tiles r.1 r.2) && refsApart bs &&
  (List.range 32).all (fun n => decide (n < hold.blocks) || recExt bs n == (0, 0)) &&
  (ElemTy.ofCode (bits (recCsr bs 11) 24 5)).isSome

end Sys2Proof.Machine
end

