-- ==== Sys2Proof/Machine/Context.lean ====
section
/-! DEFINITION. Pre-emption and resumption of contexts (R281 to R283, R334 to R342), the supervisor instructions (R321 to
R327), `ckpt` (R320, R344), interrupts (R331), and the banker's events (R278, R279). -/
namespace Sys2Proof.Machine

/-! ### Pre-emption (R281, R334, R338) -/

/-- Has an operation a unit still to land on a core? -/
def CopyOp.landsOn (o : CopyOp) (core : Nat) : Bool :=
  (unitsOf o.todo).any fun n => match o.unitDst (32 * n) with | some (dp, _) => (dp - padBase) / 0x100000 == core | none => false

/-- Has strand k a `tdeal` share not yet landed (R131)? -/
def State.dealPending (s : State) (k : Nat) : Bool :=
  s.cores.any fun c => c.2.slots.any fun e =>
    match e.2 with
    | some o => (match o.kind with | .tdeal => true | _ => false) && o.owner != k && o.aux.contains k && o.landsOn (coreOf k)
    | none => false

/-- Does a pending operation or stream of another strand touch a page that strand k holds (R122)? -/
def State.foreignOps (s : State) (k : Nat) : Bool :=
  let pr := (s.strand k).pages.map fun p => (padPage (coreOf k) p, 0x4000)
  s.cores.any fun c =>
    (c.2.slots.any fun e => match e.2 with | some o => o.owner != k && rangesMeet pr o.foot | none => false) ||
    (c.2.ports.any fun e => match e.2 with | some p => p.owner != k && rangesMeet pr p.foot | none => false)

/-- Is a pre-emption of strand k deferred (R334)? An interrupt that the strand would take now comes before it (R333). It waits too for
what other strands still have to land in the strand's pages, so that no copy lands in a page after the page has left it (R281, R122;
log 121). -/
def State.preemptDeferred (s : State) (k : Nat) : Bool :=
  (s.strand k).frame.occ || s.dealPending k || (s.strand k).wait.deferred || (s.strand k).interruptNow.isSome || s.foreignOps k

/-- Where the register part of a record of a core's strand lies. -/
def SaveAt.place (a : SaveAt) (core : Nat) : RegPlace := match a.loft with | some o => .loft core o | none => .hbm a.reg

/-- The extent of block b that a save to a place stores (R172). Of a clean block nothing is stored where its last save's copy
lies; in a record elsewhere the block area takes that copy, which is the block as it stands (R335; log 83). -/
def Strand.saveExtent (t : Strand) (b : Block) (pl : RegPlace) : Option (Nat × Nat) :=
  if b.dirty then
    let rows := bits t.csr.shape 16 5
    let len := bits t.csr.shape 0 11
    some (max rows b.rows, max ((len * t.gw + 255) / 256 * 32) b.bytes)
  else if b.srows = 0 || b.home = some pl then none
  else some (b.srows, b.sbytes)

/-- A record is written at a place: the copies of blocks that lay there are there no more. -/
def State.forgetHome (s : State) (pl : RegPlace) : State :=
  { s with cores := Tbl.mapV Core.reset (fun (c : Core) =>
      { c with blocks := Tbl.mapV Block.zero (fun (b : Block) => if b.home = some pl then { b with home := none } else b) c.blocks }) s.cores }

/-- Row r of a block as bytes, the first n of them. -/
def Block.rowBytes (b : Block) (r n : Nat) : List Byte := leBytes n ((b.data.toNat >>> (4096 * r)) % 2 ^ (8 * n))

/-- The contents of the pages a strand holds; none on an uncorrectable error. -/
def State.pageImage (s : State) (core : Nat) (pages : List Nat) : Option (List (Nat × List Byte)) :=
  pages.foldr (fun p (acc : Option (List (Nat × List Byte))) =>
    match acc, s.physRead none (padPage core p) 0x4000 with
    | some l, .ok bs => some ((p, bs) :: l)
    | _, _ => none) (some [])

/-- Is a stored row of one of these blocks uncorrectable? -/
def Core.rowsBad (c : Core) (bs : List (Nat × Nat × Nat × Nat)) : Bool :=
  bs.any fun b => c.badRows.any fun r => r.1 == b.2.1 && decide (r.2.1 < b.2.2.1)

/-- What a save reads is noted: the pages held, and an error met in rows or tiles, which counts for the die (R104, R338, R392). -/
def State.noteSave (s : State) (core : Nat) (pages : List Nat) (bad : Bool) : State :=
  let s := s.noteReads (pages.map fun p => (padPage core p, 0x4000))
  if bad then s.eccAdd (some (dieOfCore core)) 1 0 else s

/-- Write rows of named blocks (name, physical block, rows, bytes) to the block area (R335). -/
def State.writeBlocks (s : State) (core : Nat) (a : SaveAt) (bs : List (Nat × Nat × Nat × Nat)) : State :=
  bs.foldl (fun s b =>
    let blk := (s.core core).block b.2.1
    (List.range b.2.2.1).foldl (fun s r => s.regPartWrite core a (0x4000 + b.1 * 0x2000 + 512 * r) (blk.rowBytes r b.2.2.2)) s) s

/-- Tile references of a save record: kind 1 for a Held tile, kind 5 for a Bound one (R339). -/
def State.saveRefs (s : State) (k : Nat) : List Byte :=
  let core := coreOf k
  ((s.strand k).tiles.map fun n =>
    match ((s.core core).tile n).st with
    | .bound _ _ => leBytes 16 5
    | _ => leBytes 1 1 ++ leBytes 1 n ++ leBytes 2 core ++ leBytes 12 0).flatten

/-- The tiles of a pre-empted strand: Held ones become Lazy for its tag, Bound ones return to their owner (R234). -/
def Core.lazyTiles (c : Core) (ns : List Nat) (tag : Nat) : Core :=
  { c.mapTiles ns (fun t => match t.st with
      | .bound _ _ => t.givenUp
      | _ => { t with st := .lazy tag c.ord }) with ord := c.ord + 1 }

/-- The wait that a save record keeps: the one that the pre-emption abandons, or that a trap has abandoned since the landing asked for
it (R311, R334). -/
def Strand.savedWait (t : Strand) : Wait := if t.preempt && t.wait == .none then (t.left.map Prod.fst).getD .none else t.wait

/-- The strand slot that a pre-empted context leaves (R271): Saved, with what the landing keeps of the context. -/
def Strand.savedSlot (t : Strand) (w : Wait) (a : SaveAt) (tag : Nat) : Strand :=
  { t.vacant .saved with
    haltReq := t.haltReq, kind := t.kind, flight := t.flight, tread := t.tread, mode := t.mode, wait := w, savedTag := tag, saveAt := some a,
    rlCount := t.rlCount, sends := t.sends, ckptStep := t.ckptStep, written := t.written,
    tagCount := t.tagCount + 1 }

/-- Pre-empt strand k to a place (R281): it stops at its pointer pair, the operations it waits for complete, its copies are
cancelled and its streams ended, its core's queued stores are performed (R149; log 100), the record is written, and its tiles
become Lazy and its other holdings free. A promise of lookahead still in force covers nothing after it (log 13). A debug halt
asked for stays asked for (R333, R388). An uncorrectable error met in its state is fatal (R338). -/
def State.preempt (s : State) (k : Nat) (a : SaveAt) : State :=
  let core := coreOf k
  let w := (s.strand k).savedWait
  let s := ((s.leaveBank k).srPause k).drainWt core
  let t := s.strand k
  let s := s.setStrand k { t with status := .running, wait := .none, resv := none, promises := [], pins := [], bindDone := false, preempt := false, heldFor := 0 }
  let bound := (s.portsOf k).filterMap fun n => (s.core core).port n |>.map fun q => (⟨n, q.wr, q.v, q.block, q.base, q.pos⟩ : SavedPort)
  let (s, ops) := (s.completeOps k).cancelCopies k
  let s := ops.foldl (fun s (o : CopyOp) => s.tokAdd k o.k (o.bytes - 32 * (unitsOf o.todo).length)) s
  let t := s.strand k
  let copies := (ops.map fun o => (⟨o.block, o.dst, o.src, o.k, (match o.kind with | .tcp b => b | _ => false), o.bytes⟩ : SavedCopy)) ++ t.copies
  let tag := tagOf k t.tagCount
  let c := s.core core
  let named := (t.blocks.take 32).zipIdx
  let stored := named.filterMap fun p => (t.saveExtent (c.block p.1) (a.place core)).map fun e => (p.2, p.1, e.1, e.2)
  let exts := named.map fun p => let b := c.block p.1; (t.saveExtent b (a.place core)).getD (b.srows, b.sbytes)
  let s := s.noteSave core t.pages (c.rowsBad stored)
  match s.pageImage core t.pages, c.rowsBad stored with
  | some imgs, false =>
    let s := imgs.foldl (fun s p => s.saveWrite core (a.page + p.1 * 0x4000) p.2) s
    let s := (s.writeBlocks core a stored).forgetHome (a.place core)
    let head : RecordHead :=
      ⟨(if t.pages.isEmpty then 0 else 2), tag, t.pc, 0, w, t.queue ++ t.body, copies, t.ports ++ bound, s.saveRefs k, exts⟩
    let s := s.regPartWrite core a 0 (s.fixedArea k head)
    let tiles := t.tiles
    let s := s.setStrand k { t with tiles := [] }
    let s := (s.setCore core ((s.core core).lazyTiles tiles tag)).releaseAll k
    s.setStrand k (t.savedSlot w a tag)
  | _, _ => s.endFatal k true

/-! ### The end of a Saved context -/

/-- A resumption request is queued for a Saved context, or for a strand as its target. -/
def State.resumeAsked (s : State) (k : Nat) : Bool :=
  s.cores.any fun c => c.2.bankq.any fun w => match w.req with | .resume a _ _ => a == k | _ => false
def State.resumeTarget (s : State) (k : Nat) : Bool :=
  (s.core (coreOf k)).bankq.any fun w => match w.req with | .resume _ b _ => b == k | _ => false

/-- Is strand k Free and spoken for by nobody: no resumption and no gang's reservation (R271, R292)? -/
def State.freeStrand (s : State) (k : Nat) : Bool :=
  (s.strand k).status == .free && !s.resumeTarget k && match (s.die (dieOf k)).reserve with | some r => !r.strands.contains k | none => true

/-- Forget a strand in its landing's list of pre-empted treads. -/
def State.unlistSaved (s : State) (k : Nat) : State :=
  let d := s.die (dieOf k)
  if d.saved.contains k then s.setDie (dieOf k) { d with saved := delNat k d.saved } else s

/-- The Saved context of slot k ends as by a fatal trap: its record is discarded, and a request to resume it is withdrawn (R332,
R238). `report` as in `endFatal`. -/
def State.endSaved (s : State) (k : Nat) (report : Bool) : State :=
  let t := s.strand k
  let s := if t.kind = .tread then
      let s := s.departAll k
      if report then s.noteTreadEnd k true
      else match t.flight with
        | some id => match s.flight? id with | some f => s.setFlight (f.endTread t.tread) | none => s
        | none => s
    else s
  let s := ((s.dropOwner t.savedTag).unlistSaved k).dropReqs fun w => w.isResumeOf k
  s.setStrand k (t.vacant (s.endStatus k))

/-! ### Resumption (R282, R342) -/

/-- Names whose tile must be a Free one: those copied or loaded (R238). -/
def State.freshNames (s : State) (core : Nat) (bs : List Byte) : Nat :=
  ((List.range (recHold bs).tiles).filter fun m =>
    let r := recTile bs m
    match r.1 with
    | 1 => (match ((s.core core).tile r.2.1).st with | .lazy g _ => g ≠ recTag bs | _ => true)
    | 2 | 3 | 4 => true
    | _ => false).length

/-- Can the recorded holding be granted to strand `tgt` (R282)? -/
def State.resumeGrantable (s : State) (tgt : Nat) (bs : List Byte) : Bool :=
  let core := coreOf tgt
  let h := recHold bs
  let pages := recPages bs
  let q : Hold := ⟨h.blocks, h.tiles, pages.length⟩
  let free := s.freePages core
  pages.all (fun p => free.contains p) && decide (s.freshNames core bs ≤ (s.freeTiles core).length) &&
  q.le (freeOf (s.holders core)) && safe ((some tgt, recClaim bs, q) :: s.holders core)

/-- Physical tiles of the resumed names with the states they take, in name order: names whose Lazy tile is rebound, then
names copied or loaded into Free tiles, then cleared names (R238). -/
def State.bindTiles (s : State) (core : Nat) (bs : List Byte) : List (Nat × Nat) :=
  let n := (recHold bs).tiles
  let tag := recTag bs
  let back := (List.range n).filterMap fun m =>
    let r := recTile bs m
    if r.1 = 1 && (match ((s.core core).tile r.2.1).st with | .lazy g _ => g == tag | _ => false) then some (m, r.2.1) else none
  let rest := (List.range n).filter fun m => !(back.any fun p => p.1 == m)
  let loads := rest.filter fun m => (recTile bs m).1 ≠ 5
  let clears := rest.filter fun m => (recTile bs m).1 = 5
  let fresh := s.freeTiles core
  let others := (s.freeTiles core).drop loads.length ++ (s.lazyTiles core).filter fun p => !(back.any fun b => b.2 == p)
  back ++ loads.zip fresh ++ clears.zip others

/-- The contents that a name receives: the owner's data from a Bound tile, or a record in the loft, in local HBM or in the
tile part of a checkpoint; none on an uncorrectable error. -/
def State.tileData (s : State) (core : Nat) (a : SaveAt) (bs : List Byte) (m : Nat) : Option (List Byte) :=
  let r := recTile bs m
  match r.1 with
  | 1 => if (s.core core).tileBad r.2.1 then none else some ((s.core core).tile r.2.1).record
  | 2 => if ((s.core core).loftBadAt r.2.2.2 0xC000).isSome then none else some (memRead (s.core core).loft r.2.2.2 0xC000)
  | 3 => match s.physRead none r.2.2.2 0xC000 with | .ok l => some l | .error _ => none
  | 4 => match s.physRead none (a.reg + slotSize + m * 0xC000) 0xC000 with | .ok l => some l | .error _ => none
  | _ => some []

/-- What a resumption reads beside the fixed area is noted: saved rows, pages, and the tiles that are loaded or copied (R94, R104,
R338, R392). -/
def State.noteResume (s : State) (core : Nat) (a : SaveAt) (bs : List Byte) : State :=
  let rows (n : Nat) : List (Nat × Nat) :=
    let e := recExt bs n
    (List.range (min e.1 16)).map fun i => (0x4000 + n * 0x2000 + 512 * i, min e.2 512)
  let s := ((List.range (min (recHold bs).blocks 32)).map rows).flatten.foldl (fun s r => s.noteRecord core a r.1 r.2) s
  let s := s.noteReads ((recPages bs).map fun p => (a.page + p * 0x4000, 0x4000))
  (List.range (recHold bs).tiles).foldl (fun s m =>
    let r := recTile bs m
    let bad (b : Bool) : State := if b then s.eccAdd (some (dieOfCore core)) 1 0 else s
    match r.1 with
    | 1 => match ((s.core core).tile r.2.1).st with | .bound _ _ => bad ((s.core core).tileBad r.2.1) | _ => s
    | 2 => bad ((s.core core).loftBadAt r.2.2.2 0xC000).isSome
    | 3 => s.noteReads [(r.2.2.2, 0xC000)]
    | 4 => s.noteReads [(a.reg + slotSize + m * 0xC000, 0xC000)]
    | _ => s) s

/-- Bind name m to physical tile p (R238). -/
def State.bindTile (s : State) (core : Nat) (a : SaveAt) (bs : List Byte) (m p : Nat) : Option State :=
  let r := recTile bs m
  let c := s.core core
  let t := c.tile p
  match t.st, r.1 with
  | .lazy _ _, 1 => some (s.setCore core (c.setTile p { t with st := .held }))
  | .lazy _ _, _ => some (s.setCore core (c.setTile p t.granted))
  | _, 5 => some (s.setCore core ((c.setTile p Tile.cleared).tileHeal p))
  | _, kd =>
    match s.tileData core a bs m with
    | none => none
    | some d =>
      let c := (c.setTile p (Tile.cleared.load d)).tileHeal p
      some (s.setCore core (if kd = 1 then (c.setTile r.2.1 Tile.cleared).tileHeal r.2.1 else c))

/-- The block of name n as restored from the block area (R172); none on an uncorrectable error. -/
def State.savedBlock (s : State) (core : Nat) (a : SaveAt) (bs : List Byte) (n : Nat) : Option Block :=
  if 32 ≤ n then some Block.zero
  else
    let e := recExt bs n
    let r := min e.1 16
    let b := min e.2 512
    let rows := (List.range r).foldl (fun (acc : Option Nat) i =>
      match acc, s.regPartRead core a (0x4000 + n * 0x2000 + 512 * i) b with
      | some v, some l => some (v + leNat l * 2 ^ (4096 * i))
      | _, _ => none) (some 0)
    rows.map fun v => ⟨BitVec.ofNat 65536 v, false, r, b, r, b, some (a.place core)⟩

/-- The CSRs of a record over those a slot keeps; each field takes what a write would store (R6). The grant is derived
again by R168. -/
def Csrs.restored (c : Csrs) (bs : List Byte) : Csrs :=
  let f := recCsr bs
  let c := { Csrs.reset with ssip := c.ssip, seip := c.seip }
  let c := ([(0x100, 2), (0x105, 3), (0x140, 4), (0x141, 5), (0x142, 6), (0x143, 7), (0x104, 8), (0x106, 9), (0x5C0, 10), (0x800, 11),
    (0x801, 12), (0x802, 13), (0x803, 14), (0x804, 15), (0x805, 16), (0x806, 17), (0x807, 18), (0x809, 19), (0x5C2, 1)]).foldl
      (fun (c : Csrs) p => c.write p.1 (f p.2)) c
  let sh := f 11
  let ty := (ElemTy.ofCode (bits sh 24 5)).getD .f32
  let grant := setBits (setBits (setBits c.shape 24 5 (bits sh 24 5)) 16 5 (min (bits sh 16 5) 16)) 0 11
    (min (bits sh 0 11) (limBits (containerBits c.fd ty)))
  let c := { c with shape := grant, srbase := f 20 &&& 0xFFFFFFFFFFFFF03F, instret := f 23 }
  c.write 0x808 (f 21)

/-- The strand that a resumption starts on slot `t0`: registers and CSRs of the record, with what the landing kept of the
context in `old` (R342 step 2). Its copies, bindings and entries are still to be made again. From a checkpoint the queue is
empty, the tokens are zero, and no port or copy is pending (R345, R320). -/
def Strand.resumed (t0 old : Strand) (bs : List Byte) (blocks tiles pages : List Nat) (cycle : Nat) : Strand :=
  let base := t0.vacant .running
  let c := t0.csr.restored bs
  let ty := (ElemTy.ofCode (bits c.shape 24 5)).getD .f32
  let ck := recIsCkpt bs
  let kept := if ck then [] else recKept bs old.mode (bit c.sstatus 18) (bit c.sstatus 19)
  let copies := if ck then [] else recCopies bs
  let ports := if ck then [] else recPorts bs
  let rp := recN bs 0xB00 8
  let n := min (rp % 64) 32
  { base with
    kind := old.kind, flight := old.flight, tread := old.tread, mode := old.mode, rlCount := old.rlCount, sends := old.sends,
    ckptStep := if ck then recN bs 0x38 8 else old.ckptStep
    written := old.written, pc := setBits (recCsr bs 0) 0 2 0,
    x := Vector.ofFn fun i => if i.val = 0 then 0 else w64 (recN bs (0x40 + 8 * i.val) 8)
    p := Vector.ofFn fun i => BitVec.ofNat 1024 (recN bs (0x280 + 128 * i.val) 128)
    k := Vector.ofFn fun i => let v := recN bs (0x240 + 8 * i.val) 8; if ck then ⟨0, false⟩ else ⟨v % 2 ^ 48, v.testBit 63⟩
    sd := Vector.ofFn fun i => ⟨recN bs (0x6B0 + 64 * i.val) 1 == 1, BitVec.ofNat 384 (recN bs (0x680 + 64 * i.val) 48)⟩
    csr := c, gw := containerBits c.fd ty, claim := recClaim bs, blocks := blocks, tiles := tiles, pages := pages,
    groups := (List.range 4).filterMap fun i =>
      let o := 0x940 + 8 * i
      if recN bs o 8 = 0 then none else some ⟨recN bs o 1, recN bs (o + 1) 1 == 1, recN bs (o + 4) 4⟩
    replay := ⟨(List.range n).map fun i => w64 (recN bs (0xB10 + 8 * i) 8), recN bs 0xB08 8, rp.testBit 6, rp.testBit 7⟩
    srCycle := cycle, srAcc := old.srAcc, haltReq := old.haltReq, body := kept, copies := copies, ports := ports, settle := true }

/-- Resume a context from its record on strand `tgt`, whose request is granted (R282, R342); on an uncorrectable error the context
ends as by a fatal trap (R332, R338). The core's L1 then holds nothing older than what the strand has seen (R148, R149; log 100). -/
def State.resumeOn (s : State) (saved tgt : Nat) (a : SaveAt) (bs : List Byte) (byLoad : Bool) : State :=
  let core := coreOf tgt
  let s := s.noteResume core a bs
  let h := recHold bs
  let names := List.range h.blocks
  let phys := (s.freeBlocks core).take h.blocks
  let blks := names.map fun n => s.savedBlock core a bs n
  let pages := recPages bs
  let imgs := pages.map fun p => match s.physRead none (a.page + p * 0x4000) 0x4000 with | .ok l => some (p, l) | .error _ => none
  let tiles := s.bindTiles core bs
  let s1 := tiles.foldl (fun (o : Option State) p => o.bind fun s => s.bindTile core a bs p.1 p.2) (some s)
  match s1 with
  | none => s.endSaved saved true
  | some s1 =>
    if blks.any Option.isNone || imgs.any Option.isNone then s.endSaved saved true
    else
      let s2 := (phys.zip (blks.filterMap id)).foldl (fun (s : State) p => s.setCore core (((s.core core).zeroBlocks [p.1]).setBlock p.1 p.2)) s1
      let s3 := (imgs.filterMap id).foldl (fun (s : State) p => s.physWrite none (padPage core p.1) p.2) s2
      let old := s3.strand saved
      let s4 := (if saved = tgt then s3 else s3.setStrand saved (old.vacant (s3.leftStatus saved))).unlistSaved saved
      let tnames := (List.range h.tiles).map fun m => match tiles.find? fun p => p.1 == m with | some p => p.2 | none => 0
      let s5 := s4.setStrand tgt ((s4.strand tgt).resumed old bs phys tnames pages (s4.cycles tgt))
      let home := recN bs 0x18 2
      ((s5.acquirePoint tgt .package .both).noteRan.onStrand tgt fun s =>
        if home ≠ core && !byLoad then s.takeTrap (mkTrap 61 (w64 home)) false else s.settleMe)

/-- Does a record pass R341 for the context of slot `saved`: checks 1 to 5, and for a save record check 6, that its tag names that
context? -/
def State.recordFits (s : State) (core saved : Nat) (bs : List Byte) : Bool :=
  s.recordOk core bs && (recIsCkpt bs || recTag bs == (s.strand saved).savedTag)

/-- Can the request be granted now? A request whose record cannot be read, or fails R341, is taken up as well. A resumption leads from
a slot that runs nothing to one that runs nothing (R271). -/
def State.requestReady (s : State) (w : Waiting) : Bool :=
  match w.req with
  | .acq k q => s.grantable k q
  | .flight _ core h => s.asideReady core h
  | .resume saved tgt _ =>
    !(s.strand saved).counted && !(s.strand tgt).counted &&
    match (s.strand saved).saveAt with
    | none => true
    | some a =>
      match s.regPartRead (coreOf tgt) a 0 fixedSize with
      | none => true
      | some bs => !s.recordFits (coreOf tgt) saved bs || s.resumeGrantable tgt bs

/-- RESUMPTION_GRANT: the banker grants the resumption request at idx, unless an older request can be granted first or a
fairness hold stands (R279, R282). A record that fails R341, or that cannot be read, ends the context (R332). -/
def execResumptionGrant (core idx : Nat) (s : State) : Out :=
  let c := s.core core
  if (s.die (dieOfCore core)).stopped then .next s else
  match c.bankq[idx]? with
  | none => .next s
  | some w =>
    match w.req with
    | .acq _ _ | .flight _ _ _ => .next s
    | .resume saved tgt byLoad =>
      if (c.fair && idx ≠ 0) || (c.bankq.take idx).any s.requestReady || !s.requestReady w then .next s
      else
        let s1 := s.setCore core (c.dropReq fun x => x == w)
        match (s.strand saved).saveAt with
        | none => .next (s1.endSaved saved true)
        | some a =>
          let s1 := s1.noteRecord core a 0 fixedSize
          match s1.regPartRead core a 0 fixedSize with
          | none => .next (s1.endSaved saved true)
          | some bs =>
            if !s1.recordFits core saved bs then .next (s1.endSaved saved true)
            else .next (s1.resumeOn saved tgt a bs byLoad)

/-- Grant the `acq` requests of a core, and those of flights, that can be granted, oldest first, up to a resumption request that
can (R274, R278, R279). -/
def State.reevaluate (core : Nat) : List Waiting → State → State
  | [], s => s
  | w :: ws, s =>
    let fair := (s.core core).fair
    match w.req with
    | .resume _ _ _ => if s.requestReady w || fair then s else State.reevaluate core ws s
    | .flight id _ h =>
      if s.requestReady w then
        State.reevaluate core ws ((s.setCore core ((s.core core).dropReq fun x => x.isFlightOf id)).setAside core id h)
      else if fair then s else State.reevaluate core ws s
    | .acq k q =>
      if s.requestReady w then
        let s := (s.leaveBank k).grant k q
        let s := (s.setStrand k { s.strand k with status := .running, wait := .none }).retireAt k
        State.reevaluate core ws s
      else if fair then s else State.reevaluate core ws s

/-- BANKER_REEVALUATION (R278, R279). -/
def execBankerReevaluation (core : Nat) (s : State) : Out :=
  if (s.die (dieOfCore core)).stopped then .next s else .next (State.reevaluate core (s.core core).bankq s)

/-! ### Interrupts and requested pre-emption -/

/-- INTERRUPT: strand k takes its pending enabled interrupt at the scalar front (R331). -/
def execInterrupt (k : Nat) (s : State) : Out :=
  match (s.strand k).interruptNow with
  | some n => if (s.strand k).wait.deferred || s.haltedDie k then .next s else .next (s.onStrand k fun s => s.takeInterrupt n)
  | none => .next s

/-- Is a swap of the partition that has strand k's core under way (R346)? -/
def State.swapping (s : State) (k : Nat) : Bool :=
  match s.regs.swap with | some w => bit (s.part w.1).halls (hallOfCore (coreOf k)) | none => false

/-- The partition in whose save pool a swap saves strand k: the outgoing one (R346). -/
def State.swapPart (s : State) (k : Nat) : Nat := match s.regs.swap with | some w => w.1 | none => s.partOf k

/-- The save place in slot i of a partition's save pool (R362). -/
def State.poolSlot (s : State) (p i : Nat) : SaveAt :=
  let b := (s.part p).saveBase + i * slotSize
  ⟨none, b, b + regPart, some (p, i)⟩

/-- The lowest slot of a partition's save pool that no context uses. -/
def State.freeSlotOf (s : State) (p : Nat) : Option Nat :=
  (List.range (s.part p).saveN).find? fun i => !(s.strands.any fun e => match e.2.saveAt with | some a => a.slot == some (p, i) | none => false)

/-- Is strand k a context that pre-emption can act on (R271)? -/
def State.isLive (s : State) (k : Nat) : Bool := (s.strand k).status == .running || (s.strand k).status == .asleep

/-- Has the condition come that strand k's wait is for (R298)? -/
def State.waitMet (s : State) (k : Nat) : Wait → Bool
  | .gbar g t | .gwait g t => s.genOf k g ≠ some t
  | .waitpred => !s.predPending k
  | .acq q => q.le (freeOf (s.holders (coreOf k)))
  | _ => true

/-- Has the wait ended for which the landing asked strand k's pre-emption (R297, R334)? One that a trap abandoned has not ended by
that (R311): it ends when its condition comes, or when the strand, its frame empty, is at another instruction and does not return to
the waiting one (log 122). -/
def State.lapsed (s : State) (k : Nat) : Bool :=
  let t := s.strand k
  t.preempt && !t.wait.counts &&
    match t.left with
    | some (w, pc) => s.waitMet k w || (!t.frame.occ && t.pc != pc && (t.mode == .u || t.csr.sepc != pc))
    | none => true

/-- A landing's pre-emption that was deferred is withdrawn once the tread's wait has ended (R297, R334). -/
def State.withdrawLapsed (s : State) (k : Nat) : State :=
  let t := s.strand k
  if s.lapsed k then (s.setStrand k { t with preempt := false, saveAt := none, left := none }).unlistSaved k else s

/-- PREEMPTION: a requested pre-emption, of the landing or a swap, or a debug halt to the debug port's save slot, is performed
once no deferral holds, the halt last (R333, R334, R388; log 95). A swap pre-empts to the lowest free slot of the partition's pool
(R346). A landing's request is withdrawn when the tread's wait has ended first, whatever else is asked for. -/
def execPreemption (k : Nat) (s : State) : Out :=
  let swap := s.swapping k
  if !s.isLive k || s.haltedDie k then .next s
  else
    let s := s.withdrawLapsed k
    let t := s.strand k
    if !(t.preempt || t.haltReq || swap) || s.preemptDeferred k then .next s
    else
    match (if t.preempt then t.saveAt else none) with
    | some a => .next (s.preempt k a)
    | none =>
      if swap then
        match s.freeSlotOf (s.swapPart k) with
        | some i => .next (s.preempt k (s.poolSlot (s.swapPart k) i))
        | none => .next s
      else .next ((s.setStrand k { t with haltReq := false }).preempt k ⟨none, s.regs.dbgslot, s.regs.dbgslot + regPart, none⟩)

/-! ### Returns from a trap -/

/-- The return of R322, where the mode admits it. -/
def State.trapReturn (s : State) (i : Instr) : Out :=
  if s.me.mode = .u then s.illegal i
  else .next ((s.setMe s.me.returned).countEv s.cur 2 1)

/-- TRET (R322). -/
def execTret (s : State) : Out := s.trapReturn .tret

/-- SRET has exactly the effect of `tret` (R307). -/
def execSret (s : State) : Out := s.trapReturn .sret

/-! ### ctx.save and ctx.load (R323 to R325) -/

/-- system-operand with a code (R321). -/
def systemOperand (code : Nat) : Trap := mkTrap 60 (w64 code)

/-- A control word's fields: frame mode, loft form, loft offset, target strand (R323). -/
structure CtxCtl where
  f    : Bool
  loft : Bool
  off  : Nat
  idx  : Nat
  deriving DecidableEq, Repr

def ctxCtl (w : Word) : CtxCtl := ⟨bit w 6, bit w 5, bits w 12 8 * 0x1000, bits w 0 4⟩

/-- Codes 1 and 2 of R323. In frame mode with loft = 1 no part lies at x[xa], so that none can leave local HBM there (log 39). -/
def ctxOperand (w a : Word) : Option Nat :=
  let c := ctxCtl w
  let n := a.toNat
  let size := if c.f then (if c.loft then 0 else 0x1000) else if c.loft then pagePart else slotSize
  if bits w 20 44 ≠ 0 || bits w 7 5 ≠ 0 || bit w 4 || 188 < bits w 12 8 then some 1
  else if n % 0x1000 ≠ 0 || (size ≠ 0 && decide (hbmTop < n + size)) then some 2
  else none

/-- The places that the operands name (R323). -/
def CtxCtl.place (c : CtxCtl) (a : Word) : SaveAt :=
  if c.loft then ⟨some c.off, 0, a.toNat, none⟩ else ⟨none, a.toNat, a.toNat + regPart, none⟩

/-- Code 8 of R323: the loft form while the loft holds a swap image (R347). -/
def State.loftTaken (s : State) (c : CtxCtl) : Bool := c.loft && s.myCore.loftImg.isSome

/-- CTX_SAVE: the frame record, or the pre-emption of the target, which the instruction waits for through its deferrals (R324,
R334). -/
def execCtxSave (xc xa : XReg) (s : State) : Out :=
  if s.me.mode = .u then s.illegal (.ctxSave xc xa)
  else
    let w := s.getX xc
    let a := s.getX xa
    let c := ctxCtl w
    let k := 16 * coreOf s.cur + c.idx
    match ctxOperand w a with
    | some e => s.trapScalar (systemOperand e)
    | none =>
      if !c.f && (k = s.cur || !s.isLive k) then s.trapScalar (systemOperand 3)
      else if c.f && k ≠ s.cur then s.trapScalar (systemOperand 5)
      else if s.loftTaken c then s.trapScalar (systemOperand 8)
      else if c.f then
        let place : SaveAt := if c.loft then ⟨some c.off, 0, 0, none⟩ else ⟨none, a.toNat, 0, none⟩
        let s := s.regPartWrite (coreOf s.cur) place 0 s.me.frameRecord
        .next (s.setMe { s.me with frame := Frame.empty }).retire
      else if s.preemptDeferred k then .next s
      else .next ((s.unlistSaved k).preempt k (c.place a)).retire

/-- A `ctx.load` has asked for a Saved context: its request is queued, and never withdrawn (R282). -/
def State.loadAsked (s : State) (k : Nat) : Bool :=
  s.cores.any fun c => c.2.bankq.any fun w => match w.req with | .resume a _ true => a == k | _ => false

/-- The Saved context that a record's tag names, not yet asked for by a `ctx.load` (R341 check 6). -/
def State.savedWith (s : State) (tag : Nat) : Option Nat :=
  (s.strands.find? fun e => e.2.status == .saved && e.2.savedTag == tag && e.2.saveAt.isSome && !s.loadAsked e.1).map Prod.fst

/-- The flight and tread of a checkpoint slot at an address, as the landing's mirror holds them (R343). -/
def State.ckptOwner (s : State) (addr : Nat) : Option (Nat × Nat) :=
  s.flights.findSome? fun f => (f.ckpts.find? fun c => (s.part f.part).ckptBase + (2 * c.pair + c.half) * ckptSize == addr).map fun c => (f.id, c.tread)

/-- Queue the request of R282 for a context of slot `saved` on strand `tgt`, from a place. A request of the landing that still waits
for the context is withdrawn. -/
def State.askResume (s : State) (saved tgt : Nat) (a : SaveAt) (byLoad : Bool) : State :=
  let s := s.dropReqs fun w => w.isResumeOf saved
  let s := s.setStrand saved { s.strand saved with saveAt := some a }
  let core := coreOf tgt
  let c := s.core core
  s.setCore core { c with bankq := c.bankq ++ [⟨.resume saved tgt byLoad, s.cycles tgt⟩] }

/-- Load a record as `ctx.load` does: none when it fails a check of R341. -/
def State.loadRecord (s : State) (tgt : Nat) (a : SaveAt) (bs : List Byte) : Option State :=
  if !s.recordOk (coreOf tgt) bs then none
  else if recIsCkpt bs then
    let t := s.strand tgt
    let o := s.ckptOwner a.reg
    some ((s.setStrand tgt { t with kind := .tread, flight := o.map Prod.fst, tread := (recCsr bs 24).toNat, mode := .u }).askResume tgt tgt a true)
  else (s.savedWith (recTag bs)).map fun k => s.askResume k tgt a true

/-- The trap of a frame record that cannot be read: its first failing sector (R105). -/
def State.frameBad (s : State) (core : Nat) (a : SaveAt) : Trap :=
  match a.loft with
  | some o => s.ownBad (o + ((s.core core).loftBadAt o 0x1000).getD 0)
  | none => let e := match s.physRead none a.reg 0x1000 with | .error e => a.reg + e | .ok _ => a.reg
    uncorrectable e e

/-- The Saved context whose register part lies at a place of a core's loft or of local HBM (R323). -/
def State.savedIn (s : State) (core : Nat) (a : SaveAt) : Option Nat :=
  (s.strands.find? fun e => e.2.status == .saved &&
    match e.2.saveAt with | some b => b.place (coreOf e.1) == a.place core | none => false).map Prod.fst

/-- CTX_LOAD (R325). -/
def execCtxLoad (xc xa : XReg) (s : State) : Out :=
  if s.me.mode = .u then s.illegal (.ctxLoad xc xa)
  else
    let w := s.getX xc
    let a := s.getX xa
    let c := ctxCtl w
    let core := coreOf s.cur
    let k := 16 * core + c.idx
    match ctxOperand w a with
    | some e => s.trapScalar (systemOperand e)
    | none =>
      if !c.f && !s.freeStrand k then s.trapScalar (systemOperand 4)
      else if c.f && k ≠ s.cur then s.trapScalar (systemOperand 5)
      else if c.f && s.me.frame.occ then s.trapScalar (systemOperand 6)
      else if c.f then
        let place : SaveAt := if c.loft then ⟨some c.off, 0, 0, none⟩ else ⟨none, a.toNat, 0, none⟩
        let s := if c.loft then s else s.settleRange core a.toNat 0x1000
        match s.regPartRead core place 0 0x1000 with
        | none => s.trapScalar (s.frameBad core place)
        | some bs =>
          let s := s.noteRecord core place 0 0x1000
          if !s.frameOk bs then s.trapScalar (systemOperand 7)
          else if s.loftTaken c then s.trapScalar (systemOperand 8)
          else
            let t := s.me
            let md : Mode := if bit t.csr.sstatus 8 then .s else .u
            let es := readEntries bs 0x40 (recN bs 4 1) md (bit t.csr.sstatus 18) (bit t.csr.sstatus 19)
            .next (s.setMe { t with
              frame := ⟨true, es, w64 (recN bs 0x10 8) &&& 0xFFFC0, w64 (recN bs 0x18 8) &&& 0xFF07⟩
              csr := t.csr.write 0x5C2 (w64 (recN bs 0x20 8)) }).retire
      else
        let place := c.place a
        let s := (s.settleRange core a.toNat slotSize).noteRecord core place 0 fixedSize
        match s.regPartRead core place 0 fixedSize with
        | none =>
          -- an unreadable record is fatal to the context that was saved there (R332 case 3); with none there, check 6 of R341 fails
          match s.savedIn core place with
          | some j => .next (s.endSaved j true).retire
          | none => s.trapScalar (systemOperand 7)
        | some bs =>
          match s.loadRecord k place bs with
          | none => s.trapScalar (systemOperand 7)
          | some s' => if s.loftTaken c then s.trapScalar (systemOperand 8) else .next s'.retire

/-- RESUME: through the open debug port, the debugger loads the record of a halted strand on its own slot (R388). -/
def execResume (k : Nat) (area : Word) (s : State) : Out :=
  let place : SaveAt := ⟨none, area.toNat, area.toNat + regPart, none⟩
  let t := s.strand k
  if !s.portOpen || t.status ≠ .saved || s.loadAsked k then .next s
  else if area.toNat % 0x1000 ≠ 0 || hbmTop < area.toNat + slotSize then .next s
  else
    let s := s.noteRecord (coreOf k) place 0 fixedSize
    match s.regPartRead (coreOf k) place 0 fixedSize with
    | none => .next (s.endSaved k true)
    | some bs =>
      if s.recordOk (coreOf k) bs && !recIsCkpt bs && recTag bs == t.savedTag then .next (s.askResume k k place true) else .next s

/-! ### tlb.inv (R161, R326) -/

/-- Does a translation of a page match the operands? -/
def tlbMatch (md asid va : Nat) (easid eva esize : Nat) (glob : Bool) : Bool :=
  match md with
  | 0 => eva ≤ va && va < eva + esize && (easid == asid || glob)
  | 1 => eva ≤ va && va < eva + esize
  | 2 => easid == asid && !glob
  | _ => true

def Pin.matched (md asid va : Nat) (p : Pin) : Bool := tlbMatch md asid va p.asid p.va p.size p.glob
def TlbEntry.matched (md asid va : Nat) (e : TlbEntry) : Bool := tlbMatch md asid va e.asid e.va e.size (bit e.pte 5)

/-- A strand's vector-side instruction that holds a matching pin and has performed nothing is trapped back (R161). -/
def Strand.unpin (t : Strand) (p : Pin → Bool) : Strand :=
  if t.pins.any p && t.csr.vsi = 0 then { t with pins := [], bindDone := false } else t

/-- A bound stream with a matching pin is suspended: drained, its read-ahead discarded, to be translated again (R161). -/
def State.suspendPorts (s : State) (p : Pin → Bool) : State :=
  let ks := (s.cores.map Prod.fst)
  ks.foldl (fun s c => (List.range 4).foldl (fun s n =>
    match (s.core c).port n with
    | some q =>
      if !q.susp && q.pins.any p then
        let s := s.portDrain c n
        match (s.core c).port n with
        | some q => if q.wr && !q.buf.isEmpty then s else s.setCore c ((s.core c).setPort n (some { q with buf := [], susp := true }))
        | none => s
      else s
    | none => s) s) s

/-- Does an instruction, an operation or a stream still hold a matching pin? -/
def State.pinHeld (s : State) (p : Pin → Bool) : Bool :=
  (s.strands.any fun e => e.2.pins.any p) ||
  s.cores.any fun c => (c.2.slots.any fun e => match e.2 with | some o => o.pins.any p | none => false) ||
    c.2.ports.any fun e => match e.2 with | some q => !q.susp && q.pins.any p | none => false

/-- Remove the matching entries of every TLB of the package, and every held pointer entry (R161, R326). -/
def State.dropTlbs (s : State) (md asid va : Nat) : State :=
  let keep (e : TlbEntry) : Bool := !e.matched md asid va
  { s with
    cores := Tbl.mapV Core.reset (fun c => { c with tlb := c.tlb.filter keep }) s.cores,
    dies := Tbl.mapV Die.reset (fun d => { d with tlb := d.tlb.filter keep, ptrs := [] }) s.dies }

/-- TLB_INV: it waits at the front while a matching pin is held, and a stop waits for it (R161, R326). -/
def execTlbInv (xv xc : XReg) (s : State) : Out :=
  if s.me.mode = .u then s.illegal (.tlbInv xv xc)
  else
    let w := s.getX xc
    let va := (s.getX xv).toNat
    let md := bits w 0 2
    if bits w 2 46 ≠ 0 || (md < 2 && va / 2 ^ 56 ≠ 0 && va / 2 ^ 56 ≠ 255) then s.trapScalar (systemOperand 1)
    else
      let asid := bits w 48 16
      let p := Pin.matched md asid va
      let s := s.fullPoint s.cur .package .both
      let s := s.dropTlbs md asid va
      let s := { s with strands := Tbl.mapV Strand.reset (fun t => t.unpin p) s.strands }
      let s := ((s.cores.filter fun c => c.2.wtq.any fun e => p e.pin).map Prod.fst).foldl (fun s c => s.drainWt c) s
      let s := s.suspendPorts p
      if s.pinHeld p then .next (s.setMe { s.me with wait := .again (Instr.tlbInv xv xc).bits }) else .next s.retire

/-! ### trace.ctl (R327) -/

/-- Act on one strand's ring: 0 off, 1 on, 2 close a record. -/
def State.traceAct (s : State) (act : Nat) (k : Nat) : State :=
  let t := s.strand k
  let on := bit t.csr.srbase 4
  match act with
  | 0 => s.setStrand k { t with csr := { t.csr with srbase := setBits t.csr.srbase 4 1 0 } }
  | 1 => if on then s else s.setStrand k { t with csr := { t.csr with srbase := setBits t.csr.srbase 4 1 1 }, srCycle := s.cycles k, srAcc := 0 }
  | _ => if on && s.isLive k then s.closeStrip k else s

/-- TRACE_CTL (R327). -/
def execTraceCtl (xc : XReg) (s : State) : Out :=
  if s.me.mode = .u then s.illegal (.traceCtl xc)
  else
    let w := s.getX xc
    let act := bits w 4 2
    if bits w 7 57 ≠ 0 || act = 3 || (bit w 6 && bits w 0 4 ≠ 0) then s.trapScalar (systemOperand 1)
    else
      let core := coreOf s.cur
      let ks := if bit w 6 then strandsOf core else [16 * core + bits w 0 4]
      .next (ks.foldl (fun s k => s.traceAct act k) s).retire

/-! ### Checkpoints (R320, R343, R344) -/

/-- checkpoint-operand with a code. -/
def ckptOperand (code : Nat) : Trap := mkTrap 59 (w64 code)

/-- Has tread n of a flight not ended: is it in a dispatched gang, or in one to be dispatched? -/
def Flight.unended (f : Flight) (n : Nat) : Bool :=
  f.ranges.any fun r => (r.live.any fun l => l.treads.contains n) ||
    (r.todo ++ (r.later.map Batch.gangs).flatten).any fun p => p.1 ≤ n / f.gang && n / f.gang < p.2

/-- The checkpoint pair of a tread's first `ckpt`: the lowest of the partition's pool that no tread owns. With none left, the
landing takes the pair of a tread that has ended (R343; log 84). -/
def State.takePair (s : State) (p : Nat) : Option (State × Nat) :=
  let mine := s.flights.filter fun f => f.part == p
  let used := (mine.map fun f => f.ckpts.map Ckpt.pair).flatten
  match (List.range (min ((s.part p).ckptLen / (2 * ckptSize)) (used.length + 1))).find? fun n => !used.contains n with
  | some n => some (s, n)
  | none =>
    (mine.findSome? fun f => (f.ckpts.find? fun c => !f.unended c.tread).map fun c => (f, c)).map fun x =>
      (s.setFlight { x.1 with ckpts := x.1.ckpts.filter fun c => c.tread ≠ x.2.tread }, x.2.pair)

/-- Write back the Modified lines of the strand's die that it has written since its previous `ckpt` (R320). -/
def State.writeBack (s : State) : State :=
  let d := dieOf s.cur
  let s := { s with dir := s.me.written.foldl (fun t l => if (Tbl.get dirNone t l).owner = some d then dirRecall t l else t) s.dir }
  s.setMe { s.me with written := [] }

/-- Write the checkpoint record of the executing strand to a slot; an uncorrectable error is fatal (R338, R344). -/
def State.writeCkpt (s : State) (addr step : Nat) : Except State State :=
  let core := coreOf s.cur
  let t := s.me
  let c := s.core core
  let a : SaveAt := ⟨none, addr, addr + regPart, none⟩
  let stored := ((t.blocks.take 32).zipIdx).map fun p => (p.2, p.1, 16, 512)
  let bad := c.rowsBad stored || t.tiles.any c.tileBad
  let s := s.noteSave core t.pages bad
  match s.pageImage core t.pages, bad with
  | some imgs, false =>
    let s := (t.tiles.zipIdx).foldl (fun s p => s.saveWrite core (addr + slotSize + p.2 * 0xC000) (c.tile p.1).record) s
    let s := imgs.foldl (fun s p => s.saveWrite core (a.page + p.1 * 0x4000) p.2) s
    let s := (s.writeBlocks core a stored).forgetHome (a.place core)
    let flags := 1 + (if t.pages.isEmpty then 0 else 2) + (if t.tiles.isEmpty then 0 else 4)
    let head : RecordHead :=
      ⟨flags, tagOf s.cur t.tagCount, t.pc + 4, step, .none, [], [], [], (t.tiles.map fun _ => leBytes 16 4).flatten, stored.map fun _ => (16, 512)⟩
    .ok (s.regPartWrite core a 0 (s.fixedArea s.cur head))
  | _, _ => .error (s.endFatal s.cur true)

/-- CKPT (R320): the record goes to the half of the tread's pair that does not hold the current one (R344). -/
def execCkpt (rs : XReg) (s : State) : Out :=
  let t := s.me
  let step := (s.getX rs).toNat
  match checkAll [
      if t.kind = .tread then .ok () else .error (ckptOperand 4),
      if t.toksZero 0xFF then .ok () else .error (ckptOperand 1),
      if s.noStreams then .ok () else .error (ckptOperand 2),
      if t.replay.cap then .error (ckptOperand 3) else .ok (),
      if step ≤ t.ckptStep then .error (ckptOperand 5) else .ok (),
      s.needTiles (List.range t.tiles.length)] with
  | .error e => s.trapScalar e
  | .ok _ =>
    let s := (s.releasePoint s.cur .package).writeBack
    -- no record without a flight, a pool, or a pair of the pool (log 84)
    let plain : State := (s.setMe { s.me with ckptStep := step }).retire
    match s.myFlight? with
    | none => .next plain
    | some f =>
      let part := s.part f.part
      let old := f.ckpts.find? fun c => c.tread == t.tread
      let pair := if !part.pools then none else match old with | some c => some (s, c.pair) | none => s.takePair f.part
      match pair with
      | none => .next plain
      | some (s, pair) =>
        let new : Ckpt := match old with
          | some c => { c with half := 1 - c.half, step := step, both := true }
          | none => ⟨t.tread, pair, 0, step, false⟩
        match s.writeCkpt (part.ckptBase + (2 * new.pair + new.half) * ckptSize) step with
        | .error u => .next u
        | .ok s' =>
          let f := (s'.flight? f.id).getD f
          let s' := s'.setFlight { f with ckpts := new :: f.ckpts.filter fun c => c.tread ≠ t.tread }
          .next (s'.setMe { s'.me with ckptStep := step, tagCount := s'.me.tagCount + 1 }).retire

end Sys2Proof.Machine
end

