-- ==== Sys2Proof/Machine/Landing.lean ====
section
/-! DEFINITION. Flights and landings (R286 to R305): validation, the range split, placement, wait-triggered pre-emption,
completion and reissue; `fl.launch` and `tread.end` (R316, R319). -/
namespace Sys2Proof.Machine

/-! ### Accesses of a landing (R286) -/

/-- The context of a landing's accesses: S mode with SUM = 1 and MXR = 0 under the flight's `vmroot`. -/
def landCtx (part : Nat) (vmroot : Word) : Ctx := ⟨none, part, vmroot, .s, true, false⟩

/-- Global space that a landing reaches: everything global but the device registers (R286). -/
def State.landReach (s : State) (pa : Nat) : Bool :=
  match regionOf pa with
  | .hbm | .host => true
  | .window p off => s.pkgReachable p && off < 0xC000000000
  | _ => false

/-- Read n bytes that lie in one 64 KiB page, at their home, with the state that the read and its walk leave (R94, R104, R392). -/
def State.landReadPage (s : State) (c : Ctx) (va n : Nat) : State × Option (List Byte) :=
  match translate s c .read va with
  | .error e => (e.1, none)
  | .ok (s, x) =>
    if !s.landReach x.pa then (s, none)
    else
      match s.accessKey c x.enc .read va with
      | .error _ => (s, none)
      | .ok key => (s.noteReads [(x.pa, n)], match s.physRead key x.pa n with | .ok bs => some bs | .error _ => none)

/-- Read n bytes at va, page by page; the first number bounds the pages. -/
def State.landReadGo (c : Ctx) : Nat → Nat → Nat → State → State × Option (List Byte)
  | 0, _, _, s => (s, some [])
  | f + 1, va, n, s =>
    if n = 0 then (s, some [])
    else
      let m := min n (0x10000 - va % 0x10000)
      match s.landReadPage c va m with
      | (s, none) => (s, none)
      | (s, some a) =>
        let r := State.landReadGo c f (va + m) (n - m) s
        (r.1, r.2.map (a ++ ·))

def State.landRead (s : State) (c : Ctx) (va n : Nat) : State × Option (List Byte) := State.landReadGo c (n / 0x10000 + 2) va n s

/-- Write at most 32 aligned bytes at va; nothing when the write fails. -/
def State.landWrite (s : State) (c : Ctx) (va : Nat) (bs : List Byte) : State :=
  match translate s c .write va with
  | .error e => e.1
  | .ok (s, x) =>
    if !s.landReach x.pa then s
    else match s.accessKey c x.enc .write va with
      | .error _ => s
      | .ok key => s.writeHome none key x.pa bs

/-! ### Validation (R287 to R289, R293) -/

/-- Extents, steps, positions, treads and gangs of a record's bytes (R287). -/
def recExtents (bs : List Byte) : List Nat := (List.range 4).map fun i => recN bs (40 + 4 * i) 4
def recSteps (bs : List Byte) : List Nat := (List.range 4).map fun i => recN bs (56 + 4 * i) 4
def positions (ext step : List Nat) : List Nat := (ext.zip step).map fun p => (p.1 + p.2 - 1) / p.2
def treadCount (ext step : List Nat) : Nat := (positions ext step).foldl (· * ·) 1

/-- The capacity of a core (R289). -/
def capacity (hpc spp : Nat) (claim : Hold) : Nat :=
  let t (c pool k : Nat) : Nat := if c = 0 then k else min k (pool / c)
  t claim.pages (64 - spp) (t claim.tiles 8 (t claim.blocks 64 (16 - hpc)))

/-- Is an order byte a permutation of the four dimensions? -/
def orderOk (o : Nat) : Bool := [0, 1, 2, 3].all fun d => (List.range 4).any fun l => o / 4 ^ l % 4 == d

/-- Byte offsets of the failing conditions of check 2 (R288). -/
def badOffsets (bs : List Byte) : List Nat :=
  let f := recN bs
  let ext := recExtents bs
  let step := recSteps bs
  let add (c : Bool) (o : Nat) : List Nat := if c then [o] else []
  add (f 0 8 % 4 ≠ 0) 0 ++ add (f 16 8 % 64 ≠ 0) 16 ++ add (f 32 8 % 32 ≠ 0) 32 ++
  ((List.range 4).filter fun i => ext.getD i 0 = 0).map (fun i => 40 + 4 * i) ++
  ((List.range 4).filter fun i => step.getD i 0 = 0).map (fun i => 56 + 4 * i) ++
  add (ext.all (· ≠ 0) && step.all (· ≠ 0) && 2 ^ 40 ≤ treadCount ext step) 40 ++
  add (Hold.resv (w64 (f 72 8)) ≠ 0) 72 ++ add (!orderOk (f 82 1)) 82 ++ add (f 83 1 / 4 ≠ 0) 83 ++ add (7 < f 84 1) 84 ++
  add (f 85 1 = 0 || 16 < f 85 1) 85 ++ add (15 < f 86 1) 86 ++ add (f 87 1 ≠ 0) 87 ++ add (64 < f 88 2) 88 ++
  add (256 < f 90 2) 90 ++ add (f 92 4 ≠ 0) 92 ++ add (f 104 4 % 32 ≠ 0 || f 88 2 * 16384 < f 104 4) 104 ++ add (f 108 4 ≠ 0) 108 ++
  add (f 120 4 % 32 ≠ 0 || f 90 2 * 65536 < f 120 4) 120 ++ add (f 124 4 ≠ 0) 124

/-- Live dies that a mask names and that hold a hall of the partition, rising (R288, R291, R361). -/
def State.flightDies (s : State) (part affinity : Nat) : List Nat :=
  (List.range 8).filter fun d => affinity.testBit d && s.dieLive d && (List.range 9).any fun h => bit (s.part part).halls (9 * d + h)

/-- Members of one list are rising and below T. -/
def risingBelow (T : Nat) : List Nat → Bool
  | [] => true
  | [a] => decide (a < T)
  | a :: b :: t => decide (a < b) && risingBelow T (b :: t)

/-- Cut bytes into n64 values. -/
def n64s (bs : List Byte) (n : Nat) : List Nat := (List.range n).map fun i => recN bs (8 * i) 8

/-- Read group i of a table, after the groups before it; the error is its index (R293). -/
def State.readGroup (c : Ctx) (tab T i : Nat) (a : State × List Group) : Except (State × Nat) (State × List Group) :=
  let (s, gs) := a
  match s.landRead c (tab + 16 * i) 16 with
  | (s, none) => .error (s, i)
  | (s, some e) =>
    let n := recN e 8 4
    if n = 0 then .ok (s, gs)
    else if T < n then .error (s, i)
    else
      match s.landRead c (recN e 0 8) (8 * n) with
      | (s, none) => .error (s, i)
      | (s, some l) =>
        let ms := n64s l n
        let inFour (m : Nat) : Bool := 4 ≤ (gs.filter fun g => g.members.contains m).length
        if recN e 0 8 % 8 ≠ 0 || !risingBelow T ms || ms.any inFour then .error (s, i)
        else .ok (s, gs ++ [⟨i, ms, 0, 0, n, []⟩])

/-- The group table; none of it when grptab = 0. -/
def State.readGroups (s : State) (c : Ctx) (tab T : Nat) : Except (State × Nat) (State × List Group) :=
  if tab = 0 then .ok (s, []) else iterE (State.readGroup c tab T) 256 (s, [])

/-- Read an image of a flight; none of it at address 0 (R286, R292). -/
def State.readImage (s : State) (c : Ctx) (va n : Nat) : State × Option (List Byte) :=
  if va = 0 then (s, some []) else s.landRead c va n

/-- The range of die L_i among D dies over n gangs (R291). -/
def splitRange (n D i : Nat) : Nat × Nat := (n * i / D, n * (i + 1) / D)

/-- The flight that an accepted record launches. -/
def State.newFlight (s : State) (part : Nat) (vmroot addr : Word) (bs : List Byte) (groups : List Group) (cmd : Option (Nat × Nat)) : Flight :=
  let f := recN bs
  let ext := recExtents bs
  let step := recSteps bs
  let gang := f 85 1
  let G := (treadCount ext step + gang - 1) / gang
  let ds := s.flightDies part (f 80 2)
  let ranges := (List.range ds.length).map fun i =>
    let d := ds.getD i 0
    let r := splitRange G ds.length i
    (⟨d, if r.1 < r.2 then [r] else [], [], [], (s.die d).cycles, 0, 0, []⟩ : Range)
  let pred := f 24 8
  let predId := if pred = 0 then none
    else (s.flights.reverse.find? fun g => g.part == part && g.vmroot == vmroot && g.addr.toNat == pred).map Flight.id
  { id := s.nextId, addr := addr, vmroot := vmroot, part := part, entry := w64 (f 0 8), arg := w64 (f 8 8), grptab := w64 (f 16 8),
    pred := w64 pred, done := w64 (f 32 8), ext := ext, step := step, claim := Hold.unpack (w64 (f 72 8)), affinity := f 80 2,
    order := f 82 1, serp := (f 83 1).testBit 0, sms := (f 83 1).testBit 1, prio := f 84 1, gang := gang, hpc := f 86 1, spp := f 88 2,
    gpp := f 90 2, simg := w64 (f 96 8), ssize := f 104 4, gimg := w64 (f 112 8), gsize := f 120 4, predId := predId, hinted := false,
    placed := f 90 2 == 0, ranges := ranges, groups := groups, cores := [], ended := 0, fatal := none, imgErr := none, abort := none,
    ckpts := [], rlMode := bits (s.part part).rlctl 0 2, cmd := cmd }

/-- The checks of R288 in order, with the state that their reads leave; the error is the code and detail, with the record when it
was read. Of a misaligned record nothing is read, its `done` field included (log 107). -/
def State.validate (s : State) (part : Nat) (vmroot addr : Word) (cmd : Option (Nat × Nat)) :
    State × Except (Nat × Nat × Option (List Byte)) Flight :=
  let c := landCtx part vmroot
  match (if addr.toNat % 64 ≠ 0 then (s, none) else s.landRead c addr.toNat 128) with
  | (s, none) => (s, .error (1, 0, none))
  | (s, some bs) =>
    let f := recN bs
    let no (s : State) (code detail : Nat) : State × Except (Nat × Nat × Option (List Byte)) Flight := (s, .error (code, detail, some bs))
    match (badOffsets bs).min? with
    | some o => no s 2 o
    | none =>
      let T := treadCount (recExtents bs) (recSteps bs)
      let k := capacity (f 86 1) (f 88 2) (Hold.unpack (w64 (f 72 8)))
      let D := (s.flightDies part (f 80 2)).length
      if k = 0 then no s 2 72
      else if D = 0 then no s 3 (f 80 2)
      else
        match s.readGroups c (f 16 8) T with
        | .error (s, g) => no s 4 g
        | .ok (s, gs) =>
          match gs.find? fun g => k * 144 * D < g.members.length with
          | some g => no s 5 g.g
          | none =>
            match s.readImage c (f 96 8) (f 104 4) with
            | (s, none) => no s 1 96
            | (s, some _) =>
              match s.readImage c (f 112 8) (f 120 4) with
              | (s, none) => no s 1 112
              | (s, some _) => (s, .ok (s.newFlight part vmroot addr bs gs cmd))

/-- The completion record (R301). -/
def completionBytes (status detail treads time : Nat) : List Byte :=
  leBytes 4 status ++ leBytes 4 detail ++ leBytes 8 treads ++ leBytes 8 time ++ leBytes 8 0

/-! ### Gallery pages at launch (R292) -/

/-- Halls whose gallery pages a flight sets aside: every hall of the live dies of its mask (R292). -/
def State.flightHalls (s : State) (f : Flight) : List Nat :=
  ((s.flightDies f.part f.affinity).map fun d => (List.range 9).map fun h => 9 * d + h).flatten

/-- Set aside the gallery pages of a flight and copy its image, unless another flight has some of them (R292). -/
def State.setGalleries (s : State) (f : Flight) : State :=
  let halls := s.flightHalls f
  if f.placed || s.gallery.any (fun g => halls.contains g.2.1) then s
  else
    let s := { s with gallery := s.gallery ++ halls.map fun h => (f.id, h, f.gpp) }
    match s.readImage (landCtx f.part f.vmroot) f.gimg.toNat f.gsize with
    | (s, none) => s.setFlight { f with placed := true, imgErr := some 112 }
    | (s, some bs) =>
      let s := halls.foldl (fun (s : State) h => s.physWrite none (galleryBase + h * 0x1000000 + (256 - f.gpp) * 0x10000) bs) s
      s.setFlight { f with placed := true }

/-- Flights that wait for gallery pages take them in launch order. -/
def State.settleGalleries (s : State) : State :=
  (s.flights.map Flight.id).foldl (fun s id => match s.flight? id with | some f => s.setGalleries f | none => s) s

/-! ### Launching (R288, R316) -/

/-- Launched, incomplete flights of a partition. -/
def State.flightCount (s : State) (part : Nat) : Nat := (s.flights.filter fun f => f.part == part).length

/-- The fields of `vmroot` that can be written; [46:38] read as 0 (R97). -/
def vmrootMask : Word := 0xFFFF803FFFFFFFFF

/-- The head landing takes a launch: code and detail, and the state with the flight, or with the completion record of a
rejected one (R288). -/
def State.launchFlight (s : State) (part : Nat) (root addr : Word) (cmd : Option (Nat × Nat)) : State × Nat × Nat :=
  let vmroot := root &&& vmrootMask
  match s.validate part vmroot addr cmd with
  | (s, .ok f) => (({ s with flights := s.flights ++ [f], nextId := s.nextId + 1 }).setGalleries f, 0, 0)
  | (s, .error (code, detail, some bs)) =>
    let done := recN bs 32 8
    ((if done % 32 = 0 then s.landWrite (landCtx part vmroot) done (completionBytes code detail 0 s.time) else s), code, detail)
  | (s, .error (code, detail, none)) => (s, code, detail)

/-- FL_LAUNCH: it waits while a head is being elected, and a stop waits for it (R316, R303). -/
def execFlLaunch (rd rs : XReg) (s : State) : Out :=
  let s1 := s.releasePoint s.cur .package
  let part := s.partOf s.cur
  if 4096 ≤ s1.flightCount part then .next (s1.retireX rd 8)
  else if s1.elect then .next (s1.setMe { s1.me with wait := .again (Instr.flLaunch rd rs).bits })
  else
    let r := s1.launchFlight part s1.me.csr.vmroot (s1.getX rs) none
    .next (r.1.retireX rd (w64 r.2.1))

/-- TREAD_END: its waits re-execute it from its first step until the departure (R319). -/
def execTreadEnd (s : State) : Out :=
  let k := s.cur
  if s.me.kind ≠ .tread then s.trapScalar (messageOperand 2)
  else if !s.me.toksZero 0xFF then .next s
  else
    let e := s.me.tokErrs 0xFF
    if e ≠ 0 then (s.setMe (s.me.clearErrs 0xFF)).trapScalar (mkTrap 29 (w64 e))
    else
      let s := (s.tokAcquire k (maskToks 0xFF)).completeOps k
      if !(s.portsOf k).isEmpty then .next s
      else
        let s := (s.releasePoint k .package).departAll k
        if s.pagesBusy (coreOf k) s.me.pages then .next (s.setMe { s.me with wait := .ending, waitSince := s.cycles k })
        else .next (s.finishTread k)

/-! ### Walk order (R290) -/

/-- Tile position of each dimension for tread n, by level. -/
def walkGo (order : Nat) (serp : Bool) (E : List Nat) (n : Nat) : List Nat → Nat → List (Nat × Nat)
  | [], _ => []
  | l :: ls, P =>
    let d := order / 4 ^ l % 4
    let e := E.getD d 1
    let c := n / P % e
    let c := if serp && l < 3 && n / (P * e) % 2 = 1 then e - 1 - c else c
    (d, c) :: walkGo order serp E n ls (P * e)

/-- idx_0 to idx_3 of tread n (R290). -/
def Flight.walk (f : Flight) (n : Nat) : List Nat :=
  let cs := walkGo f.order f.serp (positions f.ext f.step) n [0, 1, 2, 3] 1
  (List.range 4).map fun d => ((cs.find? fun p => p.1 == d).map Prod.snd).getD 0 * f.step.getD d 1

/-- Treads of gang g (R287). -/
def Flight.gangTreads (f : Flight) (g : Nat) : List Nat :=
  let T := treadCount f.ext f.step
  (List.range (min ((g + 1) * f.gang) T - g * f.gang)).map (· + g * f.gang)

/-! ### The order of placement (R294, R299) -/

/-- Effective level on a landing (R294). -/
def Range.level (r : Range) (f : Flight) : Nat := min 7 (f.prio + r.boost)

/-- Has the range anything to be dispatched? -/
def Range.waits (r : Range) : Bool := !r.todo.isEmpty || !r.treads.isEmpty

/-- What a range dispatches next, as a gang number and treads: its first undispatched gang, then single treads that were lost
with another die (R291, R304, R255). -/
def Range.next (r : Range) (f : Flight) : Option (Nat × List Nat) :=
  match r.todo, r.treads with
  | (g, _) :: _, _ => some (g, f.gangTreads g)
  | [], n :: _ => some (n / f.gang, [n])
  | [], [] => none

/-- Once nothing else is to be dispatched, the batch given first comes up; it has waited since it was given (R304, R294). -/
def Range.promote (r : Range) : Range :=
  if r.waits then r
  else
    match r.later with
    | b :: l => { r with todo := b.gangs, treads := b.treads, since := b.since, boost := 0, later := l }
    | [] => r

/-- The range that a die's landing walks. -/
def Flight.rangeOf (f : Flight) (d : Nat) : Option Range := f.ranges.find? fun r => r.die == d

/-- May gangs of the flight be placed on die d as far as its predecessor goes: it has none, it has completed, or it lets
successors start early and no gang of it waits for strands there (R299)? -/
def State.predLets (s : State) (f : Flight) (d : Nat) : Bool :=
  match f.predId with
  | none => true
  | some p =>
    match s.flight? p with
    | none => true
    | some g => g.sms && g.hinted && (match g.rangeOf d with | some r => !r.waits | none => true)

/-- Has the flight a gang that die d's landing may place? -/
def State.placeable (s : State) (f : Flight) (d : Nat) : Bool :=
  !s.swapOf f.part && f.placed && f.imgErr.isNone && f.abort.isNone && s.predLets f d &&
  match f.rangeOf d with | some r => r.waits | none => false

/-- The flight that comes first in the order of R294, with its range: the highest level, and within it a gang requeued at the
head (R295), then launch order. -/
def State.chosen (s : State) (d : Nat) : Option (Flight × Range) :=
  (s.flights.filter fun f => s.placeable f d).foldl (fun (acc : Option (Flight × Range)) f =>
    match f.rangeOf d, acc with
    | some r, none => some (f, r)
    | some r, some (g, q) =>
      if q.level g < r.level f || (q.level g == r.level f && decide (q.head < r.head)) then some (f, r) else some (g, q)
    | none, a => a) none

/-- Has the wait ended that a Saved tread was pre-empted in (R298)? -/
def State.savedWaitEnded (s : State) (k : Nat) : Bool := s.waitMet k (s.strand k).wait

/-- Saved treads of a landing whose wait has ended, in the order of pre-emption: until they are resumed, no gang is placed
(R294, R298). -/
def State.savedEnded (s : State) (d : Nat) : List Nat :=
  (s.die d).saved.filter fun k => (s.strand k).status == .saved && !s.swapOf (s.partOf k) && s.savedWaitEnded k

/-- Those of them that have not been asked for. -/
def State.savedReady (s : State) (d : Nat) : List Nat := (s.savedEnded d).filter fun k => !s.resumeAsked k

/-! ### Placement (R292) -/

/-- Free strands of a core, lowest first; the strands of one reservation count as free to it. -/
def State.freeOn (s : State) (core : Nat) (mine : List Nat) : List Nat :=
  (strandsOf core).filter fun k => s.freeStrand k || (mine.contains k && (s.strand k).status == .free)

/-- Treads of a flight that occupy a core: running or asleep on it, or with a resumption asked for on it (R289). -/
def State.treadsOn (s : State) (id core : Nat) : Nat :=
  let mine (k : Nat) : Bool := (s.strand k).flight == some id && (s.strand k).kind == .tread
  ((strandsOf core).filter fun k => mine k && (s.strand k).counted).length +
    ((s.core core).bankq.filter fun w => match w.req with | .resume a _ _ => mine a | _ => false).length

/-- Has the flight its scratchpad pages set aside on a core? -/
def State.hasAside (s : State) (id core : Nat) : Bool := (s.core core).aside.any fun a => a.1 == id

/-- Are the pages of a flight set aside on a core, or can they be at once: no fairness hold stands against it, no request that is
older can be granted, and the banker finds the request grantable (R274, R279)? -/
def State.padReady (s : State) (f : Flight) (core : Nat) : Bool :=
  f.spp = 0 || s.hasAside f.id core ||
    (!s.fairAgainstFlight core f.id && !((s.core core).bankq.takeWhile fun w => !w.isFlightOf f.id).any s.requestReady &&
      s.asideReady core ⟨0, 0, f.spp⟩)

/-- Strands of a core that members of a gang may take, its pages apart: those reserved for it first (R289, R292). -/
def State.strandRoom (s : State) (f : Flight) (core : Nat) (mine : List Nat) : List Nat :=
  let free := (s.freeOn core mine).filter mine.contains ++ (s.freeOn core mine).filter fun k => !mine.contains k
  let k := capacity f.hpc f.spp f.claim - s.treadsOn f.id core
  free.take (min k (free.length - (if f.cores.contains core then 0 else f.hpc)))

/-- Strands of a core that members of a gang may take (R292). -/
def State.coreRoom (s : State) (f : Flight) (core : Nat) (mine : List Nat) : List Nat :=
  if !f.cores.contains core && !s.padReady f core then [] else s.strandRoom f core mine

/-- Cores of a hall (hall 9d + h of the package). -/
def coresOfHall (hall : Nat) : List Nat := (List.range 16).map (· + 16 * hall)

/-- Strands of a hall for a gang, cores in increasing number. -/
def State.hallRoom (s : State) (f : Flight) (hall : Nat) (mine : List Nat) : List Nat :=
  ((coresOfHall hall).map fun c => s.coreRoom f c mine).flatten

/-- Strands of a hall that stay reserved, or come to be, for a gang of n treads: where the pages are still asked for, only those
reserved already (R289, R292). -/
def State.reserveRoom (s : State) (f : Flight) (hall : Nat) (mine : List Nat) (n : Nat) : List Nat :=
  (((coresOfHall hall).map fun c =>
    let r := s.coreRoom f c mine
    if r.isEmpty then (s.strandRoom f c mine).filter mine.contains else r).flatten).take n

/-- The landing asks for the pages of the cores of a hall that a gang of n treads would take, in the order of the banker's queue
(R274, R279, R292). -/
def State.askPages (s : State) (f : Flight) (hall : Nat) (mine : List Nat) (n : Nat) : State :=
  ((coresOfHall hall).foldl (fun (a : State × Nat) core =>
    let room := (s.strandRoom f core mine).length
    let c := a.1.core core
    if n ≤ a.2 || room = 0 || f.cores.contains core || s.padReady f core || c.bankq.any (fun w => w.isFlightOf f.id) then (a.1, a.2 + room)
    else (a.1.setCore core { c with bankq := c.bankq ++ [⟨.flight f.id core ⟨0, 0, f.spp⟩, s.cycles (16 * core)⟩] }, a.2 + room)) (s, 0)).1

/-- Halls of the partition on die d, most free strands first, then lowest (R292). -/
def State.hallOrder (s : State) (f : Flight) (d : Nat) (mine : List Nat) : List Nat :=
  let hs := ((List.range 9).map fun h => 9 * d + h).filter fun h => bit (s.part f.part).halls h
  let free (h : Nat) : Nat := ((coresOfHall h).map fun c => (s.freeOn c mine).length).sum
  ((hs.map fun h => (2304 - free h, h)).foldr insPair []).map Prod.snd

/-- First placement of a flight on a core: pages set aside, the image bs copied, handlers made Dormant (R292). `taken` are the strands
of the gang. The core's L1 then holds nothing older than what the launch released, whoever of the flight reads it first (R316). -/
def State.firstPlacement (f : Flight) (bs : List Byte) (taken : List Nat) (s : State) (core : Nat) : State :=
  let s := if f.spp = 0 || s.hasAside f.id core then s
    else (s.setCore core ((s.core core).dropReq fun w => w.isFlightOf f.id)).setAside core f.id ⟨0, 0, f.spp⟩
  let s := s.physWrite none (padPage core (64 - f.spp)) bs
  let hs := ((s.freeOn core []).filter fun k => !taken.contains k).take f.hpc
  (hs.foldl (fun s k => s.setStrand k { s.strand k with status := .dormant, handlerOf := some f.id }) s).acquirePoint (16 * core) .package .both

/-- The half of a tread's checkpoint pair that a restart uses: of those written for it, the one with the higher step among those
whose magic and step stand in memory; a half that cannot be read stays chosen, and is fatal (R344, R338; log 98). -/
def State.ckptHalf (s : State) (f : Flight) (c : Ckpt) : Nat :=
  let step (h : Nat) : Except Nat Nat :=
    (s.physRead none ((s.part f.part).ckptBase + (2 * c.pair + h) * ckptSize) 64).map fun bs => if recN bs 0 4 = recMagic then recN bs 0x38 8 else 0
  if !c.both then c.half
  else
    match step c.half, step (1 - c.half) with
    | .ok a, .ok b => if a < b then 1 - c.half else c.half
    | _, _ => c.half

/-- Start tread n of a flight on strand k, with an acquire point that takes up what the launch released (R292, R316), or ask for
its restart from a checkpoint (R304, R345). -/
def State.startTread (s : State) (f : Flight) (g k n : Nat) : State :=
  match f.ckpts.find? fun c => c.tread == n with
  | some c =>
    let slot (h : Nat) : Nat := (s.part f.part).ckptBase + (2 * c.pair + h) * ckptSize
    let addr := slot (s.ckptHalf f c)
    let s := if c.both then s.noteReads [(slot 0, 64), (slot 1, 64)] else s
    let t := (s.strand k).vacant .saved
    (s.setStrand k { t with kind := .tread, flight := some f.id, tread := n, mode := .u, ckptStep := c.step }).askResume k k
      ⟨none, addr, addr + regPart, none⟩ false
  | none =>
    let t := (s.strand k).vacant .running
    let idx := f.walk n
    let x : Vector Word 32 := ((((((Vector.replicate 32 (0 : Word)).set 10 (w64 (idx.getD 0 0))).set 11 (w64 (idx.getD 1 0))).set 12
      (w64 (idx.getD 2 0))).set 13 (w64 (idx.getD 3 0))).set 14 (w64 n)).set 15 f.arg |>.set 16 (w64 (n - g * f.gang))
    (s.setStrand k { t with
      kind := .tread, flight := some f.id, tread := n, mode := .u, pc := f.entry, claim := f.claim, x := x, srCycle := s.cycles k
      csr := { t.csr with vmroot := f.vmroot } }).noteRan.acquirePoint k .package .both

/-- Take gang g out of intervals. -/
def takeGang (g : Nat) (iv : List (Nat × Nat)) : List (Nat × Nat) := cutIv iv g (g + 1)

/-- Tread n of gang g is dispatched again alone: it stands last, in an entry of its own (R255, R297). -/
def LiveGangs.again (l : List LiveGang) (g n : Nat) : List LiveGang :=
  l.map (fun (x : LiveGang) => { x with treads := x.treads.filter (· ≠ n) }) ++ [⟨g, [n], 0⟩]

/-- A range after what it dispatches next has been dispatched. -/
def Range.dispatched (r : Range) (f : Flight) : Range :=
  match r.todo, r.treads with
  | (g, _) :: _, _ => Range.promote { r with todo := takeGang g r.todo, live := r.live ++ [⟨g, f.gangTreads g, 0⟩], head := 0 }
  | [], n :: ns => Range.promote { r with treads := ns, live := LiveGangs.again r.live (n / f.gang) n, head := 0 }
  | [], [] => r

/-- The mirror of die d after its next gang is dispatched (R291). -/
def Flight.dispatch (f : Flight) (d : Nat) : Flight :=
  { f with ranges := f.ranges.map fun r => if r.die = d then r.dispatched f else r }

/-- The landing of die d withdraws what it still asks for a flight: pages of cores it has not placed on (R274; log 85). -/
def State.dropFlightReqs (s : State) (d id : Nat) : State :=
  s.dropReqs fun w => match w.req with | .flight i c _ => i == id && dieOfCore c == d | _ => false

/-- Start a whole gang on strands (R292). -/
def State.startGang (s : State) (f : Flight) (d g : Nat) (ns ks : List Nat) : State :=
  let cores := (ks.map coreOf).eraseDups.filter fun c => !f.cores.contains c
  let s := s.setDie d { s.die d with reserve := none }
  match if cores.isEmpty then (s, some []) else s.readImage (landCtx f.part f.vmroot) f.simg.toNat f.ssize with
  | (s, none) => s.setFlight { f with imgErr := some 96 }
  | (s, some bs) =>
    let s := cores.foldl (State.firstPlacement f bs ks) s
    let f1 := { f.dispatch d with cores := f.cores ++ cores }
    let s := s.setFlight f1
    let s := if f1.ranges.any (fun r => r.die == d && r.waits) then s else s.dropFlightReqs d f.id
    (ks.zip ns).foldl (fun s p => s.startTread f g p.1 p.2) s

/-- GANG_PLACEMENT: the landing of a die places the next gang of the flight that comes first, whole, or reserves strands for
it in one hall of the partition and asks for the pages it lacks (R274, R292, R294). Nothing is placed while a pre-empted tread whose
wait has ended is still to be resumed (R298). -/
def execGangPlacement (d : Nat) (s : State) : Out :=
  if !s.dieLive d || (s.die d).stopped || !(s.savedEnded d).isEmpty then .next s
  else
    match s.chosen d with
    | none => .next s
    | some (f, r) =>
      match r.next f with
      | none => .next s
      | some (g, ns) =>
        if (s.die d).reserve.any (fun (q : Reserve) => q.flight ≠ f.id) then .next s
        else
          let mine := match (s.die d).reserve with | some q => q.strands | none => []
          let halls := s.hallOrder f d mine
          match halls.find? fun h => ns.length ≤ (s.hallRoom f h mine).length with
          | some h => .next (s.startGang f d g ns ((s.hallRoom f h mine).take ns.length))
          | none =>
            match (mine.map fun k => hallOfCore (coreOf k)).filter halls.contains ++ halls with
            | [] => .next s
            | h :: _ =>
              let room := s.reserveRoom f h mine ns.length
              let s1 := s.askPages f h mine ns.length
              if room.isEmpty && mine.isEmpty then .next s1
              else .next (s1.setDie d { s1.die d with reserve := if room.isEmpty then none else some ⟨f.id, g, room⟩ })

/-- AGE_BOOST: the oldest undispatched gang of a flight has waited another 2^20 cycles on a landing (R294). -/
def execAgeBoost (d flight : Nat) (s : State) : Out :=
  match s.flight? flight with
  | none => .next s
  | some f =>
    match f.rangeOf d with
    | none => .next s
    | some r =>
      if !r.waits || (s.die d).cycles < r.since + 2 ^ 20 * (r.boost + 1) then .next s
      else .next (s.setFlight { f with ranges := f.ranges.map fun q => if q.die = d then { q with boost := q.boost + 1 } else q })

/-- GANG_ROLLBACK: a partly reserved gang gives its strands back when another flight comes first. When that one has a higher
effective level the gang is requeued at the head of its own level (R295); when it comes first within the level, only the
choice changes (R294; log 86). -/
def execGangRollback (d : Nat) (s : State) : Out :=
  match (s.die d).reserve, s.chosen d with
  | some q, some (f, r) =>
    if f.id = q.flight then .next s
    else
      let s1 := s.setDie d { s.die d with reserve := none }
      match s.flight? q.flight with
      | none => .next s1
      | some g =>
        let head := (s.flights.filterMap fun x => (x.rangeOf d).map Range.head).foldl max 0 + 1
        let up := fun (x : Range) => if x.die == d && decide (x.level g < r.level f) then { x with head := head } else x
        .next (s1.setFlight { g with ranges := g.ranges.map up })
  | _, _ => .next s

/-! ### Wait-triggered pre-emption and resumption (R297, R298) -/

/-- The resident strand that runs tread n of a flight. -/
def State.runnerOf (s : State) (id n : Nat) : Option Nat :=
  (s.strands.find? fun e => e.2.flight == some id && e.2.kind == .tread && e.2.tread == n && e.2.counted).map Prod.fst

/-- Has strand k been waiting for 1,024 consecutive cycles (R296, R297)? -/
def State.longWait (s : State) (k : Nat) : Bool := (s.strand k).wait.counts && decide ((s.strand k).waitSince + 1024 ≤ s.cycles k)

/-- Does the next gang of a flight fit on die d as things stand (R297)? -/
def State.nextFits (s : State) (f : Flight) (d : Nat) (r : Range) : Bool :=
  let mine := match (s.die d).reserve with | some q => if q.flight = f.id then q.strands else [] | none => []
  match r.next f with
  | some (_, ns) => (s.hallOrder f d mine).any fun h => decide (ns.length ≤ (s.hallRoom f h mine).length)
  | none => false

/-- WAIT_TRIGGERED_PREEMPTION: every resident tread of the flight that this landing placed has waited for 1,024 cycles while gangs
are undispatched and the next one does not fit: the most recently dispatched one is pre-empted to a slot of the save pool, at
once or when its deferral ends (R297, R334). Of the members of one gang the highest-numbered one counts as the most recent, and a
gang that was rolled back is placed as any other (log 108). The landing of the die that holds its slot resumes it (log 109). With
no free slot nothing is pre-empted (log 123). -/
def execWaitTriggeredPreemption (d flight : Nat) (s : State) : Out :=
  match s.flight? flight with
  | none => .next s
  | some f =>
    match f.rangeOf d with
    | none => .next s
    | some r =>
      let ks := ((r.live.map LiveGang.treads).flatten).filterMap fun n => s.runnerOf flight n
      match ks.getLast?, s.freeSlotOf f.part with
      | some k, some i =>
        if !r.waits || s.nextFits f d r || !ks.all (fun k => s.longWait k) || ks.any (fun k => (s.strand k).preempt || s.haltedDie k) then .next s
        else
          let a := s.poolSlot f.part i
          let s := s.setDie (dieOf k) { s.die (dieOf k) with saved := (s.die (dieOf k)).saved ++ [k] }
          if s.preemptDeferred k then .next (s.setStrand k { s.strand k with preempt := true, saveAt := some a, left := none })
          else .next (s.preempt k a)
      | _, _ => .next s

/-- Does the record of a Saved context refer to a tile or a loft of its former core (R341)? -/
def State.tiedTo (s : State) (k : Nat) : Bool :=
  match (s.strand k).saveAt with
  | none => false
  | some a =>
    match s.regPartRead (coreOf k) a 0 fixedSize with
    | none => false
    | some bs => (List.range 8).any fun m => let kd := (recTile bs m).1; kd == 1 || kd == 2

/-- Is a resumption of the context of slot k queued on a core? -/
def State.askedOn (s : State) (k core : Nat) : Bool := (s.core core).bankq.any fun w => w.isResumeOf k

/-- SAVED_TREAD_RESUME: the landing asks for the resumption of a pre-empted tread whose wait has ended, oldest first, on its
former core or another of the partition; a request of its own that still waits on another core is withdrawn first (R294, R298, R282). -/
def execSavedTreadResume (d k target : Nat) (s : State) : Out :=
  let t := s.strand k
  let asked := s.resumeAsked k
  let turn := asked || (s.savedReady d).head? == some k
  let okT := k = target || (s.freeStrand target && dieOf target = d && bit (s.part (s.partOf k)).halls (hallOfCore (coreOf target)))
  if !(s.die d).saved.contains k || t.status ≠ .saved || !turn || !okT || (s.tiedTo k && coreOf target ≠ coreOf k) then .next s
  else if s.loadAsked k || s.askedOn k (coreOf target) then .next s
  else
    match t.saveAt with
    | none => .next s
    | some a =>
      .next (s.askResume k target a false)

/-! ### Completion (R301, R302) -/

/-- Is every gang of a flight complete, or, after an image error or an abort, every started one? Treads lost with a die, which
are placed no more, then count as ended. -/
def Flight.gangsDone (f : Flight) : Bool :=
  let off := f.imgErr.isSome || f.abort.isSome
  f.ranges.all fun r =>
    let lost := r.treads ++ (r.later.map Batch.treads).flatten
    (if off then r.live.all fun l => l.treads.all lost.contains else r.live.isEmpty && !r.waits && r.later.isEmpty)

/-- A flight has nothing left: gangs, handlers, messages (R301). -/
def State.flightDone (s : State) (f : Flight) : Bool :=
  f.gangsDone &&
  !(s.strands.any fun e => e.2.flight == some f.id && (e.2.status == .running || e.2.status == .asleep || e.2.status == .saved)) &&
  !((s.part f.part).stash.any fun e => e.2.flight == some f.id) &&
  !(s.cores.any fun c => (c.2.sqReq ++ c.2.sqRep ++ c.2.vest).any fun m => m.flight == f.id)

/-- Status and detail of a completion record (R301). -/
def Flight.status (f : Flight) : Nat × Nat :=
  match f.abort, f.imgErr, f.fatal with
  | some p, _, _ => (7, p)
  | none, some o, _ => (9, o)
  | none, none, some n => (6, n % 2 ^ 32)
  | none, none, none => (0, 0)

/-- End the Saved contexts of a flight in its swapped-out partition's stash, as `endSaved` does (R302, R361, R346). -/
def State.endStashed (s : State) (id p : Nat) : State :=
  let es := (s.part p).stash.filter fun e => e.2.flight == some id && e.2.status == .saved
  es.foldl (fun (s : State) (e : Nat × Strand) =>
    let t := e.2
    let s : State := match s.flight? id with
      | some f => if t.kind = .tread then s.setFlight (Flight.endTread { f with groups := f.groups.map fun g => g.depart t.tread } t.tread) else s
      | none => s
    let s := s.dropOwner t.savedTag
    let q := s.part p
    let st : Status := if t.kind ≠ .tread && t.handlerOf == some id then .dormant else .free
    s.setPart p { q with stash := Tbl.set Strand.reset q.stash e.1 (t.vacant st), stashSaved := delNat e.1 q.stashSaved }) s

/-- End every context of a flight as by a fatal trap, without reporting it (R302, R361). -/
def State.endContexts (s : State) (id : Nat) : State :=
  let ks := (s.strands.filter fun e => e.2.flight == some id).map Prod.fst
  let s := ks.foldl (fun s k =>
    let t := s.strand k
    if t.status = .saved then s.endSaved k false
    else if t.counted then s.endFatal k false
    else s) s
  match s.flight? id with
  | some f => s.endStashed id f.part
  | none => s

/-- Abort the successors of a flight that completed with a nonzero status (R302). Their messages on the way are still delivered
(log 110). -/
def State.abortSuccessors (s : State) (id status : Nat) : State :=
  let fs := s.flights.filter fun f => f.predId == some id
  fs.foldl (fun s f =>
    let s := s.endContexts f.id
    match s.flight? f.id with
    | some g =>
      let g := { g with abort := some status, ranges := g.ranges.map fun r => { r with todo := [], later := r.later.map fun b => { b with gangs := [] } } }
      let s := s.setFlight g
      { s with dies := Tbl.mapV Die.reset (fun (d : Die) => if d.reserve.any (fun (q : Reserve) => q.flight == f.id) then { d with reserve := none } else d) s.dies }
    | none => s) s

/-- A strand slot when a flight completes: its handler strands become Free (R301). -/
def Strand.leaveFlight (t : Strand) (id : Nat) : Strand :=
  if t.handlerOf = some id then { t with handlerOf := none, status := if t.status = Status.dormant then Status.free else t.status } else t

/-- Strands and set-aside pages of a flight are given back, requests for pages withdrawn: its handler strands become Free, in a
swapped-out partition's stash as on the cores (R301). -/
def State.freeFlight (s : State) (id : Nat) : State :=
  let s := s.dropReqs fun w => w.isFlightOf id
  let s := { s with
    strands := Tbl.mapV Strand.reset (fun (t : Strand) => t.leaveFlight id) s.strands,
    parts := Tbl.mapV Partition.none (fun (p : Partition) => { p with stash := Tbl.mapV Strand.reset (fun (t : Strand) => t.leaveFlight id) p.stash }) s.parts,
    cores := Tbl.mapV Core.reset (fun (c : Core) => if c.aside.any (fun a => a.1 == id) then { c with aside := c.aside.filter fun a => a.1 ≠ id } else c) s.cores,
    dies := Tbl.mapV Die.reset (fun (d : Die) => if d.reserve.any (fun (q : Reserve) => q.flight == id) then { d with reserve := none } else d) s.dies,
    gallery := s.gallery.filter fun g => g.1 ≠ id }
  { s with flights := s.flights.filter fun f => f.id ≠ id }

/-- The flight ends with a status: everything is released at system scope, the completion record is written, pages and
handler strands are freed, and successors are aborted when the status is not 0 (R301, R302). -/
def State.finishFlight (s : State) (f : Flight) (status detail : Nat) : State :=
  let s := (s.cores.map Prod.fst).foldl (fun s c => s.drainWt c) s
  let s := if f.done.toNat % 32 = 0 then s.landWrite (landCtx f.part f.vmroot) f.done.toNat (completionBytes status detail f.ended s.time) else s
  let s := s.freeFlight f.id
  let s := if status = 0 then s else s.abortSuccessors f.id status
  s.settleGalleries

end Sys2Proof.Machine
end

