-- ==== Sys2Proof/Machine/Fence.lean ====
section
/-! DEFINITION. Completion entries of host queues (R358), flight completion (R301), fencing of compute dies (R365, R366),
election and reissue (R303 to R305), and the reset of a die (R364). -/
namespace Sys2Proof.Machine

/-! ### Completion entries (R358) -/

/-- Bytes at a host address. -/
def State.hostRead (s : State) (addr n : Nat) : List Byte := memRead s.mem (hostBase + addr) n
def State.hostWrite (s : State) (addr : Nat) (bs : List Byte) : State := { s with mem := memWrite s.mem (hostBase + addr) bs }

/-- A completion entry's 32 bytes. -/
def entryBytes (seq status detail time cseq : Nat) : List Byte :=
  leBytes 4 seq ++ leBytes 4 status ++ leBytes 8 detail ++ leBytes 8 time ++ leBytes 4 cseq ++ leBytes 4 0

/-- COMPLETED moves over the sequence numbers whose entries are written; the first argument bounds the steps. -/
def advanceDone : Nat → Nat → List Nat → Nat × List Nat
  | 0, c, l => (c, l)
  | n + 1, c, l =>
    let v := (c + 1) % 2 ^ 32
    if l.contains v then advanceDone n v (l.filter (· ≠ v)) else (c, l)

/-- Write one completion entry, followed by its MSI-X message (R358). -/
def State.putEntry (s : State) (q seq status detail : Nat) : State :=
  let h := s.queue q
  let s := s.hostWrite ((bits h.cqbase 12 52 * 4096 + 32 * (h.cqtail % h.cqSize)) % 2 ^ 51) (entryBytes seq status detail s.time h.cqtail)
  { (s.setQueue q { h with cqtail := (h.cqtail + 1) % 2 ^ 32 }) with regs := { s.regs with msix := s.regs.msix ++ [h.vec] } }

/-- A command completes: its entry is written and COMPLETED covers it (R355, R358). -/
def State.complete (s : State) (q seq status detail : Nat) : State :=
  let s := s.putEntry q seq status detail
  let h := s.queue q
  let r := advanceDone (h.finished.length + 1) h.completed (h.finished ++ [seq])
  s.setQueue q { h with cmds := h.cmds.filter fun c => c.seq ≠ seq, completed := r.1, finished := r.2 }

/-! ### Flight completion (R301) -/

/-- Messages of a flight are gone: those in a vestibule are counted as drops (R248). -/
def State.dropMessages (s : State) (id : Nat) : State :=
  { s with cores := Tbl.mapV Core.reset (fun (c : Core) =>
      let here := (c.vest.filter fun m => m.flight == id).length
      { c with sqReq := c.sqReq.filter (fun m => m.flight ≠ id), sqRep := c.sqRep.filter (fun m => m.flight ≠ id),
               vest := c.vest.filter (fun m => m.flight ≠ id), drops := min (c.drops + here) (2 ^ 24 - 1) }) s.cores }

/-- A flight ends with a status, and its LAUNCH command's second entry is written when it asked for one (R356). -/
def State.closeFlight (s : State) (f : Flight) (status detail : Nat) : State :=
  let s := (s.dropMessages f.id).finishFlight f status detail
  match f.cmd with
  | some (q, seq) => s.putEntry q seq status detail
  | none => s

/-- FLIGHT_COMPLETION: nothing of the flight is left (R301). -/
def execFlightCompletion (flight : Nat) (s : State) : Out :=
  match s.flight? flight with
  | none => .next s
  | some f => if s.flightDone f then .next (s.closeFlight f f.status.1 f.status.2) else .next s

/-! ### Fencing (R365, R366) -/

/-- Is a physical address in the scratchpads or galleries of die d? -/
def inDieScratch (d pa : Nat) : Bool :=
  match regionOf pa with
  | .gallery h => h / 9 == d
  | .pad c => dieOfCore c == d
  | _ => false

/-- The die cache of die d is lost: every sector of a line that it held Modified fails, and its presence bits are cleared
(R365). -/
def State.loseCache (s : State) (d : Nat) : State :=
  let lost := (s.dir.filter fun e => e.2.owner == some d).map Prod.fst
  let bad := lost.foldl (fun b l => [0, 1, 2, 3].foldl (fun b i => insNat (4 * l + i) b) b) s.bad
  { s with bad := bad, dir := Tbl.mapV dirNone (fun e => e.without d) s.dir }

/-- Every SRAM and register of die d is lost: strands, cores, lofts, scratchpads, galleries, TLB and landing; what the
table of R364 keeps stays. Engine operations already accepted complete at the stack bases (R117). A strand slot keeps its count of
records written: records tagged with it outlive the die, and no two live ones may carry one tag (R337; log 92). -/
def State.resetDie (s : State) (d : Nat) : State :=
  let ks := (s.strands.filter fun e => dieOf e.1 == d).map Prod.fst
  let s := ks.foldl (fun s k => s.completeEngines k) s
  let s := s.loseCache d
  let x := s.die d
  let slot (t : Strand) : Strand := { Strand.reset with tagCount := t.tagCount }
  { (s.setDie d { Die.reset with
        fenced := x.fenced, inReset := x.inReset, resetAt := x.resetAt, power := x.power, nextPow := x.nextPow,
        mhz := x.mhz, pendMhz := x.pendMhz, thr := x.thr }) with
    strands := s.strands.filterMap fun e => if dieOf e.1 ≠ d then some e else if slot e.2 = Strand.reset then none else some (e.1, slot e.2)
    cores := s.cores.filter fun e => dieOfCore e.1 ≠ d
    mem := s.mem.filter fun e => !inDieScratch d e.1
    bad := s.bad.filter fun b => !inDieScratch d (32 * b)
    soft := s.soft.filter fun b => !inDieScratch d (32 * b) }

/-- A tread in a place: the die, the flight and the tread's number. -/
abbrev Carrier := Nat × Nat × Nat

/-- The tread that a strand runs, or holds Saved. -/
def Strand.carries (t : Strand) : Option (Nat × Nat) :=
  if t.kind = .tread && t.status ≠ .free && t.status ≠ .dormant then t.flight.map fun f => (f, t.tread) else none

/-- The tread that a hop message carries (R254). -/
def Msg.carries (m : Msg) : Option (Nat × Nat) :=
  match m.hop with
  | some h => if h.kind = .tread then some (m.flight, h.tread) else none
  | none => none

/-- Where each tread is that has been dispatched and not ended: on a strand, in a swapped-out partition's stash, or in a hop
message, which stands on the die that holds it and on the die it goes to (R255, R313). -/
def State.carriers (s : State) : List Carrier :=
  let strands (l : Tbl Strand) : List Carrier := l.filterMap fun e => e.2.carries.map fun c => (dieOf e.1, c)
  strands s.strands ++ (s.parts.map fun p => strands p.2.stash).flatten ++
    (s.cores.map fun e => ((e.2.sqReq ++ e.2.sqRep ++ e.2.vest).map fun m =>
      match m.carries with
      | some c => [(dieOfCore e.1, c), (dieOfCore m.dest, c)]
      | none => []).flatten).flatten

/-- The arrivals in the current generation of the treads that are lost with die d are withdrawn (R313). -/
def State.withdrawDie (s : State) (d : Nat) : State :=
  (s.carriers.filter fun c => c.1 == d).foldl (fun s c =>
    match s.flight? c.2.1 with
    | some f => s.setFlight { f with groups := f.groups.map fun g => g.withdraw c.2.2 }
    | none => s) s

/-- Traffic for die d is discarded: messages to it, and resumptions of contexts that were saved on it (R305, R366). -/
def State.discardFor (s : State) (d : Nat) : State :=
  let stay (m : Msg) : Bool := dieOfCore m.dest != d
  let gone (w : Waiting) : Bool := match w.req with | .resume a _ _ => dieOf a == d | .acq _ _ | .flight _ _ _ => false
  { s with
    cores := Tbl.mapV Core.reset (fun (c : Core) =>
      if c.sqReq.all stay && c.sqRep.all stay && !c.bankq.any gone then c
      else { (c.dropReq gone) with sqReq := c.sqReq.filter stay, sqRep := c.sqRep.filter stay }) s.cores,
    parts := Tbl.mapV Partition.none (fun (p : Partition) => { p with stash := p.stash.filter fun e => dieOf e.1 ≠ d,
                                                                        stashSaved := p.stashSaved.filter fun k => dieOf k ≠ d }) s.parts }

/-- Fence die d: nothing when it is fenced already (R366). Loans with it end (R371), and an election is due (R303). -/
def State.fence (s : State) (d : Nat) : State :=
  if !s.dieLive d then s
  else
    let s := (s.withdrawDie d).setDie d { s.die d with fenced := true, inReset := true, resetAt := s.time }
    let s := (s.resetDie d).discardFor d
    { s with
      flights := s.flights.map fun f => { f with cores := f.cores.filter fun c => dieOfCore c ≠ d }
      gallery := s.gallery.filter fun g => g.2.1 / 9 ≠ d
      loans := s.loans.filter fun l => l.lender ≠ d && l.borrower ≠ d
      elect := true }

/-- HEARTBEAT_TIMEOUT: the management core has had no heartbeat from the die's landing for 10 ms (R366). -/
def execHeartbeatTimeout (die : Nat) (s : State) : Out := .next (s.fence die)

/-- UCIE_LINKS_DOWN: both UCIe links of the die are down after retry (R366, R17). -/
def execUcieLinksDown (die : Nat) (s : State) : Out := .next (s.fence die)

/-- JUNCTION_OVERTEMPERATURE: the die's junction is at or above 115 degrees C (R366). -/
def execJunctionOvertemperature (die : Nat) (s : State) : Out :=
  if 115 ≤ s.junction die then .next (s.fence die) else .next s

/-- LANDING_STATE_ERROR: an uncorrectable error in the landing's own state (R366). -/
def execLandingStateError (die : Nat) (s : State) : Out := .next (s.fence die)

/-- DIE_RESET_RELEASE: the die has been held in reset for at least 1 ms (R366 step 3). -/
def execDieResetRelease (die : Nat) (s : State) : Out :=
  let x := s.die die
  if x.inReset && !s.elect && x.resetAt + 1000000 ≤ s.time then .next (s.setDie die { x with inReset := false }) else .next s

/-! ### Election and reissue (R303 to R305) -/

/-- Positions [lo, hi) of a list of gangs given as intervals. -/
def ivSlice : List (Nat × Nat) → Nat → Nat → List (Nat × Nat)
  | [], _, _ => []
  | (a, b) :: t, lo, hi =>
    let n := b - a
    let rest := ivSlice t (lo - n) (hi - n)
    if min lo n < min hi n then (a + min lo n, a + min hi n) :: rest else rest

/-- Incomplete gangs of a range, undispatched or dispatched, in increasing order (R304). -/
def Range.incomplete (r : Range) : List (Nat × Nat) :=
  ((r.todo ++ (r.later.map Batch.gangs).flatten ++ r.live.map fun (l : LiveGang) => (l.gang, l.gang + 1)).filter fun (p : Nat × Nat) => p.1 < p.2).eraseDups.foldr insPair []

def ivCount (l : List (Nat × Nat)) : Nat := (l.map fun p => p.2 - p.1).sum

/-- Treads of a live range's dispatched gangs that nothing carries any more: a hop had taken them to a die that was fenced
(R255). -/
def State.lostTreads (s : State) (f : Flight) (r : Range) : List Nat :=
  let known := r.treads ++ (r.later.map Batch.treads).flatten
  ((r.live.map LiveGang.treads).flatten).filter fun n => !known.contains n && !s.carriers.any fun c => c.2 == (f.id, n)

/-- Append a batch to a range, given to its landing now. An empty batch is none. -/
def Range.give (r : Range) (b : Batch) : Range :=
  if b.gangs.isEmpty && b.treads.isEmpty then r else Range.promote { r with later := r.later ++ [b] }

/-- Reissue the incomplete gangs of a flight's ranges on fenced dies among the live dies of its mask, appended after their
own ranges; with none live the flight ends with code 6, and with v as its detail when no gang was incomplete and no tread had ended
fatally (R304, R305; log 111). A tread of a live range that was lost on another die is placed
again by its own landing (R255; log 87). -/
def State.reissue (s : State) (f : Flight) (v : Nat) : Flight :=
  let lost := f.ranges.filter fun r => !s.dieLive r.die
  let kept := f.ranges.filter fun r => s.dieLive r.die
  let gangs := (lost.map Range.incomplete).flatten.foldr insPair []
  let f := { f with ended := f.ended - (lost.map fun (r : Range) => (r.live.map LiveGang.ended).sum).sum }
  let D := kept.length
  let n := ivCount gangs
  if D = 0 then
    { f with ranges := [], fatal := match gangs.head? with | some g => some (g.1 * f.gang) | none => some (f.fatal.getD v) }
  else
    { f with ranges := (kept.zipIdx).map fun (p : Range × Nat) =>
        p.1.give ⟨(s.die p.1.die).cycles, ivSlice gangs (n * p.2 / D) (n * (p.2 + 1) / D), s.lostTreads f p.1⟩ }

/-- HEAD_ELECTION: the landing of the lowest live die is head, it reissues the gangs of the fenced dies, and the reset of
those dies begins (R303, R304, R366). -/
def execHeadElection (s : State) : Out :=
  if !s.elect then .next s
  else
    let s := { s with
      head := s.liveDies.head?, elect := false, freeCtr := s.freeCtr + s.flights.length,
      flights := s.flights.zipIdx.map fun (p : Flight × Nat) => s.reissue p.1 (Config.freeNat (s.freeCtr + p.2)),
      dies := Tbl.mapV Die.reset (fun (d : Die) => if d.inReset then { d with resetAt := s.time } else d) s.dies }
    .next s.settleGalleries

end Sys2Proof.Machine
end

