-- ==== Sys2Proof/Machine/Fetch.lean ====
section
/-! DEFINITION. Instruction fetch (R56, R57, R58, R163) and the two events that fetching and decoding end in. -/
namespace Sys2Proof.Machine

/-- Fetch reads global space outside the device registers (R92, R121, R163). -/
def State.fetchAdmits (s : State) (pa : Nat) : Bool :=
  match regionOf pa with
  | .hbm | .host | .window _ _ => s.admits s.cur .copy pa
  | _ => false

/-- Words that an instruction cache holds: 64 KiB (R27). -/
def icacheWords : Nat := 16384

/-- Fill a word of an instruction cache; a full one gives up its lowest word but this (R27; log 70). -/
def fillIcache (t : Tbl (Option (BitVec 32 × Nat × Bool))) (i : Nat) (w : BitVec 32 × Nat × Bool) : Tbl (Option (BitVec 32 × Nat × Bool)) :=
  let t := Tbl.set none t i (some w)
  if t.length ≤ icacheWords then t
  else match t.find? fun e => e.1 ≠ i with | some e => Tbl.del e.1 t | none => t

/-- A word of local HBM: the instruction cache may hold it; a miss takes it through the die cache, after this core's queued
stores to it, and fills it (R27, R60, R94, R163). A word is held under the tag of the fetch that filled it, and a fetch under
another tag does not hit (R108, R109). -/
def State.fetchHbm (s : State) (va pa : Nat) (key : Option (List Nat)) (tag : Nat × Bool) : Except (State × Trap) (State × Nat) :=
  let core := coreOf s.cur
  match (Tbl.get none (s.core core).icache (pa / 4)).filter fun w => w.2 = tag with
  | some w => .ok (s, w.1.toNat)
  | none =>
    let fill (s : State) (bs : List Byte) : Except (State × Trap) (State × Nat) :=
      .ok (s.setCore core { s.core core with icache := fillIcache (s.core core).icache (pa / 4) (BitVec.ofNat 32 (leNat bs), tag) }, leNat bs)
    let s := s.deliverOver core pa 4
    match s.physRead key pa 4 with
    | .error _ => .error (s, uncorrectable va pa)
    | .ok bs => fill ((s.dirReadBy (dieOfCore core) tag pa 4).noteSoft pa 4) bs

/-- Fetch the 32-bit word at va (R57, R99, R105). Words of host memory or of a domain window are read anew at every fetch,
never held by the instruction cache (log 114). -/
def State.fetchWord (s : State) (va : Nat) : Except (State × Trap) (State × Nat) :=
  match translate s s.ctx .exec va with
  | .error t => .error t
  | .ok (s', x) =>
    if !s'.fetchAdmits x.pa then .error (s', accessFault .exec va)
    else
      match s'.accessKey s'.ctx x.enc .exec va with
      | .error t => .error (s', t)
      | .ok key =>
        if regionOf x.pa = .hbm then s'.fetchHbm va x.pa key (s'.tagOfEnc x.enc)
        else
          match s'.physRead key x.pa 4 with
          | .error _ => .error (s', uncorrectable va x.pa)
          | .ok bs => .ok (s'.noteSoft x.pa 4, leNat bs)

/-- Fetch the instruction at the program counter: both words of a long form before it is decoded (R57). -/
def State.fetchBytes (s : State) : Except (State × Trap) (State × List Byte) :=
  match s.fetchWord s.me.pc.toNat with
  | .error t => .error t
  | .ok (s1, w) =>
    if fld w 0 7 = 0x3F then
      match s1.fetchWord (s1.me.pc + 4).toNat with
      | .error t => .error t
      | .ok (s2, v) => .ok (s2, leBytes 4 w ++ leBytes 4 v)
    else .ok (s1, leBytes 4 w)

/-- The exception code of a failed fetch (R330). -/
def fetchCode : FetchCause → Nat
  | .pageFault => 12 | .accessFault => 1 | .uncorrectable => 24

def fetchCauseOf (t : Trap) : FetchCause := if t.cause = 12 then .pageFault else if t.cause = 1 then .accessFault else .uncorrectable

/-- INSTRUCTION_FETCH_FAULT: the trap is taken with the program counter at the instruction and `stval` the failing word
(R57, R105). -/
def execInstructionFetchFault (va : Word) (cause : FetchCause) (s : State) : Out :=
  match s.fetchWord va.toNat with
  | .error (s', t) => s'.trapScalar (if t.cause = fetchCode cause then t else mkTrap (fetchCode cause) va)
  | .ok _ => s.trapScalar (mkTrap (fetchCode cause) va)

/-- ILLEGAL_INSTRUCTION: detected at the scalar front before any effect; `stval` is the long form, or the 32-bit word
(R58). -/
def execIllegalInstruction (bits : Word) (long : Bool) (s : State) : Out :=
  s.trapScalar (mkTrap 2 (if long then bits else w64 (bits.toNat % 2 ^ 32)))

end Sys2Proof.Machine
end

