-- ==== Sys2Proof/Machine/Host.lean ====
section
/-! DEFINITION. The host interface: register writes with rows of their own (R351 to R363), queues and slots (R355 to R360),
NOP and LAUNCH, partitions (R361, R362), swap and eviction (R346, R347), and accesses from outside the package (R350,
R158). -/
namespace Sys2Proof.Machine

/-! ### Register writes from the host (R6, R349) -/

/-- NOTIFY (R357). -/
def execNotify (q : Nat) (v : Word) (s : State) : Out := if q < 16 then .next (s.setNotify q (bits v 0 32)) else .next s

/-- RESYNC (R360). -/
def execResync (q : Nat) (v : Word) (s : State) : Out := if q < 16 then .next (s.setResync q (bits v 0 32)) else .next s

/-- QUEUE_ENABLE: a write of QCTL that sets en (R355). -/
def execQueueEnable (q : Nat) (v : Word) (s : State) : Out :=
  if q < 16 && bit v 0 then .next (s.setQctl q (BitVec.allOnes 64) v) else .next s

/-- FEATACC_WRITE (R354). -/
def execFeataccWrite (i : Nat) (v : Word) (s : State) : Out := .next (s.setFeatacc i (BitVec.allOnes 64) v)

/-- WINBASE_WRITE (R351). -/
def execWinbaseWrite (v : Word) (s : State) : Out := .next (s.setWinbase (BitVec.allOnes 64) v)

/-- DOMAIN_WRITE (R363). -/
def execDomainWrite (v : Word) (s : State) : Out := .next (s.setDomain (BitVec.allOnes 64) v)

/-- SWI (R351). -/
def execSwi (core strand : Nat) (s : State) : Out := if core < 1152 && strand < 16 then .next (s.setSwi (16 * core + strand)) else .next s

/-- ATTREQ (R392, R394). -/
def execAttreq (v : Word) (s : State) : Out := .next (s.setAttreq v)

/-- RLCTL_MODE_WRITE (R384). -/
def execRlctlModeWrite (part : Nat) (v : Word) (s : State) : Out :=
  if part < 16 then .next (s.setRlctl part (BitVec.allOnes 64) v) else .next s

/-- REGISTER_WRITE: a write through BAR0 acts by the register's access code; any access but a naturally aligned one of 4 or 8
bytes is an unsupported request (R6, R349). -/
def execRegisterWrite (off size : Nat) (v : Word) (s : State) : Out :=
  if (size = 4 || size = 8) && off % size = 0 && off < 0x10000000 then .next (s.regStore off size v.toNat) else .next s

/-! ### Accesses from outside the package -/

/-- HOST_WRITE: raw bytes at WINBASE + off, performed at their home stack base (R349, R350). Writes sent without the
relaxed-ordering attribute reach the schedule in the order sent; those with it in any order. -/
def execHostWrite (off : Nat) (bytes : List Byte) (_relaxed : Bool) (s : State) : Out :=
  if off + bytes.length ≤ 0x1000000000 then .next (s.writeHome none none (s.regs.winbase.toNat + off) bytes) else .next s

/-- A peer's read recalls the Modified copies of the lines it reads (R96). -/
def State.peerRead (s : State) (pa n : Nat) : State :=
  { s.noteSoft pa n with dir := (dirLines pa n).foldl dirClean s.dir }

/-- What the host reads through BAR2 at offset off: raw bytes of local HBM at WINBASE + off (R349). The read acts at the home as
a peer's does (`State.peerRead`). -/
def State.bar2Read (s : State) (off n : Nat) : List Byte := memRead s.mem (s.regs.winbase.toNat + off) n

/-- What the host reads through BAR0: a device register, by a naturally aligned access of 4 or 8 bytes; any other is an
unsupported request (R349, R92). Reading changes nothing. -/
def State.bar0Read (s : State) (off size : Nat) : Option Nat :=
  if (size = 4 || size = 8) && off % size = 0 && off < 0x10000000 then some (s.regLoad off size) else none

/-- The host's read through BAR2 happens (R349). -/
def State.hostReads (s : State) (off n : Nat) : State :=
  if off + n ≤ 0x1000000000 then s.peerRead (s.regs.winbase.toNat + off) n else s

/-- Every store and every pushed stream byte of the strands is performed: what follows takes away keys that they were issued
with (R361, R396; log 71). -/
def State.settleWrites (s : State) : State :=
  (s.cores.map Prod.fst).foldl (fun (s : State) c => (List.range 4).foldl (fun (s : State) p => s.portDrain c p) (s.drainWt c)) s

/-- REMOTE_ACCESS: a UALink read, write or atomic of another package at this package's home (R158, R92, R363). An atomic whose
operand cannot be read updates nothing (R105). A package held out of the domain is not reached (R376). -/
def execRemoteAccess (off : Nat) (op : RemoteOp) (s : State) : Out :=
  if !bit s.regs.domain 63 || s.regs.heldOut then .next s
  else
    match op with
    | .read n => if off + n ≤ hbmTop then .next (s.peerRead off n) else .next s
    | .write bs => if off + bs.length ≤ hbmTop then .next (s.writeHome none none off bs) else .next s
    | .atomic a dbl src =>
      let n := if dbl then 8 else 4
      if off % n ≠ 0 || hbmTop < off + n then .next s
      else
        match s.physRead none off n with
        | .error _ => .next (s.eccAdd (eccUnit off) 1 0)
        | .ok bs => .next ((s.noteSoft off n).writeHome none none off (leBytes n (amoEval a (8 * n) (leNat bs) src.toNat)))

/-- UALINK_PORT_TRAINING: the port comes up unless its peer reports another domid or a package number already in use
(R363). -/
def execUalinkPortTraining (port : Nat) (peerDomid : BitVec 32) (peerPkg : BitVec 9) (s : State) : Out :=
  let d := s.regs.domain
  let p := peerPkg.toNat
  let others := (s.regs.uaports.zipIdx).any fun u => u.2 ≠ port && !u.1.down && u.1.peer == some p
  let up := peerDomid.toNat == bits d 16 32 && p != bits d 0 9 && decide (p < 384) && !others
  if bit d 63 then .next { s with regs := { s.regs with uaports := listSet s.regs.uaports port ⟨some p, peerDomid.toNat, !up⟩ } } else .next s

/-! ### Slots (R356, R357) -/

/-- Fields of a slot. -/
def slotSeq (d : List Byte) : Nat := recN d 0 4
def slotOp (d : List Byte) : Nat := recN d 4 2
def slotFlag (d : List Byte) : Bool := (recN d 7 1).testBit 0

/-- Opcodes that name a command (R356, R368). -/
def knownOps : List Nat := [0, 1, 0x10, 0x11, 0x12, 0x13, 0x14, 0x20, 0x21, 0x22, 0x23, 0x24]

/-- The slot with a sequence number as host memory holds it now. -/
def State.readSlot (s : State) (q seq : Nat) : List Byte :=
  let h := s.queue q
  s.hostRead ((bits h.qbase 12 52 * 4096 + 128 * (seq % h.size)) % 2 ^ 51) 128

/-- Commands of unknown opcode that may execute now complete with status 17: all of them, or on queue 0 those at the head
(R356, R357). -/
def State.settleQueue (s : State) (q : Nat) : State :=
  let un (c : Command) : Bool := !knownOps.contains (slotOp c.data)
  let cs := (s.queue q).cmds
  let cs := if q = 0 then cs.takeWhile un else cs.filter un
  cs.foldl (fun s c => s.complete q c.seq 17 (slotOp c.data)) s

/-- Slot seq of a queue has been fetched: CONSUMED moves, and the command may execute. -/
def State.acceptSlot (s : State) (q seq : Nat) (d : List Byte) : State :=
  let h := s.queue q
  (s.setQueue q { h with consumed := seq, refetch := none, cmds := h.cmds ++ [⟨seq, d⟩] }).settleQueue q

/-- SLOT_FETCH (R357). -/
def execSlotFetch (q : Nat) (s : State) : Out :=
  let h := s.queue q
  if !h.en || h.pause || h.refetch.isSome || h.notified = h.consumed then .next s
  else
    let seq := (h.consumed + 1) % 2 ^ 32
    let d := s.readSlot q seq
    let need := if slotSeq d = seq && slotOp d = 1 && slotFlag d then 2 else 1
    if h.cqSize < (h.cqtail + 2 ^ 32 - h.cqhead) % 2 ^ 32 + need then .next s
    else if slotSeq d = seq then .next (s.acceptSlot q seq d)
    else .next (s.setQueue q { h with refetch := some (seq, s.time, 0, slotSeq d) })

/-- SLOT_REFETCH: 0.5, 1.0, 1.5 and 2.0 µs after the first fetch; after the last, status 16 (R357). -/
def execSlotRefetch (q : Nat) (s : State) : Out :=
  let h := s.queue q
  match h.refetch with
  | none => .next s
  | some (seq, t0, n, _) =>
    if !h.en || s.time < t0 + 500 * (n + 1) then .next s
    else
      let d := s.readSlot q seq
      if slotSeq d = seq then .next (s.acceptSlot q seq d)
      else if n < 3 then .next (s.setQueue q { h with refetch := some (seq, t0, n + 1, slotSeq d) })
      else .next ((s.setQueue q { h with consumed := seq, refetch := none }).complete q seq 16 (slotSeq d))

/-! ### Commands -/

/-- The fetched command of a sequence number that may execute now: on queue 0, only the oldest (R357). -/
def State.cmdAt (s : State) (q seq : Nat) : Option (List Byte) :=
  let cs := (s.queue q).cmds
  let cs := if q = 0 then cs.take 1 else cs
  (cs.find? fun c => c.seq == seq).map Command.data

/-- A command completes and the ones behind it move up. -/
def State.done (s : State) (q seq status detail : Nat) : Out := .next ((s.complete q seq status detail).settleQueue q)

/-- The lowest reserved byte of a slot that is not zero (R356). -/
def slotResv (d : List Byte) : Option Nat := if recN d 6 1 ≠ 0 then some 6 else if 2 ≤ recN d 7 1 then some 7 else none

/-- Execute a command with an opcode: reserved fields, then the queue it came on, then its own meaning (R356, R359). -/
def State.command (s : State) (q seq op : Nat) (zeroOnly : Bool) (f : List Byte → Out) : Out :=
  match s.cmdAt q seq with
  | none => .next s
  | some d =>
    if slotOp d ≠ op then .next s
    else
      match slotResv d with
      | some o => s.done q seq 18 o
      | none => if zeroOnly && q ≠ 0 then s.done q seq 21 (s.queue q).part else f d

/-- NOP (R356). -/
def execNop (q : Nat) (seq : Word) (s : State) : Out := s.command q seq.toNat 0 false fun _ => s.done q seq.toNat 0 0

/-- The accepted feature vector as one number. -/
def State.accepted (s : State) : Nat :=
  s.regs.featacc[0].toNat + 2 ^ 64 * s.regs.featacc[1].toNat + 2 ^ 128 * s.regs.featacc[2].toNat + 2 ^ 192 * s.regs.featacc[3].toNat

/-- LAUNCH (R356). -/
def execLaunch (q : Nat) (seq : Word) (s : State) : Out :=
  s.command q seq.toNat 1 false fun d =>
    let n := seq.toNat
    let p := (s.queue q).part
    let major := recN d 24 4
    let minor := recN d 28 4
    let req := recN d 32 32
    if !(s.part p).live then s.done q n 21 p
    else if major ≠ 4 || minor ≠ 0 then s.done q n 19 (major * 2 ^ 16 + minor)
    else
      match (List.range 256).find? fun b => req.testBit b && !s.accepted.testBit b with
      | some b => s.done q n 20 b
      | none =>
        if 4096 ≤ s.flightCount p then s.done q n 8 0
        else if s.elect then .next s
        else
          let r := s.launchFlight p (w64 (recN d 16 8)) (w64 (recN d 8 8)) (if slotFlag d then some (q, n) else none)
          r.1.done q n r.2.1 r.2.2

/-! ### Partitions (R361, R362) -/

/-- The pools of a partition as (base, length). -/
def Partition.ranges (p : Partition) : List (Nat × Nat) :=
  if p.pools then [(p.saveBase, p.saveN * slotSize), (p.ckptBase, p.ckptLen)] else []

/-- Does a range lie in local HBM at a 4 KiB boundary, meeting no pool of a partition other than p? -/
def State.rangeOk (s : State) (p : Nat) (r : Nat × Nat) : Bool :=
  r.1 % 0x1000 == 0 && decide (r.1 + r.2 ≤ hbmTop) &&
  !(s.parts.any fun e => e.1 ≠ p && e.2.ranges.any fun t => r.1 < t.1 + t.2 && t.1 < r.1 + r.2 && r.2 ≠ 0 && t.2 ≠ 0)

/-- Halls of a mask, and cores of a mask in increasing number. -/
def hallsOf (m : BitVec 72) : List Nat := (List.range 72).filter fun h => bit m h
def coresIn (m : BitVec 72) : List Nat := ((hallsOf m).map coresOfHall).flatten

/-- PART_CREATE (R361, R362). -/
def execPartCreate (q : Nat) (seq : Word) (s : State) : Out :=
  s.command q seq.toNat 0x10 true fun d =>
    let n := seq.toNat
    let p := recN d 8 1
    let mask := recN d 16 16
    let old := s.part p
    let zero := s.part 0
    if 15 < p || (if p = 0 then old.pools else old.live) then s.done q n 21 p
    else
      let halls : BitVec 72 := if p = 0 then old.halls else BitVec.ofNat 72 mask
      let slots := recN d 40 4
      let ck := 2 * ckptSize * (16 * (16 * (hallsOf halls).length) + slots)
      let save := recN d 32 8
      let base := recN d 48 8
      let maskOk := p = 0 || (mask < 2 ^ 72 && (hallsOf halls).all fun h => bit zero.halls h && s.regs.present.testBit (h / 9))
      if !maskOk || !s.rangeOk p (save, slots * slotSize) || !s.rangeOk p (base, ck) then s.done q n 22 0
      else
        let s := if p = 0 then s else s.setPart 0 { zero with halls := zero.halls &&& ~~~halls }
        let new := if p = 0 then old else { Partition.none with
          live := true, halls := halls, rlctl := old.rlctl, trbase := old.trbase, trctl := old.trctl, trptr := old.trptr,
          trTime := old.trTime, rlbase := old.rlbase, rlptr := old.rlptr, rlstat := old.rlstat }
        (s.setPart p { new with pools := true, saveBase := save, saveN := slots, ckptBase := base, ckptLen := ck }).done q n 0 0

/-- The tread that a flight ended by PART_DESTROY reports: its first fatal one, else the lowest of the lowest incomplete
gang. -/
def Flight.destroyTread (f : Flight) : Nat :=
  match f.fatal with
  | some n => n
  | none =>
    match ((f.ranges.map Range.incomplete).flatten.foldr insPair []).head? with
    | some g => g.1 * f.gang
    | none => 0

/-- End every flight of a partition as by a fatal trap (R361). -/
def State.endFlights (s : State) (p : Nat) : State :=
  let ids := (s.flights.filter fun f => f.part == p).map Flight.id
  ids.foldl (fun s id =>
    let s := s.endContexts id
    match s.flight? id with
    | some f => s.closeFlight f (if f.abort.isSome then 7 else if f.imgErr.isSome then 9 else 6)
        (if f.abort.isSome || f.imgErr.isSome then f.status.2 else f.destroyTread % 2 ^ 32)
    | none => s) s

/-- PART_DESTROY: the partition's flights end, its key is wiped, and its halls return to partition 0 (R361). -/
def execPartDestroy (q : Nat) (seq : Word) (s : State) : Out :=
  s.command q seq.toNat 0x11 true fun d =>
    let p := recN d 8 1
    if p = 0 || !(s.part p).live then s.done q seq.toNat 21 p
    else
      let halls := (s.part p).halls
      let s := (s.endFlights p).settleWrites
      let s := s.setPart p { s.part p with
        live := false, halls := 0, pools := false, saveBase := 0, saveN := 0, ckptBase := 0, ckptLen := 0, key := none, evicted := none, outHalls := 0, stash := [], stashSaved := [] }
      let s := s.setPart 0 { s.part 0 with halls := (s.part 0).halls ||| halls }
      let s := { s with cores := Tbl.mapV Core.reset (fun (c : Core) => if c.loftImg = some p then { c with loftImg := none, imgTiles := [] } else c) s.cores }
      s.done q seq.toNat 0 0

/-! ### Swap and eviction (R346, R347) -/

/-- SWAP: it is checked, then waits for the exchange; the outgoing partition's strands are pre-empted meanwhile. -/
def execSwap (q : Nat) (seq : Word) (s : State) : Out :=
  s.command q seq.toNat 0x13 true fun d =>
    let n := seq.toNat
    let out := recN d 8 1
    let inc := recN d 9 1
    let area := recN d 16 8
    let o := s.part out
    let i := s.part inc
    if s.regs.swap.isSome then .next s
    else if !s.feature 14 then s.done q n 20 14
    else if !o.live || o.halls = 0 then s.done q n 21 out
    else if !i.live || i.halls ≠ 0 || inc = out || (i.outHalls ≠ 0 && i.outHalls ≠ o.halls) then s.done q n 21 inc
    else
      match (coresIn o.halls).findSome? fun c => (s.core c).loftImg.filter (· ≠ inc) with
      | some p => s.done q n 21 p
      | none =>
        if !s.rangeOk out (area, 0x100000 * (coresIn o.halls).length) then s.done q n 22 0
        else .next { s with regs := { s.regs with swap := some (out, inc, area, n) } }

/-- Rewrite a tile reference of a save record to kind 3 (R339). -/
def State.setRef3 (s : State) (k : Nat) (a : SaveAt) (m addr : Nat) : State :=
  s.regPartWrite (coreOf k) a (0x880 + 16 * m) (leBytes 8 3 ++ leBytes 8 addr)

/-- Contexts of a list that hold a record, with name, reference and tag, for every tile reference of a kind. -/
def State.refsOf (s : State) (l : List (Nat × Strand)) (kind : Nat) : List (Nat × SaveAt × Nat × Nat × Nat × Nat) :=
  (l.map fun e =>
    match e.2.saveAt with
    | none => []
    | some a =>
      match s.regPartRead (coreOf e.1) a 0 fixedSize with
      | none => []
      | some bs => (List.range 8).filterMap fun m =>
          let r := recTile bs m
          if r.1 = kind then some (e.1, a, m, r.2.2.1, (if kind = 1 then r.2.1 else r.2.2.2), recTag bs) else none).flatten

/-- The records that `refsOf` looks at are read (R94, R392). -/
def State.noteRefs (s : State) (l : List (Nat × Strand)) : State :=
  l.foldl (fun s e => match e.2.saveAt with | some a => s.noteRecord (coreOf e.1) a 0 fixedSize | none => s) s

/-- n bytes of a core's loft go to local HBM; a sector among them that cannot be corrected goes on failing there (R106). -/
def State.loftOut (s : State) (c off n addr : Nat) : State :=
  let x := s.core c
  let s := s.writeHome none none addr (memRead x.loft off n)
  { s with bad := (x.badLoft.filter fun b => off / 32 ≤ b && b < (off + n) / 32).foldl (fun l b => insNat (addr / 32 + (b - off / 32)) l) s.bad }

/-- The image of a partition comes back from local HBM into a core's loft, likewise (R106, R346). -/
def State.loftIn (s : State) (c addr p : Nat) : State :=
  let s := s.noteReads [(addr, 0x100000)]
  s.setCore c { s.core c with
    loft := memWrite [] 0 (memRead s.mem addr 0x100000), loftImg := some p, imgTiles := List.replicate 8 .free
    badLoft := (s.bad.filter fun b => addr / 32 ≤ b && b < addr / 32 + 0x8000).map fun b => b - addr / 32 }

/-- Place of a core among the cores of a mask. -/
def coreIndex (m : BitVec 72) (c : Nat) : Option Nat := (coresIn m).idxOf? c

/-- Step 1 of R347: tile records in the lofts are copied to the tile-record area and their references rewritten. -/
def State.moveTileRecords (s : State) (out area : Nat) : State :=
  let halls := (s.part out).halls
  let l := s.strands.filter fun e => e.2.status == .saved && (coresIn halls).contains (coreOf e.1)
  (s.refsOf l 2).foldl (fun (s : State) r =>
    match coreIndex halls r.2.2.2.1 with
    | none => s
    | some i =>
      let off := r.2.2.2.2.1
      let addr := area + i * 0x100000 + off
      (s.loftOut r.2.2.2.1 off 0xC000 addr).setRef3 r.1 r.2.1 r.2.2.1 addr) (s.noteRefs l)

/-- The image of a core's register state: offsets of R346 with their bytes. -/
def State.imagePieces (s : State) (c : Nat) : List (Nat × List Byte) :=
  let x := s.core c
  (List.range 64).map (fun b => (b * 0x2000, leBytes 0x2000 (x.block b).data.toNat)) ++
  (List.range 8).map (fun p => (0x80000 + p * 0x4000, leBytes 0x4000 (x.tile p).data.toNat)) ++
  (List.range 8).map (fun p => (0xA0000 + p * 0x8000, leBytes 0x8000 (x.tile p).window.toNat)) ++
  (List.range 16).map fun i =>
    let k := 16 * c + i
    (0xE0000 + i * 0x2000,
      (s.fixedArea k ⟨0, tagOf k (s.strand k).tagCount, (s.strand k).pc, 0, .none, [], [], [], [], []⟩).take 0x2000)

/-- Sectors of a core's image that hold what cannot be corrected: words of block rows, tile slices, window sectors (R104, R106). -/
def Core.imageBad (c : Core) : List Nat :=
  (c.badRows.map (fun (r : Nat × Nat × Nat) => 0x100 * r.1 + 16 * r.2.1 + r.2.2 / 4) ++
    (c.badTiles.map fun (t : Nat × Nat) => (List.range 64).map fun i => 0x4000 + 0x200 * t.1 + 64 * t.2 + i).flatten ++
    c.badWins.map fun (w : Nat × Nat) => 0x5000 + 0x400 * w.1 + w.2).foldl (fun l b => insNat b l) []

/-- A number of n bytes in a core's loft. -/
def Core.loftNum (c : Core) (off n : Nat) : Nat := leNat (memRead c.loft off n)

/-- The register state that an image in a core's loft holds, with what cannot be corrected in it; `sts` are its tile states. -/
def Core.fromImage (c : Core) (sts : List TileSt) : Core :=
  let pick (lo hi : Nat) : List Nat := (c.badLoft.filter fun b => lo ≤ b && b < hi).map fun b => b - lo
  let c0 := { c with
    blocks := [], tiles := []
    badRows := ((pick 0 0x4000).map fun b => (List.range 4).map fun w => (b / 0x100, b % 0x100 / 16, 4 * (b % 16) + w)).flatten
    badTiles := ((pick 0x4000 0x5000).map fun b => (b / 0x200, b % 0x200 / 64)).eraseDups
    badWins := (pick 0x5000 0x7000).map fun b => (b / 0x400, b % 0x400) }
  let c1 := (List.range 64).foldl (fun (x : Core) b => x.setBlock b ⟨BitVec.ofNat 65536 (c.loftNum (b * 0x2000) 0x2000), false, 0, 0, 0, 0, none⟩) c0
  (List.range 8).foldl (fun (x : Core) p => x.setTile p
    ⟨BitVec.ofNat 131072 (c.loftNum (0x80000 + p * 0x4000) 0x4000), BitVec.ofNat 262144 (c.loftNum (0xA0000 + p * 0x8000) 0x8000), sts.getD p .free⟩) c1

/-- Exchange the register state of one core with the image in its loft; without an image of the incoming partition the core
takes its reset values. Saved contexts and handler slots of the outgoing partition go to its stash (R346). -/
def State.swapCore (s : State) (out inc : Nat) (c : Nat) : State :=
  let x := s.core c
  let has := x.loftImg == some inc
  let pieces := s.imagePieces c
  let sts := (List.range 8).map fun p => (x.tile p).st
  let y := if has then x.fromImage x.imgTiles else { x with blocks := [], tiles := [], badRows := [], badTiles := [], badWins := [] }
  let loft := pieces.foldl (fun m p => memWrite m p.1 p.2) x.loft
  let s := s.setCore c { y with loft := loft, badLoft := x.imageBad, loftImg := some out, imgTiles := sts, bankq := [], fair := false }
  (strandsOf c).foldl (fun (s : State) k =>
    let t := s.strand k
    let keep := t.status == .saved || t.status == .dormant
    let po := s.part out
    let pi := s.part inc
    let back := Tbl.get Strand.reset pi.stash k
    let fixed := memRead x.loft (0xE0000 + k % 16 * 0x2000) 0x2000
    let csr := if has then back.csr.restored fixed else Csrs.reset
    let s := s.setPart out { po with stash := if keep then Tbl.set Strand.reset po.stash k t else po.stash }
    let s := s.setPart inc { s.part inc with stash := Tbl.del k pi.stash }
    s.setStrand k { back with csr := csr, tagCount := max t.tagCount back.tagCount }) s

/-- SWAP_EXCHANGE: when every strand of the outgoing partition's cores has been stopped and pre-empted, the steps of R347 and
the exchange are performed on each core, the halls pass to the incoming partition, and SWAP completes. A resumption or a restart
that the landing had asked for is asked for again once the partition is back (R282, R284). -/
def execSwapExchange (s : State) : Out :=
  match s.regs.swap with
  | none => .next s
  | some (out, inc, area, seq) =>
    let halls := (s.part out).halls
    let cores := coresIn halls
    let busy := cores.any fun c =>
      (strandsOf c).any (fun k => s.isLive k) || (s.core c).bankq.any fun w => match w.req with | .resume _ _ true => true | _ => false
    if busy then .next s
    else
      let s : State := s.moveTileRecords out area
      -- an evicted image is copied back into the lofts
      let s : State := match (s.part inc).evicted with
        | none => s
        | some base => (cores.zipIdx).foldl (fun (s : State) (p : Nat × Nat) => s.loftIn p.1 (base + p.2 * 0x100000) inc) s
      let order := ((List.range 8).map fun d => (s.die d).saved.filter fun k => cores.contains (coreOf k)).flatten
      let more := (s.strands.filter fun (e : Nat × Strand) => cores.contains (coreOf e.1) && !order.contains e.1 && e.2.status == .saved &&
        (s.resumeAsked e.1 || match e.2.saveAt with | some a => a.slot.isSome | none => false)).map Prod.fst
      let back := (s.part inc).stashSaved
      let s := cores.foldl (fun s c => s.swapCore out inc c) s
      let s := s.setPart out { s.part out with halls := 0, outHalls := halls, stashSaved := order ++ more }
      let s := s.setPart inc { s.part inc with halls := halls, outHalls := 0, evicted := none, stashSaved := [] }
      let ours (q : Reserve) : Bool := match s.flight? q.flight with | some f => f.part == out | none => false
      let s := (List.range 8).foldl (fun (s : State) d =>
        let x := s.die d
        s.setDie d { x with
          saved := (x.saved.filter fun k => !cores.contains (coreOf k)) ++ back.filter fun k => dieOf k == d
          reserve := x.reserve.filter fun q => !ours q }) s
      { s with regs := { s.regs with swap := none } }.done 0 seq 0 0

/-- EVICT: the loft images of a swapped-out partition are copied to local HBM, and references of kinds 1 and 2 become kind 3:
a Lazy tile's record is written in the copied image's block area, which no context uses (R346). Where the images lie, and when the
command is refused, is the model's choice (log 112). -/
def execEvict (q : Nat) (seq : Word) (s : State) : Out :=
  s.command q seq.toNat 0x14 true fun d =>
    let n := seq.toNat
    let p := recN d 8 1
    let addr := recN d 16 8
    let halls := (s.part p).outHalls
    let cores := coresIn halls
    if !s.feature 14 then s.done q n 20 14
    else if !(s.part p).live || halls = 0 || (s.part p).evicted.isSome || s.regs.swap.isSome then s.done q n 21 p
    else if !s.rangeOk p (addr, 0x100000 * cores.length) then s.done q n 22 0
    else
      let s1 := (cores.zipIdx).foldl (fun (s : State) e => s.loftOut e.1 0 0x100000 (addr + e.2 * 0x100000)) s
      let stash := (s.part p).stash
      let s1 := s1.noteRefs stash
      let s2 := (s.refsOf stash 1).foldl (fun (s : State) r =>
        let c := r.2.2.2.1
        let t := r.2.2.2.2.1
        let mine := match (s.core c).imgTiles.getD t .free with | .lazy g _ => g == r.2.2.2.2.2 | _ => false
        match coreIndex halls c with
        | some i =>
          if mine then
            let dst := addr + i * 0x100000 + t * 0xC000
            ((s.loftOut c (0x80000 + t * 0x4000) 0x4000 dst).loftOut c (0xA0000 + t * 0x8000) 0x8000 (dst + 0x4000)).setRef3 r.1 r.2.1 r.2.2.1 dst
          else s
        | none => s) s1
      let s3 := (s.refsOf stash 2).foldl (fun (s : State) r =>
        match coreIndex halls r.2.2.2.1 with
        | some i => s.setRef3 r.1 r.2.1 r.2.2.1 (addr + i * 0x100000 + r.2.2.2.2.1)
        | none => s) s2
      let s4 := cores.foldl (fun (s : State) c => s.setCore c { s.core c with loftImg := none, imgTiles := [] }) s3
      (s4.setPart p { s4.part p with evicted := some addr }).done q n 0 0

end Sys2Proof.Machine
end

