-- ==== Sys2Proof/Machine/Power.lean ====
section
/-! DEFINITION. Power states and commands (R367, R368), the budget and its loans (R370, R371), clamps (R372), ageing (R373),
restoring a die (R366), and time alignment (R376). -/
namespace Sys2Proof.Machine

/-! ### Power states (R367, R368) -/

/-- Dies that a mask byte names and that are present. -/
def State.namedDies (s : State) (mask : Nat) : List Nat := (List.range 8).filter fun d => mask.testBit d && s.regs.present.testBit d

/-- PWR_STATE: every named die is asked to enter the state, and the command completes when all have. A die in DF is left
there: only DIE_RESTORE ends DF. -/
def execPwrState (q : Nat) (seq : Word) (s : State) : Out :=
  s.command q seq.toNat 0x20 true fun d =>
    let ds := s.namedDies (recN d 8 1)
    let st := recN d 9 1
    if 4 < st || (st = 4 && ds.any fun i => !(s.die i).fenced) then s.done q seq.toNat 23 2
    else
      let ds := ds.filter fun i => (s.die i).power ≠ 4
      if ds.all fun i => (s.die i).power == st && (s.die i).nextPow.isNone then s.done q seq.toNat 0 0
      else .next (ds.foldl (fun (s : State) i =>
        let x := s.die i
        if x.power = st && x.nextPow.isNone then s else s.setDie i { x with nextPow := some st }) s)

/-- The clock of a die that adopts a pending margin. -/
def Die.adopt (x : Die) : Die := match x.pendMhz with | some m => { x with mhz := m.2, pendMhz := none } | none => x

/-- POWER_STATE_CHANGE: the die enters the commanded state, and in D0 takes up an adopted margin (R367, R373). -/
def execPowerStateChange (die : Nat) (s : State) : Out :=
  let x := s.die die
  match x.nextPow with
  | some p =>
    let y := { x with power := p, nextPow := none }
    .next (s.setDie die (if p = 0 then y.adopt else y))
  | none => if x.power = 0 then .next (s.setDie die x.adopt) else .next s

/-! ### The budget (R370) -/

/-- PWR_BUDGET: a raise takes effect at once; a lowering when every loan has been repaid. -/
def execPwrBudget (q : Nat) (seq : Word) (s : State) : Out :=
  s.command q seq.toNat 0x21 true fun d =>
    let b := recN d 8 4
    if b < 800 || 2400 < b then s.done q seq.toNat 23 1
    else
      let now := s.budgetNow
      let lower := if b < now then some (now, s.time) else none
      ({ s with regs := { s.regs with budget := b, lower := lower } } : State).done q seq.toNat 0 0

/-- Is a loan outstanding? -/
def State.lending (s : State) : Bool := s.loans.any fun l => decide (1 ≤ l.phase)

/-- BUDGET_LOWER_EFFECT: no loan is outstanding, and the lowered budget takes effect (R370). -/
def execBudgetLowerEffect (s : State) : Out :=
  if s.regs.lower.isSome && !s.lending then .next { s with regs := { s.regs with lower := none } } else .next s

/-! ### Loans (R371): phase 0 requested, 1 granted, 2 received, 3 repaid and on its way back -/

/-- The loan of a pair in a phase. -/
def State.loan? (s : State) (lender borrower phase : Nat) : Option Loan :=
  s.loans.find? fun l => l.lender == lender && l.borrower == borrower && l.phase == phase

/-- Replace the loan of a pair. -/
def State.setLoan (s : State) (l : Loan) : State :=
  { s with loans := s.loans.map fun x => if x.lender = l.lender && x.borrower = l.borrower then l else x }

/-- LOAN_REQUEST: one loan at a time between two dies; none while a lowering of the budget waits. -/
def execLoanRequest (borrower lender units : Nat) (s : State) : Out :=
  if borrower ≠ lender && s.dieLive borrower && s.dieLive lender && 1 ≤ units && units ≤ 64 && s.regs.lower.isNone &&
      !(s.loans.any fun l => l.lender == lender && l.borrower == borrower) then
    .next { s with loans := s.loans ++ [⟨lender, borrower, units, 0, 0⟩] }
  else .next s

/-- What die d has lent, in W. -/
def State.lentBy (s : State) (d : Nat) : Nat := ((s.loans.filter fun l => l.lender == d && decide (1 ≤ l.phase)).map Loan.units).sum

/-- LOAN_GRANT: the lender lowers its allowance first. It lends of its own share alone: what it has itself borrowed it must be
able to give back within 1 ms (R370, R371; log 90). -/
def execLoanGrant (lender borrower : Nat) (s : State) : Out :=
  match s.loan? lender borrower 0 with
  | some l => if s.lentBy lender + l.units ≤ s.shareOf lender && s.regs.lower.isNone then .next (s.setLoan { l with phase := 1, granted := s.time }) else .next s
  | none => .next s

/-- LOAN_RECEIPT: the borrower raises its allowance. -/
def execLoanReceipt (borrower lender : Nat) (s : State) : Out :=
  match s.loan? lender borrower 1 with
  | some l => .next (s.setLoan { l with phase := 2 })
  | none => .next s

/-- LOAN_REPAY: the borrower lowers its allowance and sends the units back. -/
def execLoanRepay (borrower lender : Nat) (s : State) : Out :=
  match s.loan? lender borrower 2 with
  | some l => .next (s.setLoan { l with phase := 3 })
  | none => .next s

/-- REPAY_RECEIPT: the lender raises its allowance. -/
def execRepayReceipt (lender borrower : Nat) (s : State) : Out :=
  match s.loan? lender borrower 3 with
  | some _ => .next { s with loans := s.loans.filter fun l => !(l.lender == lender && l.borrower == borrower) }
  | none => .next s

/-- LOAN_DEADLINE: 1 ms after the grant the loan is repaid whatever the demand, and the borrower's power clamp acts. -/
def execLoanDeadline (borrower lender : Nat) (s : State) : Out :=
  match s.loan? lender borrower 2 with
  | some l =>
    if s.time < l.granted + 1000000 then .next s
    else
      let s := s.setLoan { l with phase := 3 }
      let x := s.die borrower
      .next (s.setDie borrower { x with clamp := x.clamp ||| 4 })
  | none => .next s

/-! ### Clamps (R372) -/

/-- A clamp of a die acts or stops, having withheld units of 1,024 cycles. -/
def State.clampOf (s : State) (die b : Nat) (acts : Bool) (kilocycles : Nat) : State :=
  let x := s.die die
  let c := if acts then x.clamp ||| 2 ^ b else x.clamp &&& (7 ^^^ 2 ^ b)
  s.setDie die { x with clamp := c, thr := min (x.thr + kilocycles) (2 ^ 24 - 1) }

/-- THERMAL_CLAMP: it acts at a junction of 105 degrees C. -/
def execThermalClamp (die : Nat) (acts : Bool) (kilocycles : Nat) (s : State) : Out :=
  if acts == decide (105 ≤ s.junction die) then .next (s.clampOf die 0 acts kilocycles) else .next s

/-- CURRENT_CLAMP. -/
def execCurrentClamp (die : Nat) (acts : Bool) (kilocycles : Nat) (s : State) : Out := .next (s.clampOf die 1 acts kilocycles)

/-- POWER_CLAMP. -/
def execPowerClamp (die : Nat) (acts : Bool) (kilocycles : Nat) (s : State) : Out := .next (s.clampOf die 2 acts kilocycles)

/-! ### Ageing (R373) -/

/-- AGEING_PROPOSAL: firmware writes a proposal with a new id. -/
def execAgeingProposal (mv mhz : BitVec 16) (s : State) : Out :=
  let id := (bits s.regs.ageprop 32 32 + 1) % 2 ^ 32
  let id := if id = 0 then 1 else id
  .next { s with regs := { s.regs with ageprop := w64 (id * 2 ^ 32 + mv.toNat * 2 ^ 16 + mhz.toNat) } }

/-- MARGIN_ADOPT: the current proposal goes to every live die, which takes it up in D0. -/
def execMarginAdopt (q : Nat) (seq : Word) (s : State) : Out :=
  s.command q seq.toNat 0x22 true fun d =>
    let a := s.regs.ageprop
    let id := recN d 8 4
    if id = 0 || id ≠ bits a 32 32 then s.done q seq.toNat 23 3
    else
      let m := (bits a 16 16, bits a 0 16)
      let s1 := s.liveDies.foldl (fun (s : State) i => s.setDie i { s.die i with pendMhz := some m }) s
      ({ s1 with regs := { s1.regs with margin := some m } } : State).done q seq.toNat 0 0

/-! ### Fencing and restoring by command (R366, R368) -/

/-- DIE_FENCE: the die is fenced, and the command completes when its reset has begun. A fenced or absent die is left as it
is. -/
def execDieFence (q : Nat) (seq : Word) (s : State) : Out :=
  s.command q seq.toNat 0x23 true fun d =>
    let die := recN d 8 1
    if die < 8 && s.dieLive die then .next (s.fence die)
    else if s.elect then .next s
    else s.done q seq.toNat 0 0

/-- DIE_RESTORE: a fenced die that has been released from reset rejoins, powered up into D0 from DF, with the adopted margin; a
change to DF that was still to come is dropped, since a live die is never in DF (R367). It waits until every loan has been
repaid, since the shares shrink (R370; log 90). -/
def execDieRestore (q : Nat) (seq : Word) (s : State) : Out :=
  s.command q seq.toNat 0x24 true fun d =>
    let die := recN d 8 1
    let x := s.die die
    if 8 ≤ die || !s.regs.present.testBit die || !x.fenced then s.done q seq.toNat 23 4
    else if x.inReset || s.elect || s.lending then .next s
    else
      let y := { x with fenced := false, power := if x.power = 4 then 0 else x.power, nextPow := if x.power = 4 || x.nextPow = some 4 then none else x.nextPow, pendMhz := s.regs.margin }
      let y := if y.power = 0 then y.adopt else y
      let s1 := s.setDie die y
      ({ s1 with head := s1.head.or (some die) } : State).done q seq.toNat 0 0

/-! ### Time alignment (R376) -/

/-- Has no strand of the package run since its reset: none has been started, and none is live? -/
def State.noneRan (s : State) : Bool := !s.regs.ran && !(s.strands.any fun e => e.1 ≠ mgmtKey && s.isLive e.1)

/-- PTP_SYNC: PTPSTAT takes the measured offset; the counter's rate changes by at most 200 ppm. A package that joins more than
1 ms behind is stepped forward once, when none of its strands has run; one that joins more than 1 ms off and is not stepped is held
out of the domain until its offset is below 1 ms (log 91). A grandmaster is a package of the domain, numbered below 384. -/
def execPtpSync (gm : BitVec 16) (off : BitVec 32) (slew : Int) (s : State) : Out :=
  if !bit s.regs.domain 63 || 384 ≤ gm.toNat then .next s
  else
    let o := off.toInt
    let joining := !s.regs.joined
    let step := joining && !s.regs.stepped && decide (o < -1000000) && s.noneRan
    let off1 := decide (o < -1000000) || decide (1000000 < o)
    let in1 := decide (-1000000 < o) && decide (o < 1000000)
    let lock := decide (-100 ≤ o) && decide (o ≤ 100)
    .next { s with
      time := if step then s.time + (-o).toNat else s.time
      regs := { s.regs with
        ptp := w64 (b2n lock * 2 ^ 63 + gm.toNat * 2 ^ 32 + off.toNat)
        stepped := s.regs.stepped || step
        joined := true
        heldOut := if joining then off1 && !step else s.regs.heldOut && !in1
        rate := max (-200) (min 200 slew) } }

end Sys2Proof.Machine
end

