-- ==== Sys2Proof/Machine/Trust.lean ====
section
/-! DEFINITION. Reset and boot (R364, R391), the watchdog (R390), attestation (R394), key loading (R395), and the debug port's
challenge and token (R396). -/
namespace Sys2Proof.Machine

/-! ### Reset and boot -/

/-- A measurement as its 64 bytes, and back. -/
def measBytes (m : BitVec 512) : List Nat := Crypto.leList 64 m.toNat
def bytesMeas (l : List Nat) : BitVec 512 := BitVec.ofNat 512 (Crypto.leNum l)

/-- MEAS0 after an image (R391). -/
def measure (m : BitVec 512) (image : List Nat) : BitVec 512 := bytesMeas (Crypto.sha512 (measBytes m ++ Crypto.sha512 image))

/-- The firmware images in the order in which the boot ROM takes them: management core, hub dies, stack bases, landings and cores
(R391). -/
def imageOrder : List Nat := [0, 1, 2, 3]

/-- Does image i verify: its public key has the fused hash, and its signature over the image's SHA-512 hash holds (R391)? -/
def imageOk (i : Nat) : Bool :=
  Crypto.leNum (Crypto.sha512 (Config.bootImageKey i)) == Config.bootKeyHash &&
    Crypto.ecdsaVerify (Config.bootImageKey i) (Crypto.sha512 (Config.bootImage i)) (Config.bootImageSig i)

/-- The boot ROM verifies and measures the images in order; MEAS1 takes the lifecycle state, in a form the spec does not give
(log 9). -/
def State.boot (s : State) : State :=
  let m := imageOrder.foldl (fun m i => measure m (Config.bootImage i)) s.regs.meas0
  let fail := imageOrder.any fun i => !imageOk i
  let r := { s.regs with meas0 := m, meas1 := BitVec.ofNat 512 s.freeVal, bootfail := fail }
  { s.useFree with regs := r }

/-- Memory outside the package: other packages and the host (R92). -/
def outside (pa : Nat) : Bool := decide (windowBase ≤ pa)

/-- PACKAGE_RESET: every die, SRAM and register is reset, and the boot ROM runs (R364, R391). Fuses keep their values, and the
world outside its own: the schedule, host memory and the other packages' memory. -/
def execPackageReset (s : State) : Out :=
  let z : State := { State.reset with
    sched := s.sched, freeCtr := s.freeCtr, head := firstDie s.regs.present, parts := [(0, Partition.zero s.regs.present)], mem := s.mem.filter (fun e => outside e.1), bad := s.bad.filter (fun b => outside (32 * b)),
    soft := s.soft.filter (fun b => outside (32 * b)), regs := { Regs.reset with lifecycle := s.regs.lifecycle, present := s.regs.present, tj := s.regs.tj } }
  .next z.boot

/-- WATCHDOG_RESTART: the firmware has not serviced the watchdog for 100 ms, and the management core alone restarts: its image is
verified again (R391), and MEAS2 is extended, by what the spec does not give (log 9). What its strand holds is released, as at
every end of a context (R281; log 61). Queue-0 commands stay to be completed (R390). -/
def execWatchdogRestart (s : State) : Out :=
  let s1 := ((s.leaveBank mgmtKey).releaseAll mgmtKey).setStrand mgmtKey Strand.reset
  let r := { s1.regs with mcsr := MCsrs.reset, restarted := true, meas2 := BitVec.ofNat 512 s1.freeVal, bootfail := s1.regs.bootfail || !imageOk 0 }
  .next { s1.useFree with regs := r }

/-! ### Attestation (R394) -/

/-- The report without its signature. -/
def State.reportBody (s : State) (nonce : List Byte) : List Nat :=
  let flags := s.regs.lifecycle % 8 + 8 * b2n s.regs.opened + 16 * b2n s.regs.restarted
  Crypto.leList 4 1 ++ Crypto.leList 4 flags ++ Crypto.leList 8 isaver.toNat ++ Crypto.leList 16 Config.devId ++ toNats nonce ++
    measBytes s.regs.meas0 ++ measBytes s.regs.meas1 ++ measBytes s.regs.meas2 ++
    Crypto.pubBytes (Crypto.ptMul 521 Config.keyAgreementSecret (some (Crypto.pGx, Crypto.pGy))) ++ [0, 0, 0]

/-- ATTESTATION_REPORT: the report for the nonce at the buffer's start is written after it. In RMA the signature is zero
(R393); else its per-signature number is a free value (log 9). -/
def execAttestationReport (s : State) : Out :=
  match s.regs.attbuf with
  | none => .next s
  | some a =>
    let body := s.reportBody (s.hostRead (a % 2 ^ 51) 64)
    let sig := if s.regs.lifecycle = 2 then List.replicate 132 0
      else Crypto.ecdsaSign Config.signingSecret (s.freeVal % (Crypto.pN - 1) + 1) (Crypto.sha512 body)
    let s1 := s.useFree.hostWrite (a % 2 ^ 51 + 64) (ofNats (body ++ sig))
    .next { s1 with regs := { s1.regs with attbuf := none, attdone := true } }

/-! ### KEY_LOAD (R395) -/

/-- The key that a wrapped key holds for a partition; none when the unwrap fails. -/
def unwrapKey (p : Nat) (w : List Nat) : Option (BitVec 512) :=
  match Crypto.ecdh Config.keyAgreementSecret (w.take 133) with
  | none => none
  | some x =>
    let kek := (Crypto.hkdf512 (Crypto.leList 16 Config.devId) x ([0x4B, 0x45, 0x59] ++ [p % 256])).take 32
    (Crypto.keyUnwrap kek ((w.drop 136).take 72)).map bytesMeas

/-- KEY_LOAD. Over a key already loaded the new key holds from now on, for queued stores and cached lines too (log 115). -/
def execKeyLoad (q : Nat) (seq : Word) (s : State) : Out :=
  s.command q seq.toNat 0x12 true fun d =>
    let n := seq.toNat
    let p := recN d 8 1
    if !s.feature 9 then s.done q n 20 9
    else if !(s.part p).live then s.done q n 21 p
    else if s.portOpen || s.regs.lifecycle ≠ 1 then s.done q n 24 1
    else
      match unwrapKey p (toNats (s.hostRead (recN d 16 8 % 2 ^ 51) 208)) with
      | none => s.done q n 24 0
      | some k => (s.setPart p { s.part p with key := some k }).done q n 0 0

/-! ### The debug port (R396) -/

/-- DEBUG_CHALLENGE: a fresh nonce replaces the previous one. -/
def execDebugChallenge (s : State) : Out :=
  .next { s.useFree with regs := { s.regs with nonce := some (s.freeVal % 2 ^ 256) } }

/-- What a token signs: DEVID, lc, nonce, scope. -/
def State.tokenHash (s : State) (nonce : Nat) (scope : Byte) : List Nat :=
  Crypto.sha512 (Crypto.leList 16 Config.devId ++ [s.regs.lifecycle % 256] ++ Crypto.leList 32 nonce ++ [scope.toNat])

/-- DEBUG_TOKEN: in PROD, a token that verifies wipes every key once the stores issued with them are performed, extends MEAS2 in a
form the spec does not give (log 9), and opens the port; with scope 2 the part advances to RMA (R393). A token that fails adds
to the failure count, and after 16 failures tokens are refused. -/
def execDebugToken (scope : Byte) (key sig : List Byte) (s : State) : Out :=
  if s.regs.lifecycle ≠ 1 || 16 ≤ s.regs.failures then .next s
  else
    let ok := match s.regs.nonce with
      | none => false
      | some n => (scope == 1 || scope == 2) && Crypto.leNum (Crypto.sha512 (toNats key)) == Config.unlockKeyHash &&
          Crypto.ecdsaVerify (toNats key) (s.tokenHash n scope) (toNats sig)
    if !ok then .next { s with regs := { s.regs with failures := s.regs.failures + 1 } }
    else
      let s := s.settleWrites
      let parts := Tbl.mapV Partition.none (fun (p : Partition) => if p.key.isSome then { p with key := none } else p) s.parts
      let r := { s.regs with dbgpatch := setBits s.regs.dbgpatch 16 1 1, opened := true, meas2 := BitVec.ofNat 512 s.freeVal,
                             lifecycle := if scope = 2 then 2 else 1 }
      .next { s.useFree with parts := parts, regs := r }

end Sys2Proof.Machine
end

