-- ==== Sys2Proof/Machine/Dispatch.lean ====
section
/-! DEFINITION. One arm for each row of the opcode table. -/
namespace Sys2Proof.Machine

/-- The effect of an instruction or event on a state. -/
def exec (i : Instr) (s : State) : Host.Outcome State Fault Refusal :=
  match i with
  | .claim rs => Sys2Proof.Machine.execClaim rs s
  | .acq rs => Sys2Proof.Machine.execAcq rs s
  | .acqTry rd rs => Sys2Proof.Machine.execAcqTry rd rs s
  | .rel rs => Sys2Proof.Machine.execRel rs s
  | .relComplete k => Sys2Proof.Machine.execRelComplete k s
  | .syncAcq sp sc => Sys2Proof.Machine.execSyncAcq sp sc s
  | .syncRel sp sc => Sys2Proof.Machine.execSyncRel sp sc s
  | .syncAr sp sc => Sys2Proof.Machine.execSyncAr sp sc s
  | .lda w sc sp rd rs => Sys2Proof.Machine.execLda w sc sp rd rs s
  | .stl w sc sp rt rs => Sys2Proof.Machine.execStl w sc sp rt rs s
  | .kwait mask => Sys2Proof.Machine.execKwait mask s
  | .kwaitPass k => Sys2Proof.Machine.execKwaitPass k s
  | .kpoll rd mask => Sys2Proof.Machine.execKpoll rd mask s
  | .gbar g => Sys2Proof.Machine.execGbar g s
  | .garrive rd g => Sys2Proof.Machine.execGarrive rd g s
  | .gwait rs g => Sys2Proof.Machine.execGwait rs g s
  | .barrierWaitEnd k => Sys2Proof.Machine.execBarrierWaitEnd k s
  | .vshape ty rd rr rc => Sys2Proof.Machine.execVshape ty rd rr rc s
  | .flLaunch rd rs => Sys2Proof.Machine.execFlLaunch rd rs s
  | .flHint => Sys2Proof.Machine.execFlHint s
  | .waitpred => Sys2Proof.Machine.execWaitpred s
  | .waitpredEnd k => Sys2Proof.Machine.execWaitpredEnd k s
  | .treadEnd => Sys2Proof.Machine.execTreadEnd s
  | .ckpt rs => Sys2Proof.Machine.execCkpt rs s
  | .tret => Sys2Proof.Machine.execTret s
  | .ctxSave xc xa => Sys2Proof.Machine.execCtxSave xc xa s
  | .ctxLoad xc xa => Sys2Proof.Machine.execCtxLoad xc xa s
  | .tlbInv xv xc => Sys2Proof.Machine.execTlbInv xv xc s
  | .traceCtl xc => Sys2Proof.Machine.execTraceCtl xc s
  | .rv64iArith a => Sys2Proof.Machine.execRv64iArith a s
  | .branchJump j => Sys2Proof.Machine.execBranchJump j s
  | .load f rd rs off => Sys2Proof.Machine.execLoad f rd rs off s
  | .store w rt rs off => Sys2Proof.Machine.execStore w rt rs off s
  | .lr h rd rs => Sys2Proof.Machine.execLr h rd rs s
  | .sc h rd rs rt => Sys2Proof.Machine.execSc h rd rs rt s
  | .amo op h rd rs rt => Sys2Proof.Machine.execAmo op h rd rs rt s
  | .fence fm pred succ => Sys2Proof.Machine.execFence fm pred succ s
  | .fenceI => Sys2Proof.Machine.execFenceI s
  | .sfenceVma rs rt => Sys2Proof.Machine.execSfenceVma rs rt s
  | .mret => Sys2Proof.Machine.execMret s
  | .wfi => Sys2Proof.Machine.execWfi s
  | .ecall => Sys2Proof.Machine.execEcall s
  | .ebreak => Sys2Proof.Machine.execEbreak s
  | .sret => Sys2Proof.Machine.execSret s
  | .csrAccess op src rd csr => Sys2Proof.Machine.execCsrAccess op src rd csr s
  | .shapeWrite op src rd => Sys2Proof.Machine.execShapeWrite op src rd s
  | .srptrWrite op src rd => Sys2Proof.Machine.execSrptrWrite op src rd s
  | .srbaseWrite op src rd => Sys2Proof.Machine.execSrbaseWrite op src rd s
  | .spmcWrite n op src rd => Sys2Proof.Machine.execSpmcWrite n op src rd s
  | .vadd o => Sys2Proof.Machine.execVadd o s
  | .vsub o => Sys2Proof.Machine.execVsub o s
  | .vmul o => Sys2Proof.Machine.execVmul o s
  | .vmulh o => Sys2Proof.Machine.execVmulh o s
  | .vdiv o => Sys2Proof.Machine.execVdiv o s
  | .vmin o => Sys2Proof.Machine.execVmin o s
  | .vmax o => Sys2Proof.Machine.execVmax o s
  | .vand o => Sys2Proof.Machine.execVand o s
  | .vor o => Sys2Proof.Machine.execVor o s
  | .vxor o => Sys2Proof.Machine.execVxor o s
  | .vsll o => Sys2Proof.Machine.execVsll o s
  | .vsrl o => Sys2Proof.Machine.execVsrl o s
  | .vsra o => Sys2Proof.Machine.execVsra o s
  | .vabs o => Sys2Proof.Machine.execVabs o s
  | .vneg o => Sys2Proof.Machine.execVneg o s
  | .vsqrt o => Sys2Proof.Machine.execVsqrt o s
  | .vrece o => Sys2Proof.Machine.execVrece o s
  | .vrsqe o => Sys2Proof.Machine.execVrsqe o s
  | .vfma o => Sys2Proof.Machine.execVfma o s
  | .vfms o => Sys2Proof.Machine.execVfms o s
  | .vfnma o => Sys2Proof.Machine.execVfnma o s
  | .vfnms o => Sys2Proof.Machine.execVfnms o s
  | .vcmp h ty cond all pd vs1 vs2 => Sys2Proof.Machine.execVcmp h ty cond all pd vs1 vs2 s
  | .pand o => Sys2Proof.Machine.execPand o s
  | .por o => Sys2Proof.Machine.execPor o s
  | .pxor o => Sys2Proof.Machine.execPxor o s
  | .pnot h pd ps => Sys2Proof.Machine.execPnot h pd ps s
  | .pset h pd xs => Sys2Proof.Machine.execPset h pd xs s
  | .psetPat h pd xs => Sys2Proof.Machine.execPsetPat h pd xs s
  | .vcvt o => Sys2Proof.Machine.execVcvt o s
  | .vmxpack o vsc => Sys2Proof.Machine.execVmxpack o vsc s
  | .vmxunpack o vsc => Sys2Proof.Machine.execVmxunpack o vsc s
  | .vredsum o => Sys2Proof.Machine.execVredsum o s
  | .vredmax o => Sys2Proof.Machine.execVredmax o s
  | .vredmin o => Sys2Proof.Machine.execVredmin o s
  | .vredamax o => Sys2Proof.Machine.execVredamax o s
  | .vidx h ty vd start step => Sys2Proof.Machine.execVidx h ty vd start step s
  | .vbcast h ty vd xs => Sys2Proof.Machine.execVbcast h ty vd xs s
  | .vmvx h ty xd vs xi => Sys2Proof.Machine.execVmvx h ty xd vs xi s
  | .vmv o => Sys2Proof.Machine.execVmv o s
  | .vreshape o => Sys2Proof.Machine.execVreshape o s
  | .vperm o => Sys2Proof.Machine.execVperm o s
  | .vslideup o => Sys2Proof.Machine.execVslideup o s
  | .vslidedn o => Sys2Proof.Machine.execVslidedn o s
  | .vrepBegin la n => Sys2Proof.Machine.execVrepBegin la n s
  | .vrepGo la => Sys2Proof.Machine.execVrepGo la s
  | .vld o xp => Sys2Proof.Machine.execVld o xp s
  | .vlds o xp xe => Sys2Proof.Machine.execVlds o xp xe s
  | .vldx o vi => Sys2Proof.Machine.execVldx o vi s
  | .vst o xp => Sys2Proof.Machine.execVst o xp s
  | .vsts o xp xe => Sys2Proof.Machine.execVsts o xp xe s
  | .vstx o vi => Sys2Proof.Machine.execVstx o vi s
  | .mzero h cp md => Sys2Proof.Machine.execMzero h cp md s
  | .mop h cp ta tb md va a vb b => Sys2Proof.Machine.execMop h cp ta tb md va a vb b s
  | .mopw h cp sp n1 ta tb md va a xo => Sys2Proof.Machine.execMopw h cp sp n1 ta tb md va a xo s
  | .wload la xo xs xn => Sys2Proof.Machine.execWload la xo xs xn s
  | .mdrain h cp int dt vd ms xc q => Sys2Proof.Machine.execMdrain h cp int dt vd ms xc q s
  | .mfill h cp int st md vs xc q => Sys2Proof.Machine.execMfill h cp int st md vs xc q s
  | .msave la mem ms xa => Sys2Proof.Machine.execMsave la mem ms xa s
  | .msaveP la mem n xa => Sys2Proof.Machine.execMsaveP la mem n xa s
  | .mload la mem md xa => Sys2Proof.Machine.execMload la mem md xa s
  | .msend o => Sys2Proof.Machine.execMsend o s
  | .msendTry o xt => Sys2Proof.Machine.execMsendTry o xt s
  | .mdone la => Sys2Proof.Machine.execMdone la s
  | .hop la cls xa => Sys2Proof.Machine.execHop la cls xa s
  | .gbpAdd la D1 d1 off vd vs => Sys2Proof.Machine.execGbpAdd la D1 d1 off vd vs s
  | .gbpElim la D1 k vd vs xt => Sys2Proof.Machine.execGbpElim la D1 k vd vs xt s
  | .gbpDamp la D1 vd vo vn xb => Sys2Proof.Machine.execGbpDamp la D1 vd vo vn xb s
  | .gbpResid la D1 xd va vb => Sys2Proof.Machine.execGbpResid la D1 xd va vb s
  | .gbpPack la D1 vd vs => Sys2Proof.Machine.execGbpPack la D1 vd vs s
  | .gbpUnpack la D1 vd vs => Sys2Proof.Machine.execGbpUnpack la D1 vd vs s
  | .tshape la sd xs => Sys2Proof.Machine.execTshape la sd xs s
  | .tcp o => Sys2Proof.Machine.execTcp o s
  | .tcpScat o => Sys2Proof.Machine.execTcpScat o s
  | .tdeal o => Sys2Proof.Machine.execTdeal o s
  | .sbindRd la port v xs sd => Sys2Proof.Machine.execSbindRd la port v xs sd s
  | .sbindWr la port v xs sd => Sys2Proof.Machine.execSbindWr la port v xs sd s
  | .sunbind la port => Sys2Proof.Machine.execSunbind la port s
  | .sgGather o xi => Sys2Proof.Machine.execSgGather o xi s
  | .sgReduce o op ty => Sys2Proof.Machine.execSgReduce o op ty s
  | .sgConv o dt st => Sys2Proof.Machine.execSgConv o dt st s
  | .collReduce o op acc ty xm => Sys2Proof.Machine.execCollReduce o op acc ty xm s
  | .collBcast o xm => Sys2Proof.Machine.execCollBcast o xm s
  | .hnop la => Sys2Proof.Machine.execHnop la s
  | .hpref la lvl n1 xs => Sys2Proof.Machine.execHpref la lvl n1 xs s
  | .hmark la value => Sys2Proof.Machine.execHmark la value s
  | .undefinedHint la op payload => Sys2Proof.Machine.execUndefinedHint la op payload s
  | .interrupt k => Sys2Proof.Machine.execInterrupt k s
  | .preemption k => Sys2Proof.Machine.execPreemption k s
  | .resumptionGrant core idx => Sys2Proof.Machine.execResumptionGrant core idx s
  | .bankerReevaluation core => Sys2Proof.Machine.execBankerReevaluation core s
  | .fairnessHold core => Sys2Proof.Machine.execFairnessHold core s
  | .copyLanding core slot lo n => Sys2Proof.Machine.execCopyLanding core slot lo n s
  | .engineOperation core slot => Sys2Proof.Machine.execEngineOperation core slot s
  | .streamBindEstablish k => Sys2Proof.Machine.execStreamBindEstablish k s
  | .streamTransfer core port n => Sys2Proof.Machine.execStreamTransfer core port n s
  | .writeThroughDelivery core idx => Sys2Proof.Machine.execWriteThroughDelivery core idx s
  | .backgroundScrub stack sector => Sys2Proof.Machine.execBackgroundScrub stack sector s
  | .messageDelivery core net idx => Sys2Proof.Machine.execMessageDelivery core net idx s
  | .handlerStart core strand => Sys2Proof.Machine.execHandlerStart core strand s
  | .hopStart core strand => Sys2Proof.Machine.execHopStart core strand s
  | .vestibuleAgeing core idx => Sys2Proof.Machine.execVestibuleAgeing core idx s
  | .gangPlacement die => Sys2Proof.Machine.execGangPlacement die s
  | .ageBoost die flight => Sys2Proof.Machine.execAgeBoost die flight s
  | .gangRollback die => Sys2Proof.Machine.execGangRollback die s
  | .waitTriggeredPreemption die flight => Sys2Proof.Machine.execWaitTriggeredPreemption die flight s
  | .savedTreadResume die k target => Sys2Proof.Machine.execSavedTreadResume die k target s
  | .flightCompletion flight => Sys2Proof.Machine.execFlightCompletion flight s
  | .headElection => Sys2Proof.Machine.execHeadElection s
  | .swapExchange => Sys2Proof.Machine.execSwapExchange s
  | .traceSample part => Sys2Proof.Machine.execTraceSample part s
  | .notify q v => Sys2Proof.Machine.execNotify q v s
  | .slotFetch q => Sys2Proof.Machine.execSlotFetch q s
  | .slotRefetch q => Sys2Proof.Machine.execSlotRefetch q s
  | .resync q v => Sys2Proof.Machine.execResync q v s
  | .queueEnable q v => Sys2Proof.Machine.execQueueEnable q v s
  | .feataccWrite n v => Sys2Proof.Machine.execFeataccWrite n v s
  | .winbaseWrite v => Sys2Proof.Machine.execWinbaseWrite v s
  | .domainWrite v => Sys2Proof.Machine.execDomainWrite v s
  | .swi core strand => Sys2Proof.Machine.execSwi core strand s
  | .attreq v => Sys2Proof.Machine.execAttreq v s
  | .attestationReport => Sys2Proof.Machine.execAttestationReport s
  | .rlctlModeWrite part v => Sys2Proof.Machine.execRlctlModeWrite part v s
  | .registerWrite off size v => Sys2Proof.Machine.execRegisterWrite off size v s
  | .hostWrite off bytes relaxed => Sys2Proof.Machine.execHostWrite off bytes relaxed s
  | .remoteAccess off op => Sys2Proof.Machine.execRemoteAccess off op s
  | .nop q seq => Sys2Proof.Machine.execNop q seq s
  | .launch q seq => Sys2Proof.Machine.execLaunch q seq s
  | .partCreate q seq => Sys2Proof.Machine.execPartCreate q seq s
  | .partDestroy q seq => Sys2Proof.Machine.execPartDestroy q seq s
  | .keyLoad q seq => Sys2Proof.Machine.execKeyLoad q seq s
  | .swap q seq => Sys2Proof.Machine.execSwap q seq s
  | .evict q seq => Sys2Proof.Machine.execEvict q seq s
  | .pwrState q seq => Sys2Proof.Machine.execPwrState q seq s
  | .powerStateChange die => Sys2Proof.Machine.execPowerStateChange die s
  | .pwrBudget q seq => Sys2Proof.Machine.execPwrBudget q seq s
  | .budgetLowerEffect => Sys2Proof.Machine.execBudgetLowerEffect s
  | .marginAdopt q seq => Sys2Proof.Machine.execMarginAdopt q seq s
  | .ageingProposal mv mhz => Sys2Proof.Machine.execAgeingProposal mv mhz s
  | .dieFence q seq => Sys2Proof.Machine.execDieFence q seq s
  | .dieRestore q seq => Sys2Proof.Machine.execDieRestore q seq s
  | .heartbeatTimeout die => Sys2Proof.Machine.execHeartbeatTimeout die s
  | .ucieLinksDown die => Sys2Proof.Machine.execUcieLinksDown die s
  | .junctionOvertemperature die => Sys2Proof.Machine.execJunctionOvertemperature die s
  | .landingStateError die => Sys2Proof.Machine.execLandingStateError die s
  | .dieResetRelease die => Sys2Proof.Machine.execDieResetRelease die s
  | .packageReset => Sys2Proof.Machine.execPackageReset s
  | .watchdogRestart => Sys2Proof.Machine.execWatchdogRestart s
  | .loanRequest borrower lender units => Sys2Proof.Machine.execLoanRequest borrower lender units s
  | .loanGrant lender borrower => Sys2Proof.Machine.execLoanGrant lender borrower s
  | .loanReceipt borrower lender => Sys2Proof.Machine.execLoanReceipt borrower lender s
  | .loanRepay borrower lender => Sys2Proof.Machine.execLoanRepay borrower lender s
  | .repayReceipt lender borrower => Sys2Proof.Machine.execRepayReceipt lender borrower s
  | .loanDeadline borrower lender => Sys2Proof.Machine.execLoanDeadline borrower lender s
  | .thermalClamp die acts kilocycles => Sys2Proof.Machine.execThermalClamp die acts kilocycles s
  | .currentClamp die acts kilocycles => Sys2Proof.Machine.execCurrentClamp die acts kilocycles s
  | .powerClamp die acts kilocycles => Sys2Proof.Machine.execPowerClamp die acts kilocycles s
  | .ptpSync gm off slew => Sys2Proof.Machine.execPtpSync gm off slew s
  | .debugChallenge => Sys2Proof.Machine.execDebugChallenge s
  | .debugToken scope key sig => Sys2Proof.Machine.execDebugToken scope key sig s
  | .illegalInstruction bits long => Sys2Proof.Machine.execIllegalInstruction bits long s
  | .instructionFetchFault va cause => Sys2Proof.Machine.execInstructionFetchFault va cause s
  | .ualinkPortTraining port peerDomid peerPkg => Sys2Proof.Machine.execUalinkPortTraining port peerDomid peerPkg s
  | .resume k area => Sys2Proof.Machine.execResume k area s

end Sys2Proof.Machine
end

