-- ==== Sys2Proof/Machine/Front.lean ====
section
/-! DEFINITION. The scalar front and the vector sequencer of the executing strand: what is illegal at the front (R58, R210,
R354), what is held (R176), lookahead (R77, R78), address match units (R385), and the queue (R175). -/
namespace Sys2Proof.Machine

/-! ### What is illegal at the front -/

/-- Instructions that are illegal while a replay body is captured (R210). -/
def notCaptured : Instr → Bool
  | .vrepBegin _ _ | .vrepGo _ | .msend _ | .msendTry _ _ | .mdone _ | .hop _ _ _ => true
  | _ => false

/-- Long forms that U mode may not execute (R321, R237). -/
def supervisorForm : Instr → Bool
  | .msave .. | .msaveP .. | .mload .. => true
  | _ => false

/-- Is the instruction illegal at the scalar front beyond its encoding (R58)? The conditions of a 32-bit instruction's own
entry are checked in its meaning. -/
def State.frontIllegal (s : State) (i : Instr) : Bool :=
  !s.offered i || (s.me.replay.cap && notCaptured i) ||
  (supervisorForm i && s.me.mode == .u) || (match i with | .vrepGo _ => !s.me.replay.valid | _ => false)

/-! ### What is held (R176) -/

/-- The queued and unplaced vector-side instructions of a strand, in order. -/
def Strand.pending (t : Strand) : List Instr :=
  (t.queue ++ t.body).filterMap fun e => match decode64 e.enc.toNat with | .ok i => some i | .error _ => none

/-- CSRs whose access waits for every earlier vector-side instruction (R176). -/
def csrWaits (n : Nat) : Bool :=
  decide (0x800 ≤ n && n ≤ 0x807) || n == 0x809 || decide (0xCC2 ≤ n && n ≤ 0xCC5) || n == 0xCC7 || decide (0xCC8 ≤ n && n ≤ 0xCCF)

/-- Instructions that wait for every earlier vector-side instruction (R176, R191, R315, R321). -/
def needsIdle (i : Instr) : Bool :=
  match i with
  | .claim _ | .acq _ | .acqTry _ _ | .rel _ | .vshape _ _ _ _ | .flLaunch _ _ | .flHint | .waitpred | .treadEnd | .ckpt _
  | .tret | .sret | .ctxSave _ _ | .ctxLoad _ _ | .tlbInv _ _ | .traceCtl _ => true
  | i => match csrNumber i with | some n => csrWaits n | none => false

/-- Vector-side instructions that access memory, send a message, or hand accesses to a copy slot that a point waits to see
accepted (R154, R131, R246). -/
def memForm : Instr → Bool
  | .tdeal _ | .msave .. | .msaveP .. | .mload .. | .msend _ | .msendTry _ _ => true
  | i => isVMem i

/-- Instructions with an ordering point that the front holds for earlier vector-side accesses (R154, R155, R309, R157). -/
def holdsForPoint : Instr → Bool
  | .syncAcq .. | .syncRel .. | .syncAr .. | .lda .. | .stl .. | .gbar _ | .garrive _ _ | .gwait _ _ => true
  | .fence fm p q => !fenceEmpty fm p q
  | .sc h _ _ _ | .amo _ h _ _ _ => h.rl
  | _ => false

/-- The address and bytes of a scalar access (R176). -/
def State.scalarAccess (s : State) : Instr → Option (Nat × Nat)
  | .load f _ rs off => some ((s.getX rs + off.signExtend 64).toNat, loadBytes f)
  | .store w _ rs off => some ((s.getX rs + off.signExtend 64).toNat, w.bytes)
  | .lr h _ rs | .sc h _ rs _ | .amo _ h _ rs _ => some ((s.getX rs).toNat, amoBytes h)
  | _ => none

/-- The translated footprint, from `vsi` on, of the vector access at the queue head, as physical ranges; none when it counts as
every byte, because it is indexed or not yet translated (R176). -/
def State.headRanges (s : State) (h : Instr) : Option (List (Nat × Nat)) :=
  let vm (o : VMem) (m : VAddr) : Option (List (Nat × Nat)) :=
    some (s.groupRanges (s.vbytes o) ((s.performedFrom o.h s.vsiGroup).map fun p => s.vaddr o m p.2.1 p.2.2))
  if s.me.pins.isEmpty then none
  else
    match h with
    | .vld o xp | .vst o xp => vm o (.unit xp)
    | .vlds o xp xe | .vsts o xp xe => vm o (.strided xp xe)
    | .wload _ _ xs xn =>
      let done := 64 * s.vsiGroup
      some (physRanges s.me.pins 1030 ((s.capX 3 xs).toNat + done) ((s.capX 4 xn).toNat - done))
    | .tshape _ _ xs => some (physRanges s.me.pins 3 (s.capX 2 xs).toNat 48)
    | _ => none

/-- Does a scalar access overlap a queued vector access? The one at the queue head overlaps the bytes of its translated
footprint; any other, and an indexed one, every byte (R176). An access whose own translation faults overlaps none. -/
def State.overlapsQueued (s : State) (va n : Nat) : Bool :=
  match s.me.pending with
  | [] => false
  | h :: t =>
    if t.any isVMem then true
    else if !isVMem h then false
    else
      match s.headRanges h with
      | none => true
      | some rs =>
        match translate s s.ctx .read va with
        | .ok (_, x) => rs.any fun r => x.pa < r.1 + r.2 && r.1 < x.pa + n
        | .error _ => false

/-- How many queued vector-side instructions must complete before a held scalar access is performed: up to the last one that
overlaps it (R176). -/
def State.holdFor (s : State) (i : Instr) : Nat :=
  match s.scalarAccess i with
  | some (va, n) =>
    if s.overlapsQueued va n then
      s.me.pending.length - (s.me.pending.reverse.takeWhile fun j => !isVMem j).length
    else 0
  | none => 0

/-- Has strand `cur` a port bound to a register that the instruction names? -/
def State.touchesPort (s : State) (i : Instr) : Bool :=
  let locs := longReads i ++ longWrites i
  (s.portsOf s.cur).any fun p => match (s.myCore).port p with | some q => locs.contains (.v q.v.val) | none => false

/-- x registers that an instruction reads at the front, with those of the body for `vrep.go` (R69, R211). -/
def Strand.frontReads (t : Strand) (i : Instr) : List XReg :=
  match i with
  | .vrepGo _ => (t.replay.encs.map fun e => match decode64 e.toNat with | .ok j => xReads j | .error _ => []).flatten
  | i => xReads i

/-! ### Lookahead (R77, R78; log 13) -/

/-- The bits [a, b) of a row. -/
def bitsMask (a b : Nat) : Nat := if a < b then 2 ^ b - 2 ^ a else 0

/-- The bits of those of a row's first n elements of w bits that are on. -/
def elemMask (w n : Nat) (on : Nat → Bool) : Nat := (List.range n).foldl (fun m j => if on j then m + (2 ^ w - 1) * 2 ^ (j * w) else m) 0

/-- The same bits of rows [i, i + n) of a register. -/
def veRows (v : VReg) (i n m : Nat) : List Loc := if m = 0 then [] else (List.range n).map fun q => .ve v.val (i + q) m

/-- The rows and columns that a matrix form enables (R219). -/
def State.matOn (s : State) (h : Hdr) (cp : Reg8) : (Nat → Bool) × (Nat → Bool) :=
  (fun i => !h.pe || s.predBit h.pred i, fun j => !h.pe || s.predBit cp j)

/-- Has a matrix form an enabled element in tile rows [lo, lo + n) (R219)? -/
def State.matAny (s : State) (h : Hdr) (cp : Reg8) (lo n : Nat) : Bool :=
  ((List.range n).any fun i => (s.matOn h cp).1 (lo + i)) && (List.range 64).any (s.matOn h cp).2

/-- Panels [0, n) of a row of an operand at the elements that are on, with the scales of the halves that hold one (R222, R223). -/
def State.panelLocs (s : State) (ty : ElemTy) (v : VReg) (row n : Nat) (on : Nat → Bool) : List Loc :=
  let w := s.cbits ty
  let half (q : Nat) : Bool := (List.range 32).any fun i => on (32 * (q % 2) + i)
  veRows v row 1 (elemMask w (64 * n) fun j => on (j % 64)) ++
    ((scaleReg s.me.csr.fd ty v).toList.map fun u => veRows u row 1 (elemMask 8 (2 * n) half)).flatten

/-- Row masks of a register as a list of places. -/
def maskRows (v : VReg) (ms : Nat → Nat) : List Loc := ((List.range 16).map fun i => veRows v i 1 (ms i)).flatten

/-- The elements of vector registers that a long form reads, and those it writes, row by row (R77). Under the grant they are the
performed elements in the operand's own width, those that the predicate and, for `vperm`, the indices select as they stand when
every earlier vector-side instruction has completed (R169; log 13). -/
def State.vParts (s : State) (i : Instr) : List Loc × List Loc :=
  let sh := s.me.csr.shape
  let rows := grantRows sh
  let len := grantLen sh
  let fd := s.me.csr.fd
  let wide (h : Hdr) (v : VReg) (w : Nat) : List Loc := veRows v 0 rows (elemMask w len (s.enabled h))
  let g (h : Hdr) (v : VReg) (ty : ElemTy) : List Loc := wide h v (s.cbits ty)
  let scales (h : Hdr) (v : VReg) : List Loc :=
    veRows v 0 rows (elemMask 8 ((len + 31) / 32) fun b => (List.range 32).any fun j => 32 * b + j < len && s.enabled h (32 * b + j))
  let flat (v : VReg) (n : Nat) : List Loc := ((List.range ((n + 511) / 512)).map fun q => veRows v q 1 (bitsMask 0 (8 * min 512 (n - 512 * q)))).flatten
  let upper (v : VReg) (D : Nat) : List Loc := ((List.range D).map fun q => veRows v q 1 (bitsMask (32 * q) (32 * (D + 1)))).flatten
  let block (v : VReg) (D : Nat) : List Loc := veRows v 0 D (bitsMask 0 (32 * (D + 1)))
  let whole (l : List Loc) : List Loc := (l.filterMap fun x => match x with | .v r => some (maskRows (Fin.ofNat 32 r) fun _ => bitsMask 0 4096) | _ => none).flatten
  let drain (h : Hdr) (cp : Reg8) (ty : ElemTy) (v : VReg) (q : Nat) : List Loc :=
    maskRows v fun t => if (s.matOn h cp).1 (16 * q + t) then elemMask (s.cbits ty) 64 (s.matOn h cp).2 else 0
  match i with
  | .vadd o | .vsub o | .vmul o | .vmulh o | .vdiv o | .vmin o | .vmax o | .vand o | .vor o | .vxor o | .vsll o | .vsrl o | .vsra o =>
    (g o.h o.vs1 o.ty ++ g o.h o.vs2 o.ty, g o.h o.vd o.ty)
  | .vperm o =>
    let w := s.cbits o.ty
    let u := permWidth w
    let src := if (s.boundPort o.vs2).isSome then veRows o.vs1 0 rows (bitsMask 0 (len * w))
      else ((List.range rows).map fun r => veRows o.vs1 r 1 ((List.range len).foldl (fun m c =>
        let k := elem (s.vget o.vs2) u r c
        if s.enabled o.h c && decide (k < len) then m ||| bitsMask (k * w) (k * w + w) else m) 0)).flatten
    (src ++ wide o.h o.vs2 u, g o.h o.vd o.ty)
  | .vabs o | .vneg o | .vsqrt o | .vrece o | .vrsqe o | .vmv o => (g o.h o.vs o.ty, g o.h o.vd o.ty)
  | .vredsum o | .vredmax o | .vredmin o | .vredamax o => (g o.h o.vs o.ty, veRows o.vd 0 rows (bitsMask 0 (s.cbits o.ty)))
  | .vfma o | .vfms o | .vfnma o | .vfnms o => (g o.h o.vs1 o.ty ++ g o.h o.vs2 o.ty ++ g o.h o.vs3 o.ty, g o.h o.vd o.ty)
  | .vcmp h ty _ _ _ a b => (g h a ty ++ g h b ty, [])
  | .vidx h ty vd _ _ | .vbcast h ty vd _ => ([], g h vd ty)
  | .vmvx h ty _ vs xi =>
    let k := (s.getX xi).toNat
    let w := s.cbits ty
    (if k < rows * len && s.enabled h (k % len) then veRows vs (k / len) 1 (bitsMask (k % len * w) (k % len * w + w)) else [], [])
  | .vcvt o => (g o.h o.vs o.st, g o.h o.vd o.dt)
  | .vmxpack o sc => (g o.h o.vs o.st, g o.h o.vd o.dt ++ scales o.h sc)
  | .vmxunpack o sc => (g o.h o.vs o.st ++ scales o.h sc, g o.h o.vd o.dt)
  | .vreshape o =>
    let w := s.cbits o.ty
    let p := limBits w
    let l := (s.getX o.xr).toNat
    let q := 16 * p / l
    let src := if !o.h.pe || l = 0 then maskRows o.vs fun _ => bitsMask 0 4096
      else maskRows o.vs fun r => (List.range p).foldl (fun m c =>
        -- flat index r p + c of the source is that of column (r p + c) % l, place (r p + c) / l of the destination
        let f := (r * p + c) % l * q + (r * p + c) / l
        if s.enabled o.h (f % p) then m ||| bitsMask (c * w) (c * w + w) else m) 0
    (src, veRows o.vd 0 16 (elemMask w p (s.enabled o.h)))
  | .vslideup o =>
    let k := (s.getX o.xr).toNat
    let w := s.cbits o.ty
    (veRows o.vs 0 rows (elemMask w (len - k) fun j => s.enabled o.h (j + k)),
     veRows o.vd 0 rows (elemMask w len fun j => decide (k ≤ j) && s.enabled o.h j))
  | .vslidedn o =>
    let k := (s.getX o.xr).toNat
    (veRows o.vs 0 rows (elemMask (s.cbits o.ty) len fun j => decide (k ≤ j) && s.enabled o.h (j - k)), g o.h o.vd o.ty)
  | .vld o _ | .vlds o _ _ => ([], g o.h o.v o.ty)
  | .vldx o vi => (wide o.h vi 32, g o.h o.v o.ty)
  | .vst o _ | .vsts o _ _ => (g o.h o.v o.ty, [])
  | .vstx o vi => (g o.h o.v o.ty ++ wide o.h vi 32, [])
  | .mop h cp ta tb _ va a vb b =>
    (if s.matAny h cp 0 64 then
      s.panelLocs ta va a.toNat (rankOf (s.cbits ta)) (s.matOn h cp).1 ++ s.panelLocs tb vb b.toNat (rankOf (s.cbits tb)) (s.matOn h cp).2
    else [], [])
  | .mopw h cp sp n1 ta _ _ va a _ =>
    let w := s.cbits ta
    let two := sp && w = 4
    (if s.matAny h cp 0 64 then
      ((List.range ((if two then 2 else 1) * (n1.toNat + 1))).map fun q =>
        s.panelLocs ta va (a.toNat + q) (if sp && !two then 2 * rankOf w else rankOf w) (s.matOn h cp).1).flatten
    else [], [])
  | .mdrain h cp _ ty vd _ _ q => ([], drain h cp ty vd q.toNat)
  | .mfill h cp _ ty _ vs _ q => (drain h cp ty vs q.toNat, [])
  | .msend o | .msendTry o _ => (flat o.vs (32 * (o.len.toNat + 1)), [])
  | .gbpAdd _ D1 d1 off vd vs =>
    let D := D1.toNat + 1
    let d := d1.toNat + 1
    let o := off.toNat
    let row (lo q : Nat) : List Loc := veRows vd (o + q) 1 (bitsMask (32 * lo) (32 * (o + d)) ||| bitsMask (32 * D) (32 * (D + 1)))
    (((List.range d).map fun q => row (o + q) q).flatten ++ upper vs d, ((List.range d).map fun q => row o q).flatten)
  | .gbpElim _ D1 _ vd vs _ => (upper vs (D1.toNat + 1), block vd (D1.toNat + 1))
  | .gbpDamp _ D1 vd vo vn _ => (upper vo (D1.toNat + 1) ++ upper vn (D1.toNat + 1), block vd (D1.toNat + 1))
  | .gbpResid _ D1 _ va vb => (upper va (D1.toNat + 1) ++ upper vb (D1.toNat + 1), [])
  | .gbpPack _ D1 vd vs => (upper vs (D1.toNat + 1), flat vd (packBytes (D1.toNat + 1)))
  | .gbpUnpack _ D1 vd vs => (flat vs (4 * packCount (D1.toNat + 1)), block vd (D1.toNat + 1))
  | i => (whole (longReads i), whole (longWrites i))

/-- The fields of a CSR as R77 tells them apart. Of `shape`: 0 the grant, 1 the arithmetic fields, 2 the ordering fields; of `fx`: 0
the flags, 1 the enables; of `vdirty`: one for each name; of `vrepst`: 0 valid, 1 rec, 2 n as captured forms raise it, 3 n as
`vrep.begin` sets it. The grant is written by `vshape` alone. -/
def csrFields (wr : Bool) (n : Nat) : List Loc :=
  if n = 0x800 then (if wr then [.fld n 1, .fld n 2] else [.fld n 0, .fld n 1, .fld n 2])
  else if n = 0x801 then [.fld n 0, .fld n 1]
  else if n = 0xCC5 then (List.range 32).map (.fld n)
  else if n = 0xCC7 then (List.range 4).map (.fld n)
  else [.csr n]

/-- Is it an acquire load or a release store (R156)? -/
def isOrdered : Instr → Bool
  | .vld o _ | .vlds o _ _ | .vldx o _ | .vst o _ | .vsts o _ _ | .vstx o _ => o.ordered
  | _ => false

/-- Is the form, issued now, copied into the replay buffer (R210)? -/
def State.captures (s : State) (i : Instr) : Bool := s.me.replay.cap && i.isQueued

/-- The CSR fields that a long form reads, or writes: of `shape` and `fx` (R48, R156, R169), the dirty bits of the registers of which
it writes something (R171), and `vrepst` when it is captured, valid and rec by the form that closes the body (R210). A form that
performs no element raises no flag, and a binding sets no dirty bit. -/
def State.longFields (s : State) (i : Instr) (wr : Bool) : List Loc :=
  let v := s.vParts i
  let flags := raisesFlags i && !(v.1.isEmpty && v.2.isEmpty)
  let dirty : List Loc := match i with
    | .sbindRd .. | .sbindWr .. => []
    | _ => (v.2.filterMap fun l => match l with | .ve r _ _ => some (.fld 0xCC5 r) | _ => none).eraseDups
  let body : List Loc := if !s.captures i then [] else if !wr then [.fld 0xCC7 3]
    else .fld 0xCC7 2 :: if s.me.replay.encs.length + 1 < s.me.replay.len then [] else [.fld 0xCC7 0, .fld 0xCC7 1]
  if wr then (if flags then [.fld 0x801 0] else []) ++ dirty ++ body
  else (if readsGrant i then [.fld 0x800 0] else []) ++ (if readsArith i then [.fld 0x800 1] else []) ++
    (if isOrdered i then [.fld 0x800 2] else []) ++ (if flags then [.fld 0x801 1] else []) ++ body

/-- Does the form touch a tile, or the weight windows: it has an enabled element, or bytes to load (R219, R231)? -/
def State.tileUsed (s : State) : Instr → Bool
  | .mzero h cp _ | .mop h cp _ _ _ _ _ _ _ | .mopw h cp _ _ _ _ _ _ _ _ => s.matAny h cp 0 64
  | .mdrain h cp _ _ _ _ _ q | .mfill h cp _ _ _ _ _ q => s.matAny h cp (16 * q.toNat) 16
  | .wload _ _ _ xn => s.getX xn != 0
  | _ => true

/-- A tile that the form does not touch, or that `mdrain` without c.upd only reads (R232). -/
def State.tileKept (s : State) (i : Instr) (wr : Bool) (l : Loc) : Bool :=
  match i, l with
  | .mdrain _ _ _ _ _ _ xc _, .m _ => !s.tileUsed i || (wr && !ctlUpd (s.getX xc))
  | _, .m _ => !s.tileUsed i
  | _, _ => false

/-- What giving up q takes away: the blocks and tiles of the highest names, with the dirty bits of the blocks (R277, R171). -/
def State.relLocs (s : State) (q : Hold) : List Loc :=
  let t := s.me
  let nb := t.blocks.length
  let nt := t.tiles.length
  let names := ((List.range nb).drop (nb - q.blocks)).filter (· < 32)
  (names.map fun n => .fld 0xCC5 n :: maskRows (Fin.ofNat 32 n) fun _ => bitsMask 0 4096).flatten ++
    ((List.range nt).drop (nt - q.tiles)).map .m ++ if q.tiles = 0 then [] else [weightLoc]

/-- Every place of a strand, which a checkpoint reads (R320). -/
def allLocs : List Loc :=
  (List.range 32).map .x ++ ((List.range 8).map fun r => [Loc.p r, .m r, .k r, .sd r]).flatten ++ weightLoc :: (List.range 4).map .fd ++
    ((List.range 32).map fun v => maskRows (Fin.ofNat 32 v) fun _ => bitsMask 0 4096).flatten ++
    ([0x800, 0x801, 0xCC5, 0xCC7].map (csrFields false)).flatten

/-- What an instruction reads, or writes, beside the registers that it names: the body of `vrep.go` (R211), what a release takes away
(R277, R250, R319), what a checkpoint holds (R320), and the registers that a hop takes along (R254). -/
def State.moreLocs (s : State) (i : Instr) (wr : Bool) : List Loc :=
  match i, wr with
  | .vrepGo _, false => (s.me.frontReads i).map fun r => .x r.val
  | .rel rs, true => s.relLocs (Hold.unpack (s.getX rs))
  | .mdone _, true | .treadEnd, true => s.relLocs s.me.hold
  | .ckpt _, false => allLocs
  | .hop _ _ _, false => (List.range 16).map .x
  | _, _ => []

/-- Places at the grain of R77: x registers, predicates, tiles, tokens, records, descriptors, elements of vector registers and
fields of CSRs. `vshape` writes the grant. -/
def State.fineLocs (s : State) (i : Instr) (wr : Bool) : List Loc :=
  let named := ((if wr then writeLocs i else readLocs i).map fun (l : Loc) =>
    match l with
    | .v _ => []
    | .csr n => match i with | .vshape .. => [.fld 0x800 0] | _ => csrFields wr n
    | l => if s.tileKept i wr l then [] else [l]).flatten
  named ++ s.moreLocs i wr ++ s.longFields i wr ++ (if wr then (s.vParts i).2 else (s.vParts i).1)

/-- Do two places share anything? -/
def Loc.meets (a b : Loc) : Bool :=
  match a, b with
  | .ve r i bs, .ve r' i' bs' => r == r' && i == i' && (bs &&& bs') != 0
  | a, b => a == b

/-- Does an instruction that reads `r` and writes `w` depend on the one that made the promise? Two vector-side instructions that
both accrue flags, set a dirty bit, or count in a captured body do not depend on each other by that: such bits are an OR, such a
count a sum, and R80's example gives one a true promise over the other. -/
def Promise.broken (p : Promise) (queued : Bool) (r w : List Loc) : Bool :=
  let sticky (l : Loc) : Bool := match l with | .fld 0x801 0 | .fld 0xCC5 _ | .fld 0xCC7 2 => true | _ => false
  let pw := if queued then p.writes.filter fun l => !sticky l else p.writes
  r.any (fun a => pw.any a.meets) || w.any (fun a => pw.any a.meets) || w.any (fun a => p.reads.any a.meets)

/-- Does the dependence check of an instruction have to wait for a predicate, or for the indices of `vperm`, that an earlier
vector-side instruction has still to write (R78)? -/
def State.awaitsPred (s : State) (i : Instr) : Bool :=
  let t := s.me
  if t.promises.isEmpty && laOf i = 0 then false
  else
    let ws := (t.pending.map longWrites).flatten
    ((longReads i).any fun l => match l with | .p _ => ws.contains l | _ => false) ||
      (match i with | .vperm o => ws.contains (.v o.vs2.val) | _ => false)

/-! ### Held (R176) -/

/-- A whole-tile move to or from memory is a full point at package scope, which later accesses follow (R237, R150). -/
def isTileMem : Instr → Bool
  | .msave _ mem _ _ | .msaveP _ mem _ _ | .mload _ mem _ _ => mem
  | _ => false

/-- Is the instruction held at the scalar front (R176), or for its dependence check (R78)? -/
def State.held (s : State) (i : Instr) : Bool :=
  let t := s.me
  let pend := t.pending
  if pend.isEmpty then false
  else
    let busyX := (pend.map longXWrites).flatten
    decide (0 < t.heldFor) ||
    (t.frontReads i ++ xWrites i).any (fun r => r ≠ 0 && busyX.contains r) ||
    needsIdle i || s.awaitsPred i ||
    (holdsForPoint i && pend.any fun j => memForm j || s.touchesPort j) ||
    (match i with
      | .kwait m | .kpoll _ m => pend.any fun j => match tokenOf j with | some k => bit m k.val | none => false
      | .ebreak => decide (8 ≤ t.queue.length) && !bit t.csr.dbgctl 0 && bit s.regs.dbgpatch (s.partOf s.cur % 16)
      | _ => false) ||
    (match s.scalarAccess i with
      | some (va, n) => pend.any (fun j => isAcqLoad j || isTileMem j) || s.overlapsQueued va n
      | none => false)

/-- Does `mdone` or `hop` in the queue keep the front from issuing anything (R250, R253)? -/
def Strand.closing (t : Strand) : Bool := t.pending.any fun j => match j with | .mdone _ | .hop _ _ _ => true | _ => false

/-! ### Promises -/

/-- An instruction issues: a broken promise over it counts in `lamiss` once, every promise in force covers one instruction
less, and its own begins. -/
def State.lookahead (s : State) (i : Instr) : State :=
  let t := s.me
  if t.promises.isEmpty && laOf i = 0 then s
  else
    let r := s.fineLocs i false
    let w := s.fineLocs i true
    let miss := t.promises.any fun p => p.broken i.isQueued r w
    let left := (t.promises.map fun p => { p with left := p.left - 1 }).filter fun p => decide (0 < p.left)
    let new : List Promise := if laOf i = 0 then [] else [⟨laOf i, r, w⟩]
    let s := s.setMe { t with promises := left ++ new, csr := if miss then { t.csr with lamiss := t.csr.lamiss + 1 } else t.csr }
    if miss then s.countEv s.cur 8 1 else s

/-- An instruction that did not leave the front has used up no promise. -/
def State.relook (s t : State) : State :=
  let a := s.me
  let b := t.strand s.cur
  if a.promises = b.promises then t
  else if b.pc = a.pc && b.csr.instret = a.csr.instret && b.status = .running && b.wait = .none && b.mode = a.mode then
    t.setStrand s.cur { b with promises := a.promises, csr := { b.csr with lamiss := a.csr.lamiss, pmc := a.csr.pmc, pmovf := a.csr.pmovf } }
  else t

/-! ### Issue -/

/-- Translate again the suspended streams of the executing strand that the instruction reads or writes (R161); it stalls while the
core has no room for their pins (R102). -/
def State.repin (s : State) (i : Instr) : GRes :=
  let locs := longReads i ++ longWrites i
  (s.portsOf s.cur).foldl (fun (r : GRes) n =>
    match r with
    | .ok s =>
      match s.myCore.port n with
      | some q =>
        if !q.susp || !locs.contains (.v q.v.val) then .ok s
        else
          match s.pinStream q.wr q.block q.base with
          | .error (s', t) => .trap s' t
          | .ok (s', pins) =>
            if s.pinRoom pins then .ok (s'.setMyCore (s'.myCore.setPort n (some { q with pins := pins, susp := false }))) else .stall
      | none => .ok s
    | r => r) (GRes.ok s)

/-- The vector sequencer executes the instruction at the queue head. A replay form has done its work at the front and
performs nothing there (R210). -/
def State.runVec (s : State) (i : Instr) : Out :=
  match s.repin i with
  | .trap s' t => s'.trapVec t
  | .stall => .next s
  | .ok s => exec i s

/-- The sequencer takes the strand's queue head. A hint, which only an edited record brings into the queue, performs nothing
(R76, log 124). -/
def State.sequence (s : State) : Out :=
  if s.haltedDie s.cur || s.me.status ≠ .running then .next s
  else
    match s.me.queue with
    | [] => .next s
    | e :: _ =>
      match decode64 e.enc.toNat with
      | .ok (.vrepBegin _ _) | .ok (.vrepGo _) => .next s.completeVec
      | .ok i => if i.isQueued then s.runVec i else .next s.completeVec
      | .error _ => .next s.completeVec

/-- A long form enters the queue behind others: the front does the work of a replay form at once (R210, R211). -/
def State.behind (s : State) (i : Instr) (enc : Word) : State :=
  match i with
  | .vrepBegin _ n => (s.enqueue enc).repBegin n.toNat
  | .vrepGo _ => (s.enqueue enc).repGo s.me.pc
  | _ => s.enqueue enc

/-- Issue an instruction that is not held. A long form enters the queue, and executes at once when the vector side was idle
and the front does not run ahead (R175). -/
def State.issue (s : State) (ahead : Bool) (i : Instr) (enc : Word) : Out :=
  if i.isQueued then
    if 8 ≤ s.me.queue.length then .next s
    else if ahead || !s.me.idle then .next ((s.lookahead i).behind i enc)
    else ((s.lookahead i).enqueue enc).runVec i
  else
    match exec i (s.lookahead i) with
    | .next t => .next (s.relook t)
    | r => r

/-- Does an armed address unit match the pc (R385)? A halt already asked for is not asked for again. -/
def State.addrMatch (s : State) : Bool :=
  let t := s.me
  bit t.csr.dbgctl 0 && !(s.haltInstead && t.haltReq) &&
  (List.finRange 4).any fun i => bit (t.csr.dbaddr[i]) 0 && bits (t.csr.dbaddr[i]) 2 62 == bits t.pc 2 62

/-- Is a requested pre-emption of strand k to be performed, or withdrawn, now (R333, R334)? -/
def State.preemptNow (s : State) (k : Nat) : Bool :=
  let t := s.strand k
  let swap := s.swapping k
  s.isLive k && (t.preempt || t.haltReq || swap) &&
    (s.lapsed k || !s.preemptDeferred k)

/-- Is the front neither waiting nor stopped? -/
def Strand.ready (t : Strand) : Bool := t.status == .running && t.wait == .none

/-- What the front does with the instruction it has fetched and decoded: it is illegal, held, or issued. -/
def State.frontInstr (s : State) (ahead : Bool) (i : Instr) (bs : List Byte) : Out :=
  if s.frontIllegal i then exec (.illegalInstruction (w64 (leNat bs)) (bs.length == 8)) s
  else if s.held i then .next (s.setMe { s.me with heldFor := max s.me.heldFor (s.holdFor i) })
  else s.issue ahead i (w64 (leNat bs))

/-- The front fetches, decodes and issues the instruction at the pc. -/
def State.fetchIssue (s : State) (ahead : Bool) : Out :=
  match s.fetchBytes with
  | .error (_, t) => exec (.instructionFetchFault t.tval (fetchCauseOf t)) s
  | .ok (s1, bs) =>
    match decodeBytes bs with
    | .error _ => exec (.illegalInstruction (w64 (leNat bs)) (bs.length == 8)) s1
    | .ok (i, _) => s1.frontInstr ahead i bs

/-- An instruction that waits at the front with its stop deferred (`fl.launch`, `tlb.inv`) acts again (R316, R326). -/
def State.actAgain (s : State) (enc : Word) : Out :=
  match decodeBytes (leBytes 8 enc.toNat) with
  | .ok (i, _) => exec i (s.setMe { s.me with wait := .none })
  | .error _ => .next s

/-- One turn of strand `cur`'s scalar front: an interrupt, then a pre-emption, then what a resumption still owes (R342), then the
kept entries and replay-body entries that wait for a place in the queue (R180, R211), then an address match, then the next
instruction (R333). -/
def State.front (s : State) (ahead : Bool) : Out :=
  if s.haltedDie s.cur then .next s
  else if s.me.interruptNow.isSome && !s.me.wait.deferred then exec (.interrupt s.cur) s
  else if s.preemptNow s.cur then exec (.preemption s.cur) s
  else if let .again enc := s.me.wait then s.actAgain enc
  else if !s.me.ready then .next s
  else if s.me.settle then .next s.settleMe
  else if !s.me.body.isEmpty || s.me.closing then .next s
  else if s.addrMatch then s.trapScalar (s.matchTrap s.me.pc.toNat)
  else s.fetchIssue ahead

end Sys2Proof.Machine
end

