-- ==== Sys2Proof/Machine/Clock.lean ====
section
/-! DEFINITION. The passing of time (R374, R367, R379), and what happens to caches and stored data without an instruction (R95,
R104, R105). -/
namespace Sys2Proof.Machine

/-- Arithmetic clock of a die in MHz (R367). -/
def Die.clock (x : Die) : Nat := match x.power with | 0 => x.mhz | 1 => 1200 | 2 => 600 | _ => 0

/-- Cycles that n nanoseconds bring to a die. -/
def Die.gain (x : Die) (n : Nat) : Nat := if x.inReset then 0 else (x.fracNs + n * x.clock) / 1000

def Die.tick (x : Die) (n : Nat) : Die :=
  if x.inReset then x else { x with cycles := x.cycles + x.gain n, fracNs := (x.fracNs + n * x.clock) % 1000 }

/-- Is the strand in a wait that event 10 counts (R379)? -/
def Wait.barrier : Wait → Bool
  | .gbar _ _ | .gwait _ _ | .waitpred => true
  | _ => false

/-- Does some counter of strand k count an event? -/
def State.countsEv (s : State) (k ev : Nat) : Bool := (List.finRange 8).any fun i => (s.strand k).counts i ev

/-- Does a full vector queue stall the front of strand k: at a long form, or at a `vrep.go` whose body has entries without a place
(R175, R211)? -/
def State.fullStall (s : State) (k : Nat) : Bool :=
  let s := { s with cur := k }
  s.me.status == .running && s.me.wait == .none && decide (8 ≤ s.me.queue.length) && !s.me.settle && !s.me.closing &&
    (!s.me.body.isEmpty ||
      match s.fetchBytes with
      | .ok (s, bs) => match decodeBytes bs with | .ok (i, _) => i.isQueued && !s.frontIllegal i && !s.held i | .error _ => false
      | .error _ => false)

/-- Does the next group of a vector load, which is issued and holds its pins, wait for a pending write (R138)? -/
def State.loadStalls (s : State) (i : Instr) (o : VMem) (m : VAddr) : Bool :=
  let g := s.vsiGroup
  let srcs := match m with | .indexed vi => [vi] | _ => []
  match (match s.repin i with | .ok s => s.vmemIssue i o m .read srcs [o.v] | .trap s t => .error (s, t) | .stall => .error (s, footprintTooLarge)) with
  | .error _ => false
  | .ok s1 =>
    decide (g < s.grantGroups) && (!s.me.pins.isEmpty || s.pinRoom s1.me.pins) &&
      match s1.pullGroup g srcs with
      | .ok s2 => s2.chained false (s2.groupRanges (s2.vbytes o) ((s2.groupAddrs o m g).map fun e => e.2.2.2))
      | _ => false

/-- Do the next bytes of a `wload` or of a `tshape`'s block wait for a pending write (R126, R138, R231)? -/
def State.copyStalls (s : State) (r : Except (State × Trap) State) (todo : Bool) (rs : State → List (Nat × Nat)) : Bool :=
  match r with
  | .error _ => false
  | .ok s1 => todo && (!s.me.pins.isEmpty || s.pinRoom s1.me.pins) && s1.chained false (rs s1)

/-- Does chaining stall the vector load at the head of strand k's queue, `wload` and the block read of `tshape` among them (R138, R379
event 7)? -/
def State.chainStall (s : State) (k : Nat) : Bool :=
  let s := { s with cur := k }
  s.me.status == .running && !(s.die (dieOf k)).stopped &&
    match s.me.queue.head?.map fun e => decode64 e.enc.toNat with
    | some (.ok (.vld o xp)) => s.loadStalls (.vld o xp) o (.unit xp)
    | some (.ok (.vlds o xp xe)) => s.loadStalls (.vlds o xp xe) o (.strided xp xe)
    | some (.ok (.vldx o vi)) => s.loadStalls (.vldx o vi) o (.indexed vi)
    | some (.ok (.wload _ xo xs xn)) =>
      let src := (s.capX 3 xs).toNat
      let n := (s.capX 4 xn).toNat
      let lo := 64 * s.vsiGroup
      s.copyStalls (s.wloadIssue (s.capX 2 xo).toNat src n) (s.msiUpd == 0 && decide (lo < n)) fun s1 =>
        physRanges s1.me.pins 3 (src + lo) (min 64 (n - lo))
    | some (.ok (.tshape _ _ xs)) =>
      s.copyStalls (s.tshapeIssue (s.capX 2 xs)) true fun s1 => s1.groupRanges 8 (tshapeBytes (s.capX 2 xs))
    | _ => false

/-- Cycles counted for a strand: events 1, 3, 7, 9 and 10 (R379). -/
def State.countCycles (s : State) (k n : Nat) : State :=
  let t := s.strand k
  let s := if t.counted then s.countEv k 1 n else s
  let s := if s.countsEv k 3 && s.fullStall k then s.countEv k 3 n else s
  let s := if s.countsEv k 7 && s.chainStall k then s.countEv k 7 n else s
  let s := if t.status = .asleep then s.countEv k 9 n else s
  if t.status = .running && t.wait.barrier then s.countEv k 10 n else s

/-- n nanoseconds pass: the always-on counter at its aligned rate, and every die's cycles (R374, R376). -/
def State.elapse (s : State) (n : Nat) : State :=
  let total := s.regs.rateFrac + n * (1000000 + s.regs.rate).toNat
  let s1 := { s with time := s.time + total / 1000000, regs := { s.regs with rateFrac := total % 1000000 } }
  let s2 := (s.strands.map Prod.fst).foldl (fun (x : State) k => x.countCycles k ((s.die (dieOf k)).gain n)) s1
  (List.range 9).foldl (fun (x : State) d => x.setDie d ((x.die d).tick n)) s2

/-- Is the sector stored in the package (R104)? -/
def stored (sector : Nat) : Bool :=
  match regionOf (32 * sector) with
  | .hbm | .gallery _ | .pad _ => true
  | _ => false

/-- What the environment does to one part of the package. -/
def State.happen (s : State) : Choice → State
  | .elapse n => s.elapse n
  | .evictL1 c pa => s.dropL1 c (pa / 128 * 128) 128
  | .evictIcache c pa => s.setCore c { s.core c with icache := Tbl.del (pa / 4) (s.core c).icache }
  | .evictTlb c i => s.setCore c { s.core c with tlb := listDel (s.core c).tlb i }
  | .evictDieTlb d i => s.setDie d { s.die d with tlb := listDel (s.die d).tlb i }
  | .evictPtrs d => s.setDie d { s.die d with ptrs := [] }
  | .recall pa => { s with dir := dirRecall s.dir (pa / 128) }
  | .corrupt n => if stored n then { s with bad := insNat n s.bad } else s
  | .softError n => if stored n then { s with soft := insNat n s.soft } else s
  | .corruptRow c b r w => if b < 64 && r < 16 && w < 64 then s.setCore c { s.core c with badRows := (b, r, w) :: (s.core c).badRows } else s
  | .corruptLoft c x => if x < 0x8000 then s.setCore c { s.core c with badLoft := insNat x (s.core c).badLoft } else s
  | .corrected d => if d < 8 then s.eccAdd (some d) 0 1 else s
  | .corruptTile c t i => if t < 8 && i < 8 then s.setCore c { s.core c with badTiles := (t, i) :: (s.core c).badTiles } else s
  | .corruptWin c t i => if t < 8 && i < 1024 then s.setCore c { s.core c with badWins := (t, i) :: (s.core c).badWins } else s
  | .external k v => let t := s.strand k; s.setStrand k { t with csr := { t.csr with seip := v } }
  | .halt k => if s.portOpen && s.isLive k then s.setStrand k { s.strand k with haltReq := true } else s
  | .debugSlot a => if s.portOpen && a % 0x1000 == 0 && a + slotSize ≤ hbmTop then { s with regs := { s.regs with dbgslot := a } } else s
  | .debugEdit o bs => if s.portOpen && o + bs.length ≤ slotSize then s.writeHome none none (s.regs.dbgslot + o) bs else s
  | .hostRead o n => s.hostReads o n
  | .heat d t => { s with regs := { s.regs with tj := Tbl.set 0 s.regs.tj d t } }
  | .run _ | .ahead _ | .vec _ _ | .stop _ _ _ | .event _ => s

end Sys2Proof.Machine
end

