-- ==== Sys2Proof/Machine/Step.lean ====
section
/-! DEFINITION. One step of the package, as the schedule chooses (log 3), and the placing of an instruction (log 5). -/
namespace Sys2Proof.Machine

/-- May the schedule name the row: it is an event of the machine, and not one that the front alone raises? -/
def schedulable (i : Instr) : Bool :=
  (encodeWord i).isNone && match i with | .illegalInstruction _ _ | .instructionFetchFault _ _ => false | _ => true

/-- Has strand k stopped between states a and b, so that its entries are kept as data (R178), or has a sample stopped it (R389)? -/
def stoppedBy (a b : State) (k : Nat) (by_ : Option Instr) : Bool :=
  (b.strand k).queue.isEmpty ||
    match by_ with
    | some (.traceSample p) => a.partOf k == p && (a.part p).trTime != (b.part p).trTime
    | _ => false

/-- Strand k's queue head performs n groups or slices and the strand stops there, by what its front does next or by an event row: a
start of a memory instruction may end at any group (R178, R189, R215). Nothing happens when the strand does not stop. -/
def State.stopAfter (s : State) (k n : Nat) (by_ : Option Instr) : Out :=
  match { s with cur := k, lim := some ⟨n, true⟩ }.sequence with
  | .next a =>
    let a := { a with lim := none }
    if (a.strand k).queue.isEmpty then .next a
    else
      match (match by_ with | none => a.front true | some i => if schedulable i then exec i a else .next a) with
      | .next b => .next (if stoppedBy a b k by_ then b else s)
      | r => r
  | r => r

/-- One step: the head of the schedule is taken; with an empty schedule strand `cur` issues. In DEAD nothing runs but the boot ROM,
which a package reset starts (R393). -/
def step (s : State) : Host.Outcome State Fault Refusal :=
  if s.regs.lifecycle = 3 then
    match s.sched with
    | .event .packageReset :: t => execPackageReset { s with sched := t, lim := none }
    | _ => .fault .deviceDead
  else
    match s.sched with
    | [] => { s with lim := none }.front false
    | .run k :: t => { s with sched := t, cur := k, lim := none }.front false
    | .ahead k :: t => { s with sched := t, cur := k, lim := none }.front true
    | .vec k l :: t => { s with sched := t, cur := k, lim := l.map fun n => ⟨n, false⟩ }.sequence
    | .stop k n i :: t => { s with sched := t, lim := none }.stopAfter k n i
    | .event i :: t => if schedulable i then exec i { s with sched := t, lim := none } else .next { s with sched := t }
    | c :: t => .next ({ s with sched := t }.happen c)

/-- s with an instruction at physical address 0 and strand 0 about to issue it in S mode without translation: every die present, die 0 in
D0, caches and queues of strand 0 and its core empty, lifecycle PROD, every offered feature accepted (log 5). -/
def State.withFetchWord (s : State) (nbits w : Nat) : State :=
  let t := { Strand.reset with status := .running }
  let c := { s.core 0 with icache := [], l1 := [], wtq := [], tlb := [] }
  { (((s.setStrand 0 t).setCore 0 c).setDie 0 { s.die 0 with inReset := false, power := 0, nextPow := none, pendMhz := none }) with
    mem := memWrite s.mem 0 (leBytes (max 8 (nbits / 8)) w)
    bad := []
    cur := 0
    sched := [.run 0]
    regs := { s.regs with lifecycle := 1, featacc := s.regs.featacc.set 0 0x7FFF, swap := none, present := 0xFF } }

end Sys2Proof.Machine
end

