-- ==== Sys2Proof/Safety.lean ====
section
/-! DEFINITION. What the statements speak of: the invariant of the package, and what a step leaves unchanged. -/
namespace Sys2Proof.Machine

/-- Memory is in its canonical form (log 6). -/
def MemOk (s : State) : Prop := Memory.wf s.mem = true

/-- Every strand's block names are bound to different blocks, the strands of a swapped-out partition included (R165). -/
def BlocksApart (s : State) : Prop :=
  (∀ k, (s.strand k).blocks.Nodup) ∧ ∀ p, ∀ e ∈ (s.part p).stash, e.2.blocks.Nodup

/-- Is a tile in this state some strand's (R234)? -/
def TileSt.taken : TileSt → Bool
  | .held | .bound _ _ => true
  | .free | .lazy _ _ => false

/-- The physical tiles that the strands of core c name. -/
def tileNames (s : State) (c : Nat) : List Nat := ((strandsOf c).map fun k => (s.strand k).tiles).flatten

/-- Holdings are accounted for: a strand that runs nothing holds nothing; no two names stand for one tile, and a tile is named exactly
when it is Held or Bound (R234, R271, R273). -/
def HoldsOk (s : State) : Prop :=
  (∀ k, (s.strand k).counted = false → (s.strand k).hold = Hold.zero) ∧
  (∀ p, ∀ e ∈ (s.part p).stash, e.2.counted = false ∧ e.2.hold = Hold.zero) ∧
  ∀ c, (tileNames s c).Nodup ∧ (∀ n ∈ tileNames s c, n < 8) ∧ (∀ n, ((s.core c).tile n).st.taken = true ↔ n ∈ tileNames s c) ∧
    ∀ st ∈ (s.core c).imgTiles, st.taken = false

/-- A read stream holds at most 4 KiB ahead of its strand (R141), whose grant has containers of at most 64 bits (R168). -/
def ReadAhead (s : State) : Prop :=
  (∀ k, (s.strand k).gw ≤ 64) ∧ (∀ p, ∀ e ∈ (s.part p).stash, e.2.gw ≤ 64) ∧
  ∀ c n q, (s.core c).port n = some q → q.wr = false → q.buf.length ≤ 4096

/-- Loans stand between live dies, one for each ordered pair, and no die has lent more than its share (R370, R371; logs 55 and
90). -/
def PowerOk (s : State) : Prop :=
  s.regs.present < 256 ∧ (∀ l ∈ s.loans, s.dieLive l.lender = true ∧ s.dieLive l.borrower = true) ∧
  s.loans.Pairwise (fun l m => ¬ (l.lender = m.lender ∧ l.borrower = m.borrower)) ∧ ∀ d, s.lentBy d ≤ s.shareOf d

/-! ### Frames -/

/-- Every byte of memory reads as before. -/
def SameMemory (s t : State) : Prop := ∀ a, memByte t.mem a = memByte s.mem a

/-- Nothing changes but what a read leaves at the home: copies recalled, and errors counted (R94, R104). -/
def Noted (s t : State) : Prop := t = { s with dir := t.dir, regs := { s.regs with ecc := t.regs.ecc } }

/-- Nothing of the package changes but strand k: memory, cores, dies, flights, partitions, queues and device registers are as
before, and so is every other strand. -/
def OnlyStrand (k : Nat) (s t : State) : Prop :=
  t = { s with strands := t.strands } ∧ ∀ j, j ≠ k → t.strand j = s.strand j

/-- Nothing of the package changes but strand k and its core: memory, dies, flights, partitions, queues and device registers
are as before, and so are every other strand and core. -/
def OnlyLocal (k : Nat) (s t : State) : Prop :=
  t = { s with strands := t.strands, cores := t.cores } ∧ (∀ j, j ≠ k → t.strand j = s.strand j) ∧
    ∀ c, c ≠ coreOf k → t.core c = s.core c

/-- Strand a with the event counters and their overflow bits of b: the counters of R377 to R380 may count what an
instruction does. -/
def Strand.countersOf (a b : Strand) : Strand := { a with csr := { a.csr with pmc := b.csr.pmc, pmovf := b.csr.pmovf } }

/-- A scalar instruction of strand k whose own effect on the strand gives `a` has completed: the pc is 4 further, `instret`
counted it, and every other register of the strand is as in `a` (R60). -/
def StrandDone (k : Nat) (s t : State) (a : Strand) : Prop :=
  t.strand k = (Strand.countersOf { a with
    pc := (s.strand k).pc + 4, csr := { a.csr with instret := (s.strand k).csr.instret + 1 } } (t.strand k))

/-- The reservation of strand j once core c's queued stores have been delivered: lost where one of another strand meets its
64-byte granule (R60, R149). -/
def State.resvDrained (s : State) (c j : Nat) : Option Nat :=
  (s.strand j).resv.filter fun g => !(s.core c).wtq.any fun e => e.owner ≠ j && 64 * g < e.pa + e.bytes.length && e.pa < 64 * g + 64

/-- A reservation as it was, or as the delivery of core c's queued stores leaves it. -/
def ResvAfter (s : State) (c j : Nat) (r : Option Nat) : Prop := r = (s.strand j).resv ∨ r = s.resvDrained c j

/-- Every strand but k is as before, but for a reservation that the delivery of core c's queued stores may take. -/
def OthersKeep (c k : Nat) (s t : State) : Prop := ∀ j, j ≠ k → ∃ r, ResvAfter s c j r ∧ t.strand j = { s.strand j with resv := r }

/-- `StrandDone` of an instruction that may deliver the stores its core has queued: the strand's reservation may be lost by it. -/
def StrandDoneD (k : Nat) (s t : State) (a : Strand) : Prop :=
  ∃ r, ResvAfter s (coreOf k) k r ∧ StrandDone k s t { a with resv := r }

/-- `StrandDone` of an instruction with a release side, which delivers the stores its core has queued. -/
def StrandDoneR (k : Nat) (s t : State) (a : Strand) : Prop :=
  StrandDone k s t { a with resv := s.resvDrained (coreOf k) k }

/-- A scalar instruction completes with effect `a` on its own strand and no other effect at all. -/
def ScalarDone (s t : State) (a : Strand) : Prop := OnlyStrand s.cur s t ∧ StrandDone s.cur s t a

/-- The vector-side instruction at the head of the queue completes on strand k, whose own effect gives `a`: it leaves the queue,
the replay body moves up, `vsi` and `msi` are 0 and `instret` counted it (R173, R177, R60). -/
def VecDone (k : Nat) (t : State) (a : Strand) : Prop := t.strand k = (Strand.countersOf a.completeVec (t.strand k))

/-- Address a lies in no 32-byte sector of a store that core c has still queued for write-through (R159). -/
def NotQueued (s : State) (c a : Nat) : Prop :=
  ∀ e ∈ (s.core c).wtq, a / 32 < e.pa / 32 ∨ (e.pa + e.bytes.length - 1) / 32 < a / 32

/-- No counter of strand k's event log is waited on: the strand's events meet no replay log (R381, R384). -/
def NoLog (s : State) (k : Nat) : Prop := s.logMode k = 0

/-- The front's conditions to issue an instruction on strand `cur` are met: the die runs, nothing is to be taken first, and no
match unit meets the pc (R333, R385). -/
def FrontReady (s : State) : Prop :=
  s.haltedDie s.cur = false ∧ (s.me.interruptNow.isSome && !s.me.wait.deferred) = false ∧
  s.preemptNow s.cur = false ∧ s.me.ready = true ∧ s.me.settle = false ∧ s.me.body = [] ∧ s.me.closing = false ∧
  s.addrMatch = false

/-- The instruction completes and leaves v in register rd, which reads zero when it is x0 (R164). -/
def GivesX (i : Instr) (s : State) (rd : XReg) (v : Word) : Prop :=
  ∃ t, exec i s = .next t ∧ t.getX rd = if rd = 0 then 0 else v

/-- When a branch condition holds, as the ratified base gives it. -/
def Taken (c : BrCond) (a b : Word) : Prop :=
  match c with
  | .eq => a = b
  | .ne => a ≠ b
  | .lt => a.toInt < b.toInt
  | .ge => b.toInt ≤ a.toInt
  | .ltu => a.toNat < b.toNat
  | .geu => b.toNat ≤ a.toNat

/-- Bytes of memory outside [pa, pa + n), and outside the sectors of the stores that core c has queued, read as before. -/
def SameMemoryBut (c pa n : Nat) (s t : State) : Prop :=
  ∀ a, NotQueued s c a → (a < pa ∨ pa + n ≤ a) → memByte t.mem a = memByte s.mem a

/-- The trap a failed check takes, and the strand does not end of it: it is not in M mode, no environment call goes to M mode,
and the frame is not in the way (R307, R332). -/
def TrapTaken (s : State) (cause : Nat) : Prop :=
  s.me.mode ≠ .m ∧ cause ≠ 0x103 ∧ (s.cur = mgmtKey → cause ≠ 9) ∧ s.me.trapFatal s.cur cause = false

/-- The groups of strand a are `gs` once a wait on group g has passed: the arrival bit in g is cleared when `clears` holds, and every
other bit is as before (R311). -/
def BitCleared (a : Strand) (gs : List GroupBit) (g : Nat) (clears : Prop) : Prop :=
  let b : Strand := { a with groups := gs }
  (clears → (b.groupBit g).pv = false ∧ (b.groupBit g).pt = (a.groupBit g).pt) ∧ (¬ clears → gs = a.groups) ∧
    ∀ j, j ≠ g → b.groupBit j = a.groupBit j

/-- No line of the core's L1 overlaps a global destination that strand a has counted on a token of the mask (R133). -/
def Fresh (a : Strand) (mask : BitVec 8) (c : Core) : Prop :=
  ∀ e ∈ a.landed, mask.getLsbD e.1 = true → e.1 < 8 → ∀ l ∈ c.l1, ¬ (128 * l.line < e.2.1 + e.2.2 ∧ e.2.1 < 128 * l.line + 128)

/-- CSRs of a strand that take exactly these bits of what is written, the others reading zero (R37, R45, R97, R173, R179, R184, R307,
R377, R378). -/
def plainCsrs : List (Nat × Word) :=
  let all : Word := BitVec.allOnes 64
  let one : List (Nat × Word) := [(0x104, 0x2202), (0x105, all <<< 2), (0x106, 0xFFFFFFFF), (0x140, all), (0x141, all <<< 2), (0x142, all),
    (0x143, all), (0x5C0, 0xFFFF803FFFFFFFFF), (0x5C2, ~~~2), (0x5E1, 3), (0x801, 0x71F), (0x806, 0xFFFC0), (0x807, 0xFF07), (0x809, all)]
  let many (n base : Nat) (m : Word) : List (Nat × Word) := (List.range n).map fun i => (base + i, m)
  one ++ many 4 0x802 0x7FF0FF1 ++ many 8 0x5D0 0xE0000000000000FF ++ many 8 0x5D8 all ++ many 4 0x5E2 (~~~2) ++ many 2 0x5E6 all

/-! ### The banker -/

/-- What a core holds is accounted for: a strand that the banker does not count holds nothing, and some strand names every tile
that is Held or Bound (R234, R273). -/
def Accounted (s : State) (c : Nat) : Prop :=
  (∀ k ∈ strandsOf c, (s.strand k).counted = false → (s.strand k).hold = Hold.zero) ∧
  ∀ n, n < 8 → n ∉ s.freeTiles c → n ∉ s.lazyTiles c → ∃ k ∈ strandsOf c, n ∈ (s.strand k).tiles

/-- The blocks of core c that no strand of it holds, and the scratchpad pages neither held nor set aside, lowest first. -/
def unheldBlocks (s : State) (c : Nat) : List Nat :=
  (List.range 64).filter fun b => (strandsOf c).all fun k => !(s.strand k).blocks.contains b
def unheldPages (s : State) (c : Nat) : List Nat :=
  (List.range 64).filter fun p =>
    (strandsOf c).all (fun k => !(s.strand k).pages.contains p) && (s.core c).aside.all fun a => decide (p < 64 - a.2.pages)

/-- Core c of s becomes that of t by a grant of q to a strand, which then names the blocks bs, the tiles ts and the pages ps: the
lowest unheld blocks, zeroed, the Free tiles and then the Lazy ones, and the lowest unheld pages (R234, R277). In an accounted
core, where q is at most what is free, all of q is granted. -/
def Grants (s t : State) (c : Nat) (q : Hold) (bs ts ps : List Nat) : Prop :=
  bs = (unheldBlocks s c).take q.blocks ∧ ps = (unheldPages s c).take q.pages ∧
  ts = (s.freeTiles c ++ s.lazyTiles c).take q.tiles ∧
  (Accounted s c → s.fits c q = true → bs.length = q.blocks ∧ ts.length = q.tiles ∧ ps.length = q.pages) ∧
  (∀ b ∈ bs, (t.core c).block b = Block.zero) ∧ (∀ b, b ∉ bs → (t.core c).block b = (s.core c).block b) ∧
  (∀ n ∈ ts, (t.core c).tile n = ((s.core c).tile n).granted) ∧ ∀ n, n ∉ ts → (t.core c).tile n = (s.core c).tile n

/-! ### The replay log -/

/-- The log of partition p has stopped with bit b of RLSTAT set: the mode is off, for the flights that run as well, and no entry
is consumed or appended (R383, R384). -/
def LogStopped (s t : State) (p b : Nat) : Prop :=
  bits (t.part p).rlctl 0 2 = 0 ∧ bit (t.part p).rlstat b = true ∧ (t.part p).rlptr = (s.part p).rlptr ∧
    ∀ f ∈ t.flights, f.part = p → f.rlMode = 0

/-- The log of strand k's partition stands one entry further; with its last place used it has stopped, which sets bit b of RLSTAT. -/
def LogMoved (s t : State) (k b : Nat) : Prop :=
  let p := s.partOf k
  let q := s.part p
  (t.strand k).rlCount = (s.strand k).rlCount + 1 ∧ (t.part p).rlptr = q.rlptr + 1 ∧
    (q.rlptr.toNat + 1 < ringSize q.rlbase → t.part p = { q with rlptr := q.rlptr + 1 }) ∧
    (q.rlptr.toNat + 1 = ringSize q.rlbase → bits (t.part p).rlctl 0 2 = 0 ∧ bit (t.part p).rlstat b = true ∧
      ∀ f ∈ t.flights, f.part = p → f.rlMode = 0)

/-- An event of type ty by strand k with value v has been recorded: its 16-byte entry lies at the log's next place (R381), and the
place that was the last one stops the log with RLSTAT.ovf (R384). -/
def Recorded (s t : State) (k ty : Nat) (v : Word) : Prop :=
  let q := s.part (s.partOf k)
  memRead t.mem (ringBase q.rlbase + 16 * q.rlptr.toNat) 16 =
    leBytes 8 v.toNat ++ leBytes 2 (coreOf k) ++ leBytes 1 (k % 16) ++ leBytes 1 ty ++ leBytes 4 ((s.strand k).rlCount % 2 ^ 32) ∧
  LogMoved s t k 0

/-- What the replay log holds for the next event of strand k, of type ty: `due v` when its entry is next, with value v; `later` when
its entry stands further on; `other` when there is none for it, or its entry is of another type; `ended` at the end of the log
(R383; log 17). -/
inductive LogNext where
  | due (v : Word)
  | later
  | other
  | ended

/-- The log's next entry, as R383 has the event of strand k meet it. -/
def LogMeets (s : State) (k ty : Nat) : LogNext → Prop := fun r =>
  let p := s.partOf k
  let n := (s.part p).rlptr.toNat
  let size := ringSize (s.part p).rlbase
  -- entry i: value, core, strand, type and count
  let e (i : Nat) := s.logEntry p i
  let mine (i : Nat) : Prop :=
    (e i).2.1 = coreOf k ∧ (e i).2.2.1 = k % 16 ∧ (e i).2.2.2.2 = (s.strand k).rlCount % 2 ^ 32 ∧ (e i).2.2.2.1 ≠ 0
  let past : Prop := size ≤ n ∨ (e n).2.2.2.1 = 0
  match r with
  | .ended => past
  | .due v => ¬ past ∧ mine n ∧ (e n).2.2.2.1 = ty ∧ v = (e n).1
  | .later => ¬ past ∧ ¬ mine n ∧ ∃ i, n ≤ i ∧ i < size ∧ mine i
  | .other => ¬ past ∧ ((mine n ∧ (e n).2.2.2.1 ≠ ty) ∨ ∀ i, n ≤ i → i < size → ¬ mine i)

/-! ### Numbers -/

/-- The little-endian number of the n bytes that f gives from a. -/
def numberAt (f : Nat → Byte) (a n : Nat) : Nat := ∑ i ∈ Finset.range n, (f (a + i)).toNat * 256 ^ i

/-- Word w is the n-byte number v read as a two's-complement integer. -/
def SignExtends (w : Word) (n v : Nat) : Prop := w.toInt = if v < 2 ^ (8 * n - 1) then (v : ℤ) else v - 2 ^ (8 * n)

/-- Element i of w bits lies in the bytes l with code v; a byte is missing where v is (R105, R111). -/
def HoldsElem (w : Nat) (l : List (Option Byte)) (i : Nat) (v : Option Nat) : Prop :=
  if w = 4 then ∃ b, l[i / 2]? = some b ∧ (v = none → b = none) ∧ ∀ y, b = some y → ∃ x, v = some x ∧ bits y (4 * (i % 2)) 4 = x % 16
  else ∀ j, j < w / 8 → l[i * (w / 8) + j]? = some (v.map fun x => BitVec.ofNat 8 (x / 256 ^ j))

/-- The value of an exact number that is finite. -/
def Num.rat : Num → ℚ
  | .real n d e => (n : ℚ) / d * 2 ^ e
  | _ => 0

/-- A finite exact number: a zero, or a quotient times a power of two that is not zero. -/
def Num.Finite (x : Num) : Prop := (∃ z, x = .zero z) ∨ ∃ n d e, x = .real n d e ∧ n ≠ 0 ∧ d ≠ 0

/-- n is one of the two integers around v that the mode picks, for a value of sign `neg` (R41). -/
def RoundInt (rm : Rm) (neg : Bool) (v : ℝ) (n : ℤ) : Prop :=
  let k := ⌊v⌋
  let up : Prop := match rm with
    | .rne => 1 / 2 < v - k ∨ (v - k = 1 / 2 ∧ k % 2 = 1)
    | .rmm => 1 / 2 ≤ v - k
    | .rtz => False
    | .rdn => neg = true
    | .rup => neg = false
  (v = k → n = k) ∧ (v ≠ k → (up → n = k + 1) ∧ (¬ up → n = k))

/-- Code and flags r are `round_fmt` of R41 for the value x, which is not zero, nor negative for an unsigned format. -/
def RoundsTo (f : Fmt) (a : Arithm) (x : ℝ) (r : Nat × Nat) : Prop :=
  ∃ (neg ix uf : Bool) (n : ℤ),
    let emin : ℤ := 1 - f.bias
    let q : ℝ := 2 ^ (max (Int.log 2 |x|) emin - f.mw)
    let y : ℝ := n * q
    let fl := (if ix then flagNX else 0) ||| (if uf then flagUF else 0)
    let flushed : Prop := y < 2 ^ emin ∧ a.ftz = true ∧ f.flush = true
    (neg = true ↔ x < 0) ∧ RoundInt a.rm neg (|x| / q) n ∧ (ix = true ↔ y ≠ |x|) ∧ (uf = true ↔ |x| < 2 ^ emin ∧ y ≠ |x|) ∧
    (((f.decode f.maxCode).rat : ℝ) < y → r = (overflow f neg a.rm a.sat, fl ||| flagOF ||| flagNX)) ∧
    (y ≤ ((f.decode f.maxCode).rat : ℝ) →
      (y = 0 → r = (f.signed neg 0, fl)) ∧
      (y ≠ 0 → flushed → r = (f.signed neg 0, flagUF ||| flagNX)) ∧
      (y ≠ 0 → ¬ flushed → r.2 = fl ∧ r.1 < 2 ^ (f.s + f.ew + f.mw) ∧ (f.decode r.1).Finite ∧
        ((f.decode r.1).rat : ℝ) = if neg then -y else y))

/-- An integer as `ifit` of R190 stores it in w bits: clamped to the type's range when `sat` is set, else modulo 2^w. -/
def fitInt (w : Nat) (sg sat : Bool) (n : Int) : Nat :=
  (Int.emod (if sat then max (if sg then -(2 ^ (w - 1)) else 0) (min n (if sg then 2 ^ (w - 1) - 1 else 2 ^ w - 1)) else n) (2 ^ w)).toNat

/-- An exact result, with the flags that finding it raised, rounded once to a format (R190). -/
def rounded (f : Fmt) (a : Arithm) (x : Num × Nat) : Nat × Nat := ((roundFmt f a x.1).1, (roundFmt f a x.1).2 ||| x.2)

/-- The exact result of a two-operand form on floating values, with the flags that finding it raises (R192). -/
def exact2 (rm : Rm) (op : Op2) (u v : Num) : Num × Nat :=
  match op with
  | .add => sumExact rm [u, v]
  | .sub => sumExact rm [u, v.neg]
  | .mul => u.mul v
  | .div => numDiv u v
  | .min => (Num.pick false u v, 0)
  | _ => (Num.pick true u v, 0)

/-- A one-operand form on a floating code x: `vabs` and `vneg` change its sign bit alone (R194, R195). -/
def float1 (f : Fmt) (a : Arithm) (op : Op1) (x : Nat) : Nat × Nat :=
  match op with
  | .abs => (x % 2 ^ (f.ew + f.mw), 0)
  | .neg => ((x + 2 ^ (f.ew + f.mw)) % 2 ^ (f.ew + f.mw + 1), 0)
  | .sqrt => rounded f a (numSqrt (f.input a.daz x))
  | .rece => rounded f a (numRece (f.input a.daz x))
  | .rsqe => rounded f a (numRsqe (f.input a.daz x))
  | .mv => (x, 0)

/-- ±(u × v) ± w, exact, with its flags (R196). -/
def exact3 (rm : Rm) (np nc : Bool) (u v w : Num) : Num × Nat :=
  let p := u.mul v
  let e := sumExact rm [if np then p.1.neg else p.1, if nc then w.neg else w]
  (e.1, e.2 ||| p.2)

/-- What a reduction of the codes xs gives; nothing gives zero (R202). -/
def reduced (fd : Vector Word 4) (op : Red) (ty : ElemTy) (a : Arithm) (xs : List Nat) : Nat × Nat :=
  if xs = [] then (0, 0)
  else match intOf ty, fmtOf fd ty with
    | some (w, sg), _ =>
      let us := xs.map (intVal w sg)
      (match op with
        | .sum => fitInt w sg a.sat us.sum
        | .max => fitInt w sg false (us.tail.foldl max (us.headD 0))
        | _ => fitInt w sg false (us.tail.foldl min (us.headD 0)), 0)
    | none, some f =>
      let us := xs.map fun x => let u := f.input a.daz x; if op = .amax ∧ u.isNeg = true then u.neg else u
      rounded f a (match op with
        | .sum => sumExact a.rm us
        | .min => (us.tail.foldl (Num.pick false) (us.headD .nan), 0)
        | _ => (us.tail.foldl (Num.pick true) (us.headD .nan), 0))
    | none, none => (0, 0)

/-! ### Vector results -/

/-- Only the contents, dirty bits and extents of the blocks of the core of strand k change, and its list of failing rows. -/
def OnlyBlocks (k : Nat) (s t : State) : Prop :=
  t.core (coreOf k) = { s.core (coreOf k) with blocks := (t.core (coreOf k)).blocks, badRows := (t.core (coreOf k)).badRows }

/-- Every physical block of strand k's core but those that the names `vs` of strand k are bound to is as before. -/
def OtherBlocks (k : Nat) (vs : List VReg) (s t : State) : Prop :=
  ∀ n, (∀ v ∈ vs, (s.strand k).blockOf v ≠ some n) → (t.core (coreOf k)).block n = (s.core (coreOf k)).block n

/-- Nothing keeps a vector-side instruction from running whole: the schedule sets no limit, it starts at its first element, its
strand has bound no stream, and no two names share a block. -/
def FromStart (s : State) : Prop := s.lim = none ∧ s.vsiGroup = 0 ∧ s.noStreams = true ∧ s.me.blocks.Nodup

/-- The checks of R186 pass, orders 1 to 4, for registers and types: every register is held, every descriptor named is valid, rm
is not reserved where the instruction rounds, and the row length fits every type. -/
def VecOk (s : State) (regs : List VReg) (tys : List ElemTy) (rounds : Bool) : Prop :=
  (∀ r ∈ regs, s.me.blockOf r ≠ none) ∧ (∀ k, ElemTy.gf k ∈ tys → fdValid s.me.csr.fd[k] = true) ∧
  (rounds = true → arithmOf s.me.csr.shape ≠ none) ∧ ∀ ty ∈ tys, grantLen s.me.csr.shape ≤ 4096 / s.cbits ty

/-- Position (r, c) is performed: inside the grant, in a column that the predicate enables (R169). -/
def State.performs (s : State) (h : Hdr) (r c : Nat) : Prop :=
  r < grantRows s.me.csr.shape ∧ c < grantLen s.me.csr.shape ∧ s.enabled h c = true

/-- Register vd, in containers of w bits, takes `f` at the positions `pos` and keeps every other element. -/
def ElemsTake (s t : State) (vd : VReg) (w : Nat) (pos : Nat → Nat → Prop) (f : Nat → Nat → Nat) : Prop :=
  ∀ r c, r < 16 → c < 4096 / w →
    (pos r c → elem (t.vget vd) w r c = f r c % 2 ^ w) ∧ (¬ pos r c → elem (t.vget vd) w r c = elem (s.vget vd) w r c)

/-- The flags of the positions `pos` have accrued from the word fx to fx', whose other bits are as before (R45). -/
def FlagsAccrue (fx fx' : Word) (pos : Nat → Nat → Prop) (g : Nat → Nat → Nat) : Prop :=
  ∀ n, n < 64 → (bit fx' n = true ↔ bit fx n = true ∨ (n < 5 ∧ ∃ r c, pos r c ∧ (g r c).testBit n = true))

/-- No performed element raises an event that `fx` enables (R45, R47). -/
def NoEvent (s : State) (pos : Nat → Nat → Prop) (g : Nat → Nat → Nat) : Prop :=
  ∀ r c, pos r c → eventCause (enabledFlags s.me.csr.fx) (g r c) = none

/-- A vector instruction on the queue's head completes: it writes code `(f r c).1` at each position of `pos` in vd, accrues the
flags `(f r c).2`, and changes nothing else in the package. -/
def VecDoes (i : Instr) (s : State) (vd : VReg) (w : Nat) (pos : Nat → Nat → Prop) (f : Nat → Nat → Nat × Nat) : Prop :=
  ∃ t fx, exec i s = .next t ∧ OnlyLocal s.cur s t ∧ OnlyBlocks s.cur s t ∧ OtherBlocks s.cur [vd] s t ∧
    VecDone s.cur t { s.me with csr := { s.me.csr with fx := fx } } ∧ FlagsAccrue s.me.csr.fx fx pos (fun r c => (f r c).2) ∧
    ElemsTake s t vd w pos fun r c => (f r c).1

/-- The vector-side instruction at the queue's head takes a trap itself, at the pointer pair, with nothing performed: kept entries,
`vsi` and `msi` go to the frame, where it is free (R178, R179, R186). -/
def VecTraps (i : Instr) (s : State) (cause : Nat) (tval : Word) : Prop :=
  exec i s = .next (s.takeTrap ⟨cause, tval, none⟩ true) ∧
  (TrapTaken s cause → s.me.queue ≠ [] → (s.takeTrap ⟨cause, tval, none⟩ true).me.frame =
    ⟨true, s.me.queue ++ s.me.body, s.me.csr.vsi, s.me.csr.msi⟩)

/-- Instruction i makes the checks of R186, orders 1 to 4, in this order on its registers and types; the first that fails is the
trap it takes. `ok` is the test of a descriptor. -/
def ChecksInOrder (i : Instr) (s : State) (regs : List VReg) (ok : Word → Bool) (tys : List ElemTy) (rounds : Bool) : Prop :=
  let held (r : VReg) : Prop := s.me.blockOf r ≠ none
  let fine (ty : ElemTy) : Prop := ∀ k, ty = .gf k → ok s.me.csr.fd[k] = true
  let fits (ty : ElemTy) : Prop := grantLen s.me.csr.shape ≤ 4096 / s.cbits ty
  let rm : Prop := rounds = true → bits s.me.csr.shape 29 3 < 5
  (∀ (a b : List VReg) r, regs = a ++ r :: b → (∀ q ∈ a, held q) → ¬ held r → VecTraps i s 26 (BitVec.ofNat 64 r.val)) ∧
  ((∀ r ∈ regs, held r) →
    (∀ (a b : List ElemTy) k, tys = a ++ .gf k :: b → (∀ q ∈ a, fine q) → ok s.me.csr.fd[k] = false → VecTraps i s 48 (BitVec.ofNat 64 k.val)) ∧
    ((∀ ty ∈ tys, fine ty) →
      (∀ e l, ¬ rm → s.me.queue = e :: l → VecTraps i s 2 e.enc) ∧
      (∀ (a b : List ElemTy) ty, rm → tys = a ++ ty :: b → (∀ q ∈ a, fits q) → ¬ fits ty → VecTraps i s 52 (BitVec.ofNat 64 ty.code))))

/-- A vector instruction of which position m = row × row length + column is the first whose flags raise an event that `fx` enables: it
traps there with the event's cause, its group of 64 writes nothing and accrues nothing, every earlier one is done, and `vsi` is
at the group (R47, R170, R173, R178). -/
def EventTraps (i : Instr) (s : State) (vd : VReg) (w : Nat) (pos : Nat → Nat → Prop) (f : Nat → Nat → Nat × Nat) : Prop :=
  ∀ r c cause,
    let len := grantLen s.me.csr.shape
    let m := r * len + c
    let before (r c : Nat) : Prop := pos r c ∧ r * len + c < m / 64 * 64
    pos r c → eventCause (enabledFlags s.me.csr.fx) (f r c).2 = some cause →
    (∀ r' c', pos r' c' → r' * len + c' < m → eventCause (enabledFlags s.me.csr.fx) (f r' c').2 = none) →
    ∃ u fx, exec i s = .next (u.takeTrap ⟨cause, BitVec.ofNat 64 m, none⟩ true) ∧ OnlyLocal s.cur s u ∧ OnlyBlocks s.cur s u ∧
      OtherBlocks s.cur [vd] s u ∧ FlagsAccrue s.me.csr.fx fx before (fun r c => (f r c).2) ∧
      u.me = Strand.countersOf { s.me with csr := { s.me.csr with fx := fx, vsi := BitVec.ofNat 64 (m / 64 * 64) } } u.me ∧
      ElemsTake s u vd w before fun r c => (f r c).1

/-- A predicate-writing instruction completes: bit j of pd takes g j in each enabled column below the row length, and nothing
else changes (R198). -/
def PredDoes (i : Instr) (s : State) (h : Hdr) (pd : Reg8) (g : Nat → Bool) : Prop :=
  ∃ t ps, exec i s = .next t ∧ OnlyStrand s.cur s t ∧ VecDone s.cur t { s.me with p := ps } ∧
    (∀ q, q ≠ pd → ps[q] = s.me.p[q]) ∧
    ∀ j, j < 1024 → bit ps[pd] j = if j < grantLen s.me.csr.shape ∧ s.enabled h j = true then g j else bit (s.me.p[pd]) j

/-! ### Information blocks -/

/-- The quotient l[i] of pivot p in block w, with its flags (R263). -/
def elimQuot (w : Nat → Nat → Nat) (p i : Nat) : Nat × Nat := gbpRnd (numDiv (gbpVal (w i p)) (gbpVal (w p p)))

/-- What pivot p leaves at (i, j): the old value less the quotient's product with row p, rounded once, with the flags (R263). -/
def elimVal (w : Nat → Nat → Nat) (p i j : Nat) : Nat × Nat :=
  let m := (gbpVal (elimQuot w p i).1).mul (gbpVal (w p j))
  let e := sumExact .rne [gbpVal (w i j), m.1.neg]
  gbpRnd (e.1, e.2 ||| m.2)

/-- Block w of dimension D, η in column D, after the pivots D - 1 down to D - m, mirrored: pivot p replaces what lies above and
left of it (R263). -/
def eliminated (D : Nat) (w : Nat → Nat → Nat) : Nat → Nat → Nat → Nat
  | 0 => w
  | m + 1 => fun i j =>
    let p := D - 1 - m
    let r := if j < D then min i j else i
    let c := if j < D then max i j else j
    if r < p ∧ (c < p ∨ c = D) then (elimVal (eliminated D w m) p r c).1 else eliminated D w m r c

/-! ### Matrix results -/

/-- Nothing keeps a matrix instruction from running whole: no limit, no progress recorded in `msi`, no stream, and no
uncorrectable row, slice or window on the core. -/
def FromUpdate (s : State) : Prop :=
  s.lim = none ∧ s.me.csr.msi = 0 ∧ s.noStreams = true ∧ s.me.blocks.Nodup ∧ s.myCore.badRows = [] ∧ s.myCore.badTiles = [] ∧
    s.myCore.badWins = []

/-- Tile md takes `f` at the positions `pos` and keeps every other element, its window and its state; every other tile, and
everything of the core but its tiles and blocks, is as before. -/
def TileTakes (s t : State) (md : Reg8) (pos : Nat → Nat → Prop) (f : Nat → Nat → Nat) : Prop :=
  (t.mget md).window = (s.mget md).window ∧ (t.mget md).st = (s.mget md).st ∧
  (∀ n, s.me.tileOf md ≠ some n → t.myCore.tile n = s.myCore.tile n) ∧
  (∃ ts bs, t.myCore = { s.myCore with tiles := ts, blocks := bs }) ∧
  ∀ i j, i < 64 → j < 64 →
    (pos i j → tileElem (t.mget md).data i j = f i j % 2 ^ 32) ∧ (¬ pos i j → tileElem (t.mget md).data i j = tileElem (s.mget md).data i j)

/-- A matrix instruction completes on the strand `a` gives but for its flags, and changes nothing outside its strand and core. -/
def MatDone (i : Instr) (s t : State) (fx : Word) : Prop :=
  exec i s = .next t ∧ OnlyLocal s.cur s t ∧ VecDone s.cur t { s.me with csr := { s.me.csr with fx := fx } }

/-! ### Engine results -/

/-- Operation op of the executing strand is accepted into slot n: the slot holds it, its bytes are counted on its token, the
queue entry completes, and no other slot, port or block and no block or register of the strand but its tokens, its list of
counted destinations and its reservation, which becomes r, changes (R123, R127). -/
def Accepted (s t : State) (op : CopyOp) (n : Nat) (r : Option Nat) : Prop :=
  (∃ a, t.myCore.slot n = some { op with age := a }) ∧ (∀ j, j ≠ n → t.myCore.slot j = s.myCore.slot j) ∧
  (∀ j, t.myCore.port j = s.myCore.port j) ∧ OtherBlocks s.cur [] s t ∧
  ∃ ks l, VecDone s.cur t { s.me with k := ks, landed := l, resv := r } ∧
    ∀ i : Reg8, ks[i] = if i = op.k then ⟨(s.me.k[i]).count + op.bytes, (s.me.k[i]).err⟩ else s.me.k[i]

/-- Operation o writes to physical address pa: byte i of a range that `writeVa` gives it lies there. -/
def CopyOp.writesTo (o : CopyOp) (pa : Nat) : Prop := ∃ r ∈ o.writeVa, ∃ i e, i < r.2 ∧ pinPa o.pins (r.1 + i) = some (pa, e)

/-- The regions `rs`, as virtual addresses with their bytes, give no physical address two bytes. -/
def CopyOp.apart (o : CopyOp) (rs : List (Nat × List (Option Byte))) : Prop :=
  ∀ r ∈ rs, ∀ q ∈ rs, ∀ i j pa e f, i < r.2.length → j < q.2.length → pinPa o.pins (r.1 + i) = some (pa, e) →
    pinPa o.pins (q.1 + j) = some (pa, f) → r.2[i]? = q.2[j]?

/-- The token of an operation's owner once n of its bytes have landed, `err` set when `bad` holds (R123). -/
def State.landed (s : State) (o : CopyOp) (n : Nat) (bad : Bool) : Token :=
  ⟨((s.strand o.owner).k[o.k]).count - n, ((s.strand o.owner).k[o.k]).err || bad⟩

/-- Every strand is as before, but for a reservation on a granule that n bytes from pa meet, unless it is strand `by`'s own. -/
def BreaksOnly (s t : State) (by_ : Option Nat) (pa n : Nat) : Prop :=
  ∀ k, t.strand k = { s.strand k with
    resv := if by_ = some k then (s.strand k).resv else (s.strand k).resv.filter fun g => !(64 * g < pa + n && pa < 64 * g + 64) }

/-- No store is queued for delivery, and no byte pushed to a bound stream waits for memory: nothing is to be performed before a
key is wiped. -/
def Settled (s : State) : Prop :=
  ∀ c, (s.core c).wtq = [] ∧ ∀ p q, (s.core c).port p = some q → q.wr = true → q.buf = []

/-! ### The landing -/

/-- What a launch's validation answers for the record at an address, under the launch's `vmroot`: the checks of R288 in their order,
the first failure's code and detail with the record (a misaligned one is not read: log 107), and the flight of one that passes
(R286, R289, R293). -/
def LaunchChecked (s : State) (part : Nat) (root addr : Word) (cmd : Option (Nat × Nat)) : Prop :=
  let ctx := landCtx part root
  let answer := (s.validate part root addr cmd).2
  let rec_ := s.landRead ctx addr.toNat 128
  (addr.toNat % 64 ≠ 0 ∨ rec_.2 = none → answer = .error (1, 0, none)) ∧
  ∀ bs, addr.toNat % 64 = 0 → rec_.2 = some bs →
    let f := recN bs
    let ext (i : Nat) := f (40 + 4 * i) 4
    let step (i : Nat) := f (56 + 4 * i) 4
    let pos (i : Nat) := (ext i + step i - 1) / step i
    let T := pos 0 * pos 1 * pos 2 * pos 3
    let walks (d : Nat) : Prop := ∃ l, l < 4 ∧ f 82 1 / 4 ^ l % 4 = d
    let claim := Hold.unpack (BitVec.ofNat 64 (f 72 8))
    let q (pool c : Nat) : Nat := if c = 0 then 16 else pool / c
    let k := min (min (16 - f 86 1) (q 64 claim.blocks)) (min (q 8 claim.tiles) (q (64 - f 88 2) claim.pages))
    let dies := s.flightDies part (f 80 2)
    let bad (o : Nat) : Prop :=
      (o = 0 ∧ f 0 8 % 4 ≠ 0) ∨ (o = 16 ∧ f 16 8 % 64 ≠ 0) ∨ (o = 32 ∧ f 32 8 % 32 ≠ 0) ∨
      (∃ i, i < 4 ∧ ((o = 40 + 4 * i ∧ ext i = 0) ∨ (o = 56 + 4 * i ∧ step i = 0))) ∨
      (o = 40 ∧ (∀ i, i < 4 → ext i ≠ 0 ∧ step i ≠ 0) ∧ 2 ^ 40 ≤ T) ∨ (o = 72 ∧ Hold.resv (BitVec.ofNat 64 (f 72 8)) ≠ 0) ∨
      (o = 82 ∧ ∃ d, d < 4 ∧ ¬ walks d) ∨ (o = 83 ∧ 4 ≤ f 83 1) ∨ (o = 84 ∧ 7 < f 84 1) ∨ (o = 85 ∧ (f 85 1 = 0 ∨ 16 < f 85 1)) ∨
      (o = 86 ∧ 15 < f 86 1) ∨ (o = 87 ∧ f 87 1 ≠ 0) ∨ (o = 88 ∧ 64 < f 88 2) ∨ (o = 90 ∧ 256 < f 90 2) ∨ (o = 92 ∧ f 92 4 ≠ 0) ∨
      (o = 104 ∧ (f 104 4 % 32 ≠ 0 ∨ f 88 2 * 16384 < f 104 4)) ∨ (o = 108 ∧ f 108 4 ≠ 0) ∨
      (o = 120 ∧ (f 120 4 % 32 ≠ 0 ∨ f 90 2 * 65536 < f 120 4)) ∨ (o = 124 ∧ f 124 4 ≠ 0)
    let no (code detail : Nat) : Prop := answer = .error (code, detail, some bs)
    let image (u : State) (va n : Nat) := if va = 0 then (u, some []) else u.landRead ctx va n
    (∀ d, d ∈ dies ↔ d < 8 ∧ (f 80 2).testBit d = true ∧ s.dieLive d = true ∧ ∃ h, h < 9 ∧ bit (s.part part).halls (9 * d + h) = true) ∧
    (∀ o, bad o → (∀ n, bad n → o ≤ n) → no 2 o) ∧
    ((∀ o, ¬ bad o) →
      (k = 0 → no 2 72) ∧
      (k ≠ 0 → dies = [] → no 3 (f 80 2)) ∧
      (k ≠ 0 → dies ≠ [] →
        (∀ u g, rec_.1.readGroups ctx (f 16 8) T = .error (u, g) → no 4 g) ∧
        ∀ u gs, rec_.1.readGroups ctx (f 16 8) T = .ok (u, gs) →
          let fits (g : Group) : Prop := g.members.length ≤ k * 144 * dies.length
          (∀ a g b, gs = a ++ g :: b → (∀ h ∈ a, fits h) → ¬ fits g → no 5 g.g) ∧
          (f 16 8 = 0 → gs = []) ∧
          (∀ g ∈ gs, g.members ≠ [] ∧ g.members.Pairwise (· < ·) ∧ ∀ m ∈ g.members, m < T) ∧
          (∀ m, (gs.filter fun g => g.members.contains m).length ≤ 4) ∧
          ((∀ g ∈ gs, fits g) →
            let im := image u (f 96 8) (f 104 4)
            (im.2 = none → no 1 96) ∧
            (im.2 ≠ none → (image im.1 (f 112 8) (f 120 4)).2 = none → no 1 112) ∧
            (im.2 ≠ none → (image im.1 (f 112 8) (f 120 4)).2 ≠ none → ∃ g, answer = .ok g ∧
              g.addr = addr ∧ g.vmroot = root ∧ g.part = part ∧ g.entry.toNat = f 0 8 ∧ g.arg.toNat = f 8 8 ∧ g.done.toNat = f 32 8 ∧
              g.ext = [ext 0, ext 1, ext 2, ext 3] ∧ g.step = [step 0, step 1, step 2, step 3] ∧ g.claim = claim ∧ g.affinity = f 80 2 ∧
              g.order = f 82 1 ∧ g.prio = f 84 1 ∧ g.gang = f 85 1 ∧ g.hpc = f 86 1 ∧ g.spp = f 88 2 ∧ g.gpp = f 90 2 ∧ g.groups = gs ∧
              g.ranges.map Range.die = dies))))

/-- Strand k has been pre-empted to the place a: its slot is Saved and holds nothing, its record lies at a, and the landing keeps
which tread of which flight it was (R271, R281). -/
def SavedAt (s t : State) (k : Nat) (a : SaveAt) : Prop :=
  let b := t.strand k
  b.status = .saved ∧ b.saveAt = some a ∧ b.hold = Hold.zero ∧ b.claim = Hold.zero ∧ b.kind = (s.strand k).kind ∧
    b.flight = (s.strand k).flight ∧ b.tread = (s.strand k).tread ∧ b.mode = (s.strand k).mode

/-- Nothing stored in the package is uncorrectable that a record of core c's strands takes or gives: no sector of memory, no row
of a block, no sector of the loft (R338). -/
def NoErrors (s : State) (c : Nat) : Prop := s.bad = [] ∧ (s.core c).badRows = [] ∧ (s.core c).badLoft = []

/-- The slot of a context that has ended: Free or Dormant, and it holds nothing (R332, R271). -/
def Ended (t : State) (k : Nat) : Prop :=
  ((t.strand k).status = .free ∨ (t.strand k).status = .dormant) ∧ (t.strand k).hold = Hold.zero ∧ (t.strand k).claim = Hold.zero

/-! ### The host interface -/

/-- The event leaves queue q as h, and changes nothing else. -/
def QueueTakes (i : Instr) (s : State) (q : Nat) (h : HostQueue) : Prop :=
  ∃ t, exec i s = .next t ∧ t = { s with queues := t.queues } ∧ t.queue q = h ∧ ∀ j, j ≠ q → t.queue j = s.queue j

/-- The event leaves partition p as x, and changes nothing else. -/
def PartTakes (i : Instr) (s : State) (p : Nat) (x : Partition) : Prop :=
  ∃ t, exec i s = .next t ∧ t = { s with parts := t.parts } ∧ t.part p = x ∧ ∀ j, j ≠ p → t.part j = s.part j

/-- The event leaves die d as x, and changes nothing else. -/
def DieTakes (i : Instr) (s : State) (d : Nat) (x : Die) : Prop :=
  ∃ t, exec i s = .next t ∧ t = { s with dies := t.dies } ∧ t.die d = x ∧ ∀ j, j ≠ d → t.die j = s.die j

/-- Every fetched command of queue q has an opcode that names a command. -/
def KnownCmds (s : State) (q : Nat) : Prop := ∀ c ∈ (s.queue q).cmds, slotOp c.data ∈ knownOps

/-- One completion entry of queue q has been written: 32 bytes at its place in the ring, in host memory, and no byte elsewhere; the
next entry has the next place, and the queue's MSI-X message is last (R358). -/
def EntryWritten (s t : State) (q seq status detail : Nat) : Prop :=
  let h := s.queue q
  let pa := hostBase + (bits h.cqbase 12 52 * 4096 + 32 * (h.cqtail % h.cqSize)) % 2 ^ 51
  memRead t.mem pa 4 = leBytes 4 seq ∧ memRead t.mem (pa + 4) 4 = leBytes 4 status ∧ memRead t.mem (pa + 8) 8 = leBytes 8 detail ∧
  memRead t.mem (pa + 16) 8 = leBytes 8 s.time ∧ memRead t.mem (pa + 24) 4 = leBytes 4 h.cqtail ∧
  memRead t.mem (pa + 28) 4 = [0, 0, 0, 0] ∧ (∀ a, a < pa ∨ pa + 32 ≤ a → memByte t.mem a = memByte s.mem a) ∧
  (t.queue q).cqtail = (h.cqtail + 1) % 2 ^ 32 ∧ t.regs = { s.regs with msix := s.regs.msix ++ [h.vec] }

/-- From state s, the command n of queue q completes with a status: its entry is written, it is no longer among the fetched
commands, COMPLETED covers it when every earlier one has completed, and nothing else changes. -/
def CommandDone (s t : State) (q n status detail : Nat) : Prop :=
  EntryWritten s t q n status detail ∧ t = { s with mem := t.mem, queues := t.queues, regs := t.regs } ∧
  (∀ j, j ≠ q → t.queue j = s.queue j) ∧
  let h := s.queue q
  let g := t.queue q
  g = { h with cmds := h.cmds.filter (fun c => c.seq ≠ n), cqtail := g.cqtail, completed := g.completed, finished := g.finished } ∧
  (h.finished = [] → if n = (h.completed + 1) % 2 ^ 32 then g.completed = n ∧ g.finished = []
    else g.completed = h.completed ∧ g.finished = [n])

/-- The command event completes its command from a state that `f` describes, reached from s. -/
def Completes (i : Instr) (s : State) (q n status detail : Nat) (f : State → Prop) : Prop :=
  ∃ u t, exec i s = .next t ∧ u.queues = s.queues ∧ f u ∧ CommandDone u t q n status detail

end Sys2Proof.Machine
end

