-- ==== Sys2Proof/Certificates/Slice0/Obligations.lean ====
section
/-! DEFINITION. The statements about the machine. Each says which rules of spec/ it comes from; where it rests on a choice of the
model, it names the log entry. -/
open Sys2Proof Sys2Proof.Machine

/-! ### Encoding and the step -/

/-- One word of each of a few formats, its fields written out from R59, R61 to R66 and R71 to R75, decodes to the instruction it
stands for. -/
def Obligations.DecodedWords : Prop :=
  -- ADDI x1, x2, -1; acq.try a0, a1 (the example of R63); sync.acq over global space at domain scope
  decodeTableWord 32 0b111111111111_00010_000_00001_0010011 = some (.rv64iArith (.imm .addi 1 2 0xFFF)) ∧
  decodeTableWord 32 0b0000010_00000_01011_000_01010_0001011 = some (.acqTry 10 11) ∧
  decodeTableWord 32 0b00000_01_10_101_00000_001_00000_0001011 = some (.syncAcq .glob .domain) ∧
  -- vadd.f32 v3, v1, v2 if p2 la=1 and vld.f32 v1, 64(a0), a1 (the examples of R76)
  decodeTableWord 64 0x000200208C02843F = some (.vadd ⟨⟨true, 2, 1⟩, .f32, 3, 1, 2⟩) ∧
  decodeTableWord 64 0x080200B5040000BF = some (.vld ⟨⟨false, 0, 0⟩, .f32, false, 64, 1, 10⟩ 11) ∧
  -- sg.reduce.add.f32 k1, a0, a1, sd2 (R110), msend.req v3, a0, a1, 640, 2 (R244), gbp.elim.f32 v5, v4, t0, 2, 4 (R260)
  decodeTableWord 64 0x001200B50488023F = some (.sgReduce ⟨0, 1, 10, 11, 2⟩ .add .f32) ∧
  decodeTableWord 64 0x24C000B50C0001BF = some (.msend ⟨0, 2, 19, false, .req, 3, 10, 11⟩) ∧
  decodeTableWord 64 0x30020452148801BF = some (.gbpElim 0 3 2 5 4 5) ∧
  -- hpref.dc (a0), 4 (R328)
  decodeTableWord 64 0x0000000CA80803BF = some (.hpref 0 1 3 10)

/-- Decode and encode agree: the stored bytes of every well-formed instruction that has an encoding, whatever follows them, decode
to that instruction and leave what follows. -/
def Obligations.DecodeEncode : Prop :=
  ∀ (i : Instr) (bs rest : List Byte), i.wf = true → encode i = some bs → decodeBytes (bs ++ rest) = .ok (i, rest)

/-- A step runs the decoded instruction. With an empty schedule, or when the schedule names the strand, the strand's front fetches
at the pc; when the bytes decode to an instruction that is neither illegal at the front nor held, then: a 32-bit instruction or
hint runs as `exec` gives, after the bookkeeping of lookahead promises (R77); a long form enters the idle vector queue and runs
there as `exec` gives, once streams it names are translated again, and waits while there is no room for their pins (R175, R161,
R102). A word that belongs to no instruction, and an
instruction that the front finds illegal, take illegal-instruction with the bits as `stval` (R58). -/
def Obligations.StepRunsDecoded : Prop :=
  (∀ (s s1 : State) (bs rest : List Byte) (i : Instr),
     s.regs.lifecycle ≠ 3 → s.lim = none → (s.sched = [] ∨ ∃ k l, s.sched = .run k :: l) →
     let s0 : State := match s.sched with | .run k :: l => { s with sched := l, cur := k } | _ => s
     FrontReady s0 → s0.fetchBytes = .ok (s1, bs) → decodeBytes bs = .ok (i, rest) →
     s1.frontIllegal i = false → s1.held i = false →
     (i.isQueued = false →
       step s = match exec i (s1.lookahead i) with | .next t => .next (s1.relook t) | r => r) ∧
     (i.isQueued = true → s1.me.idle = true →
       step s =
         let s2 := (s1.lookahead i).enqueue (w64 (leNat bs))
         match s2.repin i with | .trap s3 t => .next (s3.takeTrap t true) | .stall => .next s2 | .ok s3 => exec i s3)) ∧
  (∀ (s s1 : State) (bs rest : List Byte), s.regs.lifecycle ≠ 3 → s.lim = none → s.sched = [] → FrontReady s →
     s.fetchBytes = .ok (s1, bs) →
     ((∃ e, decodeBytes bs = .error e) ∨ ∃ i, decodeBytes bs = .ok (i, rest) ∧ s1.frontIllegal i = true) →
     step s = .next (s1.takeTrap ⟨2, w64 (leNat bs), none⟩ false))

/-! ### Invariants -/

/-- What every step keeps, from every state: memory in its canonical form; different blocks under a strand's names; holdings that
are accounted for, a tile named once, exactly while it is Held or Bound (R234, R271, R273); a read stream at most 4 KiB ahead
(R141); loans between live dies that no lender cannot cover. Under the last, the allowances of all dies and the fixed 640 W
never exceed the budget in force (R370). -/
def Obligations.StepKeepsInvariants : Prop :=
  (∀ s t : State, step s = .next t → (MemOk s → MemOk t) ∧ (BlocksApart s → BlocksApart t) ∧ (HoldsOk s → HoldsOk t) ∧
    (ReadAhead s → ReadAhead t) ∧ (PowerOk s → PowerOk t)) ∧
  (∀ s : State, PowerOk s → 640 ≤ s.budgetNow → ((List.range 8).map s.allowOf).sum + 640 ≤ s.budgetNow) ∧
  ∀ (s : State) (c : Nat), HoldsOk s → Accounted s c ∧ ∀ k ∈ strandsOf c, (s.strand k).tiles.Nodup

/-! ### The scalar base (R57, R59, R60) -/

/-- Every integer computational form completes in every state: its destination takes the value the form computes, x0 stays zero,
and nothing but that register, the pc, `instret` and the event counters changes anywhere in the package. The values are those of
the ratified base, M and Zba (R59), for every form, with the cases of division by zero and of overflow. -/
def Obligations.ArithmeticCompletes : Prop :=
  (∀ (a : Arith) (s : State), ∃ t, exec (.rv64iArith a) s = .next t ∧ ScalarDone s t (s.me.setX (arithRd a) (s.arithVal a))) ∧
  (∀ (s : State) (rd rs rt : XReg) (i : BitVec 12) (u : BitVec 20) (sh : BitVec 6),
     let a := s.getX rs
     let b := s.getX rt
     let n := b.toNat % 64
     let aw : BitVec 32 := a.truncate 32
     let bw : BitVec 32 := b.truncate 32
     let m := b.toNat % 32
     let sx (x : BitVec 32) : Word := x.signExtend 64
     let ux : Word := aw.zeroExtend 64
     let im : Word := i.signExtend 64
     let k := sh.toNat
     let kw := sh.toNat % 32
     let give (l : List (Arith × Word)) : Prop := ∀ p ∈ l, GivesX (.rv64iArith p.1) s rd p.2
     let reg (f : RegOp) : Arith := .reg f rd rs rt
     let imm (f : ImmOp) : Arith := .imm f rd rs i
     let shift (f : ShiftOp) : Arith := .shift f rd rs sh
     give [(reg .add, a + b), (reg .sub, a - b), (reg .sll, a <<< n), (reg .srl, a >>> n), (reg .sra, a.sshiftRight n),
       (reg .slt, if a.toInt < b.toInt then 1 else 0), (reg .sltu, if a.toNat < b.toNat then 1 else 0),
       (reg .xor, a ^^^ b), (reg .or, a ||| b), (reg .and, a &&& b),
       (reg .addw, sx (aw + bw)), (reg .subw, sx (aw - bw)), (reg .sllw, sx (aw <<< m)), (reg .srlw, sx (aw >>> m)),
       (reg .sraw, sx (aw.sshiftRight m))] ∧
     give [(reg .mul, a * b), (reg .mulh, BitVec.ofInt 64 (Int.fdiv (a.toInt * b.toInt) (2 ^ 64))),
       (reg .mulhsu, BitVec.ofInt 64 (Int.fdiv (a.toInt * b.toNat) (2 ^ 64))),
       (reg .mulhu, BitVec.ofNat 64 (a.toNat * b.toNat / 2 ^ 64)), (reg .mulw, sx (aw * bw))] ∧
     (b = 0 → give [(reg .div, BitVec.allOnes 64), (reg .divu, BitVec.allOnes 64), (reg .rem, a), (reg .remu, a)]) ∧
     (a = BitVec.intMin 64 → b = BitVec.allOnes 64 → give [(reg .div, a), (reg .rem, 0)]) ∧
     (b ≠ 0 → ¬ (a = BitVec.intMin 64 ∧ b = BitVec.allOnes 64) →
       give [(reg .div, BitVec.ofInt 64 (Int.tdiv a.toInt b.toInt)), (reg .rem, BitVec.ofInt 64 (Int.tmod a.toInt b.toInt))]) ∧
     (b ≠ 0 → give [(reg .divu, BitVec.ofNat 64 (a.toNat / b.toNat)), (reg .remu, BitVec.ofNat 64 (a.toNat % b.toNat))]) ∧
     (bw = 0 → give [(reg .divw, BitVec.allOnes 64), (reg .divuw, BitVec.allOnes 64), (reg .remw, sx aw), (reg .remuw, sx aw)]) ∧
     (aw = BitVec.intMin 32 → bw = BitVec.allOnes 32 → give [(reg .divw, sx aw), (reg .remw, 0)]) ∧
     (bw ≠ 0 → ¬ (aw = BitVec.intMin 32 ∧ bw = BitVec.allOnes 32) →
       give [(reg .divw, BitVec.ofInt 64 (Int.tdiv aw.toInt bw.toInt)), (reg .remw, BitVec.ofInt 64 (Int.tmod aw.toInt bw.toInt))]) ∧
     (bw ≠ 0 → give [(reg .divuw, sx (BitVec.ofNat 32 (aw.toNat / bw.toNat))), (reg .remuw, sx (BitVec.ofNat 32 (aw.toNat % bw.toNat)))]) ∧
     give [(reg .sh1add, 2 * a + b), (reg .sh2add, 4 * a + b), (reg .sh3add, 8 * a + b), (reg .addUw, ux + b),
       (reg .sh1addUw, 2 * ux + b), (reg .sh2addUw, 4 * ux + b), (reg .sh3addUw, 8 * ux + b), (shift .slliUw, ux <<< k)] ∧
     give [(imm .addi, a + im), (imm .slti, if a.toInt < im.toInt then 1 else 0), (imm .sltiu, if a.toNat < im.toNat then 1 else 0),
       (imm .xori, a ^^^ im), (imm .ori, a ||| im), (imm .andi, a &&& im), (imm .addiw, sx (aw + im.truncate 32)),
       (shift .slli, a <<< k), (shift .srli, a >>> k), (shift .srai, a.sshiftRight k), (shift .slliw, sx (aw <<< kw)),
       (shift .srliw, sx (aw >>> kw)), (shift .sraiw, sx (aw.sshiftRight kw)),
       (.lui rd u, sx (u ++ (0 : BitVec 12))), (.auipc rd u, s.me.pc + sx (u ++ (0 : BitVec 12)))])

/-! ### Invariants -/

/-- What reset leaves: no queue enabled, WINBASE 0 (R351), the always-on counter 0 (R374), every die in D0 at 1,700 MHz (R367, R369),
the landing of the lowest present die head (R303 read as the model's choice at reset, log 12), partition 0 alone with no pools
(R361); FEATACC with bit 0, as R354 has every value, and no other bit (the model's choice, log 1); and of a strand: Free, `shape`
with osp 3, osc 4, f32, 1 row of 16 (R167), `sstatus` with UXL 2 and every other bit 0 (R307), descriptors 0 (R37); and as the
model's choice (log 1), which R164 and R184 give at strand start alone: x registers 0, predicates all ones, tokens 0, records
invalid. Memory is in its canonical form and reads zero (log 2). The invariants that every step keeps hold. -/
def Obligations.ResetState : Prop :=
  (let s := State.reset
   s.time = 0 ∧ s.queues = [] ∧ bit s.regs.featacc[0] 0 = true ∧ (∀ n, 1 ≤ n → s.feature n = false) ∧ s.regs.winbase = 0 ∧
   s.head = firstDie s.regs.present ∧ (s.part 0).live = true ∧ (s.part 0).pools = false ∧ (∀ p, p ≠ 0 → (s.part p).live = false) ∧
   (∀ d, (s.die d).power = 0 ∧ (s.die d).mhz = 1700 ∧ (s.die d).fenced = false) ∧
   ∀ k, (s.strand k).status = .free ∧ (s.strand k).blocks = [] ∧ (s.strand k).tiles = [] ∧ (s.strand k).pages = [] ∧
     bits (s.strand k).csr.shape 38 2 = 3 ∧ bits (s.strand k).csr.shape 35 3 = 4 ∧ bits (s.strand k).csr.shape 24 5 = 8 ∧
     grantRows (s.strand k).csr.shape = 1 ∧ grantLen (s.strand k).csr.shape = 16 ∧
     (∀ p : Reg8, (s.strand k).p[p] = BitVec.allOnes 1024) ∧ (∀ t : Reg8, (s.strand k).k[t] = ⟨0, false⟩) ∧
     (∀ r : Reg8, ((s.strand k).sd[r]).valid = false) ∧ (∀ n : Fin 4, (s.strand k).csr.fd[n] = 0) ∧
     (∀ r : XReg, (s.strand k).getX r = 0) ∧ (s.strand k).csr.sstatus = BitVec.ofNat 64 (2 ^ 33)) ∧
  (MemOk State.reset ∧ BlocksApart State.reset ∧ HoldsOk State.reset ∧ ReadAhead State.reset ∧ PowerOk State.reset) ∧
  ∀ a, memByte State.reset.mem a = 0

/-! ### The scalar base (R57, R59, R60) -/

/-- A branch not taken completes with no effect; a taken branch or a jump whose target is a multiple of 4 goes to it, with the
link register written; one whose target is not a multiple of 4 raises instruction-address-misaligned on itself (R57), with `stval`
the target (the model's choice, log 27). Nothing else changes. -/
def Obligations.BranchJumpCompletes : Prop :=
  ∀ (s : State) (c : BrCond) (rd rs rt : XReg) (o12 : BitVec 12) (o20 : BitVec 20),
    let pc := s.me.pc
    let lands (i : Instr) (link : XReg) (a : Word) : Prop :=
      (a.toNat % 4 = 0 → ∃ t, exec i s = .next t ∧ OnlyStrand s.cur s t ∧
        t.me = Strand.countersOf { s.me.setX link (pc + 4) with
          pc := a, csr := { s.me.csr with instret := s.me.csr.instret + 1 } } t.me) ∧
      (a.toNat % 4 ≠ 0 → exec i s = .next (s.takeTrap ⟨0, a, none⟩ false))
    (¬ Taken c (s.getX rs) (s.getX rt) → ∃ t, exec (.branchJump (.br c rs rt o12)) s = .next t ∧ ScalarDone s t s.me) ∧
    (Taken c (s.getX rs) (s.getX rt) → lands (.branchJump (.br c rs rt o12)) 0 (pc + 2 * o12.signExtend 64)) ∧
    lands (.branchJump (.jal rd o20)) rd (pc + 2 * o20.signExtend 64) ∧
    lands (.branchJump (.jalr rd rs o12)) rd ((s.getX rs + o12.signExtend 64) &&& ~~~1)

/-- A scalar store, and `stl` after its release point, of an aligned address that translates to physical address x.pa completes. In
local HBM its bytes enter the core's write-through queue, and no byte of memory changes but by the release point's deliveries;
in a scratch store or another package or the host, the bytes of [x.pa, x.pa + n) take the value and no other byte changes: only
local HBM has encrypted pages (R99, R108). A store to a register of the device region does what the host's write of it does
(R351; the registers are in HostRegisters). Else no register of the strand changes, and of other strands nothing but a
reservation (R60, R149, R155, R159). -/
def Obligations.StoreCompletes : Prop :=
  ∀ (s : State) (w : Width) (rt rs : XReg),
    let bs := leBytes w.bytes (s.getX rt).toNat
    let c := coreOf s.cur
    let stores (i : Instr) (s0 : State) (va : Nat) : Prop :=
      ∀ (s1 : State) (x : Xlat) (key : Option (List Nat)),
        va % w.bytes = 0 → s0.reach .write va w.bytes = .ok (s1, x) → s1.accessKey s1.ctx x.enc .write va = .ok key →
        (x.enc = true → regionOf x.pa = .hbm) ∧
        (regionOf x.pa = .device → ∃ t u, exec (.registerWrite (x.pa - deviceBase) w.bytes (s.getX rt)) s1 = .next u ∧ exec i s = .next t ∧
          t = { u with strands := t.strands } ∧ (∀ j, j ≠ s.cur → ∃ r, t.strand j = { u.strand j with resv := r }) ∧
          StrandDone s.cur u t u.me) ∧
        (regionOf x.pa ≠ .device →
        ∃ t, exec i s = .next t ∧ (∀ j, j ≠ s.cur → ∃ r, t.strand j = { s.strand j with resv := r }) ∧
          (regionOf x.pa = .hbm → StrandDone s.cur s t { s0.me with written := insNat (x.pa / 128) s0.me.written } ∧
            (∀ a, memByte t.mem a = memByte s0.mem a) ∧
            (t.core c).wtq = (s0.core c).wtq ++ [⟨x.pa, bs, (s.partOf s.cur, x.enc), s.cur, x.pin⟩]) ∧
          (regionOf x.pa ≠ .hbm → StrandDone s.cur s t s0.me ∧
            (∀ a, (a < x.pa ∨ x.pa + w.bytes ≤ a) → memByte t.mem a = memByte s0.mem a) ∧
            (s1.bad.contains (x.pa / 32) = false → x.pa % w.bytes = 0 → memRead t.mem x.pa w.bytes = bs)))
    (∀ off : BitVec 12, stores (.store w rt rs off) s (s.getX rs + off.signExtend 64).toNat) ∧
    ∀ (sc : Scope) (sp : Space),
      let u := s.releasePoint s.cur sc
      stores (.stl w sc sp rt rs) u (s.getX rs).toNat ∧ (∀ a, NotQueued s c a → memByte u.mem a = memByte s.mem a) ∧
      u.me = { s.me with resv := if sc = .strand then s.me.resv else s.resvDrained c s.cur } ∧ (sc ≠ .strand → (u.core c).wtq = [])

/-- A scalar load, and `lda`, of an aligned address that translates, is admitted and meets no match unit, and whose bytes read,
completes with the value in its register, sign-extended but by `lbu`, `lhu` and `lwu`; nothing else of the strand changes. The value
is the little-endian number of the line's bytes where the L1 holds it, else of memory's on a plain page with no store queued to the
line; of the device region, the register's. Memory changes only
where stores that the core had queued are delivered first, which may take a reservation (R60, R149, R155, R159). A read of
TIMENS, which the replay log may answer, is in HintsTraceAndLog. Scalar accesses that are not naturally aligned raise
load-address-misaligned or store-address-misaligned with the address as `stval`, and are never split (R60). -/
def Obligations.LoadCompletes : Prop :=
  (∀ (s s1 s2 : State) (x : Xlat) (v : Nat) (rd rs : XReg),
     (∀ (f : LoadOp) (off : BitVec 12), let va := (s.getX rs + off.signExtend 64).toNat
       va % loadBytes f = 0 → s.reach .read va (loadBytes f) = .ok (s1, x) → s1.loadAt va (loadBytes f) x = .ok (s2, v) →
       s.readsTimens va (loadBytes f) = false →
       ∃ t, exec (.load f rd rs off) s = .next t ∧ StrandDoneD s.cur s t (s.me.setX rd (loadExtend f v)) ∧
         OthersKeep (coreOf s.cur) s.cur s t ∧ SameMemoryBut (coreOf s.cur) 0 0 s t) ∧
     ∀ (w : Width) (sc : Scope) (sp : Space), let va := (s.getX rs).toNat
       va % w.bytes = 0 → s.reach .read va w.bytes = .ok (s1, x) → s1.loadAt va w.bytes x = .ok (s2, v) →
       s.readsTimens va w.bytes = false →
       ∃ t, exec (.lda w sc sp rd rs) s = .next t ∧ StrandDoneD s.cur s t (s.me.setX rd (sext64 (8 * w.bytes) v)) ∧
         OthersKeep (coreOf s.cur) s.cur s t ∧ SameMemoryBut (coreOf s.cur) 0 0 s t ∧
         (scopeGe sc .hall = true → sp ≠ .scratch → (t.core (coreOf s.cur)).l1 = [])) ∧
  (∀ (s t : State) (x : Xlat) (va n v : Nat), s.loadAt va n x = .ok (t, v) →
     let c := coreOf s.cur
     let line := x.pa / 128
     (regionOf x.pa = .device → x.enc = false → let off := x.pa - deviceBase
       v = if n = 8 then (s.regRead (off / 8 * 8)).toNat else bits (s.regRead (off / 8 * 8)) (8 * (off % 8)) 32) ∧
     (x.enc = false →
       (regionOf x.pa ≠ .device → regionOf x.pa ≠ .hbm → v = numberAt (memByte s.mem) x.pa n) ∧
       (regionOf x.pa = .hbm → (∀ l ∈ (s.core c).l1, l.line = line → l.part ≠ none) →
         (∀ e ∈ (s.core c).wtq, e.meets (128 * line) 128 = false) → v = numberAt (memByte s.mem) x.pa n) ∧
       (regionOf x.pa = .hbm → ∀ bs, s.l1Find c line none = some bs → x.pa % 128 + n ≤ bs.length →
         v = numberAt (fun i => bs.getD i 0) (x.pa % 128) n))) ∧
  (∀ (f : LoadOp) (w : Width) (v : Nat),
     (v < 2 ^ (8 * loadBytes f) → f ∈ [LoadOp.lb, .lh, .lw] → SignExtends (loadExtend f v) (loadBytes f) v) ∧
     (v < 2 ^ (8 * loadBytes f) → f ∈ [LoadOp.lbu, .lhu, .lwu, .ld] → (loadExtend f v).toNat = v) ∧
     (v < 2 ^ (8 * w.bytes) → SignExtends (sext64 (8 * w.bytes) v) w.bytes v)) ∧
  (∀ (s : State) (f : LoadOp) (w : Width) (sc : Scope) (sp : Space) (h : AmoHdr) (op : AmoOp) (rd rs rt : XReg) (off : BitVec 12),
     let va := s.getX rs + off.signExtend 64
     let a := s.getX rs
     let n := if h.dbl then 8 else 4
     (va.toNat % loadBytes f ≠ 0 → exec (.load f rd rs off) s = .next (s.takeTrap ⟨4, va, none⟩ false)) ∧
     (va.toNat % w.bytes ≠ 0 → exec (.store w rt rs off) s = .next (s.takeTrap ⟨6, va, none⟩ false)) ∧
     (a.toNat % w.bytes ≠ 0 → exec (.lda w sc sp rd rs) s = .next (s.takeTrap ⟨4, a, none⟩ false)) ∧
     (a.toNat % n ≠ 0 → exec (.lr h rd rs) s = .next (s.takeTrap ⟨4, a, none⟩ false) ∧
       exec (.sc h rd rs rt) s = .next (s.takeTrap ⟨6, a, none⟩ false) ∧
       exec (.amo op h rd rs rt) s = .next (s.takeTrap ⟨6, a, none⟩ false)))

/-- LR reads, takes its reservation on the 64-byte granule and completes; SC writes its bytes and answers 0 when that reservation
stands once the core's queued stores that come before it have been delivered, else it writes nothing and answers 1, and holds none
afterwards in either case (R60, R149). Only the addressed bytes change, or their sector on an encrypted page (R108), beside stores
that the core had queued. The value read is the little-endian number of memory's bytes on a plain page with no store queued to them,
and the register takes it sign-extended. Strands whose events meet no replay log. -/
def Obligations.LoadReserveStoreConditional : Prop :=
  ∀ (s s1 s2 : State) (x : Xlat) (key : Option (List Nat)) (h : AmoHdr) (rd rs rt : XReg) (v : Nat),
    let va := (s.getX rs).toNat
    let n := amoBytes h
    let c := coreOf s.cur
    let r := if h.rl || (s.core c).wtq.any (·.meets x.pa n) then s.resvDrained c s.cur else s.me.resv
    NoLog s s.cur →
    (s.atomReach .lr va n = .ok (s1, x, key) → s1.atomRead key va x.pa n = .ok (s2, v) →
      ∃ t, exec (.lr h rd rs) s = .next t ∧ OthersKeep c s.cur s t ∧
        StrandDone s.cur s t (Strand.setX { s.me with resv := some (x.pa / 64) } rd (amoExtend h v)) ∧ SameMemoryBut c 0 0 s t) ∧
    (s.atomReach .sc va n = .ok (s1, x, key) → r = some (x.pa / 64) →
      ∃ t, exec (.sc h rd rs rt) s = .next t ∧ StrandDone s.cur s t (Strand.setX { s.me with resv := none } rd 0) ∧
        (∀ j, j ≠ s.cur → ∃ q, t.strand j = { s.strand j with resv := q }) ∧ SameMemoryBut c (x.pa / 32 * 32) 32 s t ∧
        (key = none → x.pa % n = 0 → SameMemoryBut c x.pa n s t ∧
          (s1.bad.contains (x.pa / 32) = false → memRead t.mem x.pa n = leBytes n (s.getX rt).toNat))) ∧
    (s.atomReach .sc va n = .ok (s1, x, key) → r ≠ some (x.pa / 64) →
      ∃ t, exec (.sc h rd rs rt) s = .next t ∧ StrandDone s.cur s t (Strand.setX { s.me with resv := none } rd 1) ∧
        OthersKeep c s.cur s t ∧ SameMemoryBut c 0 0 s t) ∧
    (s1.atomRead none va x.pa n = .ok (s2, v) → (∀ e ∈ (s1.core (coreOf s1.cur)).wtq, e.meets x.pa n = false) →
      v = numberAt (memByte s1.mem) x.pa n) ∧
    (v < 2 ^ (8 * n) → SignExtends (amoExtend h v) n v)

/-- An AMO whose target is admitted and whose bytes read answers the old value and stores the combined one, and writes no other
byte; the register file and every other register keep their values, and no reservation of its own strand is lost but to a store
that its core had queued for another strand. The old value is the little-endian number of memory's bytes on a plain page with no
store queued to them, and the register takes it sign-extended (R60, R149, R158). What an AMO stores, on values of w = 32 or 64
bits: swap, add modulo 2^w, the bitwise forms, and the signed and unsigned minimum and maximum (R60 as the ratified A extension
gives them). -/
def Obligations.AmoCompletes : Prop :=
  (∀ (s s1 s2 : State) (x : Xlat) (key : Option (List Nat)) (op : AmoOp) (h : AmoHdr) (rd rs rt : XReg) (v : Nat),
     let va := (s.getX rs).toNat
     let n := amoBytes h
     let c := coreOf s.cur
     NoLog s s.cur → s.atomReach .amo va n = .ok (s1, x, key) → (s1.atomRelease h.rl).atomRead key va x.pa n = .ok (s2, v) →
     ∃ t, exec (.amo op h rd rs rt) s = .next t ∧ StrandDoneD s.cur s t (s.me.setX rd (amoExtend h v)) ∧
       (∀ j, j ≠ s.cur → ∃ q, t.strand j = { s.strand j with resv := q }) ∧ SameMemoryBut c (x.pa / 32 * 32) 32 s t ∧
       (key = none → x.pa % n = 0 → SameMemoryBut c x.pa n s t ∧
         (s1.bad.contains (x.pa / 32) = false → memRead t.mem x.pa n = leBytes n (amoEval op (8 * n) v (s.getX rt).toNat)))) ∧
  (∀ (s t : State) (h : AmoHdr) (va pa v : Nat), let n := amoBytes h
     (s.atomRead none va pa n = .ok (t, v) → (∀ e ∈ (s.core (coreOf s.cur)).wtq, e.meets pa n = false) → v = numberAt (memByte s.mem) pa n) ∧
     (v < 2 ^ (8 * n) → SignExtends (amoExtend h v) n v)) ∧
  (∀ (w old src : Nat), w = 32 ∨ w = 64 → old < 2 ^ w → src < 2 ^ w →
     let a : BitVec w := BitVec.ofNat w old
     let b : BitVec w := BitVec.ofNat w src
     amoEval .swap w old src = src ∧ amoEval .add w old src = (a + b).toNat ∧ amoEval .xor w old src = (a ^^^ b).toNat ∧
     amoEval .and w old src = (a &&& b).toNat ∧ amoEval .or w old src = (a ||| b).toNat ∧
     amoEval .minu w old src = min old src ∧ amoEval .maxu w old src = max old src ∧
     amoEval .min w old src = (if a.toInt ≤ b.toInt then old else src) ∧
     amoEval .max w old src = (if a.toInt ≤ b.toInt then src else old))

/-- FENCE, FENCE.I, WFI and the three `sync` forms complete in every state and change no register. A release side from core scope
up leaves the core's write-through queue empty, an acquire side from hall scope up over global space leaves the core's L1 empty,
FENCE.I empties the core's instruction cache; a FENCE whose `fm` is 0 is a no-op with an empty predecessor or successor set, and
one with another `fm` acts as FENCE RW,RW whatever its sets (R60 before R157, log 99); no byte of memory
changes but by the deliveries, and no strand but for a reservation that they take (R60, R149, R154, R157, R160). -/
def Obligations.FencesComplete : Prop :=
  ∀ (s : State) (fm pred succ : BitVec 4) (sp : Space) (sc : Scope),
    let c := coreOf s.cur
    let released (i : Instr) (clears : Prop) : Prop :=
      ∃ t, exec i s = .next t ∧ StrandDoneR s.cur s t s.me ∧ OthersKeep c s.cur s t ∧ SameMemoryBut c 0 0 s t ∧
        (t.core c).wtq = [] ∧ (clears → (t.core c).l1 = [])
    let nothing (i : Instr) : Prop := ∃ t, exec i s = .next t ∧ ScalarDone s t s.me
    nothing .wfi ∧
    (∃ t, exec .fenceI s = .next t ∧ OnlyLocal s.cur s t ∧ StrandDone s.cur s t s.me ∧
      t.core c = { s.core c with icache := [] }) ∧
    (fm = 0 → pred = 0 ∨ succ = 0 → nothing (.fence fm pred succ)) ∧
    (fm ≠ 0 ∨ (pred ≠ 0 ∧ succ ≠ 0) → released (.fence fm pred succ) True) ∧
    (sc = .strand → nothing (.syncRel sp sc) ∧ nothing (.syncAcq sp sc) ∧ nothing (.syncAr sp sc)) ∧
    (sc ≠ .strand → released (.syncRel sp sc) False ∧ released (.syncAr sp sc) (sc ≠ .core ∧ sp ≠ .scratch)) ∧
    ∃ t, exec (.syncAcq sp sc) s = .next t ∧ OnlyLocal s.cur s t ∧ StrandDone s.cur s t s.me ∧
      (sc ≠ .strand → sc ≠ .core → sp ≠ .scratch → (t.core c).l1 = [])

/-! ### Control and status registers (R60, R184, R307) -/

/-- A Zicsr form on a number that is implemented, in a mode that may make the access, completes: the old value is in its
destination, and a write stores the new value in that register alone, as `Csrs.write` places its fields; an event counter keeps
the value written to it, whatever it would count of the instruction (R380). The five rows of such forms (csrAccess, shapeWrite,
srptrWrite, srbaseWrite, spmcWrite) are all here: `csrInstr` chooses among them by the number. The M-mode CSRs of the management
core, numbers 0x300 to 0x3FF, have the ratified layout (PRESUMED, log 10). The new value is the operand, or the old one with the
operand's bits set or cleared, and a register that has been written reads back with its RW bits taken from it (R6, R60, R181,
R184). Strands whose events meet no replay log. -/
def Obligations.CsrCompletes : Prop :=
  (∀ (s : State) (op : CsrOp) (src : CsrSrc) (rd : XReg) (n : Nat) (old : Word),
     let i := csrInstr op src rd n
     let w : Word := match src with | .reg r => s.getX r | .imm i => i.zeroExtend 64
     let v : Word := match op with | .rw => w | .rs => old ||| w | .rc => old &&& ~~~w
     let writes : Prop := op = .rw ∨ match src with | .reg r => r ≠ 0 | .imm i => i ≠ 0
     (csrOpWrites op src = true ↔ writes) ∧
     (n < 4096 → NoLog s s.cur → s.csrValue n = some old → s.csrAllowed n (csrOpWrites op src) = true →
       ∃ t, exec i s = .next t ∧
         (¬ writes → ScalarDone s t (s.me.setX rd old)) ∧
         (writes → n / 256 ≠ 3 → OnlyStrand s.cur s t ∧
           StrandDone s.cur s t
             (Strand.setX { s.me with csr := s.me.csr.write n v, srCycle := t.me.srCycle, srAcc := t.me.srAcc } rd old) ∧
           (n ≠ 0x5C1 → t.me.srCycle = s.me.srCycle ∧ t.me.srAcc = s.me.srAcc) ∧
           ∀ i : Fin 8, n = 0x5D8 + i.val → t.me.csr.pmc[i] = v) ∧
         (writes → n / 256 = 3 →
           t.regs = { s.regs with mcsr := s.regs.mcsr.write n v } ∧ OnlyStrand s.cur { s with regs := t.regs } t ∧
           StrandDone s.cur s t (s.me.setX rd old)))) ∧
  -- what a register that has been written reads as
  ∀ (s : State) (v : Word),
    let c := s.me.csr
    let reads (n : Nat) (r : Word) : Prop := (s.setMe { s.me with csr := c.write n v }).csrValue n = some r
    let keeps (m old : Word) : Word := (old &&& ~~~m) ||| (v &&& m)
    (∀ p ∈ plainCsrs, reads p.1 (v &&& p.2)) ∧
    reads 0x100 (keeps 0xC0122 c.sstatus) ∧ reads 0x800 (keeps 0xFFE0000000 c.shape) ∧ reads 0x5E0 (c.pmovf &&& ~~~(v &&& 0x7F8)) ∧
    (c.write 0x144 v).ssip = bit v 1 ∧ reads 0x5C1 ((v &&& 0xFFFFFFFFFFFFF01F) ||| (c.srbase &&& 0x20 &&& ~~~v)) ∧
    (let ring (b : Word) : Nat := 2 ^ (bits b 0 4 + 7)
     let p := (c.write 0x808 v).srptr
     let q := (c.write 0x5C1 v).srptr
     reads 0x808 p ∧ bits p 0 32 = bits v 0 32 % ring c.srbase ∧ bits p 32 32 = bits v 32 32 ∧
       bits q 0 32 = bits c.srptr 0 32 % ring v ∧ bits q 32 32 = bits c.srptr 32 32) ∧
    (s.cur = mgmtKey →
      let reads (n : Nat) (r : Word) : Prop := ({ s with regs := { s.regs with mcsr := s.regs.mcsr.write n v } } : State).csrValue n = some r
      (∀ n ∈ [0x304, 0x340, 0x342, 0x343], reads n v) ∧ (∀ n ∈ [0x305, 0x341], reads n (v &&& BitVec.allOnes 64 <<< 2)) ∧
        reads 0x300 (keeps 0x1888 s.regs.mcsr.mstatus))

/-- Where a CSR access is illegal: a number that is not implemented, among them `satp` and those the table of R184 leaves out; a
privileged number in U mode; a write of a read-only number; a write in U mode of `vsi`, `msi`, `srptr` or `lamiss`; a counter that
`scounteren` gates in U mode. The access takes illegal-instruction with its word as `stval` and does nothing (R58, R60, R184,
R307). The fields a CSR write sets, and those it leaves: a write of `shape` sets [39:29] and keeps the grant and its type (R167);
`vmroot` keeps [46:38] zero (R97); `fx`, `vsi`, `msi` and fd0 to fd3 keep their reserved bits zero (R45, R173, R37); `svcp` keeps
bit 1, `stvec` and `sepc` bits [1:0] zero (R179, R307); `sstatus` sets SIE, SPIE, SPP, SUM and MXR alone, so UXL stays (R307);
`lamiss` and `scause` take the whole value (R79). A counter of the executing strand that selects an event, in a mode its selector
enables, counts n more, wrapping, and a carry sets its overflow bit; every other counter is as before (R377, R378, R380). -/
def Obligations.CsrRules : Prop :=
  (∀ (s : State) (op : CsrOp) (src : CsrSrc) (rd : XReg) (n : Nat),
     let i := csrInstr op src rd n
     let wr := csrOpWrites op src
     n < 4096 →
     (n = 0x180 ∨ (0x80A ≤ n ∧ n ≤ 0x80F) ∨ n = 0xCC1 ∨ (0x5C3 ≤ n ∧ n ≤ 0x5CF) ∨
       (s.me.mode = .u ∧ 0x100 ≤ n ∧ n < 0x800) ∨ (wr = true ∧ 0xC00 ≤ n) ∨
       (s.me.mode = .u ∧ wr = true ∧ 0x806 ≤ n ∧ n ≤ 0x809) ∨
       (s.me.mode = .u ∧ 0xC00 ≤ n ∧ n ≤ 0xC1F ∧ bit s.me.csr.scounteren (n - 0xC00) = false)) →
     exec i s = .next (s.takeTrap ⟨2, i.bits, none⟩ false)) ∧
  (∀ (c : Csrs) (v : Word) (k : Fin 4),
     (let w := (c.write 0x800 v).shape
      bits w 29 11 = bits v 29 11 ∧ grantRows w = grantRows c.shape ∧ grantLen w = grantLen c.shape ∧ bits w 24 5 = bits c.shape 24 5) ∧
     (let w := (c.write 0x5C0 v).vmroot
      bits w 48 16 = bits v 48 16 ∧ bit w 47 = bit v 47 ∧ bits w 38 9 = 0 ∧ bits w 0 38 = bits v 0 38) ∧
     (let w := (c.write 0x801 v).fx; bits w 0 5 = bits v 0 5 ∧ bits w 5 3 = 0 ∧ bits w 8 3 = bits v 8 3 ∧ bits w 11 53 = 0) ∧
     (let w := (c.write 0x806 v).vsi; bits w 6 14 = bits v 6 14 ∧ bits w 0 6 = 0 ∧ bits w 20 44 = 0) ∧
     (let w := (c.write 0x807 v).msi; bits w 8 8 = bits v 8 8 ∧ bits w 0 3 = bits v 0 3 ∧ bits w 3 5 = 0 ∧ bits w 16 48 = 0) ∧
     (∀ j : Fin 4, (c.write (0x802 + k.val) v).fd[j] = if j = k then v &&& 0x7FF0FF1 else c.fd[j]) ∧
     bits (c.write 0x5C2 v).svcp 1 1 = 0 ∧ bits (c.write 0x5C2 v).svcp 2 62 = bits v 2 62 ∧ bit (c.write 0x5C2 v).svcp 0 = bit v 0 ∧
     bits (c.write 0x105 v).stvec 0 2 = 0 ∧ bits (c.write 0x105 v).stvec 2 62 = bits v 2 62 ∧
     bits (c.write 0x141 v).sepc 0 2 = 0 ∧ bits (c.write 0x141 v).sepc 2 62 = bits v 2 62 ∧
     (let w := (c.write 0x100 v).sstatus
      bit w 1 = bit v 1 ∧ bit w 5 = bit v 5 ∧ bit w 8 = bit v 8 ∧ bit w 18 = bit v 18 ∧ bit w 19 = bit v 19 ∧
      bits w 32 2 = bits c.sstatus 32 2 ∧ bits w 13 4 = bits c.sstatus 13 4) ∧
     (c.write 0x809 v).lamiss = v ∧ (c.write 0x142 v).scause = v) ∧
  (∀ (s : State) (k ev n : Nat) (i : Fin 8), n < 2 ^ 64 → ev < 256 →
     let a := s.strand k
     let b := (s.countEv k ev n).strand k
     let sel := a.csr.pmsel[i]
     let on := bits sel 0 8 = ev ∧ ((a.mode = .u ∧ bit sel 62 = true) ∨ (a.mode = .s ∧ bit sel 61 = true))
     (on → b.csr.pmc[i] = a.csr.pmc[i] + BitVec.ofNat 64 n ∧
       bit b.csr.pmovf (i.val + 3) = (bit a.csr.pmovf (i.val + 3) || decide (2 ^ 64 ≤ (a.csr.pmc[i]).toNat + n))) ∧
     (¬ on → b.csr.pmc[i] = a.csr.pmc[i] ∧ bit b.csr.pmovf (i.val + 3) = bit a.csr.pmovf (i.val + 3)) ∧
     b = a.countersOf b ∧ OnlyStrand k s (s.countEv k ev n))

/-- `isaver` reads stepping 0x00, major 0x04, minor 0x00 with its reserved bits 0, in U and S modes; a write in any mode takes
illegal-instruction (R82). -/
def Obligations.Isaver : Prop :=
  ∀ (s : State) (op : CsrOp) (src : CsrSrc) (rd : XReg), 
    s.csrValue 0xCC0 = some 0x0000000000000400 ∧
    (csrOpWrites op src = false → ∃ t, exec (csrInstr op src rd 0xCC0) s = .next t ∧ ScalarDone s t (s.me.setX rd 0x400)) ∧
    (csrOpWrites op src = true →
      exec (csrInstr op src rd 0xCC0) s = .next (s.takeTrap ⟨2, (csrInstr op src rd 0xCC0).bits, none⟩ false))

/-! ### Exceptions (R178, R179, R307, R322, R332) -/

/-- A trap that is not fatal is taken by its own strand in S mode at `stvec`: `sepc` and `svcp` record the pointer pair, `scause`
and `stval` the reason, `sstatus` the mode and SIE; kept entries go to the frame with `vsi` and `msi`, the queue is left
empty, the reservation is lost; x registers, predicates, tokens and holdings stay, and no memory changes. Exactly two traps are
fatal to a strand outside M mode, both with the frame occupied: one with kept entries of its own, and an environment call from S
off the management core. A fatal trap runs no handler: the strand holds nothing afterwards and its slot is Dormant or Free (R281,
R332). -/
def Obligations.TrapEntry : Prop :=
  (∀ (s : State) (cause : Nat) (tval : Word) (vt : Bool), TrapTaken s cause → cause < 2 ^ 63 →
     let a := s.me
     let t := s.takeTrap ⟨cause, tval, none⟩ vt
     let b := t.me
     b.mode = .s ∧ b.status = .running ∧ b.pc = a.csr.stvec ∧ b.wait = .none ∧ b.resv = none ∧ b.queue = [] ∧ b.body = [] ∧
     b.csr.scause = BitVec.ofNat 64 cause ∧ b.csr.stval = tval ∧
     bits b.csr.sepc 2 62 = bits a.pc 2 62 ∧ bits b.csr.sepc 0 2 = 0 ∧
     bits b.csr.svcp 2 62 = bits a.vcp 2 62 ∧ bit b.csr.svcp 1 = false ∧ bit b.csr.svcp 0 = vt ∧
     bit b.csr.sstatus 5 = bit a.csr.sstatus 1 ∧ bit b.csr.sstatus 1 = false ∧ (bit b.csr.sstatus 8 = true ↔ a.mode ≠ .u) ∧
     (∀ n, n < 64 → n ≠ 1 → n ≠ 5 → n ≠ 8 → bit b.csr.sstatus n = bit a.csr.sstatus n) ∧
     (a.queue ++ a.body ≠ [] → b.frame = ⟨true, a.queue ++ a.body, a.csr.vsi, a.csr.msi⟩) ∧
     (a.mode = .u → b.frame.occ = true) ∧
     (∀ r, b.getX r = a.getX r) ∧ b.p = a.p ∧ b.k = a.k ∧ b.sd = a.sd ∧ b.hold = a.hold ∧ b.claim = a.claim ∧
     b.csr.shape = a.csr.shape ∧ b.csr.fx = a.csr.fx ∧ b.csr.fd = a.csr.fd ∧ b.csr.vmroot = a.csr.vmroot ∧
     b.csr.instret = a.csr.instret ∧ SameMemory s t ∧ (∀ j, j ≠ s.cur → t.strand j = s.strand j)) ∧
  (∀ (s : State) (cause : Nat) (tval : Word) (vt : Bool),
     (s.me.trapFatal s.cur cause = true ↔
       s.me.frame.occ = true ∧ (s.me.queue ++ s.me.body ≠ [] ∨ (cause = 9 ∧ s.cur ≠ mgmtKey))) ∧
     (s.me.mode ≠ .m → cause ≠ 0x103 → (s.cur = mgmtKey → cause ≠ 9) → s.me.trapFatal s.cur cause = true →
       let b := (s.takeTrap ⟨cause, tval, none⟩ vt).strand s.cur
       (b.status = .free ∨ b.status = .dormant) ∧ b.hold = Hold.zero ∧ b.claim = Hold.zero ∧ b.queue = [] ∧ b.frame.occ = false))

/-- The instructions whose own effect is an exception. ECALL raises environment-call-from-U or -S, which the management core takes
in M mode (R307), with the ratified registers of that mode (PRESUMED, log 10); EBREAK raises breakpoint, or stray-breakpoint
where the partition's patch bit is set and the strand's debug enable is not; SFENCE.VMA raises illegal-instruction in every
mode, and so does MRET but in M mode on the management core; a fetch that fails and a word without meaning raise their
exceptions at the front (R57, R58, R60, R307, R387). -/
def Obligations.ExceptionInstructions : Prop :=
  ∀ (s : State) (rs rt : XReg) (va : Word) (cause : FetchCause) (w : Word) (long : Bool),
    (s.me.mode = .u → exec .ecall s = .next (s.takeTrap ⟨8, 0, none⟩ false)) ∧
    (s.me.mode = .s → exec .ecall s = .next (s.takeTrap ⟨9, 0, none⟩ false)) ∧
    (s.me.mode = .s → s.cur = mgmtKey → ∃ t, exec .ecall s = .next t ∧ t.me.mode = .m ∧ t.regs.mcsr.mcause = 9 ∧
      bits t.regs.mcsr.mepc 2 62 = bits s.me.pc 2 62 ∧ t.me.pc = setBits s.regs.mcsr.mtvec 0 2 0 ∧ SameMemory s t) ∧
    exec .ebreak s = .next (s.takeTrap
      ⟨if bit s.regs.dbgpatch (s.partOf s.cur % 16) = true ∧ bit s.me.csr.dbgctl 0 = false then 25 else 3, s.me.pc, none⟩ false) ∧
    exec (.sfenceVma rs rt) s = .next (s.takeTrap ⟨2, (Instr.sfenceVma rs rt).bits, none⟩ false) ∧
    (s.cur ≠ mgmtKey ∨ s.me.mode ≠ .m → exec .mret s = .next (s.takeTrap ⟨2, 0x30200073, none⟩ false)) ∧
    exec (.illegalInstruction w long) s = .next (s.takeTrap ⟨2, if long then w else w64 (w.toNat % 2 ^ 32), none⟩ false) ∧
    (∀ u t, s.fetchWord va.toNat = .error (u, t) → t.cause = fetchCode cause →
      exec (.instructionFetchFault va cause) s = .next (u.takeTrap t false))

/-- Returns. `tret`, and SRET with exactly its effect, restore the mode from SPP, SIE from SPIE, set SPIE and clear SPP, go to
`sepc`, and put the frame's entries back in order, the first at the frame's `vsi` and `msi`; the frame is empty afterwards. In U
mode they are illegal. MRET on the management core in M mode returns to the mode of MPP at `mepc`, as the ratified privileged
architecture has it (PRESUMED, log 10) (R60, R307, R322). -/
def Obligations.TrapReturns : Prop :=
  ∀ (s : State) (i : Instr), i = .tret ∨ i = .sret →
    (s.me.mode = .u → exec i s = .next (s.takeTrap ⟨2, i.bits, none⟩ false)) ∧
    (s.me.mode ≠ .u → ∃ t, exec i s = .next t ∧ OnlyStrand s.cur s t ∧
      let a := s.me
      let b := t.me
      b.pc = a.csr.sepc ∧ (b.mode = if bit a.csr.sstatus 8 then .s else .u) ∧
      bit b.csr.sstatus 1 = bit a.csr.sstatus 5 ∧ bit b.csr.sstatus 5 = true ∧ bit b.csr.sstatus 8 = false ∧
      (∀ n, n < 64 → n ≠ 1 → n ≠ 5 → n ≠ 8 → bit b.csr.sstatus n = bit a.csr.sstatus n) ∧
      b.queue ++ b.body = a.frame.entries ∧ b.frame = Frame.empty ∧
      (a.frame.entries ≠ [] → b.csr.vsi = a.frame.vsi ∧ b.csr.msi = a.frame.msi) ∧
      (∀ r, b.getX r = a.getX r) ∧ b.p = a.p ∧ b.k = a.k ∧ b.sd = a.sd ∧ b.hold = a.hold ∧ b.csr.sepc = a.csr.sepc ∧
      b.csr.scause = a.csr.scause ∧ b.csr.stval = a.csr.stval ∧ b.csr.svcp = a.csr.svcp ∧ b.csr.instret = a.csr.instret + 1) ∧
    (s.cur = mgmtKey → s.me.mode = .m → ∃ t, exec .mret s = .next t ∧ SameMemory s t ∧
      let m := s.regs.mcsr
      (t.me.mode = match bits m.mstatus 11 2 with | 0 => .u | 1 => .s | _ => .m) ∧ bits t.me.pc 2 62 = bits m.mepc 2 62 ∧
      bit t.regs.mcsr.mstatus 3 = bit m.mstatus 7 ∧ bit t.regs.mcsr.mstatus 7 = true ∧ bits t.regs.mcsr.mstatus 11 2 = 0 ∧
      (∀ r, t.me.getX r = s.me.getX r) ∧ t.me.csr.instret = s.me.csr.instret + 1)

/-! ### Resources, waits and groups -/

/-- `claim` of a vector within the pools by a strand that holds nothing sets its claim, and nothing else. `rel` of at most the
holding, with no block of it bound and nothing pending on its pages, gives up the highest-named blocks and tiles and the most
recently granted pages, whose blocks lose their contents; nothing but the strand and its core changes (R276, R277). `acq` and
`acq.try` of a vector within the claim. A grantable request that no fairness hold stands against is granted: under the next names
come the lowest blocks that no strand of the core holds, zeroed, tiles, Free ones first, and the lowest free pages, all that the
vector asks for. Else `acq` sleeps at the end of the core's banker queue, with its pc on it; `acq.try` never sleeps and answers 2
when short, 1 when unsafe or held off, changing nothing but the bank counters (R234, R277, R280; among Lazy tiles of one
pre-emption the lowest number first: log 106). A violated condition of `claim`,
`acq`, `acq.try` and `rel` traps with resource-operand, with nothing changed but by the trap, and the first failing condition in
the order 5, 1, 2, 3, 4, 6 as `stval` (R276). -/
def Obligations.ResourceInstructions : Prop :=
  (∀ (s : State) (rs : XReg), Hold.resv (s.getX rs) = 0 →
     let q := Hold.unpack (s.getX rs)
     let a := s.me
     let c := coreOf s.cur
     let nb := a.blocks.length - q.blocks
     let nt := a.tiles.length - q.tiles
     (q.le Hold.pool = true → a.hold = Hold.zero →
       ∃ t, exec (.claim rs) s = .next t ∧ ScalarDone s t { a with claim := q }) ∧
     (q.le a.hold = true → s.relBlockBound q = false → s.pagesBusy c (s.me.relPages q) = true →
       ∃ t, exec (.rel rs) s = .next t ∧ OnlyStrand s.cur s t ∧ t.me = { a with wait := .rel q, waitSince := s.cycles s.cur }) ∧
     (q.le a.hold = true → s.relBlockBound q = false → s.pagesBusy c (s.me.relPages q) = false →
       ∃ t, exec (.rel rs) s = .next t ∧ OnlyLocal s.cur s t ∧
         StrandDone s.cur s t { a with
           blocks := a.blocks.take nb, tiles := a.tiles.take nt, pages := a.pages.take (a.pages.length - q.pages) } ∧
         (∀ b ∈ a.blocks.drop nb, (t.core c).block b = Block.zero) ∧
         (∀ b, b ∉ a.blocks.drop nb → (t.core c).block b = (s.core c).block b) ∧
         (a.tiles.Nodup → ∀ n ∈ a.tiles.drop nt, (t.core c).tile n = ((s.core c).tile n).givenUp) ∧
         ∀ n, n ∉ a.tiles.drop nt → (t.core c).tile n = (s.core c).tile n)) ∧
  (∀ (s : State) (rd rs : XReg),
     let w := s.getX rs
     let q := Hold.unpack w
     let a := s.me
     let traps (i : Instr) (code : Nat) : Prop := exec i s = .next (s.takeTrap ⟨56, BitVec.ofNat 64 code, none⟩ false)
     (Hold.resv w ≠ 0 → traps (.claim rs) 5 ∧ traps (.acq rs) 5 ∧ traps (.acqTry rd rs) 5 ∧ traps (.rel rs) 5) ∧
     (Hold.resv w = 0 →
       (¬ (q.blocks ≤ 64 ∧ q.tiles ≤ 8 ∧ q.pages ≤ 64) → traps (.claim rs) 1) ∧
       (q.blocks ≤ 64 ∧ q.tiles ≤ 8 ∧ q.pages ≤ 64 → a.hold ≠ Hold.zero → traps (.claim rs) 2) ∧
       (¬ (a.hold.blocks + q.blocks ≤ a.claim.blocks ∧ a.hold.tiles + q.tiles ≤ a.claim.tiles ∧
           a.hold.pages + q.pages ≤ a.claim.pages) → traps (.acq rs) 3 ∧ traps (.acqTry rd rs) 3) ∧
       (¬ (q.blocks ≤ a.hold.blocks ∧ q.tiles ≤ a.hold.tiles ∧ q.pages ≤ a.hold.pages) → traps (.rel rs) 4) ∧
       (q.blocks ≤ a.hold.blocks → q.tiles ≤ a.hold.tiles → q.pages ≤ a.hold.pages → s.relBlockBound q = true → traps (.rel rs) 6))) ∧
  (∀ (s : State) (rd rs : XReg),
     let w := s.getX rs
     let q := Hold.unpack w
     let a := s.me
     let c := coreOf s.cur
     Hold.resv w = 0 → (a.hold.add q).le a.claim = true →
     let granted (t : State) (v : Strand → Strand) : Prop :=
       OnlyLocal s.cur s t ∧ ∃ bs ts ps, Grants s t c q bs ts ps ∧
         StrandDone s.cur s t (v { a with blocks := a.blocks ++ bs, tiles := a.tiles ++ ts, pages := a.pages ++ ps })
     (q = Hold.zero → (∃ t, exec (.acq rs) s = .next t ∧ ScalarDone s t a) ∧
       (NoLog s s.cur → ∃ t, exec (.acqTry rd rs) s = .next t ∧ granted t (fun b => b.setX rd 0))) ∧
     (q ≠ Hold.zero → s.grantable s.cur q = true → s.fairAgainst c s.cur = false →
       (∃ t, exec (.acq rs) s = .next t ∧ granted t id) ∧
       (NoLog s s.cur → ∃ t, exec (.acqTry rd rs) s = .next t ∧ granted t (fun b => b.setX rd 0))) ∧
     (q ≠ Hold.zero → s.grantable s.cur q = false ∨ s.fairAgainst c s.cur = true →
       (∃ t, exec (.acq rs) s = .next t ∧ OnlyLocal s.cur s t ∧
         t.me = { a with status := .asleep, wait := .acq q, waitSince := s.cycles s.cur } ∧
         t.core c = { s.core c with
           unsafeN := (s.core c).unsafeN + (if s.fits c q = true ∧ s.safeWith s.cur q = false then 1 else 0)
           bankq := (s.core c).bankq ++ [⟨.acq s.cur q, s.cycles s.cur⟩] }) ∧
       (NoLog s s.cur → ∃ t, exec (.acqTry rd rs) s = .next t ∧ OnlyLocal s.cur s t ∧
         StrandDone s.cur s t (a.setX rd (if s.fits c q then 1 else 2)) ∧
         t.core c = { s.core c with
           unsafeN := (s.core c).unsafeN + (if s.fits c q then 1 else 0)
           shortN := (s.core c).shortN + (if s.fits c q then 0 else 1) })))

/-- Waits. `kwait` with every waited token at zero passes when none has an error flag: it completes, and the core's L1 keeps no line that
overlaps a global destination counted on them; with an error flag it takes token-error with the flags as `stval` and clears them;
with a pending token it waits, its pc on it. The event of its passing does the same for any strand k that waits in `kwait`: it changes
nothing while a token is pending, passes without an error flag, and with one takes token-error with the flags cleared. `kpoll`
completes at once with the busy and error bits, and clears no flag (R133, R134). `waitpred` without a pending predecessor, and the
end of its wait, take an acquire point at package scope over both spaces; with one it waits (R300, R318). A `rel` that waits
completes once nothing pending touches its pages, and `tread.end` likewise (R122, R319). The events of strand k, which
need not have the turn, change nothing while what is waited for has not come, or while the strand's die does not run: a die in DS
(R367), in DF, or changing its state (the model's choice, log 63). -/
def Obligations.TokenWaits : Prop :=
  (∀ (s : State) (rd : XReg) (mask : BitVec 8),
    let a := s.me
    let c := coreOf s.cur
    let named (i : Reg8) : Prop := mask.getLsbD i.val = true
    ((∀ i : Reg8, named i → (a.k[i]).count = 0 ∧ (a.k[i]).err = false) →
      ∃ t, exec (.kwait mask) s = .next t ∧ OnlyLocal s.cur s t ∧ (∃ l, StrandDone s.cur s t { a with landed := l }) ∧ Fresh a mask (t.core c)) ∧
    ((∀ i : Reg8, named i → (a.k[i]).count = 0) → (∃ i : Reg8, named i ∧ (a.k[i]).err = true) →
      ∃ u : State, exec (.kwait mask) s = .next (u.takeTrap ⟨29, BitVec.ofNat 64 (a.tokErrs mask), none⟩ false) ∧
        OnlyStrand s.cur s u ∧ u.me = { a with k := u.me.k } ∧
        ∀ i : Reg8, u.me.k[i] = if mask.getLsbD i.val then ⟨(a.k[i]).count, false⟩ else a.k[i]) ∧
    ((∃ i : Reg8, named i ∧ (a.k[i]).count ≠ 0) →
      ∃ t, exec (.kwait mask) s = .next t ∧ OnlyStrand s.cur s t ∧
        t.me = { a with wait := .kwait mask, waitSince := s.cycles s.cur }) ∧
    (NoLog s s.cur → ∃ t v, exec (.kpoll rd mask) s = .next t ∧ OnlyLocal s.cur s t ∧
      (∃ l, StrandDone s.cur s t ({ a with landed := l }.setX rd v)) ∧ bits v 16 48 = 0 ∧
      ∀ i : Reg8, (bit v i.val = true ↔ named i ∧ (a.k[i]).count ≠ 0) ∧
        (bit v (i.val + 8) = true ↔ named i ∧ (a.k[i]).err = true)) ∧
    (s.predPending s.cur = false → ∃ t, exec .waitpred s = .next t ∧ OnlyLocal s.cur s t ∧
      (t.core (coreOf s.cur)).l1 = [] ∧ StrandDone s.cur s t s.me) ∧
    (s.predPending s.cur = true → ∃ t, exec .waitpred s = .next t ∧ OnlyStrand s.cur s t ∧
      t.me = { s.me with wait := .waitpred, waitSince := s.cycles s.cur })) ∧
  ∀ (s : State) (k : Nat) (q : Hold),
    let a := s.strand k
    let c := coreOf k
    let runs := s.haltedDie k = false
    (¬ runs → ∀ i, i ∈ [Instr.kwaitPass k, .waitpredEnd k, .relComplete k] → exec i s = .next s) ∧
    (∀ mask : BitVec 8, a.wait = .kwait mask →
      let named (i : Reg8) : Prop := mask.getLsbD i.val = true
      ((∃ i : Reg8, named i ∧ (a.k[i]).count ≠ 0) → exec (.kwaitPass k) s = .next s) ∧
      (runs → (∀ i : Reg8, named i → (a.k[i]).count = 0 ∧ (a.k[i]).err = false) →
        ∃ t, exec (.kwaitPass k) s = .next t ∧ OnlyLocal k s t ∧ (∃ l, StrandDone k s t { a with wait := .none, landed := l }) ∧
          Fresh a mask (t.core c)) ∧
      (runs → (∀ i : Reg8, named i → (a.k[i]).count = 0) → (∃ i : Reg8, named i ∧ (a.k[i]).err = true) →
        ∃ u : State, exec (.kwaitPass k) s =
            .next { u.takeTrap ⟨29, BitVec.ofNat 64 (a.tokErrs mask), none⟩ false with cur := s.cur } ∧
          u.cur = k ∧ OnlyStrand k { s with cur := k } u ∧ u.me = { a with wait := .none, k := u.me.k } ∧
          ∀ i : Reg8, u.me.k[i] = if mask.getLsbD i.val then ⟨(a.k[i]).count, false⟩ else a.k[i])) ∧
    (a.wait = .waitpred →
      (s.predPending k = true → exec (.waitpredEnd k) s = .next s) ∧
      (runs → s.predPending k = false → ∃ t, exec (.waitpredEnd k) s = .next t ∧ OnlyLocal k s t ∧ (t.core c).l1 = [] ∧
        StrandDone k s t { a with wait := .none })) ∧
    (a.wait = .rel q →
      (s.pagesBusy c (a.relPages q) = true → exec (.relComplete k) s = .next s) ∧
      (runs → s.pagesBusy c (a.relPages q) = false → ∃ t, exec (.relComplete k) s = .next t ∧ OnlyLocal k s t ∧
        StrandDone k s t { a with
          wait := .none, blocks := a.blocks.take (a.blocks.length - q.blocks),
          tiles := a.tiles.take (a.tiles.length - q.tiles), pages := a.pages.take (a.pages.length - q.pages) })) ∧
    (a.wait = .ending →
      (s.pagesBusy c a.pages = true → exec (.relComplete k) s = .next s) ∧
      (runs → s.pagesBusy c a.pages = false → ∃ t, exec (.relComplete k) s = .next t ∧ Ended t k ∧ SameMemory s t))

/-- Group barriers. A strand whose flight has no group table takes group-operand 0x300 + g, one outside a flight as well (log 27);
a group that is not used takes 0x000 + g; a strand that is no tread, or not a member, takes 0x100 + g. For a member: `garrive` without
an arrival in this generation completes with the generation in its register and its arrival counted; a second arrival in it takes
group-operand 0x200 + g. `gwait` on another generation than its ticket's completes at once, else it waits; `gbar` arrives and passes
when its arrival is the last one, and else waits on it. The wait's end completes the waiting strand once the generation has
stepped, with the L1 empty, and nothing before it, or on a die that does not run (R367; log 63). Where a wait passes, `gbar` clears
the strand's arrival bit, and `gwait` clears it if the arrival is that of its ticket; no other bit of the strand's groups changes
(R311, R312). What one arrival does to a group: it is counted, and the arrival that makes the count `required` steps the
generation modulo 2^32 and leaves the count 0 (R311). -/
def Obligations.GroupBarriers : Prop :=
  (∀ (s : State) (rd rs : XReg) (g : BitVec 8),
     let traps (code : Nat) : Prop := ∀ i ∈ [Instr.garrive rd g, .gwait rs g, .gbar g],
       exec i s = .next (s.takeTrap ⟨58, BitVec.ofNat 64 (code + g.toNat), none⟩ false)
     ((s.myFlight? = none ∨ ∃ f, s.myFlight? = some f ∧ f.grptab = 0) → traps 0x300) ∧
     ∀ f, s.myFlight? = some f → f.grptab ≠ 0 →
       (f.group? g.toNat = none → traps 0) ∧
       ∀ gr, f.group? g.toNat = some gr →
         (s.me.kind ≠ .tread ∨ s.me.tread ∉ gr.members → traps 0x100) ∧
         (s.me.kind = .tread → s.me.tread ∈ gr.members → s.groupCheck g.toNat = .ok (f, gr))) ∧
  (∀ (s : State) (rd rs : XReg) (g : BitVec 8) (f : Flight) (gr : Group), s.groupCheck g.toNat = .ok (f, gr) →
     let a := s.me
     let b := a.groupBit gr.g
     let c := coreOf s.cur
     let tick := bits (s.getX rs) 0 32
     let arrived : Strand := a.setGroupBit ⟨gr.g, true, gr.gen⟩
     (b.pv = true → b.pt = gr.gen →
       exec (.garrive rd g) s = .next (s.takeTrap ⟨58, BitVec.ofNat 64 (0x200 + gr.g), none⟩ false)) ∧
     (b.pv = false ∨ b.pt ≠ gr.gen → ∃ t, exec (.garrive rd g) s = .next t ∧
       StrandDoneR s.cur s t (arrived.setX rd (BitVec.ofNat 64 gr.gen)) ∧ OthersKeep c s.cur s t ∧
       SameMemoryBut c 0 0 s t ∧ (t.core c).wtq = [] ∧
       ∃ u, s.releasePoint s.cur .package = u ∧ t.flights = (u.setFlight (f.setGroup (gr.arrive a.tread))).flights) ∧
     (gr.gen ≠ tick → ∃ t gs, exec (.gwait rs g) s = .next t ∧ OnlyLocal s.cur s t ∧ (t.core c).l1 = [] ∧
       BitCleared a gs gr.g (b.pv = true ∧ b.pt = tick) ∧ StrandDone s.cur s t { a with wait := .none, groups := gs }) ∧
     (gr.gen = tick → ∃ t, exec (.gwait rs g) s = .next t ∧ OnlyStrand s.cur s t ∧
       t.me = { a with wait := .gwait gr.g gr.gen, waitSince := s.cycles s.cur }) ∧
     (b.pv = true → s.genOf s.cur gr.g ≠ some b.pt → ∃ t gs, exec (.gbar g) s = .next t ∧ OnlyLocal s.cur s t ∧
       (t.core c).l1 = [] ∧ BitCleared a gs gr.g True ∧ StrandDone s.cur s t { a with wait := .none, groups := gs }) ∧
     (b.pv = true → s.genOf s.cur gr.g = some b.pt → ∃ t, exec (.gbar g) s = .next t ∧ OnlyStrand s.cur s t ∧
       t.me = { a with wait := .gbar gr.g b.pt, waitSince := s.cycles s.cur }) ∧
     (b.pv = false → gr.count + 1 ≠ gr.required → ∃ t, exec (.gbar g) s = .next t ∧ OthersKeep c s.cur s t ∧
       SameMemoryBut c 0 0 s t ∧ (t.core c).wtq = [] ∧
       t.me = { arrived with resv := s.resvDrained c s.cur, wait := .gbar gr.g gr.gen, waitSince := s.cycles s.cur }) ∧
     (b.pv = false → gr.count + 1 = gr.required → ∃ t gs, exec (.gbar g) s = .next t ∧ OthersKeep c s.cur s t ∧
       SameMemoryBut c 0 0 s t ∧ (t.core c).wtq = [] ∧ (t.core c).l1 = [] ∧ BitCleared a gs gr.g True ∧
       StrandDoneR s.cur s t { a with wait := .none, groups := gs })) ∧
  (∀ (s : State) (k g tk : Nat) (bar : Bool),
     let a := s.strand k
     let runs := s.haltedDie k = false
     a.wait = (if bar then .gbar g tk else .gwait g tk) →
     (¬ runs ∨ s.genOf k g = some tk → exec (.barrierWaitEnd k) s = .next s) ∧
     (runs → s.genOf k g ≠ some tk → ∃ t gs, exec (.barrierWaitEnd k) s = .next t ∧ OnlyLocal k s t ∧ (t.core (coreOf k)).l1 = [] ∧
       BitCleared a gs g (bar = true ∨ ((a.groupBit g).pv = true ∧ (a.groupBit g).pt = tk)) ∧
       StrandDone k s t { a with wait := .none, groups := gs })) ∧
  (∀ (gr : Group) (n : Nat),
     (gr.count + 1 ≠ gr.required → (gr.arrive n).gen = gr.gen ∧ (gr.arrive n).count = gr.count + 1) ∧
     (gr.count + 1 = gr.required → (gr.arrive n).gen = (gr.gen + 1) % 2 ^ 32 ∧ (gr.arrive n).count = 0) ∧
     (gr.arrive n).g = gr.g ∧ (gr.arrive n).members = gr.members ∧ (gr.arrive n).required = gr.required)

/-! ### Flights' instructions, `vshape`, and the supervisor's instructions -/

/-- `fl.hint` completes; it marks the strand's flight when the flight lets successors start early and some launched flight follows
it, and else changes nothing more (R299, R317). `fl.launch` takes a release point; at 4,096 launched flights of the partition it
answers 8 and launches nothing; while a head is being elected it waits; otherwise a record that the head landing accepts joins
the launched flights and the answer is 0, and one that it rejects answers its code; the record's checks come in their order,
each with its code and detail (R286, R288, R289, R293, R303, R316; a misaligned one is not read at all: log 107). `tread.end` of
a tread whose tokens are 0 without error flags, with nothing of it in flight and nothing pending on its pages, completes: the
strand holds and claims nothing, its slot is Free, `instret` counted it, and every other strand is as before but for a
reservation that the release point's deliveries take. A strand that is not a tread takes message-operand 2; an error flag takes
token-error; a pending token leaves it waiting on its pc (R281, R319). -/
def Obligations.FlightInstructions : Prop :=
  (∀ (s : State) (rd rs : XReg),
     let c := coreOf s.cur
     let u := s.releasePoint s.cur .package
     let part := s.partOf s.cur
     let check := u.validate part (u.me.csr.vmroot &&& vmrootMask) (u.getX rs) none
     (∃ t, exec .flHint s = .next t ∧ StrandDone s.cur s t s.me ∧ t = { s with strands := t.strands, flights := t.flights } ∧
       (s.myFlight? = none → t.flights = s.flights) ∧
       (∀ f, s.myFlight? = some f →
         ((f.sms = true ∧ ∃ g ∈ s.flights, g.predId = some f.id) → t.flights = (s.setFlight { f with hinted := true }).flights) ∧
         (¬ (f.sms = true ∧ ∃ g ∈ s.flights, g.predId = some f.id) → t.flights = s.flights))) ∧
     (4096 ≤ s.flightCount part → ∃ t, exec (.flLaunch rd rs) s = .next t ∧ StrandDoneR s.cur s t (s.me.setX rd 8) ∧
       OthersKeep c s.cur s t ∧ t.flights = s.flights ∧ SameMemoryBut c 0 0 s t ∧ (t.core c).wtq = []) ∧
     (s.flightCount part < 4096 → s.elect = true → ∃ t, exec (.flLaunch rd rs) s = .next t ∧
       t.me = { s.me with resv := s.resvDrained c s.cur, wait := .again (Instr.flLaunch rd rs).bits } ∧ t.flights = s.flights ∧
       SameMemoryBut c 0 0 s t) ∧
     (s.flightCount part < 4096 → s.elect = false →
       (∀ f, check.2 = .ok f → ∃ t, exec (.flLaunch rd rs) s = .next t ∧ StrandDoneR s.cur s t (s.me.setX rd 0) ∧ t.nextId = s.nextId + 1 ∧
         (f.placed = true → t.flights = s.flights ++ [f] ∧ SameMemoryBut c 0 0 s t)) ∧
       (∀ e d r, check.2 = .error (e, d, r) → ∃ t v, exec (.flLaunch rd rs) s = .next t ∧
         StrandDone s.cur s t ({ s.me with resv := v }.setX rd (BitVec.ofNat 64 e)) ∧ t.flights = s.flights ∧ t.nextId = s.nextId))) ∧
  (∀ (s : State) (part : Nat) (root addr : Word) (cmd : Option (Nat × Nat)), LaunchChecked s part root addr cmd) ∧
  (∀ s : State,
     let a := s.me
     (a.kind ≠ .tread → exec .treadEnd s = .next (s.takeTrap ⟨55, 2, none⟩ false)) ∧
     (a.kind = .tread →
       ((∃ i : Reg8, (a.k[i]).count ≠ 0) → exec .treadEnd s = .next s) ∧
       ((∀ i : Reg8, (a.k[i]).count = 0) → (∃ i : Reg8, (a.k[i]).err = true) → ∃ t, exec .treadEnd s = .next t ∧
         ∃ u : State, t = u.takeTrap ⟨29, BitVec.ofNat 64 (a.tokErrs 0xFF), none⟩ false ∧ OnlyStrand s.cur s u ∧
           ∀ i : Reg8, u.me.k[i] = ⟨(a.k[i]).count, false⟩) ∧
       ((∀ i : Reg8, a.k[i] = ⟨0, false⟩) → s.inFlight s.cur = [] → s.pagesBusy (coreOf s.cur) a.pages = false →
         ∃ t, exec .treadEnd s = .next t ∧ OthersKeep (coreOf s.cur) s.cur s t ∧
           t.me.status = .free ∧ t.me.hold = Hold.zero ∧ t.me.claim = Hold.zero ∧ t.me.flight = none ∧
           t.me.csr.instret = a.csr.instret + 1 ∧ SameMemoryBut (coreOf s.cur) 0 0 s t)))

/-- `ckpt` by a tread whose tokens are 0, with no port bound, no capture, no Bound tile, and a step above its current one
completes: the step is the tread's, no written line is left over, and pc and `instret` advance; outside a flight, or where the
partition has no pools or no pair left (log 28, log 84), nothing else of the strand changes; else, with no uncorrectable error in
the state, the flight's landing holds the tread's step, in the half of its pair that did not hold the former one (R320, R343,
R344). The violated conditions trap with checkpoint-operand and their code (R320). -/
def Obligations.Checkpoint : Prop :=
  ∀ (s : State) (rs : XReg),
    let a := s.me
    let c := coreOf s.cur
    let step := (s.getX rs).toNat
    let idle := (∀ i : Reg8, (a.k[i]).count = 0)
    let traps (code : Nat) : Prop := exec (.ckpt rs) s = .next (s.takeTrap ⟨59, BitVec.ofNat 64 code, none⟩ false)
    (a.kind ≠ .tread → traps 4) ∧
    (a.kind = .tread → ¬ idle → traps 1) ∧
    (a.kind = .tread → idle → s.noStreams = false → traps 2) ∧
    (a.kind = .tread → idle → s.noStreams = true → a.replay.cap = true → traps 3) ∧
    (a.kind = .tread → idle → s.noStreams = true → a.replay.cap = false → step ≤ a.ckptStep → traps 5) ∧
    (a.kind = .tread → idle → s.noStreams = true → a.replay.cap = false → a.ckptStep < step →
      s.needTiles (List.range a.tiles.length) = .ok () →
      let kept (f : Flight) := f.ckpts.find? fun ck => ck.tread == a.tread
      ((s.myFlight? = none ∨ ∃ f, s.myFlight? = some f ∧
          ((s.part f.part).pools = false ∨ (kept f = none ∧ s.takePair f.part = none))) →
        ∃ t, exec (.ckpt rs) s = .next t ∧ StrandDoneR s.cur s t { a with ckptStep := step, written := [] } ∧
          OthersKeep c s.cur s t ∧ SameMemoryBut c 0 0 s t) ∧
      (∀ f, s.myFlight? = some f → (s.part f.part).pools = true → kept f ≠ none ∨ s.takePair f.part ≠ none →
        s.bad = [] → s.myCore.badRows = [] → s.myCore.badTiles = [] → s.myCore.badWins = [] →
        ∃ t, exec (.ckpt rs) s = .next t ∧ t.me.ckptStep = step ∧ t.me.pc = a.pc + 4 ∧ t.me.csr.instret = a.csr.instret + 1 ∧
          ∃ g ∈ t.flights, g.id = f.id ∧ ∃ ck ∈ g.ckpts, ck.tread = a.tread ∧ ck.step = step ∧
            ∀ old, kept f = some old → ck.pair = old.pair ∧ ck.half = 1 - old.half))

/-- `vshape` grants min(x[rr], 16) rows of min(x[rc], lim(ty)) elements, keeps the type and its container width, and answers the
new `shape`[28:0]; the upper fields of `shape` stay. With `srbase.en` = 0 nothing else of the package changes. A gf type whose
descriptor is invalid takes bad-format with its number (R38, R168, R172, R191). -/
def Obligations.VshapeGrants : Prop :=
  ∀ (s : State) (ty : ElemTy) (rd rr rc : XReg),
    let a := s.me
    let w := containerBits a.csr.fd ty
    (∀ k, ty = .gf k → fdValid a.csr.fd[k] = false →
      exec (.vshape ty rd rr rc) s = .next (s.takeTrap ⟨48, BitVec.ofNat 64 k.val, none⟩ false)) ∧
    ((∀ k, ty = .gf k → fdValid a.csr.fd[k] = true) →
      ∃ t sh, exec (.vshape ty rd rr rc) s = .next t ∧ t.me.csr.shape = sh ∧ t.me.gw = w ∧
        t.me.pc = a.pc + 4 ∧ t.me.csr.instret = a.csr.instret + 1 ∧
        t.me.getX rd = (if rd = 0 then 0 else BitVec.ofNat 64 (bits sh 0 29)) ∧
        grantRows sh = min (s.getX rr).toNat 16 ∧ grantLen sh = min (s.getX rc).toNat (4096 / w) ∧ bits sh 24 5 = ty.code ∧
        bits sh 29 35 = bits a.csr.shape 29 35 ∧
        (bit a.csr.srbase 4 = false →
          ScalarDone s t ({ a with csr := { a.csr with shape := sh }, gw := w }.setX rd (BitVec.ofNat 64 (bits sh 0 29)))))

/-- `ctx.save` completes outside U mode. In frame mode it writes the frame record of R421 at the named place, in the loft or in
memory, and nowhere else, and empties the frame. Otherwise it pre-empts another Running or Asleep strand of the core whose
pre-emption nothing defers, where no uncorrectable error lies: the target is Saved at the named places under its tag, holding
nothing, its Held tiles are Lazy for that tag, and of the executing strand the pc and `instret` advance and no x register
changes. `ctx.load` of a record that R341 accepts queues the request of R282, before which a landing's request for the same
context gives way, and completes; in frame mode, with an empty frame, it refills the frame with the record's entries, its `vsi`
and its `msi`, and writes CSR `svcp` (R281, R323, R324, R325). A record whose register part cannot be read ends the context that
is Saved at that place, R332's case 3, or takes code 7 where none is (log 39). `tlb.inv` that nothing with a matching
translation holds up completes, and leaves in every TLB no entry that its mode names, and no pointer entry. `trace.ctl`
completes; off and on set `srbase.en` of its targets alone (R161, R326, R327). `ctx.save`, `ctx.load`, `tlb.inv` and `trace.ctl`
are illegal in U mode; elsewhere a violated condition takes system-operand with the code of the first one (R321, R323, R326,
R327). -/
def Obligations.SupervisorInstructions : Prop :=
  (∀ (s : State) (xv xc : XReg),
    let a := s.me
    let w := s.getX xc
    let va := (s.getX xv).toNat
    let md := bits w 0 2
    a.mode ≠ .u →
    (bits w 2 46 = 0 → md < 2 → va / 2 ^ 56 ≠ 0 → va / 2 ^ 56 ≠ 255 →
      exec (.tlbInv xv xc) s = .next (s.takeTrap ⟨60, 1, none⟩ false)) ∧
    (bits w 2 46 = 0 → (md < 2 → va / 2 ^ 56 = 0 ∨ va / 2 ^ 56 = 255) → s.pinHeld (Pin.matched md (bits w 48 16) va) = false →
      ∃ t, exec (.tlbInv xv xc) s = .next t ∧ t.me.pc = a.pc + 4 ∧
        ∀ n, (∀ e ∈ (t.core n).tlb, e.matched md (bits w 48 16) va = false) ∧
          (∀ e ∈ (t.die n).tlb, e.matched md (bits w 48 16) va = false) ∧ (t.die n).ptrs = []) ∧
    (bits w 7 57 = 0 → bits w 4 2 ≠ 3 → (bit w 6 = true → bits w 0 4 = 0) →
      ∃ t, exec (.traceCtl xc) s = .next t ∧ t.me.pc = a.pc + 4 ∧ t.me.csr.instret = a.csr.instret + 1 ∧
        (bits w 4 2 ≠ 2 → SameMemory s t ∧ ∀ k,
          let hit := if bit w 6 then k ∈ strandsOf (coreOf s.cur) else k = 16 * coreOf s.cur + bits w 0 4
          (hit → bit (t.strand k).csr.srbase 4 = decide (bits w 4 2 = 1)) ∧
          (¬ hit → (t.strand k).csr.srbase = (s.strand k).csr.srbase) ∧
          ∀ n, n ≠ 4 → n < 64 → bit (t.strand k).csr.srbase n = bit (s.strand k).csr.srbase n))) ∧
  (∀ (s : State) (xc xa : XReg),
     let a := s.me
     let w := s.getX xc
     let adr := (s.getX xa).toNat
     let c := coreOf s.cur
     let k := 16 * c + bits w 0 4
     let place : SaveAt := if bit w 5 then ⟨some (bits w 12 8 * 0x1000), 0, adr, none⟩ else ⟨none, adr, adr + regPart, none⟩
     -- entry i of a frame record
     let entryAt (bs : List Byte) (i : Nat) (e : Entry) : Prop :=
       let f (j : Nat) : Nat := recN bs (0x40 + 48 * i + 8 * j) 8
       f 0 = e.enc.toNat ∧ f 1 = e.addr.toNat ∧ f 2 = e.x1.toNat ∧ f 3 = e.x2.toNat ∧ f 4 = e.x3.toNat ∧ f 5 = e.x4.toNat
     let record (bs : List Byte) : Prop :=
       let n := a.frame.entries.length
       recN bs 0 4 = 0xB901 ∧ recN bs 4 4 = n ∧ recN bs 8 8 = 0x400 ∧ recN bs 0x10 8 = a.frame.vsi.toNat ∧
         recN bs 0x18 8 = a.frame.msi.toNat ∧ recN bs 0x20 8 = a.csr.svcp.toNat ∧ recN bs 0x28 0x18 = 0 ∧
         (∀ (i : Nat) (e : Entry), a.frame.entries[i]? = some e → entryAt bs i e) ∧ recN bs (0x40 + 48 * n) (0xFC0 - 48 * n) = 0
     a.mode ≠ .u → ctxOperand w (s.getX xa) = none → (bit w 5 = true → (s.core c).loftImg = none) →
     (bit w 6 = true → k = s.cur → a.frame.entries.length ≤ 40 →
       ∃ t r, exec (.ctxSave xc xa) s = .next t ∧ StrandDone s.cur s t { a with frame := Frame.empty, resv := r } ∧
         (bit w 5 = true → SameMemory s t ∧ record (memRead (t.core c).loft (bits w 12 8 * 0x1000) 0x1000)) ∧
         (bit w 5 = false → record (memRead t.mem adr 0x1000) ∧ SameMemoryBut c adr 0x1000 s t ∧ (t.core c).loft = (s.core c).loft)) ∧
     (bit w 6 = true → k = s.cur → a.frame.occ = false → (s.core c).wtq = [] → ∀ bs, s.regPartRead c place 0 0x1000 = some bs →
       (s.frameOk bs = true ↔ recN bs 0 4 = 0xB901 ∧ recN bs 8 8 = 0x400 ∧ recN bs 4 1 ≤ 40 ∧ recN bs 5 3 = 0 ∧ recN bs 0x28 0x18 = 0 ∧
         recN bs 0x7C0 0x840 = 0 ∧ ∀ i, i < recN bs 4 1 → let e := recN bs (0x40 + 48 * i) 8
           e % 128 = 0x3F ∧ ∃ j, decode64 e = .ok j ∧ s.offered j = true) ∧
       (s.frameOk bs = false → ∃ u, Noted s u ∧ exec (.ctxLoad xc xa) s = .next (u.takeTrap ⟨60, 7, none⟩ false)) ∧
       (s.frameOk bs = true → ∃ t fr, exec (.ctxLoad xc xa) s = .next t ∧ fr.occ = true ∧ fr.entries.length = recN bs 4 1 ∧
         (∀ (i : Nat) (e : Entry), fr.entries[i]? = some e → entryAt bs i e) ∧ fr.vsi = BitVec.ofNat 64 (recN bs 0x10 8) &&& 0xFFFC0 ∧
         fr.msi = BitVec.ofNat 64 (recN bs 0x18 8) &&& 0xFF07 ∧ SameMemory s t ∧
         StrandDone s.cur s t { a with frame := fr, csr := a.csr.write 0x5C2 (BitVec.ofNat 64 (recN bs 0x20 8)) })) ∧
     (bit w 6 = false → k ≠ s.cur → s.isLive k = true → s.preemptDeferred k = false → s.bad = [] → (s.core c).badRows = [] →
       let b := s.strand k
       let tag := tagOf k b.tagCount
       ∃ t, exec (.ctxSave xc xa) s = .next t ∧ t.me.pc = a.pc + 4 ∧ t.me.csr.instret = a.csr.instret + 1 ∧
         (∀ r, t.me.getX r = a.getX r) ∧ (t.strand k).status = .saved ∧ (t.strand k).hold = Hold.zero ∧
         (t.strand k).claim = Hold.zero ∧ (t.strand k).saveAt = some place ∧ (t.strand k).savedTag = tag ∧
         (t.strand k).tread = b.tread ∧ (t.strand k).flight = b.flight ∧
         (b.tiles.Nodup → ∀ n ∈ b.tiles, ((s.core c).tile n).st = .held →
           ((t.core c).tile n).st = .lazy tag (s.core c).ord ∧ ((t.core c).tile n).data = ((s.core c).tile n).data)) ∧
     (∀ bs u, bit w 6 = false → s.freeStrand k = true → (s.core c).wtq = [] → s.regPartRead c place 0 fixedSize = some bs →
       let v := s.noteRecord c place 0 fixedSize
       Noted s v ∧ (v.loadRecord k place bs = some u →
         ∃ t, exec (.ctxLoad xc xa) s = .next t ∧ ScalarDone u t u.me ∧ SameMemory s t ∧ (∀ r, t.me.getX r = a.getX r) ∧
           ∃ sv, (t.strand sv).saveAt = some place ∧
             (t.core c).bankq = ((s.core c).bankq.filter fun w => !w.isResumeOf sv) ++ [⟨.resume sv k true, s.cycles k⟩])) ∧
     (bit w 6 = false → s.freeStrand k = true → (s.core c).wtq = [] → s.regPartRead c place 0 fixedSize = none →
       let v := s.noteRecord c place 0 fixedSize
       let here (e : Nat × Strand) : Prop := e.2.status = .saved ∧ ∃ p, e.2.saveAt = some p ∧ p.place (coreOf e.1) = place.place c
       ((∀ e ∈ s.strands, ¬ here e) → exec (.ctxLoad xc xa) s = .next (v.takeTrap ⟨60, 7, none⟩ false)) ∧
       (∀ l e m, s.strands = l ++ e :: m → (∀ d ∈ l, ¬ here d) → here e → exec (.ctxLoad xc xa) s = .next (v.endSaved e.1 true).retire))) ∧
  (∀ (s : State) (xc xa : XReg),
     let a := s.me
     let w := s.getX xc
     let k := 16 * coreOf s.cur + bits w 0 4
     let f := bit w 6
     let traps (i : Instr) (code : Nat) : Prop := exec i s = .next (s.takeTrap ⟨60, BitVec.ofNat 64 code, none⟩ false)
     (a.mode = .u → ∀ i, i ∈ [Instr.ctxSave xc xa, .ctxLoad xc xa, .tlbInv xa xc, .traceCtl xc] →
       exec i s = .next (s.takeTrap ⟨2, i.bits, none⟩ false)) ∧
     (a.mode ≠ .u →
       (bits w 20 44 ≠ 0 ∨ bits w 7 5 ≠ 0 ∨ bit w 4 = true ∨ 188 < bits w 12 8 → traps (.ctxSave xc xa) 1 ∧ traps (.ctxLoad xc xa) 1) ∧
       (bits w 20 44 = 0 → bits w 7 5 = 0 → bit w 4 = false → bits w 12 8 ≤ 188 → (s.getX xa).toNat % 0x1000 ≠ 0 →
         traps (.ctxSave xc xa) 2 ∧ traps (.ctxLoad xc xa) 2) ∧
       (bits w 20 44 = 0 → bits w 7 5 = 0 → bit w 4 = false → bits w 12 8 ≤ 188 → (s.getX xa).toNat % 0x1000 = 0 →
         let size := if f then 0x1000 else if bit w 5 then pagePart else slotSize
         if f = true ∧ bit w 5 = true then ctxOperand w (s.getX xa) = none
         else if hbmTop < (s.getX xa).toNat + size then traps (.ctxSave xc xa) 2 ∧ traps (.ctxLoad xc xa) 2
         else ctxOperand w (s.getX xa) = none) ∧
       (ctxOperand w (s.getX xa) = none →
         (f = false → k = s.cur ∨ (s.strand k).status = .free ∨ (s.strand k).status = .dormant ∨ (s.strand k).status = .saved →
           traps (.ctxSave xc xa) 3) ∧
         (f = false → (s.strand k).status ≠ .free → traps (.ctxLoad xc xa) 4) ∧
         (f = true → k ≠ s.cur → traps (.ctxSave xc xa) 5 ∧ traps (.ctxLoad xc xa) 5) ∧
         (f = true → k = s.cur → a.frame.occ = true → traps (.ctxLoad xc xa) 6)) ∧
       (bits w 2 46 ≠ 0 → traps (.tlbInv xa xc) 1) ∧
       (bits w 7 57 ≠ 0 ∨ bits w 4 2 = 3 ∨ (bit w 6 = true ∧ bits w 0 4 ≠ 0) → traps (.traceCtl xc) 1)))

/-! ### Numbers (R31 to R55, R192 to R195) -/

/-- Number formats and their arithmetic on exact values. The named formats have R32's parameters. A code decodes by R33, a subnormal
input under DAZ as a zero (R40); the largest finite code bounds every finite one. A value that is not zero, nor negative for an
unsigned format, is rounded as R41 says, `RoundsTo`, with R42's table on overflow; the special inputs go by R41, R43 and R44.
Products, quotients, and sums of finite values are exact, a zero has the sign of R44 or of its factors, NaN and infinities go by
R46, R49 and R192; comparisons and extremes are those of the values, with -0 below +0 for an extreme. A square root is rounded
once; the estimates have 8 bits (R194, R195). Integers come from a value by R52 and are narrowed by R54 and R190. A block is
packed by R55; a format whose largest finite value is 0 counts there as of exponent 0 (the model's choice, log 80). -/
def Obligations.NumberFormats : Prop :=
  (∀ fd : Vector Word 4,
     fmtOf fd .f32 = some ⟨1, 8, 23, 127, .ieee, true⟩ ∧ fmtOf fd .f16 = some ⟨1, 5, 10, 15, .ieee, true⟩ ∧
     fmtOf fd .bf16 = some ⟨1, 8, 7, 127, .ieee, true⟩ ∧ fmtOf fd .e4m3 = some ⟨1, 4, 3, 7, .nanTop, false⟩ ∧
     fmtOf fd .e5m2 = some ⟨1, 5, 2, 15, .ieee, false⟩ ∧ fmtOf fd .e2m1 = some ⟨1, 2, 1, 1, .finite, false⟩ ∧
     fmtOf fd .mxf8 = fmtOf fd .e4m3 ∧ fmtOf fd .mxf4 = fmtOf fd .e2m1 ∧
     ∀ k : Fin 4, fmtOf fd (.gf k) = some ⟨bits fd[k] 0 1, bits fd[k] 4 4, bits fd[k] 8 4, bits fd[k] 16 8,
       if bits fd[k] 24 2 = 0 then .finite else if bits fd[k] 24 2 = 1 then .nanTop else .ieee, false⟩) ∧
  (∀ (f : Fmt) (a : Arithm), 1 ≤ f.ew → f.ew ≤ 8 → f.mw ≤ 23 → f.s ≤ 1 →
     let top := 2 ^ f.ew - 1
     let hasInf : Prop := f.spec = .ieee
     let hasNan : Prop := f.spec = .nanTop ∨ (f.spec = .ieee ∧ 1 ≤ f.mw)
     let nanCode := if f.spec = .nanTop then 2 ^ (f.ew + f.mw) - 1 else top * 2 ^ f.mw + 2 ^ (f.mw - 1)
     let infCode := top * 2 ^ f.mw
     (∀ code : Nat, let m : Nat := code % 2 ^ f.mw
       let e : Nat := code / 2 ^ f.mw % 2 ^ f.ew
       let neg := f.s = 1 ∧ code / 2 ^ (f.ew + f.mw) % 2 = 1
       let sg : ℚ := if neg then -1 else 1
       let x := f.decode code
       (e = 0 → m = 0 → x = .zero (decide neg)) ∧
       (e = 0 → m ≠ 0 → x.Finite ∧ x.rat = sg * 2 ^ (1 - (f.bias : ℤ)) * ((m : ℚ) / 2 ^ f.mw)) ∧
       (0 < e → e < top ∨ f.spec = .finite ∨ (f.spec = .nanTop ∧ m ≠ 2 ^ f.mw - 1) →
         x.Finite ∧ x.rat = sg * 2 ^ ((e : ℤ) - f.bias) * (1 + (m : ℚ) / 2 ^ f.mw)) ∧
       (e = top → f.spec = .ieee → x = if m = 0 then .inf (decide neg) else .nan) ∧
       (e = top → f.spec = .nanTop → m = 2 ^ f.mw - 1 → x = .nan) ∧
       ∀ daz, f.input daz code = if daz = true ∧ f.flush = true ∧ e = 0 ∧ m ≠ 0 then .zero (decide neg) else x) ∧
     (f.maxCode < 2 ^ (f.ew + f.mw) ∧ (f.decode f.maxCode).Finite ∧
       ∀ c, (f.decode c).Finite → (f.decode c).rat ≤ (f.decode f.maxCode).rat) ∧
     (∀ n d e, n ≠ 0 → d ≠ 0 → (f.s = 0 → 0 < n) → RoundsTo f a ((Machine.Num.real n d e).rat : ℝ) (roundFmt f a (.real n d e))) ∧
     (f.s = 0 → roundFmt f a (.inf true) = (0, flagNV) ∧ ∀ n d e, n < 0 → roundFmt f a (.real n d e) = (0, flagNV)) ∧
     (∀ neg, roundFmt f a (.zero neg) = (f.signed neg 0, 0)) ∧
     (hasNan → roundFmt f a .nan = (nanCode, 0)) ∧ (¬ hasNan → roundFmt f a .nan = (0, flagNV)) ∧
     (∀ neg, f.s = 1 ∨ neg = false →
       (hasInf → roundFmt f a (.inf neg) = (f.signed neg infCode, 0)) ∧
       (¬ hasInf → hasNan → a.sat = false → roundFmt f a (.inf neg) = (nanCode, flagNV)) ∧
       (¬ hasInf → ¬ hasNan ∨ a.sat = true → roundFmt f a (.inf neg) = (f.signed neg f.maxCode, flagNV))) ∧
     (∀ (neg : Bool) (rm : Rm) (sat : Bool),
       let away : Prop := sat = false ∧ (rm = .rne ∨ rm = .rmm ∨ (rm = .rup ∧ neg = false) ∨ (rm = .rdn ∧ neg = true))
       (away → hasInf → overflow f neg rm sat = f.signed neg infCode) ∧
       (away → ¬ hasInf → hasNan → overflow f neg rm sat = nanCode) ∧
       (¬ away ∨ (¬ hasInf ∧ ¬ hasNan) → overflow f neg rm sat = f.signed neg f.maxCode)) ∧
     (∀ n e, 0 < n → RoundsTo f a (Real.sqrt ((Machine.Num.real n 1 e).rat : ℝ)) (roundFmt f a (numSqrt (.real n 1 e)).1)) ∧
     ∀ xs : List Machine.Num,
       let pk := packBlock f a.rm xs
       let maxfin : ℝ := ((f.decode f.maxCode).rat : ℝ)
       ((∃ x ∈ xs, x = .nan ∨ ∃ z, x = .inf z) → (hasNan → pk = (255, xs.map fun _ => (0, 0), 0)) ∧
         (¬ hasNan → pk = (255, xs.map fun _ => (0, 0), flagNV))) ∧
       ((∀ x ∈ xs, ∃ z, x = .zero z) → pk = (0, xs.map fun x => (f.signed x.isNeg 0, 0), 0)) ∧
       ((∀ x ∈ xs, x.Finite) → ∀ y ∈ xs, (∀ x ∈ xs, |x.rat| ≤ |y.rat|) → y.rat ≠ 0 →
         let emax : ℤ := if maxfin = 0 then 0 else Int.log 2 maxfin
         let sc : ℤ := max (-127) (min 127 (Int.log 2 |y.rat| - emax))
         pk = ((sc + 127).toNat, xs.map fun x => roundFmt f ⟨a.rm, true, false, false⟩ (x.scale (-sc)), 0))) ∧
  (∀ (x y : Machine.Num) (k : ℤ) (n : ℤ), x.Finite → y.Finite →
     let sg := x.isNeg != y.isNeg
     let p := (x.mul y).1
     let q := (numDiv x y).1
     (x.isNeg = true ↔ x.rat < 0 ∨ x = .zero true) ∧
     ((x.mul y).2 = 0 ∧ p.Finite ∧ p.rat = x.rat * y.rat ∧ p.isNeg = sg) ∧
     (y.rat ≠ 0 → (numDiv x y).2 = 0 ∧ q.Finite ∧ q.rat = x.rat / y.rat ∧ q.isNeg = sg) ∧
     (y.rat = 0 → numDiv x y = if x.rat = 0 then (.nan, flagNV) else (.inf sg, flagDZ)) ∧
     (x.neg.Finite ∧ x.neg.rat = -x.rat ∧ x.neg.isNeg = !x.isNeg) ∧ ((x.scale k).Finite ∧ (x.scale k).rat = x.rat * 2 ^ k) ∧
     ((Machine.Num.ofInt n 0).Finite ∧ (Machine.Num.ofInt n 0).rat = n ∧ (n = 0 → Machine.Num.ofInt n 0 = .zero false)) ∧
     (Machine.Num.lt false x y = true ↔ x.rat < y.rat) ∧ (Machine.Num.eqv x y = true ↔ x.rat = y.rat) ∧
     (∀ larger, Machine.Num.pick larger x y ∈ [x, y] ∧ (Machine.Num.pick larger x y).rat = if larger then max x.rat y.rat else min x.rat y.rat) ∧
     (∀ a b, Machine.Num.pick true (.zero a) (.zero b) = .zero (a && b) ∧ Machine.Num.pick false (.zero a) (.zero b) = .zero (a || b))) ∧
  (∀ (rm : Rm) (ts : List Machine.Num), let r := sumExact rm ts
     ((∀ t ∈ ts, t.Finite) → r.2 = 0 ∧ r.1.Finite ∧ r.1.rat = (ts.map Machine.Num.rat).sum ∧
       (r.1.rat = 0 → r.1 = .zero (if ∀ t ∈ ts, t = .zero false then false else if ∀ t ∈ ts, t = .zero true then true else rm == .rdn))) ∧
     (let both : Prop := .inf false ∈ ts ∧ .inf true ∈ ts
      (.nan ∈ ts ∨ both → r.1 = .nan ∧ (both → r.2 = flagNV) ∧ (¬ both → r.2 = 0)) ∧
      (∀ z, .nan ∉ ts → .inf z ∈ ts → .inf (!z) ∉ ts → r = (.inf z, 0)))) ∧
  (∀ (x : Machine.Num) (z w : Bool),
     x.mul .nan = (.nan, 0) ∧ Machine.Num.mul .nan x = (.nan, 0) ∧ numDiv x .nan = (.nan, 0) ∧ numDiv .nan x = (.nan, 0) ∧
     (∀ l, Machine.Num.pick l x .nan = .nan ∧ Machine.Num.pick l .nan x = .nan) ∧
     Machine.Num.mul (.inf z) (.zero w) = (.nan, flagNV) ∧ Machine.Num.mul (.zero w) (.inf z) = (.nan, flagNV) ∧
     Machine.Num.mul (.inf z) (.inf w) = (.inf (z != w), 0) ∧ numDiv (.inf z) (.inf w) = (.nan, flagNV) ∧
     (x.Finite → (x.rat ≠ 0 → Machine.Num.mul (.inf z) x = (.inf (z != x.isNeg), 0) ∧ x.mul (.inf z) = (.inf (x.isNeg != z), 0)) ∧
       numDiv (.inf z) x = (.inf (z != x.isNeg), 0) ∧ numDiv x (.inf z) = (.zero (x.isNeg != z), 0) ∧
       Machine.Num.lt false x (.inf z) = !z ∧ Machine.Num.lt false (.inf z) x = z) ∧
     (x ≠ .nan → Machine.Num.pick true x (.inf false) = .inf false ∧ Machine.Num.pick false x (.inf true) = .inf true ∧
       Machine.Num.pick true (.inf true) x = x ∧ Machine.Num.pick false (.inf false) x = x ∧ Machine.Num.pick true (.inf false) x = .inf false ∧
       Machine.Num.pick false (.inf true) x = .inf true ∧ Machine.Num.pick true x (.inf true) = x ∧ Machine.Num.pick false x (.inf false) = x) ∧
     numSqrt .nan = (.nan, 0) ∧ numSqrt (.zero z) = (.zero z, 0) ∧ numSqrt (.inf false) = (.inf false, 0) ∧
     numSqrt (.inf true) = (.nan, flagNV) ∧ (∀ n d e, n < 0 → numSqrt (.real n d e) = (.nan, flagNV) ∧ numRsqe (.real n d e) = (.nan, flagNV)) ∧
     numRece .nan = (.nan, 0) ∧ numRece (.zero z) = (.inf z, flagDZ) ∧ numRece (.inf z) = (.zero z, 0) ∧
     numRsqe .nan = (.nan, 0) ∧ numRsqe (.zero z) = (.inf z, flagDZ) ∧ numRsqe (.inf false) = (.zero false, 0) ∧
     numRsqe (.inf true) = (.nan, flagNV)) ∧
  (∀ (n : Int) (d : Nat) (e : Int) (w : Nat) (sg : Bool) (rm : Rm) (sat : Bool), n ≠ 0 → d ≠ 0 → 1 ≤ w →
     let x : ℝ := ((Machine.Num.real n d e).rat : ℝ)
     -- an estimate of 8 bits of v
     let est (v : ℝ) (r : Machine.Num × Nat) (neg : Bool) : Prop := ∃ m : ℤ, RoundInt .rne false (v / 2 ^ (Int.log 2 v - 7)) m ∧ r.2 = 0 ∧
       r.1.Finite ∧ (r.1.rat : ℝ) = (if neg then -1 else 1) * m * 2 ^ (Int.log 2 v - 7)
     let lo : Int := if sg then -(2 ^ (w - 1)) else 0
     let hi : Int := if sg then 2 ^ (w - 1) - 1 else 2 ^ w - 1
     let code (v : Int) : Nat := (Int.emod v (2 ^ w)).toNat
     est (1 / |x|) (numRece (.real n d e)) (decide (n < 0)) ∧
     (0 < n → d = 1 → est (1 / Real.sqrt x) (numRsqe (.real n d e)) false) ∧
     (∃ m : ℤ, RoundInt rm (decide (n < 0)) |x| m ∧
       let v : ℤ := if n < 0 then -m else m
       (v < lo → toInt w sg rm (.real n d e) = (code lo, flagNV)) ∧ (hi < v → toInt w sg rm (.real n d e) = (code hi, flagNV)) ∧
       (lo ≤ v → v ≤ hi → ((m : ℝ) = |x| → toInt w sg rm (.real n d e) = (code v, 0)) ∧
         ((m : ℝ) ≠ |x| → toInt w sg rm (.real n d e) = (code v, flagNX)))) ∧
     (∀ z, toInt w sg rm (.zero z) = (0, 0) ∧ toInt w sg rm (.inf z) = (code (if z then lo else hi), flagNV)) ∧
     toInt w sg rm .nan = (0, flagNV) ∧ narrowInt w sg sat n = fitInt w sg sat n ∧
     ∀ c, intVal w true c = BitVec.toInt (BitVec.ofNat w c) ∧ intVal w false c = (c % 2 ^ w : Nat))

/-! ### Vector arithmetic (R186 to R211) -/

/-- The thirteen two-operand instructions, on every type that each accepts, complete when their checks pass and no performed
element raises an enabled event: each performed element takes the operation on the elements at its position. On integers of w
bits: sums, differences and products modulo 2^w, or saturated when `shape.sat` is set; the high half of a product; quotients
truncated, all ones for a zero divisor; minimum and maximum; the bitwise forms; shifts by the low log2 w bits. On floating types
the exact sum, difference, product or quotient, or the smaller or larger value, is rounded once to the type (R190, R192, R193);
`NumberFormats` says what each of these is. -/
def Obligations.VectorTwoOperand : Prop :=
  ∀ (s : State) (o : V3) (i : Instr) (op : Op2),
    (i, op) ∈ [(Instr.vadd o, Op2.add), (.vsub o, .sub), (.vmul o, .mul), (.vmulh o, .mulh), (.vdiv o, .div), (.vmin o, .min),
      (.vmax o, .max), (.vand o, .and), (.vor o, .or), (.vxor o, .xor), (.vsll o, .sll), (.vsrl o, .srl), (.vsra o, .sra)] →
    let fd := s.me.csr.fd
    let a := s.arithm
    let x (r c : Nat) := s.rd o.ty (s.vget o.vs1) r c
    let y (r c : Nat) := s.rd o.ty (s.vget o.vs2) r c
    let pos := s.performs o.h
    i.wf = true → FromStart s → VecOk s [o.vd, o.vs1, o.vs2] [o.ty] (isFloat fd o.ty) →
    (∀ w sg, intOf o.ty = some (w, sg) →
      let u (r c : Nat) : Int := intVal w sg (x r c)
      let v (r c : Nat) : Int := intVal w sg (y r c)
      let fit := fitInt w sg a.sat
      VecDoes i s o.vd (s.cbits o.ty) pos fun r c => (match op with
        | .add => fit (u r c + v r c)
        | .sub => fit (u r c - v r c)
        | .mul => fit (u r c * v r c)
        | .mulh => (Int.emod (Int.fdiv (u r c * v r c) (2 ^ w)) (2 ^ w)).toNat
        | .div => if y r c = 0 then 2 ^ w - 1 else fit (Int.tdiv (u r c) (v r c))
        | .min => if u r c ≤ v r c then x r c else y r c
        | .max => if u r c ≤ v r c then y r c else x r c
        | .and => x r c &&& y r c
        | .or => x r c ||| y r c
        | .xor => x r c ^^^ y r c
        | .sll => x r c <<< (y r c % w)
        | .srl => x r c >>> (y r c % w)
        | .sra => (Int.emod (Int.shiftRight (intVal w true (x r c)) (y r c % w)) (2 ^ w)).toNat, 0)) ∧
    (∀ f, fmtOf fd o.ty = some f →
      let g (r c : Nat) := rounded f a (exact2 a.rm op (f.input a.daz (x r c)) (f.input a.daz (y r c)))
      NoEvent s pos (fun r c => (g r c).2) → VecDoes i s o.vd (s.cbits o.ty) pos g)

/-- The one-operand and fused instructions complete in the same way. `vabs` and `vneg` clear and invert the sign bit of a float, and
take |a| and -a of an integer, saturated when `shape.sat` is set (an unsigned one keeps its absolute value); `vmv` keeps the encoding;
none of the three raises a flag. `vsqrt`, `vrece` and `vrsqe` round one exact root or estimate of 8 bits. The fused forms take
±(x × y) ± z, exact and rounded once on floats, saturated or modulo 2^w on integers (R190, R194, R195, R196, R206);
`NumberFormats` says what root, estimates, product, sum and rounding are. -/
def Obligations.VectorUnaryFused : Prop :=
  ∀ (s : State),
    let fd := s.me.csr.fd
    let a := s.arithm
    FromStart s →
    (∀ (o : V2) (i : Instr) (op : Op1), (i, op) ∈ [(Instr.vabs o, Op1.abs), (.vneg o, .neg), (.vsqrt o, .sqrt), (.vrece o, .rece),
        (.vrsqe o, .rsqe), (.vmv o, .mv)] →
      let rounds : Bool := op == .sqrt || op == .rece || op == .rsqe
      let pos := s.performs o.h
      let x (r c : Nat) := s.rd o.ty (s.vget o.vs) r c
      i.wf = true → VecOk s [o.vd, o.vs] [o.ty] rounds →
      (op = .mv → VecDoes i s o.vd (s.cbits o.ty) pos fun r c => (x r c, 0)) ∧
      (∀ w sg, intOf o.ty = some (w, sg) → op ≠ .mv → VecDoes i s o.vd (s.cbits o.ty) pos fun r c =>
        let u := intVal w sg (x r c)
        (if op = .neg then fitInt w sg a.sat (-u) else if sg then fitInt w sg a.sat |u| else x r c, 0)) ∧
      ∀ f, fmtOf fd o.ty = some f → op ≠ .mv →
        let g (r c : Nat) := float1 f a op (x r c)
        NoEvent s pos (fun r c => (g r c).2) → VecDoes i s o.vd (s.cbits o.ty) pos g) ∧
    ∀ (o : V4) (i : Instr) (np nc : Bool), (i, np, nc) ∈ [(Instr.vfma o, false, false), (.vfms o, false, true),
        (.vfnma o, true, true), (.vfnms o, true, false)] →
      let x (v : VReg) (r c : Nat) := s.rd o.ty (s.vget v) r c
      i.wf = true → VecOk s [o.vd, o.vs1, o.vs2, o.vs3] [o.ty] (isFloat fd o.ty) →
      (∀ w sg, intOf o.ty = some (w, sg) → VecDoes i s o.vd (s.cbits o.ty) (s.performs o.h) fun r c =>
        (fitInt w sg a.sat ((if np then -1 else 1) * (intVal w sg (x o.vs1 r c) * intVal w sg (x o.vs2 r c)) +
          (if nc then -1 else 1) * intVal w sg (x o.vs3 r c)), 0)) ∧
      ∀ f, fmtOf fd o.ty = some f →
        let u (v : VReg) (r c : Nat) := f.input a.daz (x v r c)
        let g (r c : Nat) := rounded f a (exact3 a.rm np nc (u o.vs1 r c) (u o.vs2 r c) (u o.vs3 r c))
        NoEvent s (s.performs o.h) (fun r c => (g r c).2) → VecDoes i s o.vd (s.cbits o.ty) (s.performs o.h) g

/-- `vcmp` sets bit j of its predicate when the condition holds in any, or all, granted rows of column j: on values, with zeros equal,
and with a NaN only `ne` and `un`; the predicate
instructions combine, complement, or set from an x register. They write the enabled bits below the row length, leave every other
bit, and change nothing else; the predicate instructions check nothing, and perform nothing when `vsi` stands at or beyond the
count (R169, R173, R197, R198). -/
def Obligations.VectorPredicates : Prop :=
  ∀ (s : State) (o : P3) (h : Hdr) (ty : ElemTy) (cond : VCond) (all : Bool) (pd ps : Reg8) (xs : XReg) (v1 v2 : VReg),
    let holds (j r : Nat) : Bool :=
      let x := s.rd ty (s.vget v1) r j
      let y := s.rd ty (s.vget v2) r j
      match intOf ty with
      | some (w, sg) =>
        let a := intVal w sg x
        let b := intVal w sg y
        (match cond with
          | .eq => a == b | .ne => a != b | .lt => decide (a < b) | .le => decide (a ≤ b) | .gt => decide (b < a)
          | .ge => decide (b ≤ a) | .un => false)
      | none =>
        let a := valOf s.me.csr.fd ty s.arithm.daz x
        let b := valOf s.me.csr.fd ty s.arithm.daz y
        if a = .nan ∨ b = .nan then cond == .ne || cond == .un
        else match cond with
          | .eq => Machine.Num.eqv a b | .ne => !Machine.Num.eqv a b | .lt => Machine.Num.lt false a b
          | .le => !Machine.Num.lt false b a | .gt => Machine.Num.lt false b a | .ge => !Machine.Num.lt false a b | .un => false
    let rows := List.range (grantRows s.me.csr.shape)
    (FromStart s → VecOk s [v1, v2] [ty] false →
      PredDoes (.vcmp h ty cond all pd v1 v2) s h pd fun j => if all then rows.all (holds j) else rows.any (holds j)) ∧
    (s.vsiPast = true → ∀ i ∈ [Instr.pand o, .por o, .pxor o, .pnot h pd ps, .pset h pd xs, .psetPat h pd xs],
      ∃ t, exec i s = .next t ∧ OnlyStrand s.cur s t ∧ VecDone s.cur t s.me) ∧
    (s.vsiPast = false →
    PredDoes (.pand o) s o.h o.pd (fun j => bit (s.me.p[o.ps1]) j && bit (s.me.p[o.ps2]) j) ∧
    PredDoes (.por o) s o.h o.pd (fun j => bit (s.me.p[o.ps1]) j || bit (s.me.p[o.ps2]) j) ∧
    PredDoes (.pxor o) s o.h o.pd (fun j => bit (s.me.p[o.ps1]) j != bit (s.me.p[o.ps2]) j) ∧
    PredDoes (.pnot h pd ps) s h pd (fun j => !bit (s.me.p[ps]) j) ∧
    PredDoes (.pset h pd xs) s h pd (fun j => decide (j < (s.capX 2 xs).toNat)) ∧
    PredDoes (.psetPat h pd xs) s h pd (fun j => bit (s.capX 2 xs) (j % 64)))

/-- `vcvt` converts each performed element; `vmxunpack` multiplies each by its block's scale; `vmxpack` packs, with one scale byte
each, the performed elements of every block of 32 that has one. Descriptors are unblocked for the first and blocked for the
others, whose row length is a multiple of 32 (R185, R187, R199, R200, R201). Between integers the value is clamped when `shape.sat`
is set, else taken modulo 2^w, with no flag (R54); otherwise the value of the source, an integer or a decoded code, is rounded to the
destination format, or to an integer by R52 (R51, R53); a scale of 0xFF makes it NaN (R34). -/
def Obligations.VectorConversions : Prop :=
  (∀ (fd : Vector Word 4) (st dt : ElemTy) (a : Arithm) (code n : Nat) (x : Machine.Num),
     (∀ w sg w' sg', intOf st = some (w, sg) → intOf dt = some (w', sg') →
       convCode fd st dt a code = (fitInt w' sg' a.sat (intVal w sg code), 0)) ∧
     (intOf st = none ∨ intOf dt = none → convCode fd st dt a code = toTy fd dt a (valOf fd st a.daz code)) ∧
     (∀ f, fmtOf fd st = some f → valOf fd st a.daz code = f.input a.daz code ∧ toTy fd st a x = roundFmt f a x) ∧
     (∀ w sg, intOf st = some (w, sg) → valOf fd st a.daz code = Machine.Num.ofInt (intVal w sg code) 0 ∧ toTy fd st a x = toInt w sg a.rm x) ∧
     x.scaleBy (e8m0 n) = if n % 256 = 255 then .nan else x.scale ((n % 256 : Nat) - 127)) ∧
  ∀ (s : State) (o : VConv) (vsc : VReg),
    let fd := s.me.csr.fd
    let a := s.arithm
    let len := grantLen s.me.csr.shape
    let x (r c : Nat) := s.rd o.st (s.vget o.vs) r c
    let blocked (b : Bool) : Prop := ∀ k, ElemTy.gf k ∈ [o.st, o.dt] → fdBlk fd[k] = b
    FromStart s →
    ((Instr.vcvt o).wf = true → VecOk s [o.vd, o.vs] [o.st, o.dt] (isFloat fd o.dt || isFloat fd o.st) → blocked false →
      let g (r c : Nat) := convCode fd o.st o.dt a (x r c)
      NoEvent s (s.performs o.h) (fun r c => (g r c).2) → VecDoes (.vcvt o) s o.vd (s.cbits o.dt) (s.performs o.h) g) ∧
    ((Instr.vmxunpack o vsc).wf = true → VecOk s [o.vd, o.vs, vsc] [o.st, o.dt, .n8] true → blocked true → len % 32 = 0 →
      let g (r c : Nat) := toTy fd o.dt a ((valOf fd o.st false (x r c)).scaleBy (e8m0 (elem (s.vget vsc) 8 r (c / 32))))
      NoEvent s (s.performs o.h) (fun r c => (g r c).2) →
      VecDoes (.vmxunpack o vsc) s o.vd (s.cbits o.dt) (s.performs o.h) g) ∧
    (∀ f, (Instr.vmxpack o vsc).wf = true → VecOk s [o.vd, o.vs, vsc] [o.st, o.dt, .n8] true → blocked true → len % 32 = 0 →
      fmtOf fd o.dt = some f → enabledFlags s.me.csr.fx = 0 →
      ∃ t fx, exec (.vmxpack o vsc) s = .next t ∧ OnlyLocal s.cur s t ∧ OnlyBlocks s.cur s t ∧ OtherBlocks s.cur [o.vd, vsc] s t ∧
        VecDone s.cur t { s.me with csr := { s.me.csr with fx := fx } } ∧
        ∀ r b, r < grantRows s.me.csr.shape → r < 16 → b < len / 32 →
          let cols := ((List.range 32).map (32 * b + ·)).filter fun c => s.enabled o.h c
          let p := packBlock f a.rm (cols.map fun c => valOf fd o.st a.daz (x r c))
          (cols = [] → elem (t.vget vsc) 8 r b = elem (s.vget vsc) 8 r b) ∧
          (cols ≠ [] → elem (t.vget vsc) 8 r b = p.1 % 256) ∧
          (∀ n c : Nat, cols[n]? = some c → ∃ q : Nat × Nat, p.2.1[n]? = some q ∧ elem (t.vget o.vd) (s.cbits o.dt) r c = q.1 % 2 ^ s.cbits o.dt) ∧
          ∀ c, 32 * b ≤ c → c < 32 * b + 32 → c ∉ cols →
            elem (t.vget o.vd) (s.cbits o.dt) r c = elem (s.vget o.vd) (s.cbits o.dt) r c)

/-- A reduction writes element 0 of each granted row with the reduction of the row's enabled elements, and keeps every other
element: the exact sum, rounded once on floats and saturated or modulo 2^w on integers, or the largest value, smallest value or
largest magnitude (NaN when any is); a row with no enabled element, as every row of a zero row length, takes zero. `vmvx`
answers the selected element, sign- or zero-extended, or 0 when the index is outside the grant or its column is not enabled, and
keeps every block (R169, R202, R205). -/
def Obligations.VectorReductions : Prop :=
  ∀ (s : State) (h : Hdr) (ty : ElemTy) (vs : VReg) (xd xi : XReg),
    let fd := s.me.csr.fd
    let len := grantLen s.me.csr.shape
    let cols := (List.range len).filter fun c => s.enabled h c
    FromStart s →
    (∀ (vd : VReg) (i : Instr) (op : Red),
      let o : V2 := ⟨h, ty, vd, vs⟩
      (i, op) ∈ [(Instr.vredsum o, Red.sum), (.vredmax o, .max), (.vredmin o, .min), (.vredamax o, .amax)] →
      let pos (r c : Nat) : Prop := r < grantRows s.me.csr.shape ∧ c = 0
      let g (r _c : Nat) := reduced fd op ty s.arithm (cols.map fun c => s.rd ty (s.vget vs) r c)
      i.wf = true → VecOk s [vd, vs] [ty] (isFloat fd ty) → NoEvent s pos (fun r c => (g r c).2) →
      VecDoes i s vd (s.cbits ty) pos g) ∧
    (VecOk s [vs] [ty] false →
      let k := (s.capX 3 xi).toNat
      let e := s.rd ty (s.vget vs) (k / len) (k % len)
      let v : Word := if k < grantRows s.me.csr.shape * len ∧ s.enabled h (k % len) = true then
          (match intOf ty with
            | some (n, true) => sext64 n e
            | _ => BitVec.ofNat 64 e) else 0
      ∃ t, exec (.vmvx h ty xd vs xi) s = .next t ∧ OnlyStrand s.cur s t ∧ VecDone s.cur t (s.me.setX xd v))

/-- The traps of the vector side. Every instruction of R192 to R209 checks, in this order, that its registers are held (not-held),
that the descriptors it names are valid, and not blocked for `vcvt`, blocked for the packing forms (bad-format), that rm is not
reserved where it rounds (illegal-instruction), and that the row length fits its types (vector-shape); the first failure traps
with the register, the descriptor, the encoding or the type, at the pointer pair, its entries, `vsi` and `msi` in the frame
(R185, R186, R178); the packing forms then ask for a row length that is a multiple of 32, `vreshape` for a length that divides
the register. The lowest element whose flags raise an event that `fx` enables traps with the cause of the event and the
element's index; its group, or its slice of a matrix update, writes and accrues nothing, every earlier one is done, and `vsi` or
`msi` names it (R47, R170, R173). A reduction traps with the index of its row's first element, and nothing is written (R189). -/
def Obligations.VectorTraps : Prop :=
  (∀ (s : State) (h : Hdr) (ty : ElemTy) (vd v1 v2 v3 : VReg) (pd : Reg8) (cond : VCond) (all : Bool) (xr : XReg) (start : BitVec 13)
     (step : BitVec 10) (o : VConv),
     let fd := s.me.csr.fd
     let o2 : V2 := ⟨h, ty, vd, v1⟩
     let o3 : V3 := ⟨h, ty, vd, v1, v2⟩
     let o4 : V4 := ⟨h, ty, vd, v1, v2, v3⟩
     let ox : VX := ⟨h, ty, vd, v1, xr⟩
     let index : ElemTy := match max 8 (s.cbits ty) with | 8 => .n8 | 16 => .n16 | 32 => .n32 | _ => .n64
     let k := (s.capX 3 xr).toNat
     let size := 16 * (4096 / s.cbits ty)
     let len := grantLen s.me.csr.shape
     (∀ i ∈ [Instr.vadd o3, .vsub o3, .vmul o3, .vmulh o3, .vdiv o3, .vmin o3, .vmax o3, .vand o3, .vor o3, .vxor o3, .vsll o3, .vsrl o3,
       .vsra o3], ChecksInOrder i s [vd, v1, v2] fdValid [ty] (isFloat fd ty)) ∧
     (∀ i ∈ [Instr.vabs o2, .vneg o2, .vmv o2, .vslideup ox, .vslidedn ox], ChecksInOrder i s [vd, v1] fdValid [ty] false) ∧
     (∀ i ∈ [Instr.vsqrt o2, .vrece o2, .vrsqe o2], ChecksInOrder i s [vd, v1] fdValid [ty] true) ∧
     (∀ i ∈ [Instr.vredsum o2, .vredmax o2, .vredmin o2, .vredamax o2], ChecksInOrder i s [vd, v1] fdValid [ty] (isFloat fd ty)) ∧
     (∀ i ∈ [Instr.vfma o4, .vfms o4, .vfnma o4, .vfnms o4], ChecksInOrder i s [vd, v1, v2, v3] fdValid [ty] (isFloat fd ty)) ∧
     (∀ i ∈ [Instr.vidx h ty vd start step, .vbcast h ty vd xr], ChecksInOrder i s [vd] fdValid [ty] false) ∧
     ChecksInOrder (.vcmp h ty cond all pd v1 v2) s [v1, v2] fdValid [ty] false ∧
     ChecksInOrder (.vmvx h ty xr v1 xr) s [v1] fdValid [ty] false ∧
     ChecksInOrder (.vperm o3) s [vd, v1, v2] fdValid [ty, index] false ∧
     ChecksInOrder (.vcvt o) s [o.vd, o.vs] (fun d => fdValid d && !fdBlk d) [o.st, o.dt] (isFloat fd o.dt || isFloat fd o.st) ∧
     (∀ i ∈ [Instr.vmxpack o v3, .vmxunpack o v3],
       ChecksInOrder i s [o.vd, o.vs, v3] (fun d => fdValid d && fdBlk d) [o.st, o.dt, .n8] true ∧
       (VecOk s [o.vd, o.vs, v3] [o.st, o.dt, .n8] true → (∀ j, ElemTy.gf j ∈ [o.st, o.dt] → fdBlk fd[j] = true) → len % 32 ≠ 0 →
         VecTraps i s 52 (BitVec.ofNat 64 len))) ∧
     ChecksInOrder (.vreshape ox) s [vd, v1] fdValid [] false ∧
     (VecOk s [vd, v1] [] false →
       (∀ j, ty = .gf j → fdValid fd[j] = false → VecTraps (.vreshape ox) s 48 (BitVec.ofNat 64 j.val)) ∧
       ((∀ j, ty = .gf j → fdValid fd[j] = true) → k = 0 ∨ size % k ≠ 0 → VecTraps (.vreshape ox) s 52 (BitVec.ofNat 64 k)))) ∧
  (∀ (s : State) (h : Hdr) (ty : ElemTy) (f : Fmt) (vd v1 v2 v3 : VReg) (i : Instr) (o : VConv) (cp md : Reg8) (tb : ElemTy) (p q : BitVec 4),
     let fd := s.me.csr.fd
     let a := s.arithm
     let len := grantLen s.me.csr.shape
     let pos := s.performs h
     let x (v : VReg) (r c : Nat) := s.rd ty (s.vget v) r c
     let u (v : VReg) (r c : Nat) := f.input a.daz (x v r c)
     let o2 : V2 := ⟨h, ty, vd, v1⟩
     let o3 : V3 := ⟨h, ty, vd, v1, v2⟩
     let o4 : V4 := ⟨h, ty, vd, v1, v2, v3⟩
     FromStart s → fmtOf fd ty = some f →
     (∀ op, (i, op) ∈ [(Instr.vadd o3, Op2.add), (.vsub o3, .sub), (.vmul o3, .mul), (.vdiv o3, .div), (.vmin o3, .min), (.vmax o3, .max)] →
       i.wf = true → VecOk s [vd, v1, v2] [ty] true →
       EventTraps i s vd (s.cbits ty) pos fun r c => rounded f a (exact2 a.rm op (u v1 r c) (u v2 r c))) ∧
     (∀ op, (i, op) ∈ [(Instr.vsqrt o2, Op1.sqrt), (.vrece o2, .rece), (.vrsqe o2, .rsqe)] → i.wf = true → VecOk s [vd, v1] [ty] true →
       EventTraps i s vd (s.cbits ty) pos fun r c => float1 f a op (x v1 r c)) ∧
     (∀ np nc, (i, np, nc) ∈ [(Instr.vfma o4, false, false), (.vfms o4, false, true), (.vfnma o4, true, true), (.vfnms o4, true, false)] →
       i.wf = true → VecOk s [vd, v1, v2, v3] [ty] true →
       EventTraps i s vd (s.cbits ty) pos fun r c => rounded f a (exact3 a.rm np nc (u v1 r c) (u v2 r c) (u v3 r c))) ∧
     ((Instr.vcvt o).wf = true → VecOk s [o.vd, o.vs] [o.st, o.dt] true → (∀ j, ElemTy.gf j ∈ [o.st, o.dt] → fdBlk fd[j] = false) →
       EventTraps (.vcvt o) s o.vd (s.cbits o.dt) (s.performs o.h) fun r c => convCode fd o.st o.dt a (s.rd o.st (s.vget o.vs) r c)) ∧
     ((Instr.vmxunpack o v3).wf = true → VecOk s [o.vd, o.vs, v3] [o.st, o.dt, .n8] true →
       (∀ j, ElemTy.gf j ∈ [o.st, o.dt] → fdBlk fd[j] = true) → len % 32 = 0 →
       EventTraps (.vmxunpack o v3) s o.vd (s.cbits o.dt) (s.performs o.h) fun r c =>
         toTy fd o.dt a ((valOf fd o.st false (s.rd o.st (s.vget o.vs) r c)).scaleBy (e8m0 (elem (s.vget v3) 8 r (c / 32))))) ∧
     (∀ op r cause, (i, op) ∈ [(Instr.vredsum o2, Red.sum), (.vredmax o2, .max), (.vredmin o2, .min), (.vredamax o2, .amax)] →
       let g (r : Nat) := reduced fd op ty a (((List.range len).filter fun c => s.enabled h c).map fun c => x v1 r c)
       i.wf = true → VecOk s [vd, v1] [ty] true → r < grantRows s.me.csr.shape → eventCause (enabledFlags s.me.csr.fx) (g r).2 = some cause →
       (∀ r', r' < r → eventCause (enabledFlags s.me.csr.fx) (g r').2 = none) → VecTraps i s cause (BitVec.ofNat 64 (r * len))) ∧
     (let mop : Instr := .mop h cp ty tb md v1 p v2 q
      let w := s.cbits ty
      let g (i j : Nat) := updElem fd ty tb a (s.regPanels ty v1 p.toNat (rankOf w)) (s.regPanels tb v2 q.toNat (rankOf w)) false 0
        (tileElem (s.mget md).data i j) i j
      FromUpdate s → s.mopChecks mop ty tb md [v1, v2] [(ty, v1), (tb, v2)] [] = .ok () →
      ∀ i j cause,
        let before (i' j' : Nat) : Prop := i' < i / 8 * 8 ∧ j' < 64 ∧ s.mEnabled h cp i' j' = true
        i < 64 → j < 64 → s.mEnabled h cp i j = true → eventCause (enabledFlags s.me.csr.fx) (g i j).2 = some cause →
        (∀ i' j', j' < 64 → s.mEnabled h cp i' j' = true → 64 * i' + j' < 64 * i + j →
          eventCause (enabledFlags s.me.csr.fx) (g i' j').2 = none) →
        ∃ t fx, exec mop s = .next (t.takeTrap ⟨cause, BitVec.ofNat 64 (64 * i + j), none⟩ true) ∧ OnlyLocal s.cur s t ∧
          t.me = Strand.countersOf { s.me with csr := { s.me.csr with fx := fx, msi := BitVec.ofNat 64 (i / 8) } } t.me ∧
          FlagsAccrue s.me.csr.fx fx before (fun i j => (g i j).2) ∧ TileTakes s t md before fun i j => (g i j).1))

/-- Index, broadcast, transposition, permutation and slides complete with the elements of R203 to R209; they raise no flag.
`vreshape` ignores the grant. `vrep.begin` outside capture starts one of n encodings and completes; `vrep.go` of a valid body
outside capture completes and puts the body's entries, with the x values of now, behind the queue. Otherwise they are illegal
(R210, R211). -/
def Obligations.VectorMoves : Prop :=
  (∀ (s : State) (h : Hdr) (ty : ElemTy) (vd vs vi : VReg) (xr : XReg) (start : BitVec 13) (step : BitVec 10),
     let fd := s.me.csr.fd
     let w := s.cbits ty
     let len := grantLen s.me.csr.shape
     let x (r c : Nat) := s.rd ty (s.vget vs) r c
     let k := (s.capX 3 xr).toNat
     let P := 4096 / w
     FromStart s →
     ((Instr.vidx h ty vd start step).wf = true → VecOk s [vd] [ty] false → VecDoes (.vidx h ty vd start step) s vd w (s.performs h)
       fun r c => ((Int.emod (start.toInt + (r * len + c : Nat) * step.toInt) (2 ^ w)).toNat, 0)) ∧
     ((Instr.vbcast h ty vd xr).wf = true → VecOk s [vd] [ty] false →
       VecDoes (.vbcast h ty vd xr) s vd w (s.performs h) fun _ _ => ((s.capX 2 xr).toNat % 2 ^ tyWidth fd ty, 0)) ∧
     (vd ≠ vs → VecOk s [vd, vs] [] false → (∀ j, ty = .gf j → fdValid fd[j] = true) → k ≠ 0 → 16 * P % k = 0 →
       VecDoes (.vreshape ⟨h, ty, vd, vs, xr⟩) s vd w (fun r c => r < 16 ∧ c < P ∧ s.enabled h c = true) fun r c =>
         let q := 16 * P / k
         let n := (r * P + c) % q * k + (r * P + c) / q
         (x (n / P) (n % P), 0)) ∧
     (vd ≠ vs → vd ≠ vi → VecOk s [vd, vs, vi] [ty] false → len ≤ 4096 / max 8 w →
       VecDoes (.vperm ⟨h, ty, vd, vs, vi⟩) s vd w (s.performs h) fun r c =>
         let j := elem (s.vget vi) (max 8 w) r c
         (if j < len then x r j else 0, 0)) ∧
     (vd ≠ vs → VecOk s [vd, vs] [ty] false →
       VecDoes (.vslideup ⟨h, ty, vd, vs, xr⟩) s vd w (fun r c => s.performs h r c ∧ k ≤ c) (fun r c => (x r (c - k), 0)) ∧
       VecDoes (.vslidedn ⟨h, ty, vd, vs, xr⟩) s vd w (s.performs h) fun r c => (if c + k < len then x r (c + k) else 0, 0))) ∧
  (∀ (s : State) (la : BitVec 4) (n : BitVec 13),
     let a := s.me
     (a.replay.cap = false → ∃ t, exec (.vrepBegin la n) s = .next t ∧ OnlyStrand s.cur s t ∧
       VecDone s.cur t { a with replay := ⟨[], n.toNat, true, false⟩ }) ∧
     (a.replay.cap = false → a.replay.valid = true → ∃ t, exec (.vrepGo la) s = .next t ∧ OnlyStrand s.cur s t ∧
       VecDone s.cur t { a with body := a.body ++ a.replay.encs.map fun e => a.entryOf e a.vcp }) ∧
     (a.replay.cap = true → exec (.vrepBegin la n) s = .next (s.takeTrap ⟨2, (Instr.vrepBegin la n).bits, none⟩ false)) ∧
     (a.replay.cap = true ∨ a.replay.valid = false → exec (.vrepGo la) s = .next (s.takeTrap ⟨2, (Instr.vrepGo la).bits, none⟩ false)))

/-! ### Vector memory (R212 to R215) -/

/-- A vector load that starts at its first element with nothing of its strand pending before it, whose checks, translation and
admission pass and for whose pins its core has room, completes: each performed element takes the element stored at its address,
and no memory, no other block and no other strand changes. An acquire form leaves the core's L1 empty (R156, R212, R213, R214).
-/
def Obligations.VectorLoads : Prop :=
  ∀ (s s1 : State) (o : VMem) (i : Instr) (m : VAddr) (srcs : List VReg),
    ((∃ xp, i = .vld o xp ∧ m = .unit xp ∧ srcs = []) ∨ (∃ xp xe, i = .vlds o xp xe ∧ m = .strided xp xe ∧ srcs = []) ∨
      ∃ vi, i = .vldx o vi ∧ m = .indexed vi ∧ srcs = [vi]) →
    let c := coreOf s.cur
    i.wf = true → FromStart s → s.me.pins = [] → s.bad = [] → (s.core c).wtq = [] → (s.core c).slots = [] → (s.core c).ports = [] →
    bit s.me.csr.dbgctl 0 = false → s.vmemIssue i o m .read srcs [o.v] = .ok s1 → s.pinRoom s1.me.pins = true →
    ∃ t, exec i s = .next t ∧ SameMemory s t ∧ OtherBlocks s.cur [o.v] s t ∧ (∀ j, j ≠ s.cur → t.strand j = s.strand j) ∧
      VecDone s.cur t s.me ∧ (o.ordered = true → bits s.me.csr.shape 38 2 ≠ 1 → 2 ≤ bits s.me.csr.shape 35 3 → (t.core c).l1 = []) ∧
      ElemsTake s t o.v (s.cbits o.ty) (s.performs o.h) fun r c =>
        let (pa, enc) := (pinPa s1.me.pins (s.vaddr o m r c)).getD (s.vaddr o m r c, false)
        if enc then s1.loadCode o c (s.vaddr o m r c)
        else
          let v := leNat (memRead s.mem pa ((s.cbits o.ty + 7) / 8))
          (if s.cbits o.ty = 4 then v / 16 ^ (c % 2) else v) % 2 ^ tyWidth s.me.csr.fd o.ty

/-- A vector store under the same conditions, to pages that are not encrypted, completes: outside the bytes of its performed
elements memory reads as before, an element whose bytes no later element stores is found there, and no register of the strand
changes but its list of written lines (R213, R215). -/
def Obligations.VectorStores : Prop :=
  ∀ (s s1 : State) (o : VMem) (i : Instr) (m : VAddr) (srcs : List VReg),
    ((∃ xp, i = .vst o xp ∧ m = .unit xp ∧ srcs = [o.v]) ∨ (∃ xp xe, i = .vsts o xp xe ∧ m = .strided xp xe ∧ srcs = [o.v]) ∨
      ∃ vi, i = .vstx o vi ∧ m = .indexed vi ∧ srcs = [o.v, vi]) →
    let c := coreOf s.cur
    let n := (s.cbits o.ty + 7) / 8
    let pa (r c : Nat) : Nat := ((pinPa s1.me.pins (s.vaddr o m r c)).getD (s.vaddr o m r c, false)).1
    let pos := s.performs o.h
    let ix (r c : Nat) : Nat := r * grantLen s.me.csr.shape + c
    i.wf = true → FromStart s → s.me.pins = [] → s.bad = [] → (s.core c).wtq = [] → (s.core c).slots = [] → (s.core c).ports = [] →
    bit s.me.csr.dbgctl 0 = false → s.vmemIssue i o m .write srcs [] = .ok s1 → s.pinRoom s1.me.pins = true →
    (∀ p ∈ s1.me.pins, p.enc = false) →
    ∃ t w, exec i s = .next t ∧ VecDone s.cur t { s.me with written := w } ∧ OtherBlocks s.cur [] s t ∧
      (∀ a, (∀ r c, pos r c → a < pa r c ∨ pa r c + n ≤ a) → memByte t.mem a = memByte s.mem a) ∧
      (8 ≤ s.cbits o.ty → ∀ r c, r < 16 → pos r c →
        (∀ r' c', pos r' c' → ix r c < ix r' c' → pa r' c' + n ≤ pa r c ∨ pa r c + n ≤ pa r' c') →
        leNat (memRead t.mem (pa r c) n) = s.rd o.ty (s.vget o.v) r c)

/-! ### The matrix unit (R217 to R237) -/

/-- `mzero`, `mop` and `mopw` complete when their checks pass: `mzero` clears the enabled elements; `mop` adds to each enabled
element the products of its rank-r update; `mopw` performs its n updates in turn, each on the elements that the one before left,
from panels at its row and weight-space offset. An element is enabled by row and column predicates. The flags of every update
accrue, none of them an enabled event, and nothing else changes (R219, R220, R226, R227, R228). A check that fails traps. With
`msi.upd` at or beyond its updates each performs nothing and completes (R230). What one update adds, on integer operands: each
product of the rank is added to the old accumulator exactly, and the sum is taken modulo 2^32, or saturated to 32 bits when
`shape.sat` is set (R50); on floating ones the exact sum of the old accumulator and the products of the scaled elements is rounded
once to f32 (R49). A sparse update pairs compressed panel c of column j with the panel of A that its selector names (R229); panels and
scales of a register lie as R222 and R223 say, and those of the weight space, with the selectors, as R228 says. -/
def Obligations.MatrixUpdates : Prop :=
  (∀ (s : State) (h : Hdr) (cp md : Reg8) (ta tb : ElemTy) (va vb : VReg) (a b : BitVec 4) (sp : Bool) (n1 : BitVec 3) (xo : XReg),
     let fd := s.me.csr.fd
     let w := s.cbits ta
     let n := n1.toNat + 1
     let o := (s.capX 3 xo).toNat
     let rho := if sp = true ∧ w = 4 then 2 else 1
     let step := weightStep fd tb sp
     let pos (i j : Nat) : Prop := i < 64 ∧ j < 64 ∧ s.mEnabled h cp i j = true
     let old (i j : Nat) := tileElem (s.mget md).data i j
     let mzero : Instr := .mzero h cp md
     let mop : Instr := .mop h cp ta tb md va a vb b
     let mopw : Instr := .mopw h cp sp n1 ta tb md va a xo
     let zeroOk := checkAll [s.needM md, s.needTiles [md.val]]
     let mopOk := s.mopChecks mop ta tb md [va, vb] [(ta, va), (tb, vb)] []
     let mopwOk := s.mopChecks mopw ta tb md [va] [(ta, va)] (s.windowsOf o (n * step))
     let fits : Prop := o % 32 = 0 ∧ o + n * step ≤ s.weightSize ∧ a.toNat + rho * n ≤ 16
     let idle (i : Instr) : Prop := ∃ t, exec i s = .next t ∧ OnlyStrand s.cur s t ∧ VecDone s.cur t s.me
     let traps (i : Instr) (t : Trap) : Prop := exec i s = .next (s.takeTrap t true)
     (FromUpdate s → zeroOk = .ok () → ∃ t, MatDone mzero s t s.me.csr.fx ∧ TileTakes s t md pos fun _ _ => 0) ∧
     (FromUpdate s → mopOk = .ok () →
       let g (i j : Nat) := updElem fd ta tb s.arithm (s.regPanels ta va a.toNat (rankOf w)) (s.regPanels tb vb b.toNat (rankOf w))
         false 0 (old i j) i j
       NoEvent s pos (fun i j => (g i j).2) →
       ∃ t fx, MatDone mop s t fx ∧ FlagsAccrue s.me.csr.fx fx pos (fun i j => (g i j).2) ∧
         TileTakes s t md pos fun i j => (g i j).1) ∧
     (FromUpdate s → mopwOk = .ok () → fits →
       let upd (u acc i j : Nat) := let q := s.weightPanels tb sp (o + u * step)
         updElem fd ta tb s.arithm (s.regPanels ta va (a.toNat + rho * u) (if sp then 2 * rankOf w else rankOf w)) q.1 sp q.2 acc i j
       let acc (m i j : Nat) : Nat := Nat.rec (old i j) (fun u x => (upd u x i j).1 % 2 ^ 32) m
       -- position p of update u, row by row
       let at_ (u p : Nat) : Prop := u < n ∧ p < 4096 ∧ pos (p / 64) (p % 64)
       let flags (u p : Nat) : Nat := (upd u (acc u (p / 64) (p % 64)) (p / 64) (p % 64)).2
       NoEvent s at_ flags →
       ∃ t fx, MatDone mopw s t fx ∧ FlagsAccrue s.me.csr.fx fx at_ flags ∧ TileTakes s t md pos (acc n)) ∧
     (1 ≤ s.msiUpd → (zeroOk = .ok () → idle mzero) ∧ (mopOk = .ok () → idle mop)) ∧
     (n ≤ s.msiUpd → mopwOk = .ok () → fits → idle mopw) ∧
     ∀ t, (zeroOk = .error t → traps mzero t) ∧ (mopOk = .error t → traps mop t) ∧ (mopwOk = .error t → traps mopw t)) ∧
  (∀ (fd : Vector Word 4) (a : Arithm) (pa pb : Panels) (sp : Bool) (sel old i j : Nat) (ta tb : ElemTy), old < 2 ^ 32 →
     let w := containerBits fd tb
     let r := if w = 4 then 16 else if w = 8 then 4 else if w = 16 then 2 else 1
     -- the panel of A that compressed panel c of column j multiplies
     let k (c : Nat) : Nat :=
       let nib := sel / 2 ^ (8 * (32 * (c / 2) + j / 2) + 4 * (j % 2)) % 16
       if sp then 4 * (c / 2) + (if c % 2 = 0 then nib % 4 else nib / 4) else c
     ((ta, tb) ∈ [(ElemTy.i8, ElemTy.i8), (.i4, .i4)] →
       let e : Int := BitVec.toInt (BitVec.ofNat 32 old) +
         ((List.range r).map fun c => BitVec.toInt (BitVec.ofNat w (pa.code (k c) i)) * BitVec.toInt (BitVec.ofNat w (pb.code c j))).sum
       updElem fd ta tb a pa pb sp sel old i j = (fitInt 32 true a.sat e, 0)) ∧
     (isFloat fd ta = true → isFloat fd tb = true →
       let val (ty : ElemTy) (p : Panels) (c i : Nat) : Machine.Num :=
         let x := valOf fd ty a.daz (p.code c i)
         (match p.scales with | none => x | some sc => x.scaleBy (e8m0 (sc.getD (2 * c + i / 32) 0)))
       let ps := (List.range r).map fun c => (val ta pa (k c) i).mul (val tb pb c j)
       let e := sumExact a.rm (Fmt.f32.input a.daz old :: ps.map Prod.fst)
       updElem fd ta tb a pa pb sp sel old i j = rounded .f32 a (e.1, e.2 ||| orFlags (ps.map Prod.snd)))) ∧
  ∀ (s : State) (ty : ElemTy) (v : VReg) (a n c i : Nat), c < n → i < 64 →
    let fd := s.me.csr.fd
    let w := s.cbits ty
    let pr := 4096 / w / 64
    let p := s.regPanels ty v a n
    -- the parts of an update in the weight space, and byte b of the space
    let r := if w = 4 then 16 else if w = 8 then 4 else if w = 16 then 2 else 1
    let byte (b : Nat) : Nat := s.weightNum b 1
    p.code c i = elem (s.vget v) w (a + c / pr) (64 * (c % pr) + i) % 2 ^ tyWidth fd ty ∧
    (∀ (sp : Bool) (o : Nat),
      let P := 8 * w
      let sel := if sp then 16 * r else 0
      let sc := if isBlocked fd ty then 2 * r else 0
      let S := (r * P + sel + sc + 31) / 32 * 32
      let q := s.weightPanels ty sp o
      weightStep fd ty sp = S ∧
      (o % 32 = 0 → c < r →
        (w = 4 → q.1.code c i = byte (o + c * P + i / 2) / 16 ^ (i % 2) % 16 % 2 ^ tyWidth fd ty) ∧
        (w ≠ 4 → q.1.code c i = (∑ j ∈ Finset.range (w / 8), byte (o + c * P + i * (w / 8) + j) * 256 ^ j) % 2 ^ tyWidth fd ty) ∧
        (isBlocked fd ty = false → q.1.scales = none) ∧
        (isBlocked fd ty = true → ∃ l, q.1.scales = some l ∧ l.getD (2 * c + i / 32) 0 = byte (o + r * P + sel + 2 * c + i / 32))) ∧
      (o % 32 = 0 → ∀ b, b < sel → q.2 / 256 ^ b % 256 = byte (o + r * P + b))) ∧
    (isBlocked fd ty = false → p.scales = none) ∧
    ∀ v' : VReg, isBlocked fd ty = true → v'.val = v.val + 1 →
      ∃ sc, p.scales = some sc ∧ sc.getD (2 * c + i / 32) 0 = elem (s.vget v') 8 (a + c / pr) (2 * (c % pr) + i / 32)

/-- A tile element is a signed integer of 32 bits or an f32; between integers a move rounds by the mode and narrows by R54 with no
flag, otherwise it converts by R51 to R53. `mdrain` of quarter q converts the enabled elements of its 16 rows, scaled by the
control word's power of two, into the vector register, and zeroes them in the tile when `upd` is set; `mfill` converts the
register's elements into the tile, added to the old ones when `upd` is set. Nothing else changes (R232, R233). -/
def Obligations.MatrixMoves : Prop :=
  (∀ (fd : Vector Word 4) (fromInt : Bool) (ty : ElemTy) (a : Arithm) (x : Machine.Num) (code : Nat),
     tileVal true a.daz code = Machine.Num.ofInt (BitVec.toInt (BitVec.ofNat 32 code)) 0 ∧ tileVal false a.daz code = Fmt.f32.input a.daz code ∧
     (fromInt = false ∨ intOf ty = none → moveTo fd fromInt ty a x = toTy fd ty a x) ∧
     ∀ w sg, intOf ty = some (w, sg) → (∀ z, moveTo fd true ty a (.zero z) = (0, 0)) ∧
       ∀ n d e, n ≠ 0 → d ≠ 0 → ∃ m : ℤ, RoundInt a.rm (decide (n < 0)) |((Machine.Num.real n d e).rat : ℝ)| m ∧
         moveTo fd true ty a (.real n d e) = (fitInt w sg a.sat (if n < 0 then -m else m), 0)) ∧
  ∀ (s : State) (h : Hdr) (cp m : Reg8) (int : Bool) (ty : ElemTy) (v : VReg) (xc : XReg) (q : BitVec 2),
    let fd := s.me.csr.fd
    let a := s.arithm
    let c := s.capX 3 xc
    let q0 := 16 * q.toNat
    let old (i j : Nat) := tileVal int a.daz (tileElem (s.mget m).data i j)
    let quarter (i j : Nat) : Prop := q0 ≤ i ∧ i < q0 + 16 ∧ s.mEnabled h cp i j = true
    FromUpdate s →
    (s.drainChecks (.mdrain h cp int ty v m xc q) [s.needV [v], s.needM m] m ty c = .ok () →
      let g (r j : Nat) := moveTo fd int ty a ((old (q0 + r) j).scale (ctlExp c))
      let pos (r j : Nat) : Prop := r < 16 ∧ j < 64 ∧ s.mEnabled h cp (q0 + r) j = true
      NoEvent s pos (fun r j => (g r j).2) →
      ∃ t fx, MatDone (.mdrain h cp int ty v m xc q) s t fx ∧ FlagsAccrue s.me.csr.fx fx pos (fun r j => (g r j).2) ∧
        OtherBlocks s.cur [v] s t ∧ ElemsTake s t v (s.cbits ty) pos (fun r j => (g r j).1) ∧
        TileTakes s t m (fun i j => ctlUpd c = true ∧ quarter i j) fun _ _ => 0) ∧
    (s.drainChecks (.mfill h cp int ty m v xc q) [s.needM m, s.needV [v]] m ty c = .ok () →
      let g (i j : Nat) : Nat × Nat :=
        let x := (valOf fd ty a.daz (s.rd ty (s.vget v) (i - q0) j)).scale (ctlExp c)
        let e := if ctlUpd c then sumExact a.rm [x, old i j] else (x, 0)
        let r := moveTo fd ((intOf ty).isSome && int) (if int then .i32 else .f32) a e.1
        (r.1, r.2 ||| e.2)
      let pos (i j : Nat) : Prop := j < 64 ∧ quarter i j
      NoEvent s pos (fun i j => (g i j).2) →
      ∃ t fx, MatDone (.mfill h cp int ty m v xc q) s t fx ∧ FlagsAccrue s.me.csr.fx fx pos (fun i j => (g i j).2) ∧
        OtherBlocks s.cur [] s t ∧ TileTakes s t m pos fun i j => (g i j).1)

/-- `wload` copies N bytes of the core's own scratchpad into the weight space of the strand, and changes nothing else; N = 0 copies
none. `msave`, `msave.p` and `mload` move a tile and its window to and from the loft or local HBM outside U mode, with the tile
states of R237: a Bound tile that is saved is cleared, a Lazy one becomes Free; through the loft no byte of memory changes, and
a record in memory changes no other byte; in U mode all six forms are illegal (R231, R237). With `msi.upd` not 0 each performs
nothing and completes (R230). -/
def Obligations.MatrixMemory : Prop :=
  ∀ (s s1 : State) (la : BitVec 4) (xo xs xn xa : XReg) (m : Reg8) (pins : List Pin) (xl : List (Nat × Xlat)),
    let c := coreOf s.cur
    let o := (s.capX 2 xo).toNat
    let src := (s.capX 3 xs).toNat
    let n := (s.capX 4 xn).toNat
    let a := s.capX 2 xa
    let wload : Instr := .wload la xo xs xn
    (s.me.pins = [] → o % 32 = 0 → src % 32 = 0 → o + n ≤ s.weightSize → s.needTiles (s.windowsOf o n) = .ok () →
      (n = 0 → s.pinRoom [] = true → ∃ t, exec wload s = .next t ∧ OnlyStrand s.cur s t ∧ VecDone s.cur t s.me) ∧
      (n % 32 = 0 → n ≠ 0 → s.vsiGroup = 0 → s.bad = [] → bit s.me.csr.dbgctl 0 = false →
        s.pinChunks s.vctx .read ((chunksOf [(src, n)]).map Prod.snd) [] [] = .ok (s1, pins, xl) →
        (∀ x ∈ xl, regionOf x.2.pa = .pad c ∧ s1.admits s1.cur .plain x.2.pa = true) →
        (s.msiUpd ≠ 0 → ∃ t, exec wload s = .next t ∧ SameMemory s t ∧ VecDone s.cur t s.me ∧
          ∀ p, t.myCore.tile p = s.myCore.tile p) ∧
        (s.msiUpd = 0 → s.pinRoom pins = true → s.lim = none → (s.core c).wtq = [] → (s.core c).slots = [] → (s.core c).ports = [] →
          s.me.tiles.Nodup →
          ∃ t, exec wload s = .next t ∧ SameMemory s t ∧ VecDone s.cur t s.me ∧ (∀ b, (t.core c).block b = (s.core c).block b) ∧
            (∀ j, j < n → t.weightNum (o + j) 1 = (memByte s.mem ((pinPa pins (src + j)).getD (src + j, false)).1).toNat) ∧
            (∀ j, j < s.weightSize → j < o ∨ o + n ≤ j → t.weightNum j 1 = s.weightNum j 1) ∧
            ∀ p, (t.myCore.tile p).data = (s.myCore.tile p).data ∧ (t.myCore.tile p).st = (s.myCore.tile p).st))) ∧
    (s.capMode.1 ≠ .u → s.msiUpd ≠ 0 → ∀ (mem : Bool) (p : Nat), s.tilePlace mem a = .ok () →
      (s.me.tileOf m = some p → ∃ t, exec (.msave la mem m xa) s = .next t ∧ OnlyStrand s.cur s t ∧ VecDone s.cur t s.me) ∧
      (s.me.tileOf m = some p → (s.myCore.tile p).st = .held →
        ∃ t, exec (.mload la mem m xa) s = .next t ∧ OnlyStrand s.cur s t ∧ VecDone s.cur t s.me) ∧
      ((s.myCore.tile m.val).st ≠ .free → (s.myCore.tile m.val).st ≠ .held →
        ∃ t, exec (.msaveP la mem m xa) s = .next t ∧ OnlyStrand s.cur s t ∧ VecDone s.cur t s.me)) ∧
    (s.capMode.1 ≠ .u → s.msiUpd = 0 → s.tilePlace false a = .ok () →
      (∀ p, s.me.tileOf m = some p → s.myCore.tileBad p = false →
        ∃ t, exec (.msave la false m xa) s = .next t ∧ OnlyLocal s.cur s t ∧ VecDone s.cur t s.me ∧
          memRead t.myCore.loft a.toNat 0xC000 = (s.myCore.tile p).record ∧
          t.myCore.tile p = (match (s.myCore.tile p).st with | .bound _ _ => Tile.cleared | _ => s.myCore.tile p)) ∧
      (∀ p, s.me.tileOf m = some p → (s.myCore.tile p).st = .held → s.myCore.badLoft = [] →
        ∃ t, exec (.mload la false m xa) s = .next t ∧ OnlyLocal s.cur s t ∧ VecDone s.cur t s.me ∧
          t.myCore.tile p = (s.myCore.tile p).load (memRead s.myCore.loft a.toNat 0xC000)) ∧
      (s.myCore.tileBad m.val = false →
        ((s.myCore.tile m.val).st = .free ∨ (s.myCore.tile m.val).st = .held →
          exec (.msaveP la false m xa) s = .next (s.takeTrap ⟨57, BitVec.ofNat 64 m.val, none⟩ true)) ∧
        (∀ g k, (s.myCore.tile m.val).st = .lazy g k ∨ (s.myCore.tile m.val).st = .bound g k →
          ∃ t, exec (.msaveP la false m xa) s = .next t ∧ OnlyLocal s.cur s t ∧ VecDone s.cur t s.me ∧
            memRead t.myCore.loft a.toNat 0xC000 = (s.myCore.tile m.val).record ∧
            t.myCore.tile m.val = if (s.myCore.tile m.val).st = .lazy g k then Tile.reset else Tile.cleared))) ∧
    (s.capMode.1 ≠ .u → s.msiUpd = 0 → s.tilePlace true a = .ok () → s.bad = [] → (s.core c).wtq = [] →
      let saved (i : Instr) (p : Nat) (left : Tile) : Prop := ∃ t, exec i s = .next t ∧ VecDone s.cur t s.me ∧
        memRead t.mem a.toNat 0xC000 = (s.myCore.tile p).record ∧
        (∀ b, (b < a.toNat ∨ a.toNat + 0xC000 ≤ b) → memByte t.mem b = memByte s.mem b) ∧ t.myCore.loft = s.myCore.loft ∧
        t.myCore.tile p = left ∧ ∀ n, n ≠ p → t.myCore.tile n = s.myCore.tile n
      (∀ p, s.me.tileOf m = some p → s.myCore.tileBad p = false →
        saved (.msave la true m xa) p (match (s.myCore.tile p).st with | .bound _ _ => Tile.cleared | _ => s.myCore.tile p)) ∧
      (s.myCore.tileBad m.val = false → ∀ g k,
        ((s.myCore.tile m.val).st = .lazy g k → saved (.msaveP la true m xa) m.val Tile.reset) ∧
        ((s.myCore.tile m.val).st = .bound g k → saved (.msaveP la true m xa) m.val Tile.cleared)) ∧
      ((s.myCore.tile m.val).st = .free ∨ (s.myCore.tile m.val).st = .held →
        exec (.msaveP la true m xa) s = .next (s.takeTrap ⟨57, BitVec.ofNat 64 m.val, none⟩ true)) ∧
      ∀ p, s.me.tileOf m = some p → (s.myCore.tile p).st = .held → ∃ t, exec (.mload la true m xa) s = .next t ∧ VecDone s.cur t s.me ∧
        SameMemory s t ∧ t.myCore.tile p = (s.myCore.tile p).load (memRead s.mem a.toNat 0xC000)) ∧
    (s.capMode.1 = .u → ∀ mem, ∀ i ∈ [Instr.msave la mem m xa, .msaveP la mem m xa, .mload la mem m xa],
      exec i s = .next (s.takeTrap (s.illegalV i.bits) true))

/-! ### Messages (R242 to R256) -/

/-- `msend` that passes its checks and finds fewer than 16 messages in its network's send queue completes with the message last
there: slot, handler, payload, sender and network as its operands give; a release form empties the core's write-through queue
first, which may take reservations. A full queue traps with send-queue-full and the network. `msend.try` does the same but
answers 0 when it has sent and 1 when the queue is full (R244, R245, R246). Strands whose events meet no replay log. -/
def Obligations.MessageSends : Prop :=
  ∀ (s s1 : State) (o : MsgOps) (xt : XReg) (pa : Nat),
    let c := coreOf s.cur
    let q (u : State) := (u.core c).sq o.net
    s.noStreams = true → s.sendCheck o = .ok (s1, pa) →
    let sent (t : State) (v : Strand → Strand) : Prop :=
      VecDone s.cur t (v { s.me with
        sends := s.me.sends + 1, resv := if o.rel then s.resvDrained c s.cur else s.me.resv }) ∧
      SameMemoryBut c 0 0 s t ∧ (o.rel = true → (t.core c).wtq = []) ∧ OthersKeep c s.cur s t ∧
      (o.rel = false → SameMemory s t ∧ ∀ j, j ≠ s.cur → t.strand j = s.strand j) ∧
      ∃ m : Msg, q t = q s ++ [m] ∧ m.slotVa = s.capX 2 o.xs ∧ m.slotPa = pa ∧ m.handler = s.capX 3 o.xh ∧ m.sender = s.cur ∧
        m.net = o.net ∧ m.cls = o.cls.toNat ∧ m.dest = (pa - padBase) / 0x100000 ∧ m.rel = o.rel ∧ m.hop = none ∧
        m.payload = flatBytes (s.vget o.vs) 0 (32 * (o.len.toNat + 1))
    ((q s).length < 16 → (∃ t, exec (.msend o) s = .next t ∧ sent t id) ∧
      (NoLog s s.cur → ∃ t, exec (.msendTry o xt) s = .next t ∧ sent t fun a => a.setX xt 0)) ∧
    (16 ≤ (q s).length → exec (.msend o) s = .next (s1.takeTrap ⟨28, if o.net = .req then 0 else 1, none⟩ true) ∧
      (NoLog s s.cur → ∃ t, exec (.msendTry o xt) s = .next t ∧ q t = q s ∧ SameMemory s t ∧
        VecDone s.cur t (s.me.setX xt 1)))

/-- The fabric and the vestibule. A message that its destination admits arrives: it leaves its send queue, its payload lies in its
slot, and its entry is last in the vestibule. One whose slot is not admitted, or whose flight has no handler there, is discarded
and counted in `mstat.drops`; one to a fenced die is discarded without trace; while the vestibule is full, or its partition is
being swapped, a message stays where it is (R247, R256, R346). The vestibule's next entry starts a Dormant handler strand of its
flight in U mode at its handler, with the slot in x10, or continues a hop with its registers; on a die that does not run it
starts none (R367 stops issue alone: the model's choice, log 63). An entry that has waited 65,536 cycles ages (R247, R248, R249,
R255). Flights without a replay log. `mdone` of a handler whose tokens are 0 without error flags, with no operation in flight,
no port bound and nothing pending on its pages, ends its context: the slot is Dormant or Free and holds nothing; elsewhere than
on a handler it takes message-operand 2. `hop` whose target is its own core only completes; to another core it sends a hop
message with the registers, the next address and the identity of its strand, whose context ends (R250, R254, R255). -/
def Obligations.MessageEvents : Prop :=
  (∀ (s s1 : State) (x : Xlat) (la : BitVec 4) (cls : BitVec 2) (xa : XReg),
     let a := s.me
     let c := coreOf s.cur
     let ended (t : State) : Prop := (t.me.status = .dormant ∨ t.me.status = .free) ∧ t.me.hold = Hold.zero ∧ t.me.claim = Hold.zero ∧
       t.me.queue = []
     (a.kind = .none ∨ a.kind = .tread → exec (.mdone la) s = .next (s.takeTrap ⟨55, 2, none⟩ true)) ∧
     (a.kind = .reqHandler ∨ a.kind = .repHandler → (∀ i : Reg8, a.k[i] = ⟨0, false⟩) → s.inFlight s.cur = [] →
       s.pagesBusy c a.pages = false → ∃ t, exec (.mdone la) s = .next t ∧ ended t ∧ SameMemory s t ∧
         ∀ j, j ≠ s.cur → t.strand j = s.strand j) ∧
     (a.kind ≠ .repHandler → a.hold = Hold.zero → (∀ i : Reg8, (a.k[i]).count = 0) → s.noStreams = true → a.replay.cap = false →
       translate s s.vctx .read (s.capX 2 xa).toNat = .ok (s1, x) →
       (regionOf x.pa = .hbm ∨ (∃ n, regionOf x.pa = .pad n) ∨ ∃ n, regionOf x.pa = .gallery n) →
       (s.hopTarget x.pa = c → ∃ t, exec (.hop la cls xa) s = .next t ∧ SameMemory s t ∧ VecDone s.cur t a) ∧
       (s.hopTarget x.pa ≠ c → (s.core c).sqReq.length < 16 → ∃ t, exec (.hop la cls xa) s = .next t ∧ ended t ∧
         OthersKeep c s.cur s t ∧ SameMemoryBut c 0 0 s t ∧ (t.core c).wtq = [] ∧
         ∃ m : Msg, (t.core c).sqReq = (s.core c).sqReq ++ [m] ∧ m.dest = s.hopTarget x.pa ∧ m.handler = a.vcp + 8 ∧ m.net = .req ∧
           ∃ xs, m.hop = some ⟨xs, a.kind, a.tread, a.groups, a.ckptStep, a.written⟩ ∧ xs.length = 16 ∧
             ∀ r : XReg, r.val < 16 → xs[r.val]? = some (a.getX r)))) ∧
  (∀ (s : State) (core idx strand : Nat) (net : Net) (m : Msg) (f : Flight) (ks : List Nat),
     let q := (s.core core).sq net
     let k := 16 * core + strand
     (q[idx]? = some m → (∀ e ∈ q.take idx, e.dest ≠ m.dest) →
       let i : Instr := .messageDelivery core net idx
       let drops (n : Nat) : Prop := ∃ t, exec i s = .next t ∧ t = { s with cores := t.cores } ∧ (t.core core).sq net = listDel q idx ∧
         (t.core m.dest).drops = min ((s.core m.dest).drops + n) (2 ^ 24 - 1) ∧ ∀ c, (t.core c).vest = (s.core c).vest
       (s.dieLive (dieOfCore m.dest) = false → (s.core m.dest).drops < 2 ^ 24 → drops 0) ∧
       (s.dieLive (dieOfCore m.dest) = true → s.flight? m.flight = some f →
         (s.swapOf f.part = true ∨ (s.core m.dest).vestRoom net = false → exec i s = .next s) ∧
         (s.swapOf f.part = false → (s.core m.dest).vestRoom net = true →
           s.hasHandlers m.flight m.dest = false ∨ (m.hop = none ∧ s.slotAdmitted m = false) → drops 1))) ∧
     (q[idx]? = some m → (∀ e ∈ q.take idx, e.dest ≠ m.dest) → s.dieLive (dieOfCore m.dest) = true → s.flight? m.flight = some f →
       s.swapOf f.part = false → (s.core m.dest).vestRoom net = true → s.hasHandlers m.flight m.dest = true →
       (m.hop = none → s.slotAdmitted m = true ∧ s.bad = []) →
       ∃ t c, exec (.messageDelivery core net idx) s = .next t ∧ (t.core core).sq net = listDel q idx ∧
         (t.core m.dest).vest = (s.core m.dest).vest ++ [{ m with since := c }] ∧
         (m.hop ≠ none → SameMemory s t) ∧
         (m.hop = none → memRead t.mem m.slotPa m.payload.length = m.payload ∧
           ∀ a, a < m.slotPa ∨ m.slotPa + m.payload.length ≤ a → memByte t.mem a = memByte s.mem a)) ∧
     (s.haltedDie k = true → exec (.handlerStart core strand) s = .next s ∧ exec (.hopStart core strand) s = .next s) ∧
     (s.nextStart core = some (m, ks) → s.haltedDie k = false → k ∈ ks → strand < 16 → s.flight? m.flight = some f → f.rlMode = 0 →
       (m.hop = none → ∃ t, exec (.handlerStart core strand) s = .next t ∧
         let b := t.strand k
         b.status = .running ∧ b.mode = .u ∧ b.pc = m.handler ∧ b.getX 10 = m.slotVa ∧ b.hold = Hold.zero ∧
         b.kind = (if m.net = .req then .reqHandler else .repHandler) ∧ b.flight = some f.id ∧ b.csr.vmroot = f.vmroot ∧
         bits (b.getX 11) 0 11 = coreOf m.sender % 2048 ∧ bits (b.getX 11) 11 4 = m.sender % 16 ∧
         (t.core core).vest = (s.core core).vest.erase m ∧ ∀ j, j ≠ k → t.strand j = s.strand j) ∧
       (∀ h, m.hop = some h → ∃ t, exec (.hopStart core strand) s = .next t ∧
         let b := t.strand k
         b.status = .running ∧ b.mode = .u ∧ b.pc = m.handler ∧ b.kind = h.kind ∧ b.tread = h.tread ∧ b.groups = h.groups ∧
         b.ckptStep = h.step ∧ b.written = h.written ∧ (∀ r : XReg, r ≠ 0 → b.getX r = h.x.getD r.val 0) ∧
         (t.core core).vest = (s.core core).vest.erase m ∧ ∀ j, j ≠ k → t.strand j = s.strand j)) ∧
     ((s.core core).vest[idx]? = some m →
       (m.since + 65536 ≤ s.cycles (16 * core) → ∃ t, exec (.vestibuleAgeing core idx) s = .next t ∧
         (t.core core).vest = listSet (s.core core).vest idx { m with aged := true } ∧ SameMemory s t) ∧
       (s.cycles (16 * core) < m.since + 65536 → exec (.vestibuleAgeing core idx) s = .next s)))

/-! ### Gaussian belief propagation (R258 to R267) -/

/-- The Gaussian instructions complete on held registers when nothing raises an enabled event. `gbp.add` adds, to the part at its
offset, a block of dimension d, in f32 rounded to nearest; `gbp.damp` forms β × old + (1 − β) × new, rounded once, for 0 ≤ β ≤
1; both write the information matrix mirrored, and nothing else. `gbp.elim` takes its pivots from the last; each replaces what
lies above and left of it by the value less the quotient's product, rounded once, and where all are above τ × s the reduced
block is left, with zeroes in the rest; the first that is not is singular. `gbp.resid` answers the largest exact difference of
two blocks, rounded once, and NaN where a difference is NaN (R258, R261 to R266). -/
def Obligations.GaussianBlocks : Prop :=
  ∀ (s : State) (la D1 d1 off k : BitVec 4) (vd vs vo : VReg) (x : XReg),
    let D := D1.toNat + 1
    let d := d1.toNat + 1
    let o := off.toNat
    let A := s.vget vd
    let B := s.vget vs
    let O := s.vget vo
    let xv := gbpVal (bits (s.capX 3 x) 0 32)
    let beta := gbpVal (bits (s.capX 4 x) 0 32)
    FromStart s → (∀ r ∈ [vd, vs, vo], s.me.blockOf r ≠ none) →
    (let pos (r c : Nat) : Prop := o ≤ r ∧ r < o + d ∧ (c = D ∨ (o ≤ c ∧ c < o + d))
     let g (r c : Nat) := gbpRnd (sumExact .rne [gbpVal (blockElem A D r c), gbpVal (blockElem B d (r - o) (if c = D then d else c - o))])
     o + d ≤ D → NoEvent s pos (fun r c => (g r c).2) → VecDoes (.gbpAdd la D1 d1 off vd vs) s vd 32 pos g) ∧
    (let pos (r c : Nat) : Prop := r < D ∧ c ≤ D
     let rest := (sumExact .rne [.one, beta.neg]).1
     let ts (r c : Nat) := (if beta.isZero then [] else [beta.mul (gbpVal (blockElem O D r c))]) ++
       (if rest.isZero then [] else [rest.mul (gbpVal (blockElem B D r c))])
     let g (r c : Nat) := let e := sumExact .rne ((ts r c).map Prod.fst); gbpRnd (e.1, e.2 ||| orFlags ((ts r c).map Prod.snd))
     ((∃ z, beta = .zero z) ∨ ∃ n e p, beta = .real n e p ∧ 0 ≤ n) → Num.lt false .one beta = false →
     NoEvent s pos (fun r c => (g r c).2) → VecDoes (.gbpDamp la D1 vd vo vs x) s vd 32 pos g) ∧
    (enabledFlags s.me.csr.fx = 0 → k.toNat < D → ((∃ z, xv = .zero z) ∨ ∃ n e p, xv = .real n e p ∧ 0 ≤ n) →
      let i := Instr.gbpElim la D1 k vd vs x
      let w := blockElem B D
      let sc := (List.range D).foldl (fun a q => maxMag a (gbpVal (w q q))) (.zero false)
      -- the block before pivot number m, at D - 1 - m, and whether that pivot passes
      let W := eliminated D w
      let passes (m : Nat) : Prop := Num.lt false (xv.mul sc).1 (gbpVal (W m (D - 1 - m) (D - 1 - m))) = true
      ((∀ m, m < k.toNat → passes m) →
        ∃ t fx, exec i s = .next t ∧ OnlyLocal s.cur s t ∧ OtherBlocks s.cur [vd] s t ∧
          VecDone s.cur t { s.me with csr := { s.me.csr with fx := fx } } ∧
          (∀ n, n < 64 → (bit fx n = true ↔ bit s.me.csr.fx n = true ∨ (n < 5 ∧ ∃ m r c, m < k.toNat ∧ r < D - 1 - m ∧
            ((elimQuot (W m) (D - 1 - m) r).2.testBit n = true ∨
              ((r ≤ c ∧ c < D - 1 - m) ∨ c = D) ∧ (elimVal (W m) (D - 1 - m) r c).2.testBit n = true)))) ∧
          ElemsTake s t vd 32 (fun r c => r < D ∧ c ≤ D) fun i j =>
            let E := D - k.toNat
            if i < E ∧ j < E then W k.toNat i j else if i < E ∧ j = E then W k.toNat i D else 0) ∧
      (∀ m, m < k.toNat → (∀ n, n < m → passes n) → ¬ passes m →
        exec i s = .next (s.takeTrap ⟨30, BitVec.ofNat 64 (D - 1 - m), none⟩ true))) ∧
    (enabledFlags s.me.csr.fx = 0 → ∃ t fx v, exec (.gbpResid la D1 x vs vo) s = .next t ∧ OnlyStrand s.cur s t ∧
      VecDone s.cur t ({ s.me with csr := { s.me.csr with fx := fx } }.setX x v) ∧
      let diff (p : Nat × Nat) : Machine.Num :=
        let a := blockElem B D p.1 p.2
        let b := blockElem O D p.1 p.2
        let e := (sumExact .rne [gbpVal a, (gbpVal b).neg]).1
        if a = b then .zero false else if e.isNeg then e.neg else e
      ((∃ p ∈ blockPos D, diff p = .nan) → v = 0x7FC00000 ∧ fx = s.me.csr.fx) ∧
      ((∀ p ∈ blockPos D, diff p ≠ .nan) → ∃ p ∈ blockPos D, (∀ q ∈ blockPos D, Num.lt false (diff p) (diff q) = false) ∧
        v = BitVec.ofNat 64 (gbpRnd (diff p, 0)).1 ∧ FlagsAccrue s.me.csr.fx fx (fun r c => r = 0 ∧ c = 0) fun _ _ => (gbpRnd (diff p, 0)).2) ∧
      ((∀ p ∈ blockPos D, blockElem B D p.1 p.2 = blockElem O D p.1 p.2) → v = 0 ∧ fx = s.me.csr.fx))

/-- `gbp.pack` lays η and the upper triangle of Λ out as consecutive f32 codes, padded with zero bytes to a multiple of 32;
`gbp.unpack` writes them back, Λ mirrored. Nothing else changes (R259, R267). -/
def Obligations.GaussianPacking : Prop :=
  ∀ (s : State) (la D1 : BitVec 4) (vd vs : VReg),
    let D := D1.toNat + 1
    let n := packCount D
    let B := s.vget vs
    FromStart s → s.me.blockOf vd ≠ none → s.me.blockOf vs ≠ none →
    (∃ t, exec (.gbpPack la D1 vd vs) s = .next t ∧ OnlyLocal s.cur s t ∧ OnlyBlocks s.cur s t ∧ OtherBlocks s.cur [vd] s t ∧
      VecDone s.cur t s.me ∧
      (∀ (m : Nat) (p : Nat × Nat), (packPos D)[m]? = some p → leNat (flatBytes (t.vget vd) (4 * m) 4) = blockElem B D p.1 p.2) ∧
      (∀ f, 4 * n ≤ f → f < packBytes D → flatByte (t.vget vd) f = 0) ∧
      (∀ f, packBytes D ≤ f → f < 8192 → flatByte (t.vget vd) f = flatByte (s.vget vd) f)) ∧
    (∃ t, exec (.gbpUnpack la D1 vd vs) s = .next t ∧ OnlyLocal s.cur s t ∧ OnlyBlocks s.cur s t ∧ OtherBlocks s.cur [vd] s t ∧
      VecDone s.cur t s.me ∧
      (∀ (m : Nat) (p : Nat × Nat), (packPos D)[m]? = some p →
        blockElem (t.vget vd) D p.1 p.2 = leNat (flatBytes B (4 * m) 4) ∧
        (p.2 < D → elem (t.vget vd) 32 p.2 p.1 = leNat (flatBytes B (4 * m) 4))) ∧
      ∀ r c, r < 16 → c < 128 → (D ≤ r ∨ D < c) → elem (t.vget vd) 32 r c = elem (s.vget vd) 32 r c)

/-! ### Copies, engine operations and streams (R110 to R144) -/

/-- `tshape` of 48 readable bytes at an address that is a multiple of 8, of which R126 accepts the block, makes its record valid
with that block; a check that fails traps. `tcp` and `tcp.scat` of a valid record whose checks pass are accepted into the lowest
free copy slot, and wait while there is none. `tdeal` is accepted in the same way and counts each receiving strand's share on
that strand's token (R123, R126 to R132). Each waits while the core has no room for its pins; a `tshape` that holds its pins
from an earlier start asks for no more (R101, R102). -/
def Obligations.CopyIssue : Prop :=
  ∀ (s s1 : State) (la : BitVec 4) (sd : Reg8) (xs : XReg) (e : EngOps) (scat : Bool) (op : CopyOp) (pins : List Pin)
    (shares : List (Nat × Nat)),
    let c := coreOf s.cur
    let va := (s.capX 2 xs).toNat
    let r := s.me.sd[e.sd]
    let tcp : Instr := if scat then .tcpScat e else .tcp e
    let n := ShapeRec.total r.block
    let made : CopyOp := s.newOp (.tcp scat) e.k r.block (s.capX 2 e.xd) (s.capX 3 e.xs) [] [] [(0, n / 32)] n
    let taken (t : State) (i : Nat) : Prop := Accepted s t op i s.me.resv ∧ SameMemory s t ∧
      (∀ j, j < i → s.myCore.slot j ≠ none) ∧ s.myCore.slot i = none
    let waits (i : Instr) : Prop := exec i s = .next s1 ∧ s1.me = s.me.countersOf s1.me
    (s.bad = [] → (s.core c).wtq = [] → (s.core c).slots = [] → (s.core c).ports = [] → bit s.me.csr.dbgctl 0 = false →
      va % 8 = 0 → (if s.me.pins = [] then s.pinFootprint .plain .read [(va, 48)] = .ok (s1, pins) else pins = s.me.pins) →
      (∀ p ∈ pins, p.enc = false) → let room : Prop := s.me.pins ≠ [] ∨ s.pinRoom pins = true
      let b := BitVec.ofNat 384 (leNat (((List.range 6).map fun i =>
        memRead s.mem ((pinPa pins (va + 8 * i)).getD (va + 8 * i, false)).1 8).flatten))
      (¬ room → exec (.tshape la sd xs) s = .next s) ∧
      (room → recordCheck b (s.capX 2 xs) = .ok () → ∃ t rs, exec (.tshape la sd xs) s = .next t ∧ SameMemory s t ∧
        VecDone s.cur t { s.me with sd := rs } ∧ rs[sd] = ⟨true, b⟩ ∧ ∀ q, q ≠ sd → rs[q] = s.me.sd[q]) ∧
      (∀ tr, room → recordCheck b (s.capX 2 xs) = .error tr →
        ∃ u : State, exec (.tshape la sd xs) s = .next (u.takeTrap tr true) ∧ u.me.sd = s.me.sd)) ∧
    (s.copyCheck made scat (!r.valid || s.tokOver s.cur e.k n) = .ok (s1, op) →
      (∀ i, s.pinRoom op.pins = true → s1.freeSlot = some i → ∃ t, exec tcp s = .next t ∧ taken t i ∧
        op.todo = [(0, n / 32)] ∧ op.bytes = n ∧ ∀ j, j ≠ s.cur → t.strand j = s.strand j) ∧
      (s.pinRoom op.pins = false ∨ s1.freeSlot = none → waits tcp)) ∧
    (∀ t, s.copyCheck made scat (!r.valid || s.tokOver s.cur e.k n) = .error (s1, t) → exec tcp s = .next (s1.takeTrap t true)) ∧
    (s.dealCheck e = .ok (s1, op, shares) → (shares.map Prod.fst).Nodup →
      (∀ i, s.pinRoom op.pins = true → s1.freeSlot = some i → ∃ t, exec (.tdeal e) s = .next t ∧ taken t i ∧
        ∀ p ∈ shares, p.1 ≠ s.cur → ((t.strand p.1).k[e.k]).count = ((s.strand p.1).k[e.k]).count + p.2) ∧
      (s.pinRoom op.pins = false ∨ s1.freeSlot = none → waits (.tdeal e))) ∧
    (∀ t, s.dealCheck e = .error (s1, t) → exec (.tdeal e) s = .next (s1.takeTrap t true))

/-- A stack-engine operation whose checks pass is accepted into the lowest free slot of its core; while there is none, while the
core has no room for its pins, or while an earlier operation has still to write the index array, it waits at the queue head. A
check that fails traps (R102, R110 to R116); an invalid shape record takes engine-operand 0 before order 3 (the model's choice,
log 79). -/
def Obligations.EngineIssue : Prop :=
  ∀ (s s1 : State) (o : EngOps) (xi xm : XReg) (rop : RedOp) (acc : Bool) (ty dt : ElemTy) (op : CopyOp) (i : Instr) (p : EngPlan),
    (i = .sgGather o xi ∧ p = s.gatherPlan o xi) ∨ (i = .sgReduce o rop ty ∧ p = s.reducePlan o rop ty) ∨
      (i = .sgConv o dt ty ∧ p = s.convPlan o dt ty) ∨ (i = .collReduce o rop acc ty xm ∧ p = s.collReducePlan o rop acc ty xm) ∨
      (i = .collBcast o xm ∧ p = s.collBcastPlan o xm) →
    let c := coreOf s.cur
    (s.engCheck i o p = .ok (s1, some op) →
      (∀ n, s.pinRoom op.pins = true → s1.freeSlot = some n → ∃ t r, exec i s = .next t ∧ ResvAfter s c s.cur r ∧
        Accepted s t op n r ∧ OthersKeep c s.cur s t ∧ SameMemoryBut c 0 0 s t ∧ s.myCore.slot n = none ∧
        (∀ j, j < n → s.myCore.slot j ≠ none) ∧ op.kind = p.kind ∧ op.bytes = p.bytes ∧ op.k = o.k ∧ op.owner = s.cur ∧
        op.fd = s.me.csr.fd ∧ op.shape = s.me.csr.shape) ∧
      (s.pinRoom op.pins = false ∨ s1.freeSlot = none → exec i s = .next s1)) ∧
    (s.engCheck i o p = .ok (s1, none) → exec i s = .next s1) ∧
    (∀ t, s.engCheck i o p = .error (s1, t) → exec i s = .next (s1.takeTrap t true)) ∧
    ((s.me.sd[o.sd]).valid = false → s.needGf fdValid p.tys = .ok () → s.needRm p.rounds i.bits = .ok () →
      exec i s = .next (s.takeTrap ⟨53, 0, none⟩ true))

/-- Data lands. One unit of a copy that its footprint rules let go, whose source sector is readable and whose pages are not
encrypted, carries 32 bytes from source to destination, counts them down on its owner's token, and for a dealt copy on its
receiver's, and leaves the operation's list; the last one frees the slot. A stack-engine operation that its footprint rules let
go frees its slot and counts its bytes down. From unencrypted pages with no failing sector and no fenced die in reach it writes
the bytes of its kind, every value read before any is written (the model's choice, log 102): the rows that the indices name,
each element combined with the destination's, or over the regions of the mask, and rounded once for a reduction, each element
converted, blocks with their scales after the elements, and the source's bytes in every region of a broadcast; a value with a
byte in a failing sector is not written; a byte without a value is not written and sets the token's error flag, and no byte
outside its destination changes. What the footprint rules do not let go changes nothing. A delivered store leaves the
write-through queue with its bytes in memory; a scrub clears a corrected sector (R104, R111, R113 to R117, R123, R124, R130,
R137, R159). -/
def Obligations.DataLands : Prop :=
  ∀ (s : State) (core slot n idx stack sector : Nat) (o : CopyOp) (e : WtEntry) (sp dp : Nat),
    let after (t : State) (o' : Option CopyOp) : Prop := (t.core core).slot slot = o'
    ((s.core core).slot slot = some o → o.byUnit = true → n ∈ unitsOf o.todo →
      pinPa o.pins (o.unitSrc (32 * n)) = some (sp, false) → o.unitDst (32 * n) = some (dp, false) →
      (s.mayMove o.owner o.age [(sp, 32)] [(dp, 32)] = false → exec (.copyLanding core slot n 1) s = .next s) ∧
      (s.mayMove o.owner o.age [(sp, 32)] [(dp, 32)] = true → s.inFenced sp = false → s.inFenced dp = false → s.bad = [] →
        (s.core (coreOf o.owner)).wtq = [] → dp % 32 = 0 →
        ∃ t, exec (.copyLanding core slot n 1) s = .next t ∧ memRead t.mem dp 32 = memRead s.mem sp 32 ∧
          (∀ a, a < dp ∨ dp + 32 ≤ a → memByte t.mem a = memByte s.mem a) ∧ (t.strand o.owner).k[o.k] = s.landed o 32 false ∧
          (o.kind = .tdeal → ∀ j, o.aux.find? (fun j => j ≠ o.owner && coreOf j == (dp - padBase) / 0x100000) = some j →
            ((t.strand j).k[o.k]).count = ((s.strand j).k[o.k]).count - 32) ∧
          after t (if (cutIv o.todo n (n + 1)).isEmpty then none else some { o with todo := cutIv o.todo n (n + 1) }))) ∧
    ((s.core core).slot slot = some o → o.byUnit = false →
      (s.mayMove o.owner o.age o.pendRead o.pendWrite = false → exec (.engineOperation core slot) s = .next s) ∧
      (s.mayMove o.owner o.age o.pendRead o.pendWrite = true →
        (∃ t, exec (.engineOperation core slot) s = .next t ∧ after t none ∧
          ((t.strand o.owner).k[o.k]).count = (s.landed o o.bytes false).count) ∧
        let rs := s.engBytes o
        (s.bad = [] → (∀ p ∈ o.pins, p.enc = false) → (s.core core).wtq = [] → s.notPerformed o = false →
          (∀ r ∈ rs, s.regionFenced o r.1 r.2.length = false) → o.apart rs →
          ∃ t, exec (.engineOperation core slot) s = .next t ∧ after t none ∧
            (t.strand o.owner).k[o.k] = s.landed o o.bytes (rs.any fun r => !r.2.all Option.isSome) ∧
            (∀ r ∈ rs, ∀ i b pa, r.2[i]? = some (some b) → pinPa o.pins (r.1 + i) = some (pa, false) → memByte t.mem pa = b) ∧
            ∀ a, ¬ o.writesTo a → memByte t.mem a = memByte s.mem a))) ∧
    ((s.core core).wtq[idx]? = some e →
      ((∃ x ∈ (s.core core).wtq.take idx, x.meets e.pa e.bytes.length = true) → exec (.writeThroughDelivery core idx) s = .next s) ∧
      ((∀ x ∈ (s.core core).wtq.take idx, x.meets e.pa e.bytes.length = false) → e.tag.2 = false → s.bad = [] →
        ∃ t, exec (.writeThroughDelivery core idx) s = .next t ∧ (t.core core).wtq = listDel (s.core core).wtq idx ∧
          memRead t.mem e.pa e.bytes.length = e.bytes ∧ BreaksOnly s t (some e.owner) e.pa e.bytes.length ∧
          ∀ a, a < e.pa ∨ e.pa + e.bytes.length ≤ a → memByte t.mem a = memByte s.mem a)) ∧
    (regionOf (32 * sector) = .hbm → stackOf (32 * sector) = stack → sector ∈ s.soft →
      ∃ t, exec (.backgroundScrub stack sector) s = .next t ∧ SameMemory s t ∧ sector ∉ t.soft ∧ t.strands = s.strands ∧ t.cores = s.cores) ∧
    -- what an operation writes, whose pages are not encrypted
    ((∀ p ∈ o.pins, p.enc = false) →
      let r := o.block
      let byteAt (va : Nat) : Option Byte := match pinPa o.pins va with
        | some (pa, _) => if s.bad.contains (pa / 32) then none else some (memByte s.mem pa)
        | none => none
      let wide (w va i : Nat) (b : Nat → Byte) : Prop := ∀ j, j < w / 8 → byteAt (va + i * (w / 8) + j) = some (b j)
      -- element i of w bits from va
      let element (w va i : Nat) : Option Nat := s.engElem o w va i
      -- element i of the record, taken from a base
      let source (w : Nat) (base : Word) (i : Nat) : Option Nat :=
        let row := i / ShapeRec.e0 r
        let off : ℤ := (row / ShapeRec.e1 r : ℕ) * ShapeRec.st2 r + (row % ShapeRec.e1 r : ℕ) * ShapeRec.st1 r
        element w ((base.toNat + off) % 2 ^ 64).toNat (i % ShapeRec.e0 r)
      let n := ShapeRec.e0 r * ShapeRec.e1 r * ShapeRec.e2 r
      let rs := s.engBytes o
      let single (l : List (Option Byte)) : Prop := rs = [(o.dst.toNat, l)]
      let joined (op : RedOp) (ty : ElemTy) (xs : List (Option Nat)) : Option Nat :=
        if xs.all Option.isSome then some (reduced o.fd (match op with | .add => .sum | .min => .min | .max => .max) ty o.arithm (xs.filterMap id)).1 else none
      (∀ w va i, w ≠ 4 → (∀ b, wide w va i b → element w va i = some (numberAt b 0 (w / 8))) ∧
        ((∃ j, j < w / 8 ∧ byteAt (va + i * (w / 8) + j) = none) → element w va i = none)) ∧
      (∀ va i, element 4 va i = (byteAt (va + i / 2)).map fun b => b.toNat / 16 ^ (i % 2) % 16) ∧
      (o.kind = .gather → ∃ l, single l ∧ ∀ q ix, o.aux[q]? = some ix → ∀ j, j < ShapeRec.e0 r → l[q * ShapeRec.e0 r + j]? =
        some (if ix < 2 ^ 32 then byteAt (((o.src.toNat + (ix : ℤ) * ShapeRec.st1 r) % 2 ^ 64).toNat + j) else none)) ∧
      (∀ op ty, o.kind = .reduce op ty → ∃ l, single l ∧ ∀ i, i < n → let w := containerBits o.fd ty
        HoldsElem w l i (joined op ty [element w o.dst.toNat i, source w o.src i])) ∧
      (∀ op acc ty m, o.kind = .collReduce op acc ty m → m.toNat % 256 ≠ 0 → ∃ l, single l ∧ ∀ i, i < n → let w := containerBits o.fd ty
        HoldsElem w l i (joined op ty ((if acc then [element w o.dst.toNat i] else []) ++
          ((List.range 8).filter fun d => bit m d).map fun d => source w (o.src + BitVec.ofNat 64 (d * bits m 16 48)) i))) ∧
      (∀ m, o.kind = .collBcast m →
        rs.map Prod.fst = ((List.range 8).filter fun d => bit m d).map (fun d => (o.dst + BitVec.ofNat 64 (d * bits m 16 48)).toNat) ∧
        ∀ x ∈ rs, ∀ i, i < n → HoldsElem 8 x.2 i (source 8 o.src i)) ∧
      ∀ dt st, o.kind = .conv dt st → ∃ l, single l ∧
        let a := o.arithm
        let ws := containerBits o.fd st
        let wd := containerBits o.fd dt
        let code (i : Nat) := source ws o.src i
        -- the value of element i, with its scale, which lies after the source's elements
        let scale (i : Nat) : Option (Option Int) :=
          if isBlocked o.fd st = true then (element 8 (o.src.toNat + (ws * n + 7) / 8) (i / 32)).map e8m0 else some (some 0)
        let value (i : Nat) : Option Machine.Num := match code i, scale i with
          | some c, some sc => some ((valOf o.fd st a.daz c).scaleBy sc)
          | _, _ => none
        (isBlocked o.fd dt = false → ∀ i, i < n → HoldsElem wd l i
          (if isBlocked o.fd st = true then (value i).map fun v => (toTy o.fd dt a v).1 else (code i).map fun c => (convCode o.fd st dt a c).1)) ∧
        ∀ f, isBlocked o.fd dt = true → fmtOf o.fd dt = some f → n % 32 = 0 → ∀ b, b < n / 32 →
          let vs := (List.range 32).map fun i => value (32 * b + i)
          let pk := packBlock f a.rm (vs.filterMap id)
          (∀ i, i < 32 → HoldsElem wd l (32 * b + i) (if vs.all Option.isSome then (pk.2.1[i]?).map Prod.fst else none)) ∧
          l[(wd * n + 7) / 8 + b]? = some (if vs.all Option.isSome then some (BitVec.ofNat 8 pk.1) else none))

/-- Streams. `sbind` whose checks pass and for whose pins the core has room binds a free port to its register, record and base at
position 0, and waits while the port is bound or the room is not there; the event of its establishment does the same for the
waiting strand, and a resumed strand's recorded binding is made at its position; on a die that does not run it makes none (R367 stops
issue alone: the model's choice, log 63).
`sunbind` of an own port with nothing left to write unbinds it; of any other port it takes engine-operand with the port. A
transfer moves whole sectors between memory and the port, on a read stream no more than keeps it 4 KiB ahead; of a suspended
stream it moves nothing (R140 to R144, R147, R161). -/
def Obligations.Streams : Prop :=
  ∀ (s s1 : State) (la : BitVec 4) (port : BitVec 2) (v : VReg) (xs : XReg) (sd : Reg8) (wr : Bool) (q : Port) (n : Nat) (e : Entry)
    (sp : SavedPort) (pins : List Pin),
    let c := coreOf s.cur
    let a := s.me
    let pn := port.toNat
    let bind : Instr := if wr then .sbindWr la port v xs sd else .sbindRd la port v xs sd
    let move (n : Nat) : Instr := .streamTransfer c pn n
    let bound (t : State) (block : BitVec 384) (base : Word) (pos : Nat) : Prop := ∃ p, (t.core c).port pn = some p ∧
      p.owner = s.cur ∧ p.wr = wr ∧ p.v = v ∧ p.block = block ∧ p.base = base ∧ p.pos = pos ∧ p.buf = [] ∧ p.susp = false
    let otherPorts (t : State) : Prop := ∀ j, j ≠ pn → (t.core c).port j = (s.core c).port j
    (s.bindIssue wr v (s.capX 2 xs) sd = .ok s1 →
      (s1.me.bindDone = true → (s1.core c).port pn = none → ∃ t, exec bind s = .next t ∧ bound t (a.sd[sd]).block (s.capX 2 xs) 0 ∧
        SameMemory s t ∧ VecDone s.cur t a ∧ otherPorts t) ∧
      (s1.me.bindDone = false ∨ (s1.core c).port pn ≠ none → exec bind s = .next s1)) ∧
    (∀ t, s.bindIssue wr v (s.capX 2 xs) sd = .error (s1, t) → exec bind s = .next (s1.takeTrap t true)) ∧
    (s.haltedDie s.cur = true → exec (.streamBindEstablish s.cur) s = .next s) ∧
    (s.haltedDie s.cur = false → a.status = .running → (s.core c).port pn = none →
      (a.ports = [] → a.queue.head? = some e → a.bindDone = true → decode64 e.enc.toNat = .ok bind →
        ∃ t, exec (.streamBindEstablish s.cur) s = .next t ∧ bound t (a.sd[sd]).block (s.capX 2 xs) 0 ∧ SameMemory s t ∧
          VecDone s.cur t a) ∧
      (a.ports = [sp] → a.settle = true → a.copies = [] → sp.port = pn → sp.wr = wr → sp.v = v →
        s.pinStream wr sp.block sp.base = .ok (s1, pins) → s.pinRoom pins = true →
        ∃ t, exec (.streamBindEstablish s.cur) s = .next t ∧ bound t sp.block sp.base sp.pos ∧ SameMemory s t ∧ t.me.ports = [] ∧
          t.me.settle = false)) ∧
    ((s.core c).port pn = some q →
      (q.owner = s.cur → q.wr = false ∨ q.buf = [] → ∃ t, exec (.sunbind la port) s = .next t ∧ (t.core c).port pn = none ∧
        SameMemory s t ∧ VecDone s.cur t a ∧ otherPorts t) ∧
      (q.owner ≠ s.cur → exec (.sunbind la port) s = .next (s.takeTrap ⟨53, BitVec.ofNat 64 pn, none⟩ true)) ∧
      (q.susp = true → exec (move n) s = .next s) ∧
      (q.wr = false → q.buf.length ≤ 4096 → ∃ t r, exec (move n) s = .next t ∧
        (t.core c).port pn = some { q with buf := q.buf ++ r } ∧ (q.buf ++ r).length ≤ 4096 ∧ r.length ≤ 32 * ((n + 31) / 32) ∧
        SameMemoryBut c 0 0 s t ∧ ∀ j, ∃ r, ResvAfter s c j r ∧ t.strand j = { s.strand j with resv := r }) ∧
      ∀ pa, q.susp = false → q.moved % 32 = 0 → pinPa q.pins (q.va q.moved) = some (pa, false) → (s.core c).wtq = [] → s.bad = [] →
        (q.wr = false → q.buf.length + 32 ≤ 4096 → q.moved + 32 ≤ q.total → s.mayMove q.owner q.age [(pa, 32)] [] = true →
          ∃ t, exec (move 32) s = .next t ∧ SameMemory s t ∧
            (t.core c).port pn = some { q with buf := q.buf ++ memRead s.mem pa 32 }) ∧
        (q.wr = true → 32 ≤ q.buf.length → s.mayMove q.owner q.age [] [(pa, 32)] = true →
          ∃ t, exec (move 32) s = .next t ∧ (t.core c).port pn = some { q with buf := q.buf.drop 32 } ∧
            memRead t.mem pa 32 = q.buf.take 32 ∧ (∀ b, b < pa ∨ pa + 32 ≤ b → memByte t.mem b = memByte s.mem b) ∧
            BreaksOnly s t (some q.owner) pa 32)) ∧
    ((s.core c).port pn = none →
      exec (.sunbind la port) s = .next (s.takeTrap ⟨53, BitVec.ofNat 64 pn, none⟩ true) ∧ exec (move n) s = .next s)

/-- Hints complete at the front whatever they name: the pc is 8 further and no register changes. `hpref` changes no byte of memory
but by the core's queued stores, which it delivers first (the model's choice, log 94). `hmark` with tracing on appends a record
to the partition's ring, whose TRPTR counts records (log 20; R76, R328, R389). A trace sample, once its interval is over,
appends one record for every Running strand of the partition on a die that runs, changes nothing else of them, and starts the
next interval (log 89). The replay log (R381 to R384). A recorded event of a U-mode strand is a read of `time`, `cycle` or
TIMENS (type 3), of a counter, `lamiss`, `mstat` or `bkstat`, `kpoll` and `msend.try` (type 5), LR, SC and AMO (type 2),
`acq.try` (type 4), and a handler's start (type 1). In record mode the event completes and its entry follows the log, and a full
log stops with RLSTAT.ovf. In replay mode its entry is the one of its strand and count (log 17): while an earlier one stands
before it, nothing happens but an atomic's translation; when it is due, a read takes the logged value, `acq.try` and `msend.try`
the logged status, a logged grant or send waiting until it can be made, an atomic its own result, a handler starts; another
result, or another event than the next entry's, sets RLSTAT.div, the log's end RLSTAT.end, and execution continues unrecorded.
-/
def Obligations.HintsTraceAndLog : Prop :=
  (∀ (s : State) (la : BitVec 4) (op : BitVec 7) (pl value : BitVec 38) (lvl : BitVec 3) (n1 : BitVec 6) (xs : XReg) (part : Nat),
    let a := s.me
    let p := s.partOf s.cur
    let q := s.part p
    let pa := ringBase q.trbase + 32 * (q.trptr.toNat % ringSize q.trbase)
    let done (b : Strand) : Prop := b = Strand.countersOf { a with pc := a.pc + 8, csr := { a.csr with instret := a.csr.instret + 1 } } b
    (∃ t, exec (.hnop la) s = .next t ∧ OnlyStrand s.cur s t ∧ done t.me) ∧
    (∃ t, exec (.undefinedHint la op pl) s = .next t ∧ OnlyStrand s.cur s t ∧ done t.me) ∧
    (∃ t, exec (.hpref la lvl n1 xs) s = .next t ∧ SameMemoryBut (coreOf s.cur) 0 0 s t ∧ OthersKeep (coreOf s.cur) s.cur s t ∧
      t.me = Strand.countersOf { a with
        pc := a.pc + 8, csr := { a.csr with instret := a.csr.instret + 1 }
        resv := if lvl.toNat < 2 then s.resvDrained (coreOf s.cur) s.cur else a.resv } t.me) ∧
    (bit q.trctl 0 = false → ∃ t, exec (.hmark la value) s = .next t ∧ OnlyStrand s.cur s t ∧ done t.me) ∧
    (bit q.trctl 0 = true → s.bad = [] → regionOf pa = .hbm → ∃ t, exec (.hmark la value) s = .next t ∧
      (t.part p).trptr = q.trptr + 1 ∧ memRead t.mem pa 32 = s.traceRecord s.cur 1 0 (BitVec.ofNat 64 value.toNat) ∧
      ∃ r, t.me = Strand.countersOf { a with resv := r, pc := a.pc + 8, csr := { a.csr with instret := a.csr.instret + 1 } } t.me) ∧
    (let x := s.part part
     let gap := bits x.trctl 2 16
     let due := x.trTime + 1024 * gap
     (bit x.trctl 0 = false ∨ gap = 0 ∨ s.partCycles part < due → exec (.traceSample part) s = .next s) ∧
     (bit x.trctl 0 = true → gap ≠ 0 → due ≤ s.partCycles part →
       (∀ w, w < ringSize x.trbase → regionOf (ringBase x.trbase + 32 * w) = .hbm) →
       let ks := s.strands.filter fun e => e.2.status == .running && s.partOf e.1 == part && !s.haltedDie e.1
       ∃ t, exec (.traceSample part) s = .next t ∧ t.part part = { x with trTime := due, trptr := x.trptr + BitVec.ofNat 64 ks.length } ∧
         ∀ k, ∃ r, t.strand k = { s.strand k with resv := r }))) ∧
  (∀ (s s1 : State) (i : Instr) (rd rs rt : XReg) (h : AmoHdr) (op : AmoOp) (o : MsgOps) (mask : BitVec 8) (ty pa : Nat) (v w : Word)
     (put : Word → Word),
     let k := s.cur
     let c := coreOf k
     let p := s.partOf k
     let q := s.part p
     let p0 := ringBase q.rlbase + 16 * q.rlptr.toNat
     let room : Prop := s.logMode k = 1 ∧ q.rlptr.toNat < ringSize q.rlbase ∧ regionOf p0 = .hbm ∧ s1.bad = []
     let full : Prop := s.logMode k = 1 ∧ ringSize q.rlbase ≤ q.rlptr.toNat
     let replays (ty : Nat) (r : LogNext) : Prop := s.logMode k = 2 ∧ LogMeets s1 k ty r
     -- the instruction completes with u in its destination, and the log is as `l` says
     let gives (i : Instr) (xd : XReg) (u : Word) (l : State → Prop) : Prop :=
       ∃ t, exec i s = .next t ∧ t.getX xd = (if xd = 0 then 0 else u) ∧ l t
     -- an event that completes with u as its own result
     let logs (i : Instr) (xd : XReg) (ty : Nat) (u u' : Word) : Prop :=
       (room → gives i xd u' fun t => Recorded s1 t k ty u) ∧ (full → gives i xd u' fun t => LogStopped s1 t p 0) ∧
       (replays ty .other → gives i xd u' fun t => LogStopped s1 t p 2) ∧ (replays ty .ended → gives i xd u' fun t => LogStopped s1 t p 1)
     let load (va n : Nat) : Prop := ∃ s0 x u, va % n = 0 ∧ s.reach .read va n = .ok (s0, x) ∧ s0.loadAt va n x = .ok (s1, u) ∧
       s.readsTimens va n = true ∧ v = BitVec.ofNat 64 u ∧ ty = 3
     -- i reads v, after which the state is s1
     let reads : Prop :=
       (∃ op src n, i = csrInstr op src rd n ∧ n < 4096 ∧ csrOpWrites op src = false ∧ s.csrAllowed n false = true ∧ s.csrValue n = some v ∧
         s1 = s ∧ put = id ∧ ((ty = 3 ∧ (n = 0xC00 ∨ n = 0xC01)) ∨
           (ty = 5 ∧ (n = 0x809 ∨ n = 0xCD0 ∨ n = 0xCD1 ∨ (0xC03 ≤ n ∧ n ≤ 0xC1F))))) ∨
       (∃ f off, i = .load f rd rs off ∧ load (s.getX rs + BitVec.signExtend 64 off).toNat (loadBytes f) ∧
         put = fun u => loadExtend f u.toNat) ∨
       (∃ w sc sp, i = .lda w sc sp rd rs ∧ load (s.getX rs).toNat w.bytes ∧ put = fun u => sext64 (8 * w.bytes) u.toNat) ∨
       (i = .kpoll rd mask ∧ s1 = s ∧ put = id ∧ ty = 5 ∧ bits v 16 48 = 0 ∧ ∀ j : Reg8,
         (bit v j.val = true ↔ mask.getLsbD j.val = true ∧ (s.me.k[j]).count ≠ 0) ∧
         (bit v (j.val + 8) = true ↔ mask.getLsbD j.val = true ∧ (s.me.k[j]).err = true))
     -- i is an atomic whose own result is v
     let va := (s.getX rs).toNat
     let n := amoBytes h
     let atomic : Prop := ∃ s2 x key u,
       (i = .lr h rd rs ∧ s.atomReach .lr va n = .ok (s1, x, key) ∧ s1.atomRead key va x.pa n = .ok (s2, u) ∧ v = amoExtend h u) ∨
       (i = .sc h rd rs rt ∧ s.atomReach .sc va n = .ok (s1, x, key) ∧
         v = if (if h.rl || (s.core c).wtq.any (·.meets x.pa n) then s.resvDrained c k else s.me.resv) = some (x.pa / 64) then 0 else 1) ∨
       (i = .amo op h rd rs rt ∧ s.atomReach .amo va n = .ok (s1, x, key) ∧ (s1.atomRelease h.rl).atomRead key va x.pa n = .ok (s2, u) ∧
         v = amoExtend h u)
     (reads → logs i rd ty v (put v) ∧ (replays ty (.due w) → gives i rd (put w) fun t => LogMoved s1 t k 1) ∧
       (replays ty .later → exec i s = .next s)) ∧
     (atomic → logs i rd 2 v v ∧ (replays 2 (.due v) → gives i rd v fun t => LogMoved s1 t k 1) ∧
       (w ≠ v → replays 2 (.due w) → gives i rd v fun t => LogStopped s1 t p 2) ∧ (replays 2 .later → exec i s = .next s1)) ∧
     (let q := Hold.unpack (s.getX rs)
      let i : Instr := .acqTry rd rs
      s1 = s → s.me.acqCheck (s.getX rs) = none →
        logs i rd 4 (BitVec.ofNat 64 (s.tryStatus q)) (BitVec.ofNat 64 (s.tryStatus q)) ∧ (replays 4 .later → exec i s = .next s) ∧
        (w ≠ 0 → replays 4 (.due w) → gives i rd w fun t => LogMoved s t k 1 ∧ t.me.hold = s.me.hold ∧ t.core c = s.core c) ∧
        (replays 4 (.due 0) →
          (q = Hold.zero ∨ s.grantable k q = true → gives i rd 0 fun t => LogMoved s t k 1 ∧ ∃ bs ts ps, Grants s t c q bs ts ps ∧
            t.me.blocks = s.me.blocks ++ bs ∧ t.me.tiles = s.me.tiles ++ ts ∧ t.me.pages = s.me.pages ++ ps) ∧
          (q ≠ Hold.zero → s.grantable k q = false → exec i s = .next s))) ∧
     (let i : Instr := .msendTry o rd
      let sq (u : State) := (u.core c).sq o.net
      s.noStreams = true → s.sendCheck o = .ok (s1, pa) → (replays 5 .later → exec i s = .next s) ∧
        (16 ≤ (sq s).length → logs i rd 5 1 1 ∧ (replays 5 (.due 0) → exec i s = .next s)) ∧
        ((sq s).length < 16 → logs i rd 5 0 0 ∧
          (replays 5 (.due 0) → gives i rd 0 fun t => LogMoved s1 t k 1 ∧ (sq t).length = (sq s).length + 1)) ∧
        (w ≠ 0 → replays 5 (.due w) → gives i rd w fun t => LogMoved s1 t k 1 ∧ sq t = sq s))) ∧
  ∀ (s : State) (core strand : Nat) (ks : List Nat) (m : Msg) (f : Flight),
    let k := 16 * core + strand
    let q := s.part f.part
    let p0 := ringBase q.rlbase + 16 * q.rlptr.toNat
    let e := s.logEntry f.part q.rlptr.toNat
    let start : Instr := .handlerStart core strand
    let starts (l : State → Prop) : Prop := ∃ t, exec start s = .next t ∧ (t.strand k).status = .running ∧ (t.strand k).pc = m.handler ∧
      (t.part f.part).rlptr = q.rlptr + 1 ∧ (t.strand k).rlCount = 1 ∧ l t
    strand < 16 → s.haltedDie k = false → s.flight? m.flight = some f → m.hop = none → q.rlptr.toNat < ringSize q.rlbase →
    (s.nextStart core = some (m, ks) → k ∈ ks → f.rlMode = 1 → regionOf p0 = .hbm → s.bad = [] → starts fun t =>
      memRead t.mem p0 16 = leBytes 8 (BitVec.toNat m.startValue) ++ leBytes 2 core ++ leBytes 1 strand ++ leBytes 1 1 ++ leBytes 4 0) ∧
    (f.rlMode = 2 → e.2.2.2.1 ≠ 0 →
      (s.nextStart core = some (m, ks) → k ∈ ks → e = (m.startValue, core, strand, 1, 0) → starts fun _ => True) ∧
      ((s.core core).vest = [m] → (e.1, e.2.1, e.2.2.1, e.2.2.2.1) ≠ (m.startValue, core, strand, 1) → exec start s = .next s)) ∧
    bits m.startValue 0 11 = coreOf m.sender % 2048 ∧ bits m.startValue 11 4 = m.sender % 16 ∧
    (bit m.startValue 15 = true ↔ m.net = .rep) ∧ bits m.startValue 16 32 = m.sends % 2 ^ 32 ∧ bits m.startValue 48 16 = 0

/-! ### Host registers and accesses from outside (R349 to R363, R384, R392) -/

/-- Writes of the host's registers, by their rows and through BAR0. NOTIFY and RESYNC that name a command the host may submit move
`notified`, and else set badnotify (R357, R360). Setting QCTL.en restarts the counters of the queue; clearing it changes QCTL
alone, and after a failed boot it stays clear (R355, R391). The ring registers are fixed while the queue is enabled (R355,
R392). A trace or log base keeps its reserved bits zero, and RLCTL.mode refuses 3, and any mode but off without feature 12; a
mode other than off starts at the log's first entry (the model's choice, log 88), and the write of TRCTL that turns sampling on
starts its first interval (R384, R389, R392; the model's choice, log 89). An access that is not naturally aligned, or of another
size than 4 or 8 bytes, does nothing (R349). Writes of the package's registers. FEATACC takes the offered bits with bit 0 set,
and nothing while a queue is enabled (R354). WINBASE takes 0 to 11 in [39:36] and ignores more (R351). While DOMAIN.en = 1 only
en changes; en cannot be set with a package number of 384 or more; a package whose en is 0 is aligned to no domain time, neither
locked nor held out (R363, R376; the model's choice, log 91); a port whose peer reported another domain, or this package's
number, is held down (R363). SWI makes the strand's software interrupt pending (R331). ATTREQ starts a report unless one is
being made (R394). The same writes through BAR0 have the same effect, and a write of a read-only register has none. -/
def Obligations.HostRegisters : Prop :=
  (∀ (s : State) (q : Nat) (v : Word), q < 16 →
     let h := s.queue q
     let n := bits v 0 32
     let ahead (a b : Nat) : Nat := (a + 2 ^ 32 - b) % 2 ^ 32
     let good : Prop := 0 < ahead n h.consumed ∧ ahead n h.consumed ≤ h.size ∧ ahead n h.notified < 2 ^ 31
     let back : Prop := ahead n h.consumed ≤ ahead h.notified h.consumed
     let base := 0x10000 + 0x100 * q
     let pbase := 0x1001200 + 0x40 * q
     let write (off size : Nat) : Instr := .registerWrite off size v
     (good → QueueTakes (.notify q v) s q { h with notified := n }) ∧
     (¬ good → QueueTakes (.notify q v) s q { h with badnotify := true }) ∧
     (back → QueueTakes (.resync q v) s q { h with notified := n, refetch := if n = h.consumed then none else h.refetch }) ∧
     (¬ back → QueueTakes (.resync q v) s q { h with badnotify := true }) ∧
     (bit v 0 = true → s.regs.bootfail = false → h.en = false → QueueTakes (.queueEnable q v) s q { h with
       qctl := v &&& 0x3F0F0003, consumed := 0, completed := 0, notified := 0, cqtail := 1, cmds := [], finished := [], refetch := none }) ∧
     (bit v 0 = true → s.regs.bootfail = false → h.en = true →
       QueueTakes (.queueEnable q v) s q { h with qctl := setBits (v &&& 0x3F0F0003) 16 4 h.part }) ∧
     (bit v 0 = true → exec (write (base + 0x10) 8) s = exec (.queueEnable q v) s) ∧
     (bit v 0 = false → QueueTakes (write (base + 0x10) 8) s q { h with
       qctl := if h.en then setBits (v &&& 0x3F0F0003) 16 4 h.part else v &&& 0x3F0F0003 }) ∧
     (bit v 0 = true → s.regs.bootfail = true → QueueTakes (write (base + 0x10) 8) s q { h with
       qctl := if h.en then setBits (v &&& 0x3F0F0002) 16 4 h.part else v &&& 0x3F0F0002 }) ∧
     exec (write (base + 0x20) 8) s = exec (.notify q v) s ∧ exec (write (base + 0x50) 8) s = exec (.resync q v) s ∧
     (h.en = false → QueueTakes (write base 8) s q { h with qbase := v &&& 0xFFFFFFFFFFFFF00F } ∧
       QueueTakes (write (base + 8) 8) s q { h with cqbase := v &&& 0xFFFFFFFFFFFFF00F }) ∧
     (h.en = true → exec (write base 8) s = .next s ∧ exec (write (base + 8) 8) s = .next s) ∧
     QueueTakes (write (base + 0x18) 8) s q { h with badnotify := h.badnotify && !bit v 2 } ∧
     QueueTakes (write (base + 0x48) 4) s q { h with cqhead := n } ∧
     (let p := s.part q
      let m := bits v 0 2
      (m = 3 ∨ (m ≠ 0 ∧ s.feature 12 = false) → exec (.rlctlModeWrite q v) s = .next s) ∧
      (m ≠ 3 → m = 0 ∨ s.feature 12 = true → PartTakes (.rlctlModeWrite q v) s q { p with
        rlctl := BitVec.ofNat 64 m, rlptr := if m = 0 then p.rlptr else 0 }) ∧
      exec (write (pbase + 0x20) 8) s = exec (.rlctlModeWrite q v) s ∧
      (let w := ((p.trctl &&& ~~~0x3FFFD) ||| (v &&& 0x3FFFD)) &&& ~~~(v &&& 2)
       let on (w : Word) : Bool := bit w 0 && decide (bits w 2 16 ≠ 0)
       PartTakes (write (pbase + 8) 8) s q { p with
         trctl := w, trTime := if on w && !on p.trctl then s.partCycles q else p.trTime }) ∧
      PartTakes (write pbase 8) s q { p with trbase := v &&& 0xFFFFFFFFFFFFF00F } ∧
      PartTakes (write (pbase + 0x18) 8) s q { p with rlbase := v &&& 0xFFFFFFFFFFFFF00F } ∧
      PartTakes (write (pbase + 0x30) 8) s q { p with rlstat := p.rlstat &&& ~~~(v &&& 7) }) ∧
     ∀ off size, (size ≠ 4 ∧ size ≠ 8) ∨ off % size ≠ 0 → exec (write off size) s = .next s) ∧
  (∀ (s : State) (v : Word) (core strand : Nat),
     let w := v &&& 0x8000FFFFFFFF01FF
     let k := 16 * core + strand
     let r := s.regs
     let regs (i : Instr) (r' : Regs) : Prop := exec i s = .next { s with regs := r' }
     let write (off : Nat) : Instr := .registerWrite off 8 v
     (s.queues.any (fun q => q.2.en) = true → ∀ i, exec (.feataccWrite i v) s = .next s) ∧
     (s.queues.any (fun q => q.2.en) = false → regs (.feataccWrite 0 v) { r with featacc := r.featacc.set 0 ((v &&& s.featOff 0) ||| 1) } ∧
       ∀ i, i ≠ 0 → exec (.feataccWrite i v) s = .next s) ∧
     (bits v 36 4 ≤ 11 → regs (.winbaseWrite v) { r with winbase := BitVec.ofNat 64 (bits v 36 4 * 2 ^ 36) }) ∧
     (11 < bits v 36 4 → exec (.winbaseWrite v) s = .next s) ∧
     (let ports (d : Word) : List UaPort := r.uaports.map fun u => { u with
        down := u.down || u.domid != bits d 16 32 || u.peer == some (bits d 0 9) }
      let joined (d : Word) : Regs := { r with domain := d, uaports := ports d }
      let left (d : Word) : Regs := { r with
        domain := d, uaports := ports d, ptp := setBits r.ptp 63 1 0, stepped := false, joined := false, heldOut := false, rate := 0 }
      (bit r.domain 63 = true → bit v 63 = true → regs (.domainWrite v) (joined (setBits r.domain 63 1 1))) ∧
      (bit r.domain 63 = true → bit v 63 = false → regs (.domainWrite v) (left (setBits r.domain 63 1 0))) ∧
      (bit r.domain 63 = false → bits v 0 9 < 384 → regs (.domainWrite v) (if bit v 63 then joined w else left w)) ∧
      (bit r.domain 63 = false → 384 ≤ bits v 0 9 → regs (.domainWrite v) (left (setBits w 63 1 0)))) ∧
     (core < 1152 → strand < 16 → (∃ t, exec (.swi core strand) s = .next t ∧ OnlyStrand k s t ∧
         t.strand k = { s.strand k with csr := { (s.strand k).csr with ssip := true } }) ∧
       exec (write (0x20000 + 8 * k)) s = exec (.swi core strand) s) ∧
     (r.attbuf = none → regs (.attreq v) { r with attbuf := some (bits v 6 58 * 64), attdone := false }) ∧
     (r.attbuf.isSome = true → exec (.attreq v) s = .next s) ∧
     (∀ i, i < 4 → exec (write (0x40 + 8 * i)) s = exec (.feataccWrite i v) s) ∧ exec (write 0x60) s = exec (.winbaseWrite v) s ∧
     exec (write 0x68) s = exec (.domainWrite v) s ∧ exec (write 0x1001018) s = exec (.attreq v) s ∧
     ∀ off, off ∈ [0, 8, 0x20, 0x1000000, 0x1000008, 0x1000010, 0x1000060, 0x1001000, 0x1001010, 0x1001020] → exec (write off) s = .next s)

/-- Accesses from outside the package. The host's bytes at WINBASE, and a peer's write in an enabled domain, land at their place and
nowhere else, and the strands whose reservation they meet lose it. A peer's read and a host's read change no byte, and the host
reads the bytes at WINBASE, and registers by naturally aligned accesses of 4 or 8 bytes; a peer's atomic stores the combined
value at its operand's place; without a domain, and while the package is held out of it, none acts. A UALink port comes up exactly
when its peer reports this domain and a package number below 384 that is not in use: neither this package's nor that of another
port that is up (the model's reading of R363, log 62) (R60, R96, R105, R158, R350, R363, R376). -/
def Obligations.OutsideAccesses : Prop :=
  ∀ (s : State) (off n : Nat) (bs : List Byte) (rlx dbl : Bool) (op : AmoOp) (src : Word) (port : Nat) (dom : BitVec 32) (pk : BitVec 9),
    let on := bit s.regs.domain 63
    let lands (i : Instr) (pa : Nat) (l : List Byte) : Prop := ∃ t, exec i s = .next t ∧ memRead t.mem pa l.length = l ∧
      (∀ a, a < pa ∨ pa + l.length ≤ a → memByte t.mem a = memByte s.mem a) ∧ t.cores = s.cores ∧ t.queues = s.queues ∧ t.dies = s.dies ∧
      ∀ k, (∃ r, t.strand k = { s.strand k with resv := r }) ∧
        ∀ g, (s.strand k).resv = some g →
          (64 * g < pa + l.length ∧ pa < 64 * g + 64 → (t.strand k).resv = none) ∧
          (¬ (64 * g < pa + l.length ∧ pa < 64 * g + 64) → t.strand k = s.strand k)
    (s.bad = [] →
      (off + bs.length ≤ 0x1000000000 → lands (.hostWrite off bs rlx) (s.regs.winbase.toNat + off) bs) ∧
      (on = true → s.regs.heldOut = false → off + bs.length ≤ hbmTop → lands (.remoteAccess off (.write bs)) off bs) ∧
      (on = true → s.regs.heldOut = false → let m := if dbl then 8 else 4
        off % m = 0 → off + m ≤ hbmTop → lands (.remoteAccess off (.atomic op dbl src)) off
          (leBytes m (amoEval op (8 * m) (leNat (memRead s.mem off m)) src.toNat)))) ∧
    (on = true → s.regs.heldOut = false → off + n ≤ hbmTop → ∃ t, exec (.remoteAccess off (.read n)) s = .next t ∧ SameMemory s t ∧ t.strands = s.strands ∧
      t.cores = s.cores ∧ t.queues = s.queues) ∧
    (on = false ∨ s.regs.heldOut = true → ∀ o, exec (.remoteAccess off o) s = .next s) ∧
    (0x1000000000 < off + bs.length → exec (.hostWrite off bs rlx) s = .next s) ∧
    (∀ l, s.regs.lifecycle ≠ 3 → s.sched = .hostRead off n :: l → off + n ≤ 0x1000000000 → ∃ t, step s = .next t ∧ SameMemory s t ∧
      t.strands = s.strands ∧ t.cores = s.cores ∧ t.queues = s.queues ∧
      s.bar2Read off n = memRead s.mem (s.regs.winbase.toNat + off) n) ∧
    ((n ≠ 4 ∧ n ≠ 8) ∨ off % n ≠ 0 → s.bar0Read off n = none) ∧
    (off % 8 = 0 → off < 0x10000000 → s.bar0Read off 8 = some (s.regRead off).toNat ∧
      s.bar0Read off 4 = some (bits (s.regRead off) 0 32) ∧ s.bar0Read (off + 4) 4 = some (bits (s.regRead off) 32 32)) ∧
    (let d := s.regs.domain
     let up : Prop := dom.toNat = bits d 16 32 ∧ pk.toNat ≠ bits d 0 9 ∧ pk.toNat < 384 ∧
       ∀ j u, j ≠ port → s.regs.uaports[j]? = some u → u.down = false → u.peer ≠ some pk.toNat
     (on = true → port < s.regs.uaports.length → ∃ t l, exec (.ualinkPortTraining port dom pk) s = .next t ∧
       t = { s with regs := { s.regs with uaports := l } } ∧ (∀ j, j ≠ port → l[j]? = s.regs.uaports[j]?) ∧
       (up → l[port]? = some ⟨some pk.toNat, dom.toNat, false⟩) ∧ (¬ up → l[port]? = some ⟨some pk.toNat, dom.toNat, true⟩)) ∧
     (on = false → exec (.ualinkPortTraining port dom pk) s = .next s))

/-! ### Host queues and commands (R345 to R362, R395) -/

/-- Fetching. An enabled queue that is not paused and has a command to fetch and room for its entries takes the slot of the next
sequence number when it names that number, and the command may execute; otherwise it fetches the slot again, 0.5, 1.0, 1.5 and
2.0 µs after the first fetch, and then gives the command up with status 16 and the number it found (R355, R357). A slot whose
opcode names no command completes with status 17 and the opcode, at its turn (R356; at the fetch, which is the model's choice:
log 50). Every command that may execute completes alike: a reserved byte that is not zero gives status 18 with its offset; else
a command of queue 0 on another queue gives 21 with the queue's partition (18 before 21: log 49); NOP gives 0. The command
leaves the queue, its entry has the layout of R358, and nothing else changes. A command that is not at its turn, or of another
opcode, does nothing (R356, R357, R358). -/
def Obligations.QueuesAndCommands : Prop :=
  (∀ (s : State) (q : Nat), KnownCmds s q →
     let h := s.queue q
     let seq := (h.consumed + 1) % 2 ^ 32
     let d := s.readSlot q seq
     let used := (h.cqtail + 2 ^ 32 - h.cqhead) % 2 ^ 32
     let need := if slotSeq d = seq ∧ slotOp d = 1 ∧ slotFlag d = true then 2 else 1
     (h.en = false ∨ h.pause = true ∨ h.notified = h.consumed → exec (.slotFetch q) s = .next s) ∧
     (h.en = true → h.pause = false → h.refetch = none → h.notified ≠ h.consumed →
       (h.cqSize < used + need → exec (.slotFetch q) s = .next s) ∧
       (used + need ≤ h.cqSize → slotSeq d ≠ seq → QueueTakes (.slotFetch q) s q { h with refetch := some (seq, s.time, 0, slotSeq d) }) ∧
       (used + need ≤ h.cqSize → slotSeq d = seq → slotOp d ∈ knownOps →
         QueueTakes (.slotFetch q) s q { h with consumed := seq, cmds := h.cmds ++ [⟨seq, d⟩] }) ∧
       (used + need ≤ h.cqSize → slotSeq d = seq → slotOp d ∉ knownOps → q ≠ 0 ∨ h.cmds = [] → ∃ t, exec (.slotFetch q) s = .next t ∧
         CommandDone (s.setQueue q { h with consumed := seq, cmds := h.cmds ++ [⟨seq, d⟩] }) t q seq 17 (slotOp d))) ∧
     ∀ n t0 k x, h.refetch = some (n, t0, k, x) → h.en = true →
       let e := s.readSlot q n
       (s.time < t0 + 500 * (k + 1) → exec (.slotRefetch q) s = .next s) ∧
       (t0 + 500 * (k + 1) ≤ s.time →
         (slotSeq e = n → slotOp e ∈ knownOps →
           QueueTakes (.slotRefetch q) s q { h with consumed := n, refetch := none, cmds := h.cmds ++ [⟨n, e⟩] }) ∧
         (slotSeq e = n → slotOp e ∉ knownOps → q ≠ 0 ∨ h.cmds = [] → ∃ t, exec (.slotRefetch q) s = .next t ∧
           CommandDone (s.setQueue q { h with consumed := n, refetch := none, cmds := h.cmds ++ [⟨n, e⟩] }) t q n 17 (slotOp e)) ∧
         (slotSeq e ≠ n → k < 3 → QueueTakes (.slotRefetch q) s q { h with refetch := some (n, t0, k + 1, slotSeq e) }) ∧
         (slotSeq e ≠ n → 3 ≤ k → ∃ t, exec (.slotRefetch q) s = .next t ∧
           CommandDone (s.setQueue q { h with consumed := n, refetch := none }) t q n 16 (slotSeq e)))) ∧
  (∀ (s : State) (q : Nat) (w : Word) (i : Instr) (op : Nat) (zero : Bool), KnownCmds s q →
     (i, op, zero) ∈ [(Instr.nop q w, 0, false), (.launch q w, 1, false), (.partCreate q w, 0x10, true), (.partDestroy q w, 0x11, true),
       (.keyLoad q w, 0x12, true), (.swap q w, 0x13, true), (.evict q w, 0x14, true), (.pwrState q w, 0x20, true),
       (.pwrBudget q w, 0x21, true), (.marginAdopt q w, 0x22, true), (.dieFence q w, 0x23, true), (.dieRestore q w, 0x24, true)] →
     let n := w.toNat
     let done (status detail : Nat) : Prop := ∃ t, exec i s = .next t ∧ CommandDone s t q n status detail
     (s.cmdAt q n = none → exec i s = .next s) ∧
     ∀ d, s.cmdAt q n = some d →
       (slotOp d ≠ op → exec i s = .next s) ∧
       (slotOp d = op →
         (recN d 6 1 ≠ 0 → done 18 6) ∧
         (recN d 6 1 = 0 → 2 ≤ recN d 7 1 → done 18 7) ∧
         (slotResv d = none → zero = true → q ≠ 0 → done 21 (s.queue q).part) ∧
         (slotResv d = none → op = 0 → done 0 0)))

/-- LAUNCH names its partition by its queue. A partition that does not exist, an ISA version that the part lacks, a required feature
that was not accepted, and a full partition give 21, 19, 20 and 8 (21 for a partition that does not exist: log 52; the order of
the statuses: log 49); while a head is elected the command waits; a record that the head landing rejects gives its code and
detail (the checks are in FlightInstructions; a misaligned one is not read at all: log 107); one that it accepts joins the
launched flights, and the command completes with 0 (R288, R303, R356); the reserved field of its `vmroot` is read as 0 (R97).
PART_CREATE makes a partition of halls that partition 0 holds on present dies, with its pools; a mask that names no hall is
accepted (log 57); of partition 0 it makes the pools. PART_DESTROY ends the partition's flights and their contexts, performs the
stores on their way (log 71), wipes its key and returns its halls to partition 0. KEY_LOAD in PROD with the port closed puts the
unwrapped key in the partition. Each refuses with the status and detail of R359 (R361, R362, R395), several at once in the order
of log 49. -/
def Obligations.LaunchAndPartitions : Prop :=
  (∀ (s : State) (q : Nat) (w : Word) (d : List Byte), KnownCmds s q → s.cmdAt q w.toNat = some d → slotOp d = 1 → slotResv d = none →
     let n := w.toNat
     let i : Instr := .launch q w
     let p := (s.queue q).part
     let req := recN d 32 32
     let lacks (b : Nat) : Prop := b < 256 ∧ req.testBit b = true ∧ s.accepted.testBit b = false
     let check := s.validate p (BitVec.ofNat 64 (recN d 16 8) &&& vmrootMask) (BitVec.ofNat 64 (recN d 8 8)) (if slotFlag d then some (q, n) else none)
     let done (status detail : Nat) : Prop := ∃ t, exec i s = .next t ∧ CommandDone s t q n status detail
     ((s.part p).live = false → done 21 p) ∧
     ((s.part p).live = true →
       (recN d 24 4 ≠ 4 ∨ recN d 28 4 ≠ 0 → done 19 (recN d 24 4 * 2 ^ 16 + recN d 28 4)) ∧
       (recN d 24 4 = 4 → recN d 28 4 = 0 →
         (∀ b, lacks b → (∀ c, c < b → ¬ lacks c) → done 20 b) ∧
         ((∀ b, ¬ lacks b) →
           (4096 ≤ s.flightCount p → done 8 0) ∧
           (s.flightCount p < 4096 → s.elect = true → exec i s = .next s) ∧
           (s.flightCount p < 4096 → s.elect = false →
             Noted s check.1 ∧
             (∀ f, check.2 = .ok f → f.placed = true →
               Completes i s q n 0 0 fun u => u = { check.1 with flights := s.flights ++ [f], nextId := s.nextId + 1 }) ∧
             (∀ c x, check.2 = .error (c, x, none) → Completes i s q n c x fun u => u = check.1) ∧
             ∀ c x r, check.2 = .error (c, x, some r) → Completes i s q n c x fun u => u = { s with
               mem := u.mem, bad := u.bad, soft := u.soft, dir := u.dir, strands := u.strands, regs := { s.regs with ecc := u.regs.ecc } }))))) ∧
  (∀ (s : State) (w : Word) (d : List Byte), KnownCmds s 0 → s.cmdAt 0 w.toNat = some d → slotResv d = none →
     let n := w.toNat
     let p := recN d 8 1
     let x := s.part p
     let zero := s.part 0
     let done (i : Instr) (status detail : Nat) : Prop := ∃ t, exec i s = .next t ∧ CommandDone s t 0 n status detail
     let others (u : State) : Prop := ∀ j, j ≠ 0 → j ≠ p → u.part j = s.part j
     (slotOp d = 0x10 →
       let i : Instr := .partCreate 0 w
       let mask := recN d 16 16
       let halls : BitVec 72 := if p = 0 then zero.halls else BitVec.ofNat 72 mask
       let ck := 2 * ckptSize * (16 * (16 * (hallsOf halls).length) + recN d 40 4)
       let pools (y : Partition) : Prop := y.pools = true ∧ y.saveBase = recN d 32 8 ∧ y.saveN = recN d 40 4 ∧ y.ckptBase = recN d 48 8 ∧
         y.ckptLen = ck ∧ y.halls = halls ∧ y.key = none
       let ok : Prop := s.rangeOk p (recN d 32 8, recN d 40 4 * slotSize) = true ∧ s.rangeOk p (recN d 48 8, ck) = true ∧
         (p ≠ 0 → mask < 2 ^ 72 ∧ ∀ h, bit halls h = true → bit zero.halls h = true ∧ s.regs.present.testBit (h / 9) = true)
       (15 < p ∨ (p ≠ 0 ∧ x.live = true) ∨ (p = 0 ∧ x.pools = true) → done i 21 p) ∧
       (p ≤ 15 → p ≠ 0 → x.live = false → ok → Completes i s 0 n 0 0 fun u => u = { s with parts := u.parts } ∧
         (u.part p).live = true ∧ pools (u.part p) ∧ u.part 0 = { zero with halls := zero.halls &&& ~~~halls } ∧ others u) ∧
       (p = 0 → x.pools = false → x.key = none → ok → Completes i s 0 n 0 0 fun u => u = { s with parts := u.parts } ∧
         pools (u.part 0) ∧ (u.part 0).live = x.live ∧ others u) ∧
       (p ≤ 15 → (p ≠ 0 → x.live = false) → (p = 0 → x.pools = false) → ¬ ok → done i 22 0)) ∧
     (slotOp d = 0x11 →
       let i : Instr := .partDestroy 0 w
       (p = 0 ∨ x.live = false → done i 21 p) ∧
       (p ≠ 0 → x.live = true → (∀ f ∈ s.flights, f.part ≠ p) → Completes i s 0 n 0 0 fun u =>
         u = { s with
           parts := u.parts, cores := u.cores, mem := u.mem, bad := u.bad, soft := u.soft, dir := u.dir, strands := u.strands } ∧
         (Settled s → u = { s with parts := u.parts, cores := u.cores }) ∧
         (u.part p).live = false ∧ (u.part p).key = none ∧ (u.part p).halls = 0 ∧
         (u.part p).pools = false ∧ (u.part 0).halls = zero.halls ||| x.halls ∧ others u) ∧
       (p ≠ 0 → x.live = true → ∃ t, exec i s = .next t ∧ (∀ f ∈ t.flights, f.part ≠ p) ∧
         (∀ f ∈ s.flights, f.part = p → ∀ k, (s.strand k).flight = some f.id → s.isLive k = true ∨ (s.strand k).status = .saved → Ended t k) ∧
         (t.part p).live = false ∧ (t.part p).key = none ∧ (t.part p).halls = 0 ∧ (t.part 0).halls = zero.halls ||| x.halls)) ∧
     (slotOp d = 0x12 →
       let i : Instr := .keyLoad 0 w
       (s.feature 9 = false → done i 20 9) ∧
       (s.feature 9 = true → x.live = false → done i 21 p) ∧
       (s.feature 9 = true → x.live = true → s.portOpen = true ∨ s.regs.lifecycle ≠ 1 → done i 24 1) ∧
       (s.feature 9 = true → x.live = true → s.portOpen = false → s.regs.lifecycle = 1 →
         let r := unwrapKey p (toNats (s.hostRead (recN d 16 8 % 2 ^ 51) 208))
         (r = none → done i 24 0) ∧
         ∀ k, r = some k → Completes i s 0 n 0 0 fun u => u = { s with parts := u.parts } ∧ u.part p = { x with key := some k } ∧
           ∀ j, j ≠ p → u.part j = s.part j)))

/-- SWAP that is accepted waits for its exchange; the exchange, when no strand of the outgoing partition's cores runs or sleeps,
leaves each core's blocks in its loft, passes the halls to the incoming partition, and completes SWAP; a partition that comes in for
the first time finds blocks of zeros (log 58). A loft that holds the image of a third partition refuses SWAP with 21 and that
partition (R347). EVICT copies the lofts of a swapped-out partition to local HBM and completes. Each refuses with the status of R359
(R346, R347); where EVICT's images lie, and when it refuses, is the model's choice (log 112). -/
def Obligations.SwapAndEvict : Prop :=
  ∀ (s : State) (w : Word) (d : List Byte),
    let n := w.toNat
    let done (i : Instr) (status detail : Nat) : Prop := ∃ t, exec i s = .next t ∧ CommandDone s t 0 n status detail
    (KnownCmds s 0 → s.cmdAt 0 n = some d → slotResv d = none → slotOp d = 0x13 → s.regs.swap = none →
      let out := recN d 8 1
      let inc := recN d 9 1
      let o := s.part out
      let i := s.part inc
      let cores := coresIn o.halls
      (s.feature 14 = false → done (.swap 0 w) 20 14) ∧
      (s.feature 14 = true → o.live = false ∨ o.halls = 0 → done (.swap 0 w) 21 out) ∧
      (s.feature 14 = true → o.live = true → o.halls ≠ 0 →
        i.live = false ∨ i.halls ≠ 0 ∨ inc = out ∨ (i.outHalls ≠ 0 ∧ i.outHalls ≠ o.halls) → done (.swap 0 w) 21 inc) ∧
      (s.feature 14 = true → o.live = true → o.halls ≠ 0 → i.live = true → i.halls = 0 → inc ≠ out → i.outHalls = 0 ∨ i.outHalls = o.halls →
        ∀ (j c x : Nat), cores[j]? = some c → (s.core c).loftImg = some x → x ≠ inc →
          (∀ (m b : Nat), m < j → cores[m]? = some b → (s.core b).loftImg = none ∨ (s.core b).loftImg = some inc) → done (.swap 0 w) 21 x) ∧
      (s.feature 14 = true → o.live = true → o.halls ≠ 0 → i.live = true → i.halls = 0 → inc ≠ out →
        i.outHalls = 0 ∨ i.outHalls = o.halls → (∀ c ∈ cores, (s.core c).loftImg = none ∨ (s.core c).loftImg = some inc) →
        (s.rangeOk out (recN d 16 8, 0x100000 * cores.length) = true →
          exec (.swap 0 w) s = .next { s with regs := { s.regs with swap := some (out, inc, recN d 16 8, n) } }) ∧
        (s.rangeOk out (recN d 16 8, 0x100000 * cores.length) = false → done (.swap 0 w) 22 0))) ∧
    (s.regs.swap = none → exec .swapExchange s = .next s) ∧
    (∀ out inc area m, s.regs.swap = some (out, inc, area, m) → out ≠ inc →
      let halls := (s.part out).halls
      ((∃ c ∈ coresIn halls, ∃ k ∈ strandsOf c, s.isLive k = true) → exec .swapExchange s = .next s) ∧
      (KnownCmds s 0 → (∀ c ∈ coresIn halls, (s.core c).bankq = [] ∧ ∀ k ∈ strandsOf c, s.isLive k = false) →
        Completes .swapExchange s 0 m 0 0 fun u =>
          u.regs.swap = none ∧ (u.part out).halls = 0 ∧ (u.part out).outHalls = halls ∧ (u.part inc).halls = halls ∧
          (u.part inc).outHalls = 0 ∧ ∀ c ∈ coresIn halls, (u.core c).loftImg = some out ∧
            (∀ b, b < 64 → memRead (u.core c).loft (b * 0x2000) 0x2000 = leBytes 0x2000 ((s.core c).block b).data.toNat) ∧
            ((s.part inc).evicted = none → (s.core c).loftImg ≠ some inc → ∀ b, (u.core c).block b = Block.zero))) ∧
    (KnownCmds s 0 → s.cmdAt 0 n = some d → slotResv d = none → slotOp d = 0x14 →
      let p := recN d 8 1
      let x := s.part p
      let addr := recN d 16 8
      let cores := coresIn x.outHalls
      (s.feature 14 = false → done (.evict 0 w) 20 14) ∧
      (s.feature 14 = true → x.live = false ∨ x.outHalls = 0 ∨ x.evicted.isSome = true ∨ s.regs.swap.isSome = true → done (.evict 0 w) 21 p) ∧
      (s.feature 14 = true → x.live = true → x.outHalls ≠ 0 → x.evicted = none → s.regs.swap = none →
        (s.rangeOk p (addr, 0x100000 * cores.length) = false → done (.evict 0 w) 22 0) ∧
        (s.rangeOk p (addr, 0x100000 * cores.length) = true → x.stash = [] → s.bad = [] → Completes (.evict 0 w) s 0 n 0 0 fun u =>
          (u.part p).evicted = some addr ∧ (∀ j, j ≠ p → u.part j = s.part j) ∧ ∀ j c, cores[j]? = some c → (u.core c).loftImg = none ∧
            memRead u.mem (addr + j * 0x100000) 0x100000 = memRead (s.core c).loft 0 0x100000)))

/-! ### Power, loans, clamps and time (R366 to R376) -/

/-- Commands of power. PWR_STATE refuses a reserved state, and DF of a die that is not fenced, with 23 and 2; it completes when
every named die that is not in DF has the state, and until then asks for it; POWER_STATE_CHANGE enters it, in D0 with the margin
that was adopted. PWR_BUDGET outside 800 to 2400 W gives 23 and 1; a raise holds at once, a lowering when no loan is outstanding.
MARGIN_ADOPT of the current proposal gives it to every live die, of another id gives 23 and 3. DIE_FENCE of a live die fences it,
and completes afterwards; DIE_RESTORE of a fenced die out of reset, once every loan is repaid (log 90), brings it back, in D0 from
DF (R366 to R370, R373). PWR_STATE passes over dies that are absent or in DF, a fence of a die that is not live completes with 0, and
a restore waits for the reset and the election: the model's choices, log 53. -/
def Obligations.PowerCommands : Prop :=
  ∀ (s : State) (w : Word) (d : List Byte) (mv mhz : BitVec 16) (k : Nat),
    let n := w.toNat
    let r := s.regs
    let done (i : Instr) (status detail : Nat) : Prop := ∃ t, exec i s = .next t ∧ CommandDone s t 0 n status detail
    let at_ (op : Nat) : Prop := KnownCmds s 0 ∧ s.cmdAt 0 n = some d ∧ slotResv d = none ∧ slotOp d = op
    (at_ 0x20 →
      let st := recN d 9 1
      let named (x : Nat) : Prop := x < 8 ∧ (recN d 8 1).testBit x = true ∧ s.regs.present.testBit x = true
      let bad : Prop := 4 < st ∨ (st = 4 ∧ ∃ x, named x ∧ (s.die x).fenced = false)
      let there (x : Nat) : Prop := (s.die x).power = st ∧ (s.die x).nextPow = none
      (bad → done (.pwrState 0 w) 23 2) ∧
      (¬ bad → (∀ x, named x → (s.die x).power ≠ 4 → there x) → done (.pwrState 0 w) 0 0) ∧
      (¬ bad → (∃ x, named x ∧ (s.die x).power ≠ 4 ∧ ¬ there x) → ∃ t, exec (.pwrState 0 w) s = .next t ∧ t = { s with dies := t.dies } ∧
        ∀ x, (named x ∧ (s.die x).power ≠ 4 ∧ ¬ there x → t.die x = { s.die x with nextPow := some st }) ∧
          (¬ (named x ∧ (s.die x).power ≠ 4 ∧ ¬ there x) → t.die x = s.die x))) ∧
    (∀ p, (s.die k).nextPow = some p → DieTakes (.powerStateChange k) s k
      (let y : Die := { s.die k with power := p, nextPow := none }
       if p = 0 then (match (s.die k).pendMhz with | some m => { y with mhz := m.2, pendMhz := none } | none => y) else y)) ∧
    (∀ m, (s.die k).nextPow = none → (s.die k).power = 0 → (s.die k).pendMhz = some m →
      DieTakes (.powerStateChange k) s k { s.die k with mhz := m.2, pendMhz := none }) ∧
    (at_ 0x21 →
      let b := recN d 8 4
      (b < 800 ∨ 2400 < b → done (.pwrBudget 0 w) 23 1) ∧
      (800 ≤ b → b ≤ 2400 → Completes (.pwrBudget 0 w) s 0 n 0 0 fun u =>
        u = { s with regs := { r with budget := b, lower := if b < s.budgetNow then some (s.budgetNow, s.time) else none } } ∧
        u.budgetNow = max b s.budgetNow)) ∧
    (r.lower.isSome = true → (∀ l ∈ s.loans, l.phase = 0) → ∃ t, exec .budgetLowerEffect s = .next t ∧
      t = { s with regs := { r with lower := none } } ∧ t.budgetNow = r.budget) ∧
    ((∃ l ∈ s.loans, 1 ≤ l.phase) → exec .budgetLowerEffect s = .next s) ∧
    (∃ a, exec (.ageingProposal mv mhz) s = .next { s with regs := { r with ageprop := a } } ∧ bits a 16 16 = mv.toNat ∧
      bits a 0 16 = mhz.toNat ∧ bits a 32 32 = (if bits r.ageprop 32 32 = 2 ^ 32 - 1 then 1 else bits r.ageprop 32 32 + 1)) ∧
    (at_ 0x22 →
      let m := (bits r.ageprop 16 16, bits r.ageprop 0 16)
      (recN d 8 4 = 0 ∨ recN d 8 4 ≠ bits r.ageprop 32 32 → done (.marginAdopt 0 w) 23 3) ∧
      (recN d 8 4 ≠ 0 → recN d 8 4 = bits r.ageprop 32 32 → Completes (.marginAdopt 0 w) s 0 n 0 0 fun u =>
        u = { s with dies := u.dies, regs := { r with margin := some m } } ∧
        ∀ x, (x < 8 → s.dieLive x = true → u.die x = { s.die x with pendMhz := some m }) ∧
          (8 ≤ x ∨ s.dieLive x = false → u.die x = s.die x))) ∧
    (let x := recN d 8 1
     (at_ 0x23 →
       (x < 8 → s.dieLive x = true → exec (.dieFence 0 w) s = .next (s.fence x)) ∧
       (8 ≤ x ∨ s.dieLive x = false → (s.elect = true → exec (.dieFence 0 w) s = .next s) ∧ (s.elect = false → done (.dieFence 0 w) 0 0))) ∧
     (at_ 0x24 →
       let y := s.die x
       (8 ≤ x ∨ s.regs.present.testBit x = false ∨ y.fenced = false → done (.dieRestore 0 w) 23 4) ∧
       (x < 8 → s.regs.present.testBit x = true → y.fenced = true →
         (y.inReset = true ∨ s.elect = true ∨ (∃ l ∈ s.loans, 1 ≤ l.phase) → exec (.dieRestore 0 w) s = .next s) ∧
         (y.inReset = false → s.elect = false → (∀ l ∈ s.loans, l.phase = 0) → Completes (.dieRestore 0 w) s 0 n 0 0 fun u =>
           u = { s with dies := u.dies, head := if s.head = none then some x else s.head } ∧ (∀ j, j ≠ x → u.die j = s.die j) ∧
           (u.die x).fenced = false ∧ (u.die x).power = (if y.power = 4 then 0 else y.power) ∧ s.dieLive x = false ∧
           u.dieLive x = true))))

/-- The stages of a loan of power between two dies, one at a time for an ordered pair and none begun while a lowering of the budget
waits (log 55), each by its own event and in this order: requested; granted, whose lender is
the poorer by its units at once, and lends no more than its own share (log 90); received, whose borrower is the richer; repaid by
the borrower, which is poorer again; and received back, which ends it. Other loans of the package are as they were. A deadline 1 ms
after the grant repays whatever the demand and makes the borrower's power clamp act (R371). A clamp that acts sets its bit of the
die, one that stops clears it, and the units it withheld are added to the die's count, which stays at its maximum; the thermal clamp
acts only at a junction of 105 degrees or more, and stops only below. A measurement of the time domain is kept with its offset and
master, locked within 100 ns; it bounds the slew by 200 ppm. On joining, and at no other measurement, it steps the counter forward,
once, by an offset below -1 ms, where no strand has run; a package that joins more than 1 ms off and is not stepped is held out until
its offset is below 1 ms (log 91). Without a domain it does nothing (R372, R376). -/
def Obligations.LoansClampsTime : Prop :=
  (∀ (s : State) (a b u : Nat) (l : Loan), a ≠ b → s.dieLive a = true → s.dieLive b = true → a < 8 → b < 8 →
     let ours := s.loans.filter fun x => x.lender == a && x.borrower == b
     let stage (t : State) (l' : Loan) : Prop :=
       t = { s with loans := s.loans.map fun x => if x.lender = a ∧ x.borrower = b then l' else x }
     let idle (i : Instr) : Prop := exec i s = .next s
     (ours = [] →
       (s.regs.lower = none → 1 ≤ u → u ≤ 64 → ∃ t, exec (.loanRequest b a u) s = .next t ∧
         t = { s with loans := s.loans ++ [⟨a, b, u, 0, 0⟩] } ∧ ∀ d, t.allowOf d = s.allowOf d) ∧
       (s.regs.lower.isSome = true ∨ u = 0 ∨ 64 < u → idle (.loanRequest b a u)) ∧
       idle (.loanGrant a b) ∧ idle (.loanReceipt b a) ∧ idle (.loanRepay b a) ∧ idle (.repayReceipt a b) ∧ idle (.loanDeadline b a)) ∧
     (ours ≠ [] → idle (.loanRequest b a u)) ∧
     (ours = [l] →
       (l.phase = 0 → s.regs.lower = none → s.lentBy a + l.units ≤ s.shareOf a → ∃ t, exec (.loanGrant a b) s = .next t ∧
         stage t { l with phase := 1, granted := s.time } ∧ t.lentBy a = s.lentBy a + l.units ∧ t.lentBy a ≤ t.shareOf a ∧
         t.allowOf a + l.units = s.allowOf a ∧ t.allowOf b = s.allowOf b) ∧
       (l.phase ≠ 0 ∨ s.regs.lower.isSome = true ∨ s.shareOf a < s.lentBy a + l.units → idle (.loanGrant a b)) ∧
       (l.phase = 1 → ∃ t, exec (.loanReceipt b a) s = .next t ∧ stage t { l with phase := 2 } ∧
         (s.lentBy b ≤ s.shareOf b → t.allowOf b = s.allowOf b + l.units) ∧ t.allowOf a = s.allowOf a) ∧
       (l.phase = 2 → ∃ t, exec (.loanRepay b a) s = .next t ∧ stage t { l with phase := 3 } ∧
         (s.lentBy b ≤ s.shareOf b → t.allowOf b + l.units = s.allowOf b) ∧ t.allowOf a = s.allowOf a) ∧
       (l.phase = 3 → ∃ t, exec (.repayReceipt a b) s = .next t ∧
         t = { s with loans := s.loans.filter fun x => !(x.lender == a && x.borrower == b) } ∧
         (s.lentBy a ≤ s.shareOf a → t.allowOf a = s.allowOf a + l.units) ∧ t.allowOf b = s.allowOf b) ∧
       (l.phase = 2 → l.granted + 1000000 ≤ s.time → ∃ t, exec (.loanDeadline b a) s = .next t ∧
         t = { s with loans := t.loans, dies := t.dies } ∧ stage { s with loans := t.loans } { l with phase := 3 } ∧
         t.die b = { s.die b with clamp := (s.die b).clamp ||| 4 } ∧ ∀ j, j ≠ b → t.die j = s.die j) ∧
       (l.phase ≠ 2 ∨ s.time < l.granted + 1000000 → idle (.loanDeadline b a)) ∧
       (l.phase ≠ 1 → idle (.loanReceipt b a)) ∧ (l.phase ≠ 2 → idle (.loanRepay b a)) ∧ (l.phase ≠ 3 → idle (.repayReceipt a b)))) ∧
  (∀ (s : State) (d kc : Nat) (acts : Bool) (gm : BitVec 16) (off : BitVec 32) (slew : Int),
     let x := s.die d
     let set (b : Nat) : Die := { x with
       clamp := if acts then x.clamp ||| 2 ^ b else x.clamp &&& (7 - 2 ^ b), thr := min (x.thr + kc) (2 ^ 24 - 1) }
     let hot : Prop := 105 ≤ s.junction d
     let o := off.toInt
     let steps : Prop := s.regs.joined = false ∧ s.regs.stepped = false ∧ o < -1000000 ∧ s.noneRan = true
     ((acts = true ↔ hot) → DieTakes (.thermalClamp d acts kc) s d (set 0)) ∧
     (¬ (acts = true ↔ hot) → exec (.thermalClamp d acts kc) s = .next s) ∧
     DieTakes (.currentClamp d acts kc) s d (set 1) ∧ DieTakes (.powerClamp d acts kc) s d (set 2) ∧
     (bit s.regs.domain 63 = false ∨ 384 ≤ gm.toNat → exec (.ptpSync gm off slew) s = .next s) ∧
     (bit s.regs.domain 63 = true → gm.toNat < 384 → ∃ t, exec (.ptpSync gm off slew) s = .next t ∧
       t = { s with time := t.time, regs := { s.regs with
         ptp := t.regs.ptp, stepped := t.regs.stepped, heldOut := t.regs.heldOut, rate := t.regs.rate, joined := true } } ∧
       bits t.regs.ptp 0 32 = off.toNat ∧ bits t.regs.ptp 32 16 = gm.toNat ∧
       (bit t.regs.ptp 63 = true ↔ -100 ≤ o ∧ o ≤ 100) ∧ -200 ≤ t.regs.rate ∧ t.regs.rate ≤ 200 ∧
       (-200 ≤ slew → slew ≤ 200 → t.regs.rate = slew) ∧
       (steps → (t.time : Int) = s.time - o ∧ t.regs.stepped = true ∧ t.regs.heldOut = false) ∧
       (¬ steps → t.time = s.time ∧ t.regs.stepped = s.regs.stepped ∧
         (s.regs.joined = false → (t.regs.heldOut = true ↔ o < -1000000 ∨ 1000000 < o)) ∧
         (s.regs.joined = true → (t.regs.heldOut = true ↔ s.regs.heldOut = true ∧ ¬ (-1000000 < o ∧ o < 1000000))))))

/-! ### Fences, election and reset (R303, R304, R364 to R366, R390) -/

/-- What fences a live die: no heartbeat, both links down, a junction of 115 degrees or more, an error in its landing's state. The
die is fenced and held in reset from now, an election is due, its strands (but for how many records each slot has written, log
92), cores and landing have lost their state, its scratch stores read zero (log 2), and no loan names it (log 54); the other dies
stay as fenced as they were. A die that is not live is left as it is. Reset is released 1 ms after it began and no sooner (R303, R364,
R366, R371; it begins with the fence, and again with the election: log 54). Election and resets. The election that is due makes the
lowest live die head and is over, and reissues every flight: it keeps its ranges on
live dies in their order, and every incomplete gang of a range on a fenced die is among the gangs that a live die of the flight
still has to place, now or after its own (R303, R304; log 54). A flight with no live die left ends with code 6, its detail the first
tread of its lowest incomplete gang (R305; log 111). A package reset leaves the state of reset, but for the lifecycle fuses,
the measurements of the boot, and memory outside the package (log 60); in the package memory reads zero (the model's choice, log 2;
R364), partition 0 has the
halls of the present dies, and an image that does not verify is reported (R391; log 61). A watchdog restart resets the management
core alone, whose image is verified again and whose holdings are given back (R390; log 61). -/
def Obligations.FenceElectionReset : Prop :=
  (∀ (s : State) (d : Nat) (i : Instr),
     (i ∈ [Instr.heartbeatTimeout d, .ucieLinksDown d, .landingStateError d] ∨ (i = .junctionOvertemperature d ∧ 115 ≤ s.junction d)) →
     let x := s.die d
     (s.dieLive d = true → ∃ t, exec i s = .next t ∧ t.elect = true ∧ t.time = s.time ∧
       (t.die d).fenced = true ∧ (t.die d).inReset = true ∧ (t.die d).resetAt = s.time ∧ (t.die d).tlb = [] ∧ (t.die d).saved = [] ∧
       (t.die d).reserve = none ∧ (∀ j, j ≠ d → (t.die j).fenced = (s.die j).fenced) ∧
       (∀ k, dieOf k = d → t.strand k = { Strand.reset with tagCount := (t.strand k).tagCount }) ∧ (∀ c, dieOfCore c = d → t.core c = Core.reset) ∧
       (∀ a, inDieScratch d a = true → memByte t.mem a = 0) ∧ (∀ l ∈ t.loans, l.lender ≠ d ∧ l.borrower ≠ d)) ∧
     (s.dieLive d = false → exec i s = .next s) ∧
     (s.junction d < 115 → exec (.junctionOvertemperature d) s = .next s) ∧
     (x.inReset = true → s.elect = false → x.resetAt + 1000000 ≤ s.time → DieTakes (.dieResetRelease d) s d { x with inReset := false }) ∧
     (x.inReset = false ∨ s.elect = true ∨ s.time < x.resetAt + 1000000 → exec (.dieResetRelease d) s = .next s)) ∧
  (∀ s : State,
     (s.elect = false → exec .headElection s = .next s) ∧
     (s.elect = true → ∃ t, exec .headElection s = .next t ∧ t.head = s.liveDies.head? ∧ t.elect = false ∧
       t.flights.map Flight.id = s.flights.map Flight.id ∧
       ∀ (n : Nat) (g : Flight), t.flights[n]? = some g → ∃ f v, s.flights[n]? = some f ∧
         g = { s.reissue f v with placed := g.placed, imgErr := g.imgErr } ∧ (f.placed = true → g = s.reissue f v)) ∧
     (∀ (f : Flight) (v : Nat),
       let g := s.reissue f v
       let kept := f.ranges.filter fun r => s.dieLive r.die
       let incomplete (n : Nat) : Prop := ∃ r ∈ f.ranges, ∃ p ∈ r.incomplete, p.1 ≤ n ∧ n < p.2
       g.id = f.id ∧
       (kept = [] → g.ranges = [] ∧ g.fatal.isSome = true ∧
         (∀ n, incomplete n → (∀ m, incomplete m → n ≤ m) → g.fatal = some (n * f.gang)) ∧
         ((∀ n, ¬ incomplete n) → f.fatal.isSome = true → g.fatal = f.fatal)) ∧
       (kept ≠ [] → g.ranges.map Range.die = kept.map Range.die ∧
         ∀ r ∈ f.ranges, s.dieLive r.die = false → ∀ p ∈ r.incomplete, ∀ n, p.1 ≤ n → n < p.2 →
           ∃ q ∈ g.ranges, ∃ v ∈ q.todo ++ (q.later.map Batch.gangs).flatten, v.1 ≤ n ∧ n < v.2)) ∧
     (∃ t, exec .packageReset s = .next t ∧
       t = { State.reset with
         sched := s.sched, freeCtr := s.freeCtr + 1, head := firstDie s.regs.present, mem := t.mem, bad := t.bad, soft := t.soft,
         parts := [(0, Partition.zero s.regs.present)], regs := { Regs.reset with
           lifecycle := s.regs.lifecycle, present := s.regs.present, tj := s.regs.tj, meas0 := t.regs.meas0, meas1 := t.regs.meas1, bootfail := t.regs.bootfail } } ∧
       (∀ a, memByte t.mem a = if windowBase ≤ a then memByte s.mem a else 0) ∧
       (t.regs.bootfail = true ↔ ∃ i ∈ imageOrder, imageOk i = false)) ∧
     (∃ t, exec .watchdogRestart s = .next t ∧ t.strand mgmtKey = Strand.reset ∧ (∀ k, k ≠ mgmtKey → t.strand k = s.strand k) ∧
       (∀ c, c ≠ coreOf mgmtKey → t.core c = s.core c) ∧
       t = { s with
         strands := t.strands, cores := t.cores, freeCtr := s.freeCtr + 1, regs := { s.regs with
           mcsr := MCsrs.reset, restarted := true, meas2 := t.regs.meas2, bootfail := t.regs.bootfail } } ∧
       (t.regs.bootfail = true ↔ s.regs.bootfail = true ∨ imageOk 0 = false)))

/-! ### The landing (R289 to R301) -/

/-- Placement. A landing that is live and not stopped, with no pre-empted tread to be resumed first, takes the flight that comes
first, unless another holds its reservation. Where a hall of its die has room, what that flight dispatches next starts whole, in the
first such hall: each tread runs in U mode at the flight's entry under its `vmroot`, with its indices, tread number, argument and
place in the gang in x10 to x16, and nothing held; the range has dispatched it. Where no hall has room, strands of the hall that
holds the reservation, or of the first hall, are reserved, as many as the gang has treads, and its pages are asked for, once, on each
core that those strands reach and whose pages are not ready (which cores: the model's choice, log 85); with no hall, with no flight to
place, and on a die that does not run (R367 stops issue alone: log 63), nothing changes (R274, R289, R290, R292). The start is said of
flights without a scratchpad image or checkpoints. -/
def Obligations.GangPlacement : Prop :=
  ∀ (s : State) (d : Nat),
    let i : Instr := .gangPlacement d
    let x := s.die d
    let mine := match x.reserve with | some q => q.strands | none => []
    (s.dieLive d = false ∨ x.stopped = true ∨ s.savedEnded d ≠ [] ∨ s.chosen d = none → exec i s = .next s) ∧
    ∀ (f : Flight) (r : Range) (g : Nat) (ns : List Nat), s.dieLive d = true → x.stopped = false → s.savedEnded d = [] →
      s.chosen d = some (f, r) → r.next f = some (g, ns) →
      let room (h : Nat) : List Nat := s.hallRoom f h mine
      let halls := s.hallOrder f d mine
      ((∃ q, x.reserve = some q ∧ q.flight ≠ f.id) → exec i s = .next s) ∧
      ((∀ q, x.reserve = some q → q.flight = f.id) →
        (∀ h, halls.find? (fun h => decide (ns.length ≤ (room h).length)) = some h → f.simg = 0 → f.ckpts = [] →
          ∃ t, exec i s = .next t ∧ (t.die d).reserve = none ∧ (∃ f' ∈ t.flights, f'.id = f.id ∧ f'.rangeOf d = some (r.dispatched f)) ∧
            ∀ (i k m : Nat), (room h)[i]? = some k → ns[i]? = some m →
              let b := t.strand k
              b.status = .running ∧ b.kind = .tread ∧ b.flight = some f.id ∧ b.tread = m ∧ b.mode = .u ∧ b.pc = f.entry ∧
              b.claim = f.claim ∧ b.hold = Hold.zero ∧ b.csr.vmroot = f.vmroot ∧ b.getX 14 = BitVec.ofNat 64 m ∧ b.getX 15 = f.arg ∧
              b.getX 16 = BitVec.ofNat 64 (m - g * f.gang) ∧ b.getX 10 = BitVec.ofNat 64 ((f.walk m).getD 0 0) ∧
              b.getX 11 = BitVec.ofNat 64 ((f.walk m).getD 1 0) ∧ b.getX 12 = BitVec.ofNat 64 ((f.walk m).getD 2 0) ∧
              b.getX 13 = BitVec.ofNat 64 ((f.walk m).getD 3 0)) ∧
        ((∀ h ∈ halls, (room h).length < ns.length) →
          let cand := (mine.map fun k => hallOfCore (coreOf k)).filter halls.contains ++ halls
          (cand = [] → exec i s = .next s) ∧
          ∀ h l, cand = h :: l →
            let cores := (List.range 16).map (· + 16 * h)
            -- where the pages are still asked for, the strands reserved before stay so, and no others are
            let held (c : Nat) : List Nat :=
              if s.coreRoom f c mine = [] then (s.strandRoom f c mine).filter mine.contains else s.coreRoom f c mine
            let got := ((cores.map held).flatten).take ns.length
            let asked (c : Nat) : Prop := c ∈ cores ∧ (((cores.filter (· < c)).map fun b => (s.strandRoom f b mine).length).sum < ns.length) ∧
              s.strandRoom f c mine ≠ [] ∧ c ∉ f.cores ∧ s.padReady f c = false ∧ ∀ w ∈ (s.core c).bankq, w.isFlightOf f.id = false
            ∃ u t : State, exec i s = .next t ∧ u = { s with cores := u.cores } ∧
              (∀ c, (asked c → u.core c = { s.core c with
                  bankq := (s.core c).bankq ++ [⟨.flight f.id c ⟨0, 0, f.spp⟩, s.cycles (16 * c)⟩] }) ∧
                (¬ asked c → u.core c = s.core c)) ∧
              t = { u with dies := t.dies } ∧ (∀ j, j ≠ d → t.die j = s.die j) ∧
              t.die d = if got = [] ∧ mine = [] then x else { x with reserve := if got = [] then none else some ⟨f.id, g, got⟩ }))

/-- What else a landing does. The boost of a flight rises by one when what it dispatches next has waited another 2^20 cycles (R294).
A reservation is given back when another flight comes first; where that one is of higher level, the gang goes before every other
of its level (R295), and within one level only the choice changes (log 86). The last dispatched tread of a flight all of whose
resident treads have waited 1,024 cycles, and whose next gang does not fit, is pre-empted to the lowest free slot of the save
pool (the model's choice, log 7; of one gang the highest tread, log 108), at once or when nothing defers it; on a die that does
not run it is not (log 63) (R297). A pre-empted tread that is ready is asked for, on its own core or another of its partition,
and a request for it that still waits on another core is withdrawn; one that waits on the same core, and that of a `ctx.load`,
stays (R282, R298). A flight with nothing left ends, and its completion record has the layout of R301. -/
def Obligations.LandingEvents : Prop :=
  ∀ (s : State) (d id : Nat) (f : Flight) (r : Range), s.flight? id = some f → f.rangeOf d = some r →
    let ks := ((r.live.map LiveGang.treads).flatten).filterMap fun n => s.runnerOf id n
    let wtp : Instr := .waitTriggeredPreemption d id
    (r.waits = true → r.since + 2 ^ 20 * (r.boost + 1) ≤ (s.die d).cycles → ∃ t, exec (.ageBoost d id) s = .next t ∧
      t = { s with flights := t.flights } ∧ t.flight? id = some { f with
        ranges := f.ranges.map fun q => if q.die = d then { q with boost := q.boost + 1 } else q }) ∧
    (r.waits = false ∨ (s.die d).cycles < r.since + 2 ^ 20 * (r.boost + 1) → exec (.ageBoost d id) s = .next s) ∧
    ((s.die d).reserve = none ∨ s.chosen d = none → exec (.gangRollback d) s = .next s) ∧
    (∀ q g v, (s.die d).reserve = some q → q.flight = id → s.chosen d = some (g, v) →
      (g.id = id → exec (.gangRollback d) s = .next s) ∧
      (g.id ≠ id → ∃ t hd, exec (.gangRollback d) s = .next t ∧ t = { s with dies := t.dies, flights := t.flights } ∧
        t.die d = { s.die d with reserve := none } ∧ (∀ j, j ≠ d → t.die j = s.die j) ∧
        (∀ y ∈ s.flights, ∀ z, y.rangeOf d = some z → z.head < hd) ∧ t.flight? id = some { f with
          ranges := f.ranges.map fun y => if y.die = d ∧ y.level f < v.level g then { y with head := hd } else y })) ∧
    (ks = [] ∨ s.freeSlotOf f.part = none ∨ r.waits = false ∨ s.nextFits f d r = true ∨
      (∃ j ∈ ks, s.longWait j = false ∨ (s.strand j).preempt = true ∨ s.haltedDie j = true) → exec wtp s = .next s) ∧
    (∀ k n, ks.getLast? = some k → s.freeSlotOf f.part = some n → r.waits = true → s.nextFits f d r = false →
      (∀ j ∈ ks, s.longWait j = true ∧ (s.strand j).preempt = false ∧ s.haltedDie j = false) → ∃ t, exec wtp s = .next t ∧
        (t.die (dieOf k)).saved = (s.die (dieOf k)).saved ++ [k] ∧
        (s.preemptDeferred k = true → t = { s with dies := t.dies, strands := t.strands } ∧ (∀ j, j ≠ k → t.strand j = s.strand j) ∧
          t.strand k = { s.strand k with preempt := true, saveAt := some (s.poolSlot f.part n), left := none }) ∧
        (s.preemptDeferred k = false → NoErrors s (coreOf k) → SavedAt s t k (s.poolSlot f.part n))) ∧
    (∀ k j a, k ∈ (s.die d).saved → (s.strand k).status = .saved → (s.strand k).saveAt = some a →
      s.resumeAsked k = true ∨ (s.savedReady d).head? = some k → s.tiedTo k = false ∨ coreOf j = coreOf k →
      j = k ∨ (s.freeStrand j = true ∧ dieOf j = d ∧ bit (s.part (s.partOf k)).halls (hallOfCore (coreOf j)) = true) →
      ((∃ e ∈ s.cores, ∃ w ∈ e.2.bankq, ∃ tgt, w.req = .resume k tgt true) ∨ (∃ w ∈ (s.core (coreOf j)).bankq, w.isResumeOf k = true) →
        exec (.savedTreadResume d k j) s = .next s) ∧
      ((∀ e ∈ s.cores, ∀ w ∈ e.2.bankq, ∀ tgt, w.req ≠ .resume k tgt true) → (∀ w ∈ (s.core (coreOf j)).bankq, w.isResumeOf k = false) →
      ∃ t, exec (.savedTreadResume d k j) s = .next t ∧ t = { s with cores := t.cores, strands := t.strands } ∧
        (∀ i, t.strand i = s.strand i) ∧
        (t.core (coreOf j)).bankq = (s.core (coreOf j)).bankq ++ [⟨.resume k j false, s.cycles j⟩] ∧
        ∀ c, c ≠ coreOf j → (t.core c).bankq = (s.core c).bankq.filter fun w => !w.isResumeOf k)) ∧
    (s.flightDone f = false → exec (.flightCompletion id) s = .next s) ∧
    (s.flightDone f = true → ∃ t, exec (.flightCompletion id) s = .next t ∧ (∀ g ∈ t.flights, g.id ≠ id) ∧
      ∀ s1 x, f.status = (0, 0) → f.cmd = none → s.bad = [] → (∀ c, (s.core c).wtq = []) → f.done.toNat % 32 = 0 →
        translate s (landCtx f.part f.vmroot) .write f.done.toNat = .ok (s1, x) → regionOf x.pa = .hbm → x.enc = false →
        memRead t.mem x.pa 32 = leBytes 4 0 ++ leBytes 4 0 ++ leBytes 8 f.ended ++ leBytes 8 s.time ++ leBytes 8 0)

/-! ### The banker, interrupts, pre-emption and resumption (R278 to R282, R331, R334, R342, R388) -/

/-- The banker. A fairness hold begins when the oldest request of a core has waited 65,536 cycles (R279). A re-evaluation of a queue
of any length goes through it from the oldest. Requests that cannot be granted are passed by, none of them while a fairness hold
stands; the first `acq` that can be granted is: its strand wakes, holds what it asked for as `Grants` says, the lowest unheld
blocks and pages and zeroed (of its tiles: log 106), and completes its instruction; the pages of a flight are set aside; and it
goes on with the rest, up to a resumption that can be granted (R274, R277, R278). The resumption request that comes first is
granted, from a slot that runs nothing to one that runs nothing (R271): when its record is refused (two names for one Lazy tile
included: log 113), or cannot be read, its context ends; a record without copies and streams to make again is resumed, at its
pc, in its mode, with its registers, its claim, its pages and its tread (R282, R332, R342). On a die that does not run, neither
happens (R367 stops issue alone: the model's choice, log 63). -/
def Obligations.BankerEvents : Prop :=
  ∀ (s : State) (c k since saved : Nat) (q : Hold) (load : Bool) (old rest : List Waiting),
    let x := s.core c
    let b := s.strand k
    let was := s.strand saved
    let re : Instr := .bankerReevaluation c
    let stopped := (s.die (dieOfCore c)).stopped
    let none_ (l : List Waiting) : Prop := ∀ w ∈ l, s.requestReady w = false
    -- the first request after `old` that is looked at
    let first : Prop := stopped = false ∧ none_ old ∧ (x.fair = true → old = [])
    (∀ w l, x.bankq = w :: l →
      (w.since + 65536 ≤ s.cycles (16 * c) → ∃ t, exec (.fairnessHold c) s = .next t ∧ t = { s with cores := t.cores } ∧
        t.core c = { x with fair := true } ∧ ∀ j, j ≠ c → t.core j = s.core j) ∧
      (s.cycles (16 * c) < w.since + 65536 → exec (.fairnessHold c) s = .next s)) ∧
    (x.bankq = [] → exec (.fairnessHold c) s = .next s ∧ exec re s = .next s ∧ ∀ i, exec (.resumptionGrant c i) s = .next s) ∧
    (stopped = true → exec re s = .next s ∧ ∀ i, exec (.resumptionGrant c i) s = .next s) ∧
    (none_ x.bankq → exec re s = .next s) ∧
    (∀ w l, x.bankq = w :: l → x.fair = true → s.requestReady w = false → exec re s = .next s) ∧
    (x.bankq = old ++ ⟨.acq k q, since⟩ :: rest → first → coreOf k = c → s.grantable k q = true →
      ∃ u l m p, exec re s = .next (State.reevaluate c rest u) ∧
        ((∀ w ∈ rest, u.requestReady w = false) → State.reevaluate c rest u = u) ∧ OnlyLocal k s u ∧
        (u.core c).bankq = x.bankq.filter (fun w => !w.isAcqOf k) ∧ Grants s u c q l m p ∧
        StrandDone k s u { b with
          status := .running, wait := .none, blocks := b.blocks ++ l, tiles := b.tiles ++ m, pages := b.pages ++ p }) ∧
    (x.bankq = old ++ ⟨.flight k c q, since⟩ :: rest → first → s.asideReady c q = true →
      ∃ u, exec re s = .next (State.reevaluate c rest u) ∧
        ((∀ w ∈ rest, u.requestReady w = false) → State.reevaluate c rest u = u) ∧ u = { s with cores := u.cores } ∧
        (∀ j, j ≠ c → u.core j = s.core j) ∧ ∃ fair, u.core c = { x with
          bankq := x.bankq.filter (fun w => !w.isFlightOf k), aside := x.aside ++ [(k, q)], fair := fair }) ∧
    (x.bankq = old ++ ⟨.resume saved k load, since⟩ :: rest → coreOf k = c →
      let w : Waiting := ⟨.resume saved k load, since⟩
      let i : Instr := .resumptionGrant c old.length
      (¬ first ∨ s.requestReady w = false → exec i s = .next s) ∧
      (first →
        (s.requestReady w = true → exec re s = .next s) ∧
        (was.counted = true ∨ b.counted = true → exec i s = .next s) ∧
        (was.counted = false → b.counted = false → (was.saveAt = none ∨ ∃ a, was.saveAt = some a ∧ s.regPartRead c a 0 fixedSize = none) →
          ∃ t, exec i s = .next t ∧ Ended t saved) ∧
        ∀ a bs, was.counted = false → b.counted = false → was.saveAt = some a → s.regPartRead c a 0 fixedSize = some bs →
          (s.recordFits c saved bs = false → ∃ t, exec i s = .next t ∧ Ended t saved) ∧
          (s.recordFits c saved bs = true → s.resumeGrantable k bs = true → recCopies bs = [] → recPorts bs = [] →
            load = true ∨ recN bs 0x18 2 = c → NoErrors s c → x.badTiles = [] → x.badWins = [] → ∃ t, exec i s = .next t ∧
              let r := t.strand k
              r.status = .running ∧ r.mode = was.mode ∧ r.kind = was.kind ∧ r.tread = was.tread ∧ r.flight = was.flight ∧
              r.claim = recClaim bs ∧ bits r.pc 2 62 = bits (recCsr bs 0) 2 62 ∧ r.pages = recPages bs ∧
              (∀ i : XReg, i ≠ 0 → r.getX i = BitVec.ofNat 64 (recN bs (0x40 + 8 * i.val) 8)) ∧
              (∀ i : Reg8, r.p[i] = BitVec.ofNat 1024 (recN bs (0x280 + 128 * i.val) 128)) ∧
              (saved ≠ k → (t.strand saved).status = .free ∨ (t.strand saved).status = .dormant) ∧
              ∀ j, j ≠ k → j ≠ saved → t.strand j = s.strand j)))

/-- Interrupts and pre-emption between instructions. The strand takes its pending enabled interrupt, external before software before
counter overflow, in S mode at `stvec` with the interrupt's cause and `stval` 0 (log 16), unless it would overwrite an occupied
frame with kept entries; without one, in a wait that puts stops off, and on a die that does not run, nothing changes (R331,
R316; of the die: log 63). A requested pre-emption, a swap and a debug halt, in this order (the model's choice, log 95),
pre-empt the strand to their place when nothing defers them, an interrupt to be taken included; a swap takes the lowest free
slot of the save pool (the model's choice, log 7). An interrupt abandons a wait; one for which the landing has asked a
pre-emption is remembered. A landing's request whose wait has ended is withdrawn whatever else is asked for, and the landing
forgets it; an abandoned wait ends as log 122 says (R281, R333, R334, R346, R388). The debugger's RESUME of an accepted record
queues its request, and a landing's that still waits is withdrawn (R282, R388). -/
def Obligations.InterruptsAndPreemption : Prop :=
  ∀ (s : State) (k n : Nat) (area : Word),
    let a := s.strand k
    let c := coreOf k
    let pre : Instr := .preemption k
    let swaps := s.swapping k
    let saves (p : SaveAt) : Prop := NoErrors s c → ∃ t, exec pre s = .next t ∧ SavedAt s t k p
    (a.interruptNow = none ∨ a.wait.deferred = true ∨ s.haltedDie k = true → exec (.interrupt k) s = .next s) ∧
    (a.status = .running → a.mode = .u ∨ (a.mode = .s ∧ bit a.csr.sstatus 1 = true) →
      (a.csr.seip = true → bit a.csr.sie 9 = true → a.interruptNow = some 9) ∧
      (a.csr.seip = false → a.csr.ssip = true → bit a.csr.sie 1 = true → a.interruptNow = some 1) ∧
      (a.csr.seip = false → a.csr.ssip = false →
        (a.interruptNow = some 13 ↔ a.ovfPending = true ∧ bit a.csr.sie 13 = true))) ∧
    (a.mode = .s → bit a.csr.sstatus 1 = false → a.interruptNow = none) ∧
    (a.interruptNow = some n → a.wait.deferred = false → s.haltedDie k = false → a.frame.occ = false ∨ a.queue ++ a.body = [] →
      ∃ t, exec (.interrupt k) s = .next t ∧
      SameMemory s t ∧ (∀ j, j ≠ k → t.strand j = s.strand j) ∧
      let b := t.strand k
      b.mode = .s ∧ b.status = .running ∧ b.pc = a.csr.stvec ∧ b.csr.scause = BitVec.ofNat 64 (2 ^ 63 + n) ∧ b.csr.stval = 0 ∧
      bits b.csr.sepc 2 62 = bits a.pc 2 62 ∧ bits b.csr.svcp 2 62 = bits a.vcp 2 62 ∧ bit b.csr.svcp 0 = false ∧
      bit b.csr.sstatus 5 = bit a.csr.sstatus 1 ∧ bit b.csr.sstatus 1 = false ∧ (bit b.csr.sstatus 8 = true ↔ a.mode ≠ .u) ∧
      b.queue = [] ∧ b.resv = none ∧ b.wait = .none ∧ b.preempt = a.preempt ∧
      b.left = (if a.preempt = true ∧ a.wait.counts = true then some (a.wait, a.pc) else a.left) ∧
      (∀ r, b.getX r = a.getX r) ∧ b.p = a.p ∧ b.k = a.k ∧ b.hold = a.hold ∧ b.claim = a.claim) ∧
    (s.isLive k = false ∨ s.haltedDie k = true ∨ (a.preempt = false ∧ a.haltReq = false ∧ swaps = false) → exec pre s = .next s) ∧
    (s.isLive k = true → s.haltedDie k = false →
      let ended (w : Wait) : Prop := match w with
        | .gbar g n | .gwait g n => s.genOf k g ≠ some n
        | .waitpred => s.predPending k = false
        | .acq q => q.le (freeOf (s.holders c)) = true
        | _ => True
      let lapsed : Prop := a.preempt = true ∧ a.wait.counts = false ∧ ∀ w pc, a.left = some (w, pc) →
        ended w ∨ (a.frame.occ = false ∧ a.pc ≠ pc ∧ (a.mode = .u ∨ a.csr.sepc ≠ pc))
      let asked : Prop := a.haltReq = true ∨ swaps = true
      let u := s.withdrawLapsed k
      (¬ lapsed → u = s) ∧
      (lapsed → u = { s with dies := u.dies, strands := u.strands } ∧ (∀ j, j ≠ k → u.strand j = s.strand j) ∧
        u.strand k = { a with preempt := false, saveAt := none, left := none } ∧ (∀ d, d ≠ dieOf k → u.die d = s.die d) ∧
        u.die (dieOf k) = { s.die (dieOf k) with saved := (s.die (dieOf k)).saved.filter fun j => decide (j ≠ k) }) ∧
      (lapsed → ¬ asked → exec pre s = .next u) ∧
      (s.preemptDeferred k = true → exec pre s = .next u) ∧
      (s.preemptDeferred k = false →
        (∀ p, a.preempt = true → ¬ lapsed → a.saveAt = some p → saves p) ∧
        (a.preempt = false ∨ lapsed →
          (swaps = true → (∀ i, u.freeSlotOf (s.swapPart k) = some i → saves (s.poolSlot (s.swapPart k) i)) ∧
            (u.freeSlotOf (s.swapPart k) = none → exec pre s = .next u)) ∧
          (swaps = false → a.haltReq = true → saves ⟨none, s.regs.dbgslot, s.regs.dbgslot + regPart, none⟩)))) ∧
    (let p : SaveAt := ⟨none, area.toNat, area.toNat + regPart, none⟩
     (s.portOpen = false ∨ a.status ≠ .saved ∨ s.loadAsked k = true → exec (.resume k area) s = .next s) ∧
     ∀ bs, s.portOpen = true → a.status = .saved → s.loadAsked k = false → area.toNat % 0x1000 = 0 → area.toNat + slotSize ≤ hbmTop →
       s.regPartRead c p 0 fixedSize = some bs → s.recordOk c bs = true → recIsCkpt bs = false → recTag bs = a.savedTag →
       ∃ t, exec (.resume k area) s = .next t ∧ t.strand k = { a with saveAt := some p } ∧ (∀ j, j ≠ k → t.strand j = s.strand j) ∧
         (t.core c).bankq = ((s.core c).bankq.filter fun w => !w.isResumeOf k) ++ [⟨.resume k k true, s.cycles k⟩])

/-! ### Trust (R393, R394, R396) -/

/-- The debug port and attestation. A challenge replaces the nonce, whose value is free (log 9). A token acts only in PROD before 16
failures: one that does not verify over the nonce counts a failure; one that does performs the stores still on their way (log
71), wipes every partition's key, opens the port, and with scope 2 makes the part RMA. A report puts its body after the nonce at
the buffer, with the signature behind it, which is zero in RMA, and nowhere else; without a request nothing changes (R393, R394,
R396). -/
def Obligations.DebugAndAttestation : Prop :=
  ∀ (s : State) (scope : Byte) (key sig : List Byte),
    let r := s.regs
    let i : Instr := .debugToken scope key sig
    let good (n : Nat) : Prop := (scope = 1 ∨ scope = 2) ∧ Crypto.leNum (Crypto.sha512 (toNats key)) = Config.unlockKeyHash ∧
      Crypto.ecdsaVerify (toNats key) (s.tokenHash n scope) (toNats sig) = true
    (∃ v, v < 2 ^ 256 ∧ exec .debugChallenge s = .next { s with freeCtr := s.freeCtr + 1, regs := { r with nonce := some v } }) ∧
    (r.lifecycle ≠ 1 ∨ 16 ≤ r.failures → exec i s = .next s) ∧
    (r.lifecycle = 1 → r.failures < 16 →
      ((∀ n, r.nonce = some n → ¬ good n) → exec i s = .next { s with regs := { r with failures := r.failures + 1 } }) ∧
      ∀ n, r.nonce = some n → good n → ∃ t, exec i s = .next t ∧ t.portOpen = true ∧ (∀ p, (t.part p).key = none) ∧
        (∀ p, t.part p = { s.part p with key := none }) ∧ t.regs.opened = true ∧ t.regs.lifecycle = (if scope = 2 then 2 else 1) ∧
        let u := { s with
          parts := t.parts, freeCtr := s.freeCtr + 1, regs := { r with
            dbgpatch := t.regs.dbgpatch, opened := true, meas2 := t.regs.meas2, lifecycle := t.regs.lifecycle } }
        t = { u with mem := t.mem, bad := t.bad, soft := t.soft, dir := t.dir, strands := t.strands, cores := t.cores } ∧
        (Settled s → t = u)) ∧
    (r.attbuf = none → exec .attestationReport s = .next s) ∧
    ∀ a, r.attbuf = some a →
      let dst := hostBase + (a % 2 ^ 51 + 64)
      let body := s.reportBody (s.hostRead (a % 2 ^ 51) 64)
      ∃ t sg, exec .attestationReport s = .next t ∧ sg.length = 132 ∧ (r.lifecycle = 2 → sg = List.replicate 132 0) ∧
        memRead t.mem dst (body.length + 132) = ofNats (body ++ sg) ∧
        (∀ b, b < dst ∨ dst + body.length + 132 ≤ b → memByte t.mem b = memByte s.mem b) ∧
        t = { s with mem := t.mem, freeCtr := s.freeCtr + 1, regs := { r with attbuf := none, attdone := true } }
end

