-- ==== Sys2Proof/Laws/Table.lean ====
section
/-! SUPPORT. Laws of sparse tables and of memory: read after write, and that every operation keeps the canonical form
(log 6). -/
namespace Sys2Proof.Machine

variable {β : Type}

/-! ### Reading after writing -/

theorem Tbl.get_put (d v : β) (k j : Nat) (t : Tbl β) : Tbl.get d (Tbl.put v k t) j = if k = j then v else Tbl.get d t j := by
  induction t with
  | nil => simp [Tbl.put, Tbl.get]
  | cons e t ih =>
    obtain ⟨a, b⟩ := e
    simp only [Tbl.put]
    split
    · simp [Tbl.get]
    · split
      · subst_vars; by_cases h : a = j <;> simp [Tbl.get, h]
      · simp only [Tbl.get, ih]
        by_cases h1 : a = j
        · subst h1; rename_i h; simp [h]
        · simp [h1]

theorem Tbl.get_del (d : β) (k j : Nat) (t : Tbl β) : Tbl.get d (Tbl.del k t) j = if k = j then d else Tbl.get d t j := by
  induction t with
  | nil => simp [Tbl.del, Tbl.get]
  | cons e t ih =>
    obtain ⟨a, b⟩ := e
    simp only [Tbl.del]
    split
    · subst_vars; simp only [ih, Tbl.get]; by_cases h : a = j <;> simp [h]
    · simp only [Tbl.get, ih]
      by_cases h1 : a = j
      · subst h1; rename_i h; simp [Ne.symm h]
      · simp [h1]

/-- What a table reads as after one key is set. -/
theorem Tbl.get_set [DecidableEq β] (d v : β) (k j : Nat) (t : Tbl β) :
    Tbl.get d (Tbl.set d t k v) j = if k = j then v else Tbl.get d t j := by
  unfold Tbl.set
  split
  · subst_vars; exact Tbl.get_del ..
  · exact Tbl.get_put ..

@[simp] theorem Tbl.get_set_same [DecidableEq β] (d v : β) (k : Nat) (t : Tbl β) : Tbl.get d (Tbl.set d t k v) k = v := by
  simp [Tbl.get_set]

theorem Tbl.get_set_ne [DecidableEq β] (d v : β) {k j : Nat} (t : Tbl β) (h : k ≠ j) :
    Tbl.get d (Tbl.set d t k v) j = Tbl.get d t j := by simp [Tbl.get_set, h]

/-! ### The canonical form -/

theorem Tbl.okAbove_mono [DecidableEq β] (d : β) {n m : Nat} (h : m ≤ n) (t : Tbl β) (ht : Tbl.okAbove d n t = true) :
    Tbl.okAbove d m t = true := by
  cases t with
  | nil => rfl
  | cons e t =>
    obtain ⟨a, b⟩ := e
    simp only [Tbl.okAbove, Bool.and_eq_true, decide_eq_true_eq] at ht ⊢
    exact ⟨⟨by omega, ht.1.2⟩, ht.2⟩

theorem Tbl.okAbove_put [DecidableEq β] (d v : β) (hv : v ≠ d) (k : Nat) (t : Tbl β) :
    ∀ n, n ≤ k → Tbl.okAbove d n t = true → Tbl.okAbove d n (Tbl.put v k t) = true := by
  induction t with
  | nil => intro n h _; simp [Tbl.put, Tbl.okAbove, h, hv]
  | cons e t ih =>
    obtain ⟨a, b⟩ := e
    intro n h ht
    simp only [Tbl.okAbove, Bool.and_eq_true, decide_eq_true_eq] at ht
    simp only [Tbl.put]
    split
    · simp only [Tbl.okAbove, Bool.and_eq_true, decide_eq_true_eq]
      exact ⟨⟨h, hv⟩, ⟨by omega, ht.1.2⟩, ht.2⟩
    · split
      · subst_vars
        simp only [Tbl.okAbove, Bool.and_eq_true, decide_eq_true_eq]
        exact ⟨⟨h, hv⟩, ht.2⟩
      · simp only [Tbl.okAbove, Bool.and_eq_true, decide_eq_true_eq]
        exact ⟨ht.1, ih (a + 1) (by omega) ht.2⟩

theorem Tbl.okAbove_del [DecidableEq β] (d : β) (k : Nat) (t : Tbl β) :
    ∀ n, Tbl.okAbove d n t = true → Tbl.okAbove d n (Tbl.del k t) = true := by
  induction t with
  | nil => intro n _; rfl
  | cons e t ih =>
    obtain ⟨a, b⟩ := e
    intro n ht
    simp only [Tbl.okAbove, Bool.and_eq_true, decide_eq_true_eq] at ht
    simp only [Tbl.del]
    split
    · exact Tbl.okAbove_mono d (by omega) _ (ih _ ht.2)
    · simp only [Tbl.okAbove, Bool.and_eq_true, decide_eq_true_eq]
      exact ⟨ht.1, ih _ ht.2⟩

theorem Tbl.okAbove_filter [DecidableEq β] (d : β) (p : Nat × β → Bool) (t : Tbl β) :
    ∀ n, Tbl.okAbove d n t = true → Tbl.okAbove d n (t.filter p) = true := by
  induction t with
  | nil => intro n _; rfl
  | cons e t ih =>
    obtain ⟨a, b⟩ := e
    intro n ht
    simp only [Tbl.okAbove, Bool.and_eq_true, decide_eq_true_eq] at ht
    simp only [List.filter_cons]
    split
    · simp only [Tbl.okAbove, Bool.and_eq_true, decide_eq_true_eq]
      exact ⟨ht.1, ih _ ht.2⟩
    · exact Tbl.okAbove_mono d (by omega) _ (ih _ ht.2)

/-- Setting a key keeps the canonical form. -/
theorem Tbl.wf_set [DecidableEq β] (d v : β) (k : Nat) (t : Tbl β) (h : Tbl.wf d t = true) : Tbl.wf d (Tbl.set d t k v) = true := by
  unfold Tbl.set
  split
  · exact Tbl.okAbove_del d k t 0 h
  · rename_i hv; exact Tbl.okAbove_put d v hv k t 0 (Nat.zero_le _) h

/-- Dropping entries keeps the canonical form. -/
theorem Tbl.wf_filter [DecidableEq β] (d : β) (p : Nat × β → Bool) (t : Tbl β) (h : Tbl.wf d t = true) :
    Tbl.wf d (t.filter p) = true := Tbl.okAbove_filter d p t 0 h

theorem Tbl.wf_del [DecidableEq β] (d : β) (k : Nat) (t : Tbl β) (h : Tbl.wf d t = true) : Tbl.wf d (Tbl.del k t) = true :=
  Tbl.okAbove_del d k t 0 h

/-- Changing every value keeps the canonical form. -/
theorem Tbl.wf_mapV [DecidableEq β] (d : β) (f : β → β) (t : Tbl β) : Tbl.wf d (Tbl.mapV d f t) = true := by
  unfold Tbl.mapV
  induction t with
  | nil => rfl
  | cons e t ih => exact Tbl.wf_set d _ _ _ ih

/-- What a changed table gives, when the change keeps the default. -/
theorem Tbl.get_mapV [DecidableEq β] (d : β) (f : β → β) (hf : f d = d) (t : Tbl β) (k : Nat) :
    Tbl.get d (Tbl.mapV d f t) k = f (Tbl.get d t k) := by
  unfold Tbl.mapV
  induction t with
  | nil => simp [Tbl.get, hf]
  | cons e t ih =>
    simp only [List.foldr_cons, Tbl.get_set, Tbl.get]
    split
    · rfl
    · exact ih

/-! ### Memory -/

/-- A byte read after one byte is written. -/
theorem memByte_memPut (m : List Host.Cell) (a b : Nat) (v : Byte) :
    memByte (memPut m a v) b = if a = b then v else memByte m b := Tbl.get_set ..

theorem memPut_wf (m : List Host.Cell) (a : Nat) (v : Byte) (h : Memory.wf m = true) : Memory.wf (memPut m a v) = true :=
  Tbl.wf_set 0 v a m h

/-- A run of bytes written keeps the canonical form. -/
theorem memWrite_wf (bs : List Byte) : ∀ (m : List Host.Cell) (a : Nat), Memory.wf m = true → Memory.wf (memWrite m a bs) = true := by
  induction bs with
  | nil => intro m a h; exact h
  | cons b bs ih => intro m a h; exact ih _ _ (memPut_wf m a b h)

/-- A byte below a written run is unchanged. -/
theorem memByte_memWrite_below (bs : List Byte) : ∀ (m : List Host.Cell) (a x : Nat), x < a → memByte (memWrite m a bs) x = memByte m x := by
  induction bs with
  | nil => intro m a x _; rfl
  | cons b bs ih =>
    intro m a x h
    simp only [memWrite]
    rw [ih _ _ _ (by omega), memByte_memPut, if_neg (by omega)]

/-- A byte outside a written run is unchanged. -/
theorem memByte_memWrite_outside (bs : List Byte) :
    ∀ (m : List Host.Cell) (a x : Nat), x < a ∨ a + bs.length ≤ x → memByte (memWrite m a bs) x = memByte m x := by
  induction bs with
  | nil => intro m a x _; rfl
  | cons b bs ih =>
    intro m a x h
    simp only [List.length_cons] at h
    simp only [memWrite]
    rw [ih _ _ _ (by omega), memByte_memPut, if_neg (by omega)]

/-- A byte of a written run reads as written. -/
theorem memByte_memWrite_inside (bs : List Byte) :
    ∀ (m : List Host.Cell) (a n : Nat) (h : n < bs.length), memByte (memWrite m a bs) (a + n) = bs[n] := by
  induction bs with
  | nil => intro m a n h; simp at h
  | cons b bs ih =>
    intro m a n h
    simp only [memWrite]
    cases n with
    | zero => rw [memByte_memWrite_below _ _ _ _ (by omega), memByte_memPut]; simp
    | succ n =>
      have := ih (memPut m a b) (a + 1) n (by simpa using h)
      rw [show a + (n + 1) = a + 1 + n by omega, this]; simp

@[simp] theorem memRead_length (m : List Host.Cell) (n : Nat) : ∀ a, (memRead m a n).length = n := by
  induction n with
  | zero => intro a; rfl
  | succ n ih => intro a; simp [memRead, ih]

/-- A run reads back as it was written. -/
theorem memRead_memWrite (bs : List Byte) : ∀ (m : List Host.Cell) (a : Nat), memRead (memWrite m a bs) a bs.length = bs := by
  induction bs with
  | nil => intro m a; rfl
  | cons b bs ih =>
    intro m a
    simp only [memWrite, List.length_cons, memRead, ih]
    rw [memByte_memWrite_below _ _ _ _ (by omega), memByte_memPut]; simp

end Sys2Proof.Machine
end

