-- ==== Sys2Proof/Laws/State.lean ====
section
/-! SUPPORT. One lemma for each field and each update of the state, and reading a part of the state after it is written. -/
namespace Sys2Proof.Machine

/-! ### setStrand -/

@[simp] theorem State.setStrand_sched (s : State) (k : Nat) (t : Strand) : (s.setStrand k t).sched = s.sched := rfl
@[simp] theorem State.setStrand_cur (s : State) (k : Nat) (t : Strand) : (s.setStrand k t).cur = s.cur := rfl
@[simp] theorem State.setStrand_lim (s : State) (k : Nat) (t : Strand) : (s.setStrand k t).lim = s.lim := rfl
@[simp] theorem State.setStrand_freeCtr (s : State) (k : Nat) (t : Strand) : (s.setStrand k t).freeCtr = s.freeCtr := rfl
@[simp] theorem State.setStrand_mem (s : State) (k : Nat) (t : Strand) : (s.setStrand k t).mem = s.mem := rfl
@[simp] theorem State.setStrand_bad (s : State) (k : Nat) (t : Strand) : (s.setStrand k t).bad = s.bad := rfl
@[simp] theorem State.setStrand_soft (s : State) (k : Nat) (t : Strand) : (s.setStrand k t).soft = s.soft := rfl
@[simp] theorem State.setStrand_dir (s : State) (k : Nat) (t : Strand) : (s.setStrand k t).dir = s.dir := rfl
@[simp] theorem State.setStrand_time (s : State) (k : Nat) (t : Strand) : (s.setStrand k t).time = s.time := rfl
@[simp] theorem State.setStrand_cores (s : State) (k : Nat) (t : Strand) : (s.setStrand k t).cores = s.cores := rfl
@[simp] theorem State.setStrand_dies (s : State) (k : Nat) (t : Strand) : (s.setStrand k t).dies = s.dies := rfl
@[simp] theorem State.setStrand_flights (s : State) (k : Nat) (t : Strand) : (s.setStrand k t).flights = s.flights := rfl
@[simp] theorem State.setStrand_nextId (s : State) (k : Nat) (t : Strand) : (s.setStrand k t).nextId = s.nextId := rfl
@[simp] theorem State.setStrand_gallery (s : State) (k : Nat) (t : Strand) : (s.setStrand k t).gallery = s.gallery := rfl
@[simp] theorem State.setStrand_head (s : State) (k : Nat) (t : Strand) : (s.setStrand k t).head = s.head := rfl
@[simp] theorem State.setStrand_elect (s : State) (k : Nat) (t : Strand) : (s.setStrand k t).elect = s.elect := rfl
@[simp] theorem State.setStrand_parts (s : State) (k : Nat) (t : Strand) : (s.setStrand k t).parts = s.parts := rfl
@[simp] theorem State.setStrand_queues (s : State) (k : Nat) (t : Strand) : (s.setStrand k t).queues = s.queues := rfl
@[simp] theorem State.setStrand_loans (s : State) (k : Nat) (t : Strand) : (s.setStrand k t).loans = s.loans := rfl
@[simp] theorem State.setStrand_regs (s : State) (k : Nat) (t : Strand) : (s.setStrand k t).regs = s.regs := rfl

/-! ### setMe -/

@[simp] theorem State.setMe_sched (s : State) (t : Strand) : (s.setMe t).sched = s.sched := rfl
@[simp] theorem State.setMe_cur (s : State) (t : Strand) : (s.setMe t).cur = s.cur := rfl
@[simp] theorem State.setMe_lim (s : State) (t : Strand) : (s.setMe t).lim = s.lim := rfl
@[simp] theorem State.setMe_freeCtr (s : State) (t : Strand) : (s.setMe t).freeCtr = s.freeCtr := rfl
@[simp] theorem State.setMe_mem (s : State) (t : Strand) : (s.setMe t).mem = s.mem := rfl
@[simp] theorem State.setMe_bad (s : State) (t : Strand) : (s.setMe t).bad = s.bad := rfl
@[simp] theorem State.setMe_soft (s : State) (t : Strand) : (s.setMe t).soft = s.soft := rfl
@[simp] theorem State.setMe_dir (s : State) (t : Strand) : (s.setMe t).dir = s.dir := rfl
@[simp] theorem State.setMe_time (s : State) (t : Strand) : (s.setMe t).time = s.time := rfl
@[simp] theorem State.setMe_cores (s : State) (t : Strand) : (s.setMe t).cores = s.cores := rfl
@[simp] theorem State.setMe_dies (s : State) (t : Strand) : (s.setMe t).dies = s.dies := rfl
@[simp] theorem State.setMe_flights (s : State) (t : Strand) : (s.setMe t).flights = s.flights := rfl
@[simp] theorem State.setMe_nextId (s : State) (t : Strand) : (s.setMe t).nextId = s.nextId := rfl
@[simp] theorem State.setMe_gallery (s : State) (t : Strand) : (s.setMe t).gallery = s.gallery := rfl
@[simp] theorem State.setMe_head (s : State) (t : Strand) : (s.setMe t).head = s.head := rfl
@[simp] theorem State.setMe_elect (s : State) (t : Strand) : (s.setMe t).elect = s.elect := rfl
@[simp] theorem State.setMe_parts (s : State) (t : Strand) : (s.setMe t).parts = s.parts := rfl
@[simp] theorem State.setMe_queues (s : State) (t : Strand) : (s.setMe t).queues = s.queues := rfl
@[simp] theorem State.setMe_loans (s : State) (t : Strand) : (s.setMe t).loans = s.loans := rfl
@[simp] theorem State.setMe_regs (s : State) (t : Strand) : (s.setMe t).regs = s.regs := rfl

/-! ### setCore -/

@[simp] theorem State.setCore_sched (s : State) (c : Nat) (t : Core) : (s.setCore c t).sched = s.sched := rfl
@[simp] theorem State.setCore_cur (s : State) (c : Nat) (t : Core) : (s.setCore c t).cur = s.cur := rfl
@[simp] theorem State.setCore_lim (s : State) (c : Nat) (t : Core) : (s.setCore c t).lim = s.lim := rfl
@[simp] theorem State.setCore_freeCtr (s : State) (c : Nat) (t : Core) : (s.setCore c t).freeCtr = s.freeCtr := rfl
@[simp] theorem State.setCore_mem (s : State) (c : Nat) (t : Core) : (s.setCore c t).mem = s.mem := rfl
@[simp] theorem State.setCore_bad (s : State) (c : Nat) (t : Core) : (s.setCore c t).bad = s.bad := rfl
@[simp] theorem State.setCore_soft (s : State) (c : Nat) (t : Core) : (s.setCore c t).soft = s.soft := rfl
@[simp] theorem State.setCore_dir (s : State) (c : Nat) (t : Core) : (s.setCore c t).dir = s.dir := rfl
@[simp] theorem State.setCore_time (s : State) (c : Nat) (t : Core) : (s.setCore c t).time = s.time := rfl
@[simp] theorem State.setCore_strands (s : State) (c : Nat) (t : Core) : (s.setCore c t).strands = s.strands := rfl
@[simp] theorem State.setCore_dies (s : State) (c : Nat) (t : Core) : (s.setCore c t).dies = s.dies := rfl
@[simp] theorem State.setCore_flights (s : State) (c : Nat) (t : Core) : (s.setCore c t).flights = s.flights := rfl
@[simp] theorem State.setCore_nextId (s : State) (c : Nat) (t : Core) : (s.setCore c t).nextId = s.nextId := rfl
@[simp] theorem State.setCore_gallery (s : State) (c : Nat) (t : Core) : (s.setCore c t).gallery = s.gallery := rfl
@[simp] theorem State.setCore_head (s : State) (c : Nat) (t : Core) : (s.setCore c t).head = s.head := rfl
@[simp] theorem State.setCore_elect (s : State) (c : Nat) (t : Core) : (s.setCore c t).elect = s.elect := rfl
@[simp] theorem State.setCore_parts (s : State) (c : Nat) (t : Core) : (s.setCore c t).parts = s.parts := rfl
@[simp] theorem State.setCore_queues (s : State) (c : Nat) (t : Core) : (s.setCore c t).queues = s.queues := rfl
@[simp] theorem State.setCore_loans (s : State) (c : Nat) (t : Core) : (s.setCore c t).loans = s.loans := rfl
@[simp] theorem State.setCore_regs (s : State) (c : Nat) (t : Core) : (s.setCore c t).regs = s.regs := rfl

/-! ### setMyCore -/

@[simp] theorem State.setMyCore_sched (s : State) (t : Core) : (s.setMyCore t).sched = s.sched := rfl
@[simp] theorem State.setMyCore_cur (s : State) (t : Core) : (s.setMyCore t).cur = s.cur := rfl
@[simp] theorem State.setMyCore_lim (s : State) (t : Core) : (s.setMyCore t).lim = s.lim := rfl
@[simp] theorem State.setMyCore_freeCtr (s : State) (t : Core) : (s.setMyCore t).freeCtr = s.freeCtr := rfl
@[simp] theorem State.setMyCore_mem (s : State) (t : Core) : (s.setMyCore t).mem = s.mem := rfl
@[simp] theorem State.setMyCore_bad (s : State) (t : Core) : (s.setMyCore t).bad = s.bad := rfl
@[simp] theorem State.setMyCore_soft (s : State) (t : Core) : (s.setMyCore t).soft = s.soft := rfl
@[simp] theorem State.setMyCore_dir (s : State) (t : Core) : (s.setMyCore t).dir = s.dir := rfl
@[simp] theorem State.setMyCore_time (s : State) (t : Core) : (s.setMyCore t).time = s.time := rfl
@[simp] theorem State.setMyCore_strands (s : State) (t : Core) : (s.setMyCore t).strands = s.strands := rfl
@[simp] theorem State.setMyCore_dies (s : State) (t : Core) : (s.setMyCore t).dies = s.dies := rfl
@[simp] theorem State.setMyCore_flights (s : State) (t : Core) : (s.setMyCore t).flights = s.flights := rfl
@[simp] theorem State.setMyCore_nextId (s : State) (t : Core) : (s.setMyCore t).nextId = s.nextId := rfl
@[simp] theorem State.setMyCore_gallery (s : State) (t : Core) : (s.setMyCore t).gallery = s.gallery := rfl
@[simp] theorem State.setMyCore_head (s : State) (t : Core) : (s.setMyCore t).head = s.head := rfl
@[simp] theorem State.setMyCore_elect (s : State) (t : Core) : (s.setMyCore t).elect = s.elect := rfl
@[simp] theorem State.setMyCore_parts (s : State) (t : Core) : (s.setMyCore t).parts = s.parts := rfl
@[simp] theorem State.setMyCore_queues (s : State) (t : Core) : (s.setMyCore t).queues = s.queues := rfl
@[simp] theorem State.setMyCore_loans (s : State) (t : Core) : (s.setMyCore t).loans = s.loans := rfl
@[simp] theorem State.setMyCore_regs (s : State) (t : Core) : (s.setMyCore t).regs = s.regs := rfl

/-! ### setDie -/

@[simp] theorem State.setDie_sched (s : State) (d : Nat) (t : Die) : (s.setDie d t).sched = s.sched := rfl
@[simp] theorem State.setDie_cur (s : State) (d : Nat) (t : Die) : (s.setDie d t).cur = s.cur := rfl
@[simp] theorem State.setDie_lim (s : State) (d : Nat) (t : Die) : (s.setDie d t).lim = s.lim := rfl
@[simp] theorem State.setDie_freeCtr (s : State) (d : Nat) (t : Die) : (s.setDie d t).freeCtr = s.freeCtr := rfl
@[simp] theorem State.setDie_mem (s : State) (d : Nat) (t : Die) : (s.setDie d t).mem = s.mem := rfl
@[simp] theorem State.setDie_bad (s : State) (d : Nat) (t : Die) : (s.setDie d t).bad = s.bad := rfl
@[simp] theorem State.setDie_soft (s : State) (d : Nat) (t : Die) : (s.setDie d t).soft = s.soft := rfl
@[simp] theorem State.setDie_dir (s : State) (d : Nat) (t : Die) : (s.setDie d t).dir = s.dir := rfl
@[simp] theorem State.setDie_time (s : State) (d : Nat) (t : Die) : (s.setDie d t).time = s.time := rfl
@[simp] theorem State.setDie_strands (s : State) (d : Nat) (t : Die) : (s.setDie d t).strands = s.strands := rfl
@[simp] theorem State.setDie_cores (s : State) (d : Nat) (t : Die) : (s.setDie d t).cores = s.cores := rfl
@[simp] theorem State.setDie_flights (s : State) (d : Nat) (t : Die) : (s.setDie d t).flights = s.flights := rfl
@[simp] theorem State.setDie_nextId (s : State) (d : Nat) (t : Die) : (s.setDie d t).nextId = s.nextId := rfl
@[simp] theorem State.setDie_gallery (s : State) (d : Nat) (t : Die) : (s.setDie d t).gallery = s.gallery := rfl
@[simp] theorem State.setDie_head (s : State) (d : Nat) (t : Die) : (s.setDie d t).head = s.head := rfl
@[simp] theorem State.setDie_elect (s : State) (d : Nat) (t : Die) : (s.setDie d t).elect = s.elect := rfl
@[simp] theorem State.setDie_parts (s : State) (d : Nat) (t : Die) : (s.setDie d t).parts = s.parts := rfl
@[simp] theorem State.setDie_queues (s : State) (d : Nat) (t : Die) : (s.setDie d t).queues = s.queues := rfl
@[simp] theorem State.setDie_loans (s : State) (d : Nat) (t : Die) : (s.setDie d t).loans = s.loans := rfl
@[simp] theorem State.setDie_regs (s : State) (d : Nat) (t : Die) : (s.setDie d t).regs = s.regs := rfl

/-! ### setPart -/

@[simp] theorem State.setPart_sched (s : State) (p : Nat) (t : Partition) : (s.setPart p t).sched = s.sched := rfl
@[simp] theorem State.setPart_cur (s : State) (p : Nat) (t : Partition) : (s.setPart p t).cur = s.cur := rfl
@[simp] theorem State.setPart_lim (s : State) (p : Nat) (t : Partition) : (s.setPart p t).lim = s.lim := rfl
@[simp] theorem State.setPart_freeCtr (s : State) (p : Nat) (t : Partition) : (s.setPart p t).freeCtr = s.freeCtr := rfl
@[simp] theorem State.setPart_mem (s : State) (p : Nat) (t : Partition) : (s.setPart p t).mem = s.mem := rfl
@[simp] theorem State.setPart_bad (s : State) (p : Nat) (t : Partition) : (s.setPart p t).bad = s.bad := rfl
@[simp] theorem State.setPart_soft (s : State) (p : Nat) (t : Partition) : (s.setPart p t).soft = s.soft := rfl
@[simp] theorem State.setPart_dir (s : State) (p : Nat) (t : Partition) : (s.setPart p t).dir = s.dir := rfl
@[simp] theorem State.setPart_time (s : State) (p : Nat) (t : Partition) : (s.setPart p t).time = s.time := rfl
@[simp] theorem State.setPart_strands (s : State) (p : Nat) (t : Partition) : (s.setPart p t).strands = s.strands := rfl
@[simp] theorem State.setPart_cores (s : State) (p : Nat) (t : Partition) : (s.setPart p t).cores = s.cores := rfl
@[simp] theorem State.setPart_dies (s : State) (p : Nat) (t : Partition) : (s.setPart p t).dies = s.dies := rfl
@[simp] theorem State.setPart_flights (s : State) (p : Nat) (t : Partition) : (s.setPart p t).flights = s.flights := rfl
@[simp] theorem State.setPart_nextId (s : State) (p : Nat) (t : Partition) : (s.setPart p t).nextId = s.nextId := rfl
@[simp] theorem State.setPart_gallery (s : State) (p : Nat) (t : Partition) : (s.setPart p t).gallery = s.gallery := rfl
@[simp] theorem State.setPart_head (s : State) (p : Nat) (t : Partition) : (s.setPart p t).head = s.head := rfl
@[simp] theorem State.setPart_elect (s : State) (p : Nat) (t : Partition) : (s.setPart p t).elect = s.elect := rfl
@[simp] theorem State.setPart_queues (s : State) (p : Nat) (t : Partition) : (s.setPart p t).queues = s.queues := rfl
@[simp] theorem State.setPart_loans (s : State) (p : Nat) (t : Partition) : (s.setPart p t).loans = s.loans := rfl
@[simp] theorem State.setPart_regs (s : State) (p : Nat) (t : Partition) : (s.setPart p t).regs = s.regs := rfl

/-! ### setQueue -/

@[simp] theorem State.setQueue_sched (s : State) (q : Nat) (t : HostQueue) : (s.setQueue q t).sched = s.sched := rfl
@[simp] theorem State.setQueue_cur (s : State) (q : Nat) (t : HostQueue) : (s.setQueue q t).cur = s.cur := rfl
@[simp] theorem State.setQueue_lim (s : State) (q : Nat) (t : HostQueue) : (s.setQueue q t).lim = s.lim := rfl
@[simp] theorem State.setQueue_freeCtr (s : State) (q : Nat) (t : HostQueue) : (s.setQueue q t).freeCtr = s.freeCtr := rfl
@[simp] theorem State.setQueue_mem (s : State) (q : Nat) (t : HostQueue) : (s.setQueue q t).mem = s.mem := rfl
@[simp] theorem State.setQueue_bad (s : State) (q : Nat) (t : HostQueue) : (s.setQueue q t).bad = s.bad := rfl
@[simp] theorem State.setQueue_soft (s : State) (q : Nat) (t : HostQueue) : (s.setQueue q t).soft = s.soft := rfl
@[simp] theorem State.setQueue_dir (s : State) (q : Nat) (t : HostQueue) : (s.setQueue q t).dir = s.dir := rfl
@[simp] theorem State.setQueue_time (s : State) (q : Nat) (t : HostQueue) : (s.setQueue q t).time = s.time := rfl
@[simp] theorem State.setQueue_strands (s : State) (q : Nat) (t : HostQueue) : (s.setQueue q t).strands = s.strands := rfl
@[simp] theorem State.setQueue_cores (s : State) (q : Nat) (t : HostQueue) : (s.setQueue q t).cores = s.cores := rfl
@[simp] theorem State.setQueue_dies (s : State) (q : Nat) (t : HostQueue) : (s.setQueue q t).dies = s.dies := rfl
@[simp] theorem State.setQueue_flights (s : State) (q : Nat) (t : HostQueue) : (s.setQueue q t).flights = s.flights := rfl
@[simp] theorem State.setQueue_nextId (s : State) (q : Nat) (t : HostQueue) : (s.setQueue q t).nextId = s.nextId := rfl
@[simp] theorem State.setQueue_gallery (s : State) (q : Nat) (t : HostQueue) : (s.setQueue q t).gallery = s.gallery := rfl
@[simp] theorem State.setQueue_head (s : State) (q : Nat) (t : HostQueue) : (s.setQueue q t).head = s.head := rfl
@[simp] theorem State.setQueue_elect (s : State) (q : Nat) (t : HostQueue) : (s.setQueue q t).elect = s.elect := rfl
@[simp] theorem State.setQueue_parts (s : State) (q : Nat) (t : HostQueue) : (s.setQueue q t).parts = s.parts := rfl
@[simp] theorem State.setQueue_loans (s : State) (q : Nat) (t : HostQueue) : (s.setQueue q t).loans = s.loans := rfl
@[simp] theorem State.setQueue_regs (s : State) (q : Nat) (t : HostQueue) : (s.setQueue q t).regs = s.regs := rfl

/-! ### setFlight -/

@[simp] theorem State.setFlight_sched (s : State) (f : Flight) : (s.setFlight f).sched = s.sched := rfl
@[simp] theorem State.setFlight_cur (s : State) (f : Flight) : (s.setFlight f).cur = s.cur := rfl
@[simp] theorem State.setFlight_lim (s : State) (f : Flight) : (s.setFlight f).lim = s.lim := rfl
@[simp] theorem State.setFlight_freeCtr (s : State) (f : Flight) : (s.setFlight f).freeCtr = s.freeCtr := rfl
@[simp] theorem State.setFlight_mem (s : State) (f : Flight) : (s.setFlight f).mem = s.mem := rfl
@[simp] theorem State.setFlight_bad (s : State) (f : Flight) : (s.setFlight f).bad = s.bad := rfl
@[simp] theorem State.setFlight_soft (s : State) (f : Flight) : (s.setFlight f).soft = s.soft := rfl
@[simp] theorem State.setFlight_dir (s : State) (f : Flight) : (s.setFlight f).dir = s.dir := rfl
@[simp] theorem State.setFlight_time (s : State) (f : Flight) : (s.setFlight f).time = s.time := rfl
@[simp] theorem State.setFlight_strands (s : State) (f : Flight) : (s.setFlight f).strands = s.strands := rfl
@[simp] theorem State.setFlight_cores (s : State) (f : Flight) : (s.setFlight f).cores = s.cores := rfl
@[simp] theorem State.setFlight_dies (s : State) (f : Flight) : (s.setFlight f).dies = s.dies := rfl
@[simp] theorem State.setFlight_nextId (s : State) (f : Flight) : (s.setFlight f).nextId = s.nextId := rfl
@[simp] theorem State.setFlight_gallery (s : State) (f : Flight) : (s.setFlight f).gallery = s.gallery := rfl
@[simp] theorem State.setFlight_head (s : State) (f : Flight) : (s.setFlight f).head = s.head := rfl
@[simp] theorem State.setFlight_elect (s : State) (f : Flight) : (s.setFlight f).elect = s.elect := rfl
@[simp] theorem State.setFlight_parts (s : State) (f : Flight) : (s.setFlight f).parts = s.parts := rfl
@[simp] theorem State.setFlight_queues (s : State) (f : Flight) : (s.setFlight f).queues = s.queues := rfl
@[simp] theorem State.setFlight_loans (s : State) (f : Flight) : (s.setFlight f).loans = s.loans := rfl
@[simp] theorem State.setFlight_regs (s : State) (f : Flight) : (s.setFlight f).regs = s.regs := rfl

/-! ### useFree -/

@[simp] theorem State.useFree_sched (s : State) : (s.useFree).sched = s.sched := rfl
@[simp] theorem State.useFree_cur (s : State) : (s.useFree).cur = s.cur := rfl
@[simp] theorem State.useFree_lim (s : State) : (s.useFree).lim = s.lim := rfl
@[simp] theorem State.useFree_mem (s : State) : (s.useFree).mem = s.mem := rfl
@[simp] theorem State.useFree_bad (s : State) : (s.useFree).bad = s.bad := rfl
@[simp] theorem State.useFree_soft (s : State) : (s.useFree).soft = s.soft := rfl
@[simp] theorem State.useFree_dir (s : State) : (s.useFree).dir = s.dir := rfl
@[simp] theorem State.useFree_time (s : State) : (s.useFree).time = s.time := rfl
@[simp] theorem State.useFree_strands (s : State) : (s.useFree).strands = s.strands := rfl
@[simp] theorem State.useFree_cores (s : State) : (s.useFree).cores = s.cores := rfl
@[simp] theorem State.useFree_dies (s : State) : (s.useFree).dies = s.dies := rfl
@[simp] theorem State.useFree_flights (s : State) : (s.useFree).flights = s.flights := rfl
@[simp] theorem State.useFree_nextId (s : State) : (s.useFree).nextId = s.nextId := rfl
@[simp] theorem State.useFree_gallery (s : State) : (s.useFree).gallery = s.gallery := rfl
@[simp] theorem State.useFree_head (s : State) : (s.useFree).head = s.head := rfl
@[simp] theorem State.useFree_elect (s : State) : (s.useFree).elect = s.elect := rfl
@[simp] theorem State.useFree_parts (s : State) : (s.useFree).parts = s.parts := rfl
@[simp] theorem State.useFree_queues (s : State) : (s.useFree).queues = s.queues := rfl
@[simp] theorem State.useFree_loans (s : State) : (s.useFree).loans = s.loans := rfl
@[simp] theorem State.useFree_regs (s : State) : (s.useFree).regs = s.regs := rfl

/-! ### setX -/

@[simp] theorem State.setX_sched (s : State) (r : XReg) (v : Word) : (s.setX r v).sched = s.sched := rfl
@[simp] theorem State.setX_cur (s : State) (r : XReg) (v : Word) : (s.setX r v).cur = s.cur := rfl
@[simp] theorem State.setX_lim (s : State) (r : XReg) (v : Word) : (s.setX r v).lim = s.lim := rfl
@[simp] theorem State.setX_freeCtr (s : State) (r : XReg) (v : Word) : (s.setX r v).freeCtr = s.freeCtr := rfl
@[simp] theorem State.setX_mem (s : State) (r : XReg) (v : Word) : (s.setX r v).mem = s.mem := rfl
@[simp] theorem State.setX_bad (s : State) (r : XReg) (v : Word) : (s.setX r v).bad = s.bad := rfl
@[simp] theorem State.setX_soft (s : State) (r : XReg) (v : Word) : (s.setX r v).soft = s.soft := rfl
@[simp] theorem State.setX_dir (s : State) (r : XReg) (v : Word) : (s.setX r v).dir = s.dir := rfl
@[simp] theorem State.setX_time (s : State) (r : XReg) (v : Word) : (s.setX r v).time = s.time := rfl
@[simp] theorem State.setX_cores (s : State) (r : XReg) (v : Word) : (s.setX r v).cores = s.cores := rfl
@[simp] theorem State.setX_dies (s : State) (r : XReg) (v : Word) : (s.setX r v).dies = s.dies := rfl
@[simp] theorem State.setX_flights (s : State) (r : XReg) (v : Word) : (s.setX r v).flights = s.flights := rfl
@[simp] theorem State.setX_nextId (s : State) (r : XReg) (v : Word) : (s.setX r v).nextId = s.nextId := rfl
@[simp] theorem State.setX_gallery (s : State) (r : XReg) (v : Word) : (s.setX r v).gallery = s.gallery := rfl
@[simp] theorem State.setX_head (s : State) (r : XReg) (v : Word) : (s.setX r v).head = s.head := rfl
@[simp] theorem State.setX_elect (s : State) (r : XReg) (v : Word) : (s.setX r v).elect = s.elect := rfl
@[simp] theorem State.setX_parts (s : State) (r : XReg) (v : Word) : (s.setX r v).parts = s.parts := rfl
@[simp] theorem State.setX_queues (s : State) (r : XReg) (v : Word) : (s.setX r v).queues = s.queues := rfl
@[simp] theorem State.setX_loans (s : State) (r : XReg) (v : Word) : (s.setX r v).loans = s.loans := rfl
@[simp] theorem State.setX_regs (s : State) (r : XReg) (v : Word) : (s.setX r v).regs = s.regs := rfl

/-! ### Reading a part after an update of another -/

@[simp] theorem State.setStrand_core (s : State) (k : Nat) (t : Strand) (j : Nat) : (s.setStrand k t).core j = s.core j := rfl
@[simp] theorem State.setStrand_die (s : State) (k : Nat) (t : Strand) (j : Nat) : (s.setStrand k t).die j = s.die j := rfl
@[simp] theorem State.setStrand_part (s : State) (k : Nat) (t : Strand) (j : Nat) : (s.setStrand k t).part j = s.part j := rfl
@[simp] theorem State.setStrand_queue (s : State) (k : Nat) (t : Strand) (j : Nat) : (s.setStrand k t).queue j = s.queue j := rfl
@[simp] theorem State.setMe_core (s : State) (t : Strand) (j : Nat) : (s.setMe t).core j = s.core j := rfl
@[simp] theorem State.setMe_die (s : State) (t : Strand) (j : Nat) : (s.setMe t).die j = s.die j := rfl
@[simp] theorem State.setMe_part (s : State) (t : Strand) (j : Nat) : (s.setMe t).part j = s.part j := rfl
@[simp] theorem State.setMe_queue (s : State) (t : Strand) (j : Nat) : (s.setMe t).queue j = s.queue j := rfl
@[simp] theorem State.setCore_strand (s : State) (c : Nat) (t : Core) (j : Nat) : (s.setCore c t).strand j = s.strand j := rfl
@[simp] theorem State.setCore_die (s : State) (c : Nat) (t : Core) (j : Nat) : (s.setCore c t).die j = s.die j := rfl
@[simp] theorem State.setCore_part (s : State) (c : Nat) (t : Core) (j : Nat) : (s.setCore c t).part j = s.part j := rfl
@[simp] theorem State.setCore_queue (s : State) (c : Nat) (t : Core) (j : Nat) : (s.setCore c t).queue j = s.queue j := rfl
@[simp] theorem State.setMyCore_strand (s : State) (t : Core) (j : Nat) : (s.setMyCore t).strand j = s.strand j := rfl
@[simp] theorem State.setMyCore_die (s : State) (t : Core) (j : Nat) : (s.setMyCore t).die j = s.die j := rfl
@[simp] theorem State.setMyCore_part (s : State) (t : Core) (j : Nat) : (s.setMyCore t).part j = s.part j := rfl
@[simp] theorem State.setMyCore_queue (s : State) (t : Core) (j : Nat) : (s.setMyCore t).queue j = s.queue j := rfl
@[simp] theorem State.setDie_strand (s : State) (d : Nat) (t : Die) (j : Nat) : (s.setDie d t).strand j = s.strand j := rfl
@[simp] theorem State.setDie_core (s : State) (d : Nat) (t : Die) (j : Nat) : (s.setDie d t).core j = s.core j := rfl
@[simp] theorem State.setDie_part (s : State) (d : Nat) (t : Die) (j : Nat) : (s.setDie d t).part j = s.part j := rfl
@[simp] theorem State.setDie_queue (s : State) (d : Nat) (t : Die) (j : Nat) : (s.setDie d t).queue j = s.queue j := rfl
@[simp] theorem State.setPart_strand (s : State) (p : Nat) (t : Partition) (j : Nat) : (s.setPart p t).strand j = s.strand j := rfl
@[simp] theorem State.setPart_core (s : State) (p : Nat) (t : Partition) (j : Nat) : (s.setPart p t).core j = s.core j := rfl
@[simp] theorem State.setPart_die (s : State) (p : Nat) (t : Partition) (j : Nat) : (s.setPart p t).die j = s.die j := rfl
@[simp] theorem State.setPart_queue (s : State) (p : Nat) (t : Partition) (j : Nat) : (s.setPart p t).queue j = s.queue j := rfl
@[simp] theorem State.setQueue_strand (s : State) (q : Nat) (t : HostQueue) (j : Nat) : (s.setQueue q t).strand j = s.strand j := rfl
@[simp] theorem State.setQueue_core (s : State) (q : Nat) (t : HostQueue) (j : Nat) : (s.setQueue q t).core j = s.core j := rfl
@[simp] theorem State.setQueue_die (s : State) (q : Nat) (t : HostQueue) (j : Nat) : (s.setQueue q t).die j = s.die j := rfl
@[simp] theorem State.setQueue_part (s : State) (q : Nat) (t : HostQueue) (j : Nat) : (s.setQueue q t).part j = s.part j := rfl
@[simp] theorem State.setFlight_strand (s : State) (f : Flight) (j : Nat) : (s.setFlight f).strand j = s.strand j := rfl
@[simp] theorem State.setFlight_core (s : State) (f : Flight) (j : Nat) : (s.setFlight f).core j = s.core j := rfl
@[simp] theorem State.setFlight_die (s : State) (f : Flight) (j : Nat) : (s.setFlight f).die j = s.die j := rfl
@[simp] theorem State.setFlight_part (s : State) (f : Flight) (j : Nat) : (s.setFlight f).part j = s.part j := rfl
@[simp] theorem State.setFlight_queue (s : State) (f : Flight) (j : Nat) : (s.setFlight f).queue j = s.queue j := rfl
@[simp] theorem State.useFree_strand (s : State)  (j : Nat) : (s.useFree ).strand j = s.strand j := rfl
@[simp] theorem State.useFree_core (s : State)  (j : Nat) : (s.useFree ).core j = s.core j := rfl
@[simp] theorem State.useFree_die (s : State)  (j : Nat) : (s.useFree ).die j = s.die j := rfl
@[simp] theorem State.useFree_part (s : State)  (j : Nat) : (s.useFree ).part j = s.part j := rfl
@[simp] theorem State.useFree_queue (s : State)  (j : Nat) : (s.useFree ).queue j = s.queue j := rfl
@[simp] theorem State.setX_core (s : State) (r : XReg) (v : Word) (j : Nat) : (s.setX r v).core j = s.core j := rfl
@[simp] theorem State.setX_die (s : State) (r : XReg) (v : Word) (j : Nat) : (s.setX r v).die j = s.die j := rfl
@[simp] theorem State.setX_part (s : State) (r : XReg) (v : Word) (j : Nat) : (s.setX r v).part j = s.part j := rfl
@[simp] theorem State.setX_queue (s : State) (r : XReg) (v : Word) (j : Nat) : (s.setX r v).queue j = s.queue j := rfl

/-! ### Reading a part after writing it -/

theorem State.setStrand_strand (s : State) (k j : Nat) (t : Strand) : (s.setStrand k t).strand j = if k = j then t else s.strand j :=
  Tbl.get_set ..
theorem State.setCore_core (s : State) (c j : Nat) (t : Core) : (s.setCore c t).core j = if c = j then t else s.core j := Tbl.get_set ..
theorem State.setDie_die (s : State) (d j : Nat) (t : Die) : (s.setDie d t).die j = if d = j then t else s.die j := Tbl.get_set ..
theorem State.setPart_part (s : State) (p j : Nat) (t : Partition) : (s.setPart p t).part j = if p = j then t else s.part j :=
  Tbl.get_set ..
theorem State.setQueue_queue (s : State) (q j : Nat) (t : HostQueue) : (s.setQueue q t).queue j = if q = j then t else s.queue j :=
  Tbl.get_set ..

@[simp] theorem State.setStrand_same (s : State) (k : Nat) (t : Strand) : (s.setStrand k t).strand k = t := Tbl.get_set_same ..
@[simp] theorem State.setCore_same (s : State) (c : Nat) (t : Core) : (s.setCore c t).core c = t := Tbl.get_set_same ..
@[simp] theorem State.setDie_same (s : State) (d : Nat) (t : Die) : (s.setDie d t).die d = t := Tbl.get_set_same ..
@[simp] theorem State.setPart_same (s : State) (p : Nat) (t : Partition) : (s.setPart p t).part p = t := Tbl.get_set_same ..
@[simp] theorem State.setQueue_same (s : State) (q : Nat) (t : HostQueue) : (s.setQueue q t).queue q = t := Tbl.get_set_same ..

theorem State.setStrand_ne (s : State) {k j : Nat} (t : Strand) (h : k ≠ j) : (s.setStrand k t).strand j = s.strand j :=
  Tbl.get_set_ne _ _ _ h
theorem State.setCore_ne (s : State) {c j : Nat} (t : Core) (h : c ≠ j) : (s.setCore c t).core j = s.core j := Tbl.get_set_ne _ _ _ h

/-- The executing strand after it is written. -/
@[simp] theorem State.setMe_me (s : State) (t : Strand) : (s.setMe t).me = t := Tbl.get_set_same ..
@[simp] theorem State.setMe_same (s : State) (t : Strand) : (s.setMe t).strand s.cur = t := Tbl.get_set_same ..
theorem State.setMe_ne (s : State) {j : Nat} (t : Strand) (h : s.cur ≠ j) : (s.setMe t).strand j = s.strand j := Tbl.get_set_ne _ _ _ h
@[simp] theorem State.setMyCore_myCore (s : State) (c : Core) : (s.setMyCore c).myCore = c := Tbl.get_set_same ..
@[simp] theorem State.setMyCore_me (s : State) (c : Core) : (s.setMyCore c).me = s.me := rfl
@[simp] theorem State.setCore_me (s : State) (n : Nat) (c : Core) : (s.setCore n c).me = s.me := rfl
@[simp] theorem State.setDie_me (s : State) (n : Nat) (c : Die) : (s.setDie n c).me = s.me := rfl
@[simp] theorem State.setPart_me (s : State) (n : Nat) (c : Partition) : (s.setPart n c).me = s.me := rfl
@[simp] theorem State.setQueue_me (s : State) (n : Nat) (c : HostQueue) : (s.setQueue n c).me = s.me := rfl
@[simp] theorem State.setFlight_me (s : State) (f : Flight) : (s.setFlight f).me = s.me := rfl
@[simp] theorem State.setMe_myCore (s : State) (t : Strand) : (s.setMe t).myCore = s.myCore := rfl

/-! ### Registers of a strand -/

/-- x0 reads zero whatever the register file holds (R164). -/
@[simp] theorem Strand.getX_zero (t : Strand) : t.getX 0 = 0 := by simp [Strand.getX]

/-- A write to x0 is discarded (R164). -/
@[simp] theorem Strand.setX_zero (t : Strand) (v : Word) : t.setX 0 v = t := by simp [Strand.setX]

/-- A register after a write. -/
theorem Strand.getX_setX (t : Strand) (r q : XReg) (v : Word) :
    (t.setX r v).getX q = if q = 0 then 0 else if q = r then v else t.getX q := by
  unfold Strand.getX Strand.setX
  by_cases hq : q = 0
  · simp [hq]
  · by_cases hr : r = 0
    · subst hr; simp [hq]
    · by_cases h : q = r
      · subst h; simp [hq]
      · have : r.val ≠ q.val := fun e => h (Fin.ext e.symm)
        simp [hq, hr, h, this]

theorem State.setX_me (s : State) (r : XReg) (v : Word) : (s.setX r v).me = s.me.setX r v := Tbl.get_set_same ..

@[simp] theorem Strand.setX_status (t : Strand) (r : XReg) (v : Word) : (t.setX r v).status = t.status := by unfold Strand.setX; split <;> rfl
@[simp] theorem Strand.setX_kind (t : Strand) (r : XReg) (v : Word) : (t.setX r v).kind = t.kind := by unfold Strand.setX; split <;> rfl
@[simp] theorem Strand.setX_flight (t : Strand) (r : XReg) (v : Word) : (t.setX r v).flight = t.flight := by unfold Strand.setX; split <;> rfl
@[simp] theorem Strand.setX_handlerOf (t : Strand) (r : XReg) (v : Word) : (t.setX r v).handlerOf = t.handlerOf := by unfold Strand.setX; split <;> rfl
@[simp] theorem Strand.setX_tread (t : Strand) (r : XReg) (v : Word) : (t.setX r v).tread = t.tread := by unfold Strand.setX; split <;> rfl
@[simp] theorem Strand.setX_mode (t : Strand) (r : XReg) (v : Word) : (t.setX r v).mode = t.mode := by unfold Strand.setX; split <;> rfl
@[simp] theorem Strand.setX_pc (t : Strand) (r : XReg) (v : Word) : (t.setX r v).pc = t.pc := by unfold Strand.setX; split <;> rfl
@[simp] theorem Strand.setX_p (t : Strand) (r : XReg) (v : Word) : (t.setX r v).p = t.p := by unfold Strand.setX; split <;> rfl
@[simp] theorem Strand.setX_k (t : Strand) (r : XReg) (v : Word) : (t.setX r v).k = t.k := by unfold Strand.setX; split <;> rfl
@[simp] theorem Strand.setX_sd (t : Strand) (r : XReg) (v : Word) : (t.setX r v).sd = t.sd := by unfold Strand.setX; split <;> rfl
@[simp] theorem Strand.setX_csr (t : Strand) (r : XReg) (v : Word) : (t.setX r v).csr = t.csr := by unfold Strand.setX; split <;> rfl
@[simp] theorem Strand.setX_gw (t : Strand) (r : XReg) (v : Word) : (t.setX r v).gw = t.gw := by unfold Strand.setX; split <;> rfl
@[simp] theorem Strand.setX_claim (t : Strand) (r : XReg) (v : Word) : (t.setX r v).claim = t.claim := by unfold Strand.setX; split <;> rfl
@[simp] theorem Strand.setX_blocks (t : Strand) (r : XReg) (v : Word) : (t.setX r v).blocks = t.blocks := by unfold Strand.setX; split <;> rfl
@[simp] theorem Strand.setX_tiles (t : Strand) (r : XReg) (v : Word) : (t.setX r v).tiles = t.tiles := by unfold Strand.setX; split <;> rfl
@[simp] theorem Strand.setX_pages (t : Strand) (r : XReg) (v : Word) : (t.setX r v).pages = t.pages := by unfold Strand.setX; split <;> rfl
@[simp] theorem Strand.setX_resv (t : Strand) (r : XReg) (v : Word) : (t.setX r v).resv = t.resv := by unfold Strand.setX; split <;> rfl
@[simp] theorem Strand.setX_queue (t : Strand) (r : XReg) (v : Word) : (t.setX r v).queue = t.queue := by unfold Strand.setX; split <;> rfl
@[simp] theorem Strand.setX_body (t : Strand) (r : XReg) (v : Word) : (t.setX r v).body = t.body := by unfold Strand.setX; split <;> rfl
@[simp] theorem Strand.setX_replay (t : Strand) (r : XReg) (v : Word) : (t.setX r v).replay = t.replay := by unfold Strand.setX; split <;> rfl
@[simp] theorem Strand.setX_frame (t : Strand) (r : XReg) (v : Word) : (t.setX r v).frame = t.frame := by unfold Strand.setX; split <;> rfl
@[simp] theorem Strand.setX_wait (t : Strand) (r : XReg) (v : Word) : (t.setX r v).wait = t.wait := by unfold Strand.setX; split <;> rfl
@[simp] theorem Strand.setX_waitSince (t : Strand) (r : XReg) (v : Word) : (t.setX r v).waitSince = t.waitSince := by unfold Strand.setX; split <;> rfl
@[simp] theorem Strand.setX_promises (t : Strand) (r : XReg) (v : Word) : (t.setX r v).promises = t.promises := by unfold Strand.setX; split <;> rfl
@[simp] theorem Strand.setX_pins (t : Strand) (r : XReg) (v : Word) : (t.setX r v).pins = t.pins := by unfold Strand.setX; split <;> rfl
@[simp] theorem Strand.setX_srSeq (t : Strand) (r : XReg) (v : Word) : (t.setX r v).srSeq = t.srSeq := by unfold Strand.setX; split <;> rfl
@[simp] theorem Strand.setX_srCycle (t : Strand) (r : XReg) (v : Word) : (t.setX r v).srCycle = t.srCycle := by unfold Strand.setX; split <;> rfl
@[simp] theorem Strand.setX_groups (t : Strand) (r : XReg) (v : Word) : (t.setX r v).groups = t.groups := by unfold Strand.setX; split <;> rfl
@[simp] theorem Strand.setX_ckptStep (t : Strand) (r : XReg) (v : Word) : (t.setX r v).ckptStep = t.ckptStep := by unfold Strand.setX; split <;> rfl
@[simp] theorem Strand.setX_written (t : Strand) (r : XReg) (v : Word) : (t.setX r v).written = t.written := by unfold Strand.setX; split <;> rfl
@[simp] theorem Strand.setX_tagCount (t : Strand) (r : XReg) (v : Word) : (t.setX r v).tagCount = t.tagCount := by unfold Strand.setX; split <;> rfl
@[simp] theorem Strand.setX_savedTag (t : Strand) (r : XReg) (v : Word) : (t.setX r v).savedTag = t.savedTag := by unfold Strand.setX; split <;> rfl
@[simp] theorem Strand.setX_saveAt (t : Strand) (r : XReg) (v : Word) : (t.setX r v).saveAt = t.saveAt := by unfold Strand.setX; split <;> rfl
@[simp] theorem Strand.setX_preempt (t : Strand) (r : XReg) (v : Word) : (t.setX r v).preempt = t.preempt := by unfold Strand.setX; split <;> rfl
@[simp] theorem Strand.setX_copies (t : Strand) (r : XReg) (v : Word) : (t.setX r v).copies = t.copies := by unfold Strand.setX; split <;> rfl
@[simp] theorem Strand.setX_ports (t : Strand) (r : XReg) (v : Word) : (t.setX r v).ports = t.ports := by unfold Strand.setX; split <;> rfl
@[simp] theorem Strand.setX_bindDone (t : Strand) (r : XReg) (v : Word) : (t.setX r v).bindDone = t.bindDone := by unfold Strand.setX; split <;> rfl
@[simp] theorem Strand.setX_sends (t : Strand) (r : XReg) (v : Word) : (t.setX r v).sends = t.sends := by unfold Strand.setX; split <;> rfl
@[simp] theorem Strand.setX_rlCount (t : Strand) (r : XReg) (v : Word) : (t.setX r v).rlCount = t.rlCount := by unfold Strand.setX; split <;> rfl
@[simp] theorem Strand.setX_haltReq (t : Strand) (r : XReg) (v : Word) : (t.setX r v).haltReq = t.haltReq := by unfold Strand.setX; split <;> rfl
@[simp] theorem Strand.setX_landed (t : Strand) (r : XReg) (v : Word) : (t.setX r v).landed = t.landed := by unfold Strand.setX; split <;> rfl
@[simp] theorem Strand.setX_settle (t : Strand) (r : XReg) (v : Word) : (t.setX r v).settle = t.settle := by unfold Strand.setX; split <;> rfl
@[simp] theorem Strand.setX_heldFor (t : Strand) (r : XReg) (v : Word) : (t.setX r v).heldFor = t.heldFor := by unfold Strand.setX; split <;> rfl
@[simp] theorem Strand.setX_left (t : Strand) (r : XReg) (v : Word) : (t.setX r v).left = t.left := by unfold Strand.setX; split <;> rfl

end Sys2Proof.Machine
end

