-- ==== Sys2Proof/Laws/Ops.lean ====
section
/-! SUPPORT. What the shared operations of a strand can do: counting, completing, and acting on one strand alone; and that the
interleave of local HBM is a bijection. -/
namespace Sys2Proof.Machine

/-! ### Counting (R377 to R380) -/

theorem Csrs.bump_like (c : Csrs) (i : Fin 8) (n : Nat) :
    c.bump i n = { c with pmc := (c.bump i n).pmc, pmovf := (c.bump i n).pmovf } := rfl

/-- Counting changes the counters alone. -/
theorem Strand.count_like (t : Strand) (ev n : Nat) : t.count ev n = t.countersOf (t.count ev n) := by
  unfold Strand.count
  suffices h : ∀ (l : List (Fin 8)) (u : Strand), u = t.countersOf u →
      l.foldl (fun t i => if t.counts i ev then { t with csr := t.csr.bump i n } else t) u =
        t.countersOf (l.foldl (fun t i => if t.counts i ev then { t with csr := t.csr.bump i n } else t) u) from h _ _ rfl
  intro l
  induction l with
  | nil => intro u h; exact h
  | cons i l ih =>
    intro u h
    simp only [List.foldl_cons]
    apply ih
    split
    · rw [h]; rfl
    · exact h

@[simp] theorem Strand.countersOf_countersOf (a b c : Strand) : (a.countersOf b).countersOf c = a.countersOf c := rfl
@[simp] theorem Strand.countersOf_self (a : Strand) : a.countersOf a = a := rfl


/-- Counting writes one strand or nothing. -/
theorem State.countEv_eq (s : State) (k ev n : Nat) :
    s.countEv k ev n = s ∨ s.countEv k ev n = s.setStrand k ((s.strand k).count ev n) := by
  by_cases h : (n = 0 || !((List.finRange 8).any fun i => (s.strand k).counts i ev)) = true
  · exact .inl (if_pos h)
  · exact .inr (if_neg h)

@[simp] theorem State.countEv_sched (s : State) (k ev n : Nat) : (s.countEv k ev n).sched = s.sched := by
  rcases State.countEv_eq s k ev n with h | h
  · rw [h]
  · rw [h, State.setStrand_sched]
@[simp] theorem State.countEv_cur (s : State) (k ev n : Nat) : (s.countEv k ev n).cur = s.cur := by
  rcases State.countEv_eq s k ev n with h | h
  · rw [h]
  · rw [h, State.setStrand_cur]
@[simp] theorem State.countEv_lim (s : State) (k ev n : Nat) : (s.countEv k ev n).lim = s.lim := by
  rcases State.countEv_eq s k ev n with h | h
  · rw [h]
  · rw [h, State.setStrand_lim]
@[simp] theorem State.countEv_freeCtr (s : State) (k ev n : Nat) : (s.countEv k ev n).freeCtr = s.freeCtr := by
  rcases State.countEv_eq s k ev n with h | h
  · rw [h]
  · rw [h, State.setStrand_freeCtr]
@[simp] theorem State.countEv_mem (s : State) (k ev n : Nat) : (s.countEv k ev n).mem = s.mem := by
  rcases State.countEv_eq s k ev n with h | h
  · rw [h]
  · rw [h, State.setStrand_mem]
@[simp] theorem State.countEv_bad (s : State) (k ev n : Nat) : (s.countEv k ev n).bad = s.bad := by
  rcases State.countEv_eq s k ev n with h | h
  · rw [h]
  · rw [h, State.setStrand_bad]
@[simp] theorem State.countEv_soft (s : State) (k ev n : Nat) : (s.countEv k ev n).soft = s.soft := by
  rcases State.countEv_eq s k ev n with h | h
  · rw [h]
  · rw [h, State.setStrand_soft]
@[simp] theorem State.countEv_dir (s : State) (k ev n : Nat) : (s.countEv k ev n).dir = s.dir := by
  rcases State.countEv_eq s k ev n with h | h
  · rw [h]
  · rw [h, State.setStrand_dir]
@[simp] theorem State.countEv_time (s : State) (k ev n : Nat) : (s.countEv k ev n).time = s.time := by
  rcases State.countEv_eq s k ev n with h | h
  · rw [h]
  · rw [h, State.setStrand_time]
@[simp] theorem State.countEv_cores (s : State) (k ev n : Nat) : (s.countEv k ev n).cores = s.cores := by
  rcases State.countEv_eq s k ev n with h | h
  · rw [h]
  · rw [h, State.setStrand_cores]
@[simp] theorem State.countEv_dies (s : State) (k ev n : Nat) : (s.countEv k ev n).dies = s.dies := by
  rcases State.countEv_eq s k ev n with h | h
  · rw [h]
  · rw [h, State.setStrand_dies]
@[simp] theorem State.countEv_flights (s : State) (k ev n : Nat) : (s.countEv k ev n).flights = s.flights := by
  rcases State.countEv_eq s k ev n with h | h
  · rw [h]
  · rw [h, State.setStrand_flights]
@[simp] theorem State.countEv_nextId (s : State) (k ev n : Nat) : (s.countEv k ev n).nextId = s.nextId := by
  rcases State.countEv_eq s k ev n with h | h
  · rw [h]
  · rw [h, State.setStrand_nextId]
@[simp] theorem State.countEv_gallery (s : State) (k ev n : Nat) : (s.countEv k ev n).gallery = s.gallery := by
  rcases State.countEv_eq s k ev n with h | h
  · rw [h]
  · rw [h, State.setStrand_gallery]
@[simp] theorem State.countEv_head (s : State) (k ev n : Nat) : (s.countEv k ev n).head = s.head := by
  rcases State.countEv_eq s k ev n with h | h
  · rw [h]
  · rw [h, State.setStrand_head]
@[simp] theorem State.countEv_elect (s : State) (k ev n : Nat) : (s.countEv k ev n).elect = s.elect := by
  rcases State.countEv_eq s k ev n with h | h
  · rw [h]
  · rw [h, State.setStrand_elect]
@[simp] theorem State.countEv_parts (s : State) (k ev n : Nat) : (s.countEv k ev n).parts = s.parts := by
  rcases State.countEv_eq s k ev n with h | h
  · rw [h]
  · rw [h, State.setStrand_parts]
@[simp] theorem State.countEv_queues (s : State) (k ev n : Nat) : (s.countEv k ev n).queues = s.queues := by
  rcases State.countEv_eq s k ev n with h | h
  · rw [h]
  · rw [h, State.setStrand_queues]
@[simp] theorem State.countEv_loans (s : State) (k ev n : Nat) : (s.countEv k ev n).loans = s.loans := by
  rcases State.countEv_eq s k ev n with h | h
  · rw [h]
  · rw [h, State.setStrand_loans]
@[simp] theorem State.countEv_regs (s : State) (k ev n : Nat) : (s.countEv k ev n).regs = s.regs := by
  rcases State.countEv_eq s k ev n with h | h
  · rw [h]
  · rw [h, State.setStrand_regs]
@[simp] theorem State.countEv_core (s : State) (k ev n j : Nat) : (s.countEv k ev n).core j = s.core j := by
  rcases State.countEv_eq s k ev n with h | h
  · rw [h]
  · rw [h, State.setStrand_core]
@[simp] theorem State.countEv_die (s : State) (k ev n j : Nat) : (s.countEv k ev n).die j = s.die j := by
  rcases State.countEv_eq s k ev n with h | h
  · rw [h]
  · rw [h, State.setStrand_die]
@[simp] theorem State.countEv_part (s : State) (k ev n j : Nat) : (s.countEv k ev n).part j = s.part j := by
  rcases State.countEv_eq s k ev n with h | h
  · rw [h]
  · rw [h, State.setStrand_part]
@[simp] theorem State.countEv_queue (s : State) (k ev n j : Nat) : (s.countEv k ev n).queue j = s.queue j := by
  rcases State.countEv_eq s k ev n with h | h
  · rw [h]
  · rw [h, State.setStrand_queue]

theorem State.countEv_ne (s : State) {k j : Nat} (ev n : Nat) (h : j ≠ k) : (s.countEv k ev n).strand j = s.strand j := by
  rcases State.countEv_eq s k ev n with e | e
  · rw [e]
  · rw [e]; exact State.setStrand_ne _ _ (Ne.symm h)

/-- The counted strand differs from what it was in its counters alone. -/
theorem State.countEv_same (s : State) (k ev n : Nat) :
    (s.countEv k ev n).strand k = (s.strand k).countersOf ((s.countEv k ev n).strand k) := by
  rcases State.countEv_eq s k ev n with e | e
  · rw [e]; rfl
  · rw [e, State.setStrand_same]; exact Strand.count_like ..

/-! ### Acting on one strand alone -/

theorem OnlyStrand.refl (k : Nat) (s : State) : OnlyStrand k s s := ⟨rfl, fun _ _ => rfl⟩

theorem OnlyStrand.trans {k : Nat} {s t u : State} (h : OnlyStrand k s t) (g : OnlyStrand k t u) : OnlyStrand k s u := by
  refine ⟨?_, fun j hj => (g.2 j hj).trans (h.2 j hj)⟩
  rw [g.1, h.1]

theorem OnlyStrand.setStrand (k : Nat) (s : State) (a : Strand) : OnlyStrand k s (s.setStrand k a) :=
  ⟨rfl, fun _ hj => State.setStrand_ne _ _ (Ne.symm hj)⟩

theorem OnlyStrand.countEv (k : Nat) (s : State) (ev n : Nat) : OnlyStrand k s (s.countEv k ev n) := by
  refine ⟨?_, fun j hj => State.countEv_ne s ev n hj⟩
  rcases State.countEv_eq s k ev n with e | e
  · rw [e]
  · rw [e]; exact (OnlyStrand.setStrand k s _).1

theorem OnlyStrand.sameMemory {k : Nat} {s t : State} (h : OnlyStrand k s t) : SameMemory s t := by
  intro a; rw [h.1]

theorem OnlyStrand.cur {k : Nat} {s t : State} (h : OnlyStrand k s t) : t.cur = s.cur := by rw [h.1]

/-! ### Completing -/

theorem OnlyStrand.retireAt (k : Nat) (s : State) : OnlyStrand k s (s.retireAt k) :=
  (OnlyStrand.setStrand ..).trans (OnlyStrand.countEv ..)

/-- A completed 4-byte instruction of strand k moves its pc and its counters, and nothing else. -/
theorem State.retireAt_strand (s : State) (k : Nat) :
    (s.retireAt k).strand k = ((s.strand k).retire 4).countersOf ((s.retireAt k).strand k) := by
  have h := State.countEv_same (s.setStrand k ((s.strand k).retire 4)) k 2 1
  rw [State.setStrand_same] at h
  exact h

/-- Completing as the strand `a`, which an instruction has put in place of strand k. -/
theorem strandDone_retire (k : Nat) (s u : State) (a : Strand) (hu : u.strand k = a.countersOf (u.strand k))
    (hp : a.pc = (s.strand k).pc) (hi : a.csr.instret = (s.strand k).csr.instret) :
    StrandDone k s (u.retireAt k) a := by
  unfold StrandDone
  rw [State.retireAt_strand]
  generalize (u.retireAt k).strand k = r
  rw [hu]
  simp only [Strand.countersOf, Strand.retire, ← hp, ← hi]
  rfl

theorem scalarDone_retire (s u : State) (a : Strand) (ho : OnlyStrand s.cur s u) (hu : u.me = a.countersOf u.me)
    (hp : a.pc = s.me.pc) (hi : a.csr.instret = s.me.csr.instret) : ScalarDone s u.retire a := by
  have hc := ho.cur
  refine ⟨?_, ?_⟩
  · have := OnlyStrand.retireAt u.cur u
    rw [hc] at this
    unfold State.retire; rw [hc]
    exact ho.trans this
  · unfold State.retire; rw [hc]
    apply strandDone_retire
    · simpa [State.me, hc] using hu
    · exact hp
    · exact hi

/-- A scalar instruction that only writes a register completes and changes nothing else. -/
theorem scalarDone_retireX (s : State) (rd : XReg) (v : Word) : ScalarDone s (s.retireX rd v) (s.me.setX rd v) := by
  apply scalarDone_retire s (s.setX rd v)
  · exact OnlyStrand.setStrand ..
  · rw [State.setX_me]; rfl
  · simp
  · simp

/-- A scalar instruction without effect of its own completes and changes nothing else. -/
theorem scalarDone_retire_self (s : State) : ScalarDone s s.retire s.me :=
  scalarDone_retire s s s.me (OnlyStrand.refl ..) rfl rfl rfl

/-! ### The interleave of local HBM (R93): the hash is a bijection -/

theorem hbmAddr_hbmPlace (pa : Nat) (h : pa < 2 ^ 40) : hbmAddr (hbmPlace pa) = pa := by
  have hx : ∀ a b : Nat, a < 128 → b < 128 → a ^^^ b < 128 := fun a b ha hb => Nat.xor_lt_two_pow (n := 7) ha hb
  have key : ∀ g b : Nat, b < 256 → hbmAddr ⟨(128 * (g % 384 / 128) + ((g % 384 % 128) ^^^ (g / 384 % 128))) % 12,
      (128 * (g % 384 / 128) + ((g % 384 % 128) ^^^ (g / 384 % 128))) / 12, 256 * (g / 384) + b⟩ = 256 * g + b := by
    intro g b hb
    generalize hr : g % 384 = r
    generalize hq : g / 384 = q
    have x1 := hx (r % 128) (q % 128) (by omega) (by omega)
    generalize hxx : (r % 128) ^^^ (q % 128) = x at x1
    have e1 : (128 * (r / 128) + x) / 128 = r / 128 := by omega
    have e2 : (128 * (r / 128) + x) % 128 = x := by omega
    have e3 : x ^^^ (q % 128) = r % 128 := by rw [← hxx, Nat.xor_assoc, Nat.xor_self, Nat.xor_zero]
    simp only [hbmAddr, Nat.div_add_mod, show (256 * q + b) / 256 = q by omega, show (256 * q + b) % 256 = b by omega, e1, e2, e3]
    omega
  have hg : pa / 256 % 2 ^ 32 = pa / 256 := Nat.mod_eq_of_lt (by omega)
  simp only [hbmPlace, hg, key _ _ (Nat.mod_lt pa (by decide))]
  omega

theorem hbmPlace_hbmAddr (h : HbmPlace) (hs : h.stack < 12) (hc : h.chan < 32) (ho : h.offset < 2 ^ 31) : hbmPlace (hbmAddr h) = h := by
  obtain ⟨s, c, o⟩ := h
  simp only at hs hc ho
  simp only [hbmAddr, hbmPlace]
  generalize hn : 12 * c + s = n
  generalize hq : o / 256 = q
  have x1 : (n % 128) ^^^ (q % 128) < 128 := Nat.xor_lt_two_pow (n := 7) (by omega) (by omega)
  have x2 : ((n % 128) ^^^ (q % 128)) ^^^ (q % 128) = n % 128 := by rw [Nat.xor_assoc, Nat.xor_self, Nat.xor_zero]
  generalize (n % 128) ^^^ (q % 128) = x at x1 x2 ⊢
  have g1 : (256 * (384 * q + 128 * (n / 128) + x) + o % 256) / 256 % 2 ^ 32 = 384 * q + 128 * (n / 128) + x := by omega
  have g2 : (384 * q + 128 * (n / 128) + x) / 384 = q := by omega
  have g3 : (384 * q + 128 * (n / 128) + x) % 384 = 128 * (n / 128) + x := by omega
  have g4 : (128 * (n / 128) + x) / 128 = n / 128 := by omega
  have g5 : (128 * (n / 128) + x) % 128 = x := by omega
  rw [g1, g2, g3, g4, g5, x2]
  simp only [HbmPlace.mk.injEq]
  omega

end Sys2Proof.Machine
end

