-- ==== Sys2Proof/Tests/Slice0.lean ====
section
/-! SUPPORT. Tests: encodings written out from the spec, refused terms, and for each statement about the machine a concrete state and
operands that meet its hypotheses. -/
set_option Elab.async false
namespace Sys2Proof.Tests
open Sys2Proof Sys2Proof.Machine

/-! ### Helpers -/

def allDecode (l : List (Nat × Nat × Instr)) : Bool := l.all fun r => decide (decodeTableWord r.1 r.2.1 = some r.2.2)

/-- Strand 0 of a fresh package about to issue, in S mode, with an instruction word placed. -/
def at_ (nbits w : Nat) : State := State.reset.withFetchWord nbits w
/-- The same with every die present from the start. -/
def base : State := { at_ 32 0x13 with parts := [(0, Partition.zero 0xFF)] }

/-- The base state with its strand, its core, its registers or its package registers changed. -/
def onMe (f : Strand → Strand) : State := base.setMe (f base.me)
def onCore (f : Core → Core) : State := base.setCore 0 (f (base.core 0))
def onRegs (f : Regs → Regs) : State := { base with regs := f base.regs }
def withX (l : List (XReg × Word)) : State := onMe fun t => l.foldl (fun t p => t.setX p.1 p.2) t

/-- Strand 0 with four blocks and two tiles, all elements zero. -/
def held : Strand → Strand := fun t => { t with blocks := [0, 1, 2, 3], tiles := [0, 1], pages := [5], claim := ⟨4, 2, 1⟩ }

def isNext (o : Out) : Bool := match o with | .next _ => true | _ => false
def okE {ε α : Type} (e : Except ε α) (p : α → Bool) : Bool := match e with | .ok a => p a | .error _ => false
def errE {ε α : Type} (e : Except ε α) : Bool := match e with | .ok _ => false | .error _ => true

/-- The next state of an instruction meets p. -/
def after (i : Instr) (s : State) (p : State → Bool) : Bool := match exec i s with | .next t => p t | _ => false

def isOk {ε : Type} (e : Except ε Unit) : Bool := match e with | .ok _ => true | .error _ => false
theorem isOk_iff {ε : Type} (e : Except ε Unit) : isOk e = true ↔ e = .ok () := by cases e <;> simp [isOk]

/-! ### Decoding, from words written out bit by bit from the spec's encoding tables -/

theorem test_decode_claims : allDecode [
    (32, 0b0000000_00000_00101_000_00000_0001011,
      .claim 5),
    (32, 0b0000001_00000_00110_000_00000_0001011,
      .acq 6),
    (32, 0b0000010_00000_01011_000_01010_0001011,
      .acqTry 10 11),
    (32, 0b0000011_00000_00111_000_00000_0001011,
      .rel 7)] = true := by decide

theorem test_decode_ordering : allDecode [
    (32, 0b000000110101_00000_001_00000_0001011,
      .syncAcq .glob .domain),
    (32, 0b000001001001_00000_001_00000_0001011,
      .syncRel .scratch .core),
    (32, 0b000001111110_00000_001_00000_0001011,
      .syncAr .both .system),
    (32, 0b1010010_00000_01101_010_01100_0001011,
      .lda .w .package .glob 12 13),
    (32, 0b1101101_01111_01110_011_00000_0001011,
      .stl .d .die .scratch 15 14)] = true := by decide

theorem test_decode_waits : allDecode [
    (32, 0b000010000001_00000_100_00000_0001011,
      .kwait 0x81),
    (32, 0b000100000110_00000_100_01001_0001011,
      .kpoll 9 6),
    (32, 0b000000000011_00000_101_00000_0001011,
      .gbar 3),
    (32, 0b000100000100_00000_101_01000_0001011,
      .garrive 8 4),
    (32, 0b001000000101_01000_101_00000_0001011,
      .gwait 8 5),
    (32, 0b0100000_00111_00110_110_00101_0001011,
      .vshape .f32 5 6 7)] = true := by decide

theorem test_decode_flights : allDecode [
    (32, 0b0000000_00000_01011_000_01010_0101011,
      .flLaunch 10 11),
    (32, 0b0000001_00000_00000_000_00000_0101011,
      .flHint),
    (32, 0b0000010_00000_00000_000_00000_0101011,
      .waitpred),
    (32, 0b0000011_00000_00000_000_00000_0101011,
      .treadEnd),
    (32, 0b0000100_00000_01001_000_00000_0101011,
      .ckpt 9),
    (32, 0b0000000_00000_00000_001_00000_0101011,
      .tret),
    (32, 0b0000001_00101_00100_001_00000_0101011,
      .ctxSave 4 5),
    (32, 0b0000010_00111_00110_001_00000_0101011,
      .ctxLoad 6 7),
    (32, 0b0000011_01001_01000_001_00000_0101011,
      .tlbInv 8 9),
    (32, 0b0000100_00000_00011_001_00000_0101011,
      .traceCtl 3)] = true := by decide

theorem test_decode_base : allDecode [
    (32, 0b111111111111_00010_000_00001_0010011,
      .rv64iArith (.imm .addi 1 2 0xFFF)),
    (32, 0b010000111111_00010_101_00001_0010011,
      .rv64iArith (.shift .srai 1 2 63)),
    (32, 0b0100000_00101_00100_000_00011_0110011,
      .rv64iArith (.reg .sub 3 4 5)),
    (32, 0b0000001_00101_00100_100_00011_0110011,
      .rv64iArith (.reg .div 3 4 5)),
    (32, 0b0010000_00101_00100_110_00011_0110011,
      .rv64iArith (.reg .sh3add 3 4 5)),
    (32, 0b00010010001101000101_00110_0110111,
      .rv64iArith (.lui 6 0x12345)),
    (32, 0b1_111111_00010_00001_001_1110_1_1100011,
      .branchJump (.br .ne 1 2 0xFFE)),
    (32, 0b0_0000000100_0_00000001_00001_1101111,
      .branchJump (.jal 1 0x804)),
    (32, 0b000000001000_00101_000_00001_1100111,
      .branchJump (.jalr 1 5 8)),
    (32, 0b000000010000_01000_110_00111_0000011,
      .load .lwu 7 8 0x10),
    (32, 0b1111111_01001_01010_010_11000_0100011,
      .store .w 9 10 0xFF8),
    (32, 0b00010_1_0_00000_01011_011_01010_0101111,
      .lr ⟨true, true, false⟩ 10 11),
    (32, 0b00011_0_1_01100_01011_010_01010_0101111,
      .sc ⟨false, false, true⟩ 10 11 12),
    (32, 0b10000_0_0_01100_01011_011_01010_0101111,
      .amo .min ⟨true, false, false⟩ 10 11 12),
    (32, 0b1000_0011_0011_00000_000_00000_0001111,
      .fence 8 3 3),
    (32, 0b000000000000_00000_001_00000_0001111,
      .fenceI),
    (32, 0b0001001_00110_00101_000_00000_1110011,
      .sfenceVma 5 6),
    (32, 0b001100000010_00000_000_00000_1110011,
      .mret),
    (32, 0b000100000101_00000_000_00000_1110011,
      .wfi),
    (32, 0b000000000000_00000_000_00000_1110011,
      .ecall),
    (32, 0b000000000001_00000_000_00000_1110011,
      .ebreak),
    (32, 0b000100000010_00000_000_00000_1110011,
      .sret)] = true := by decide

theorem test_decode_csrs : allDecode [
    (32, 0b110011000010_00000_010_00101_1110011,
      .csrAccess .rs (.reg 0) 5 0xCC2),
    (32, 0b100000000001_01001_101_00101_1110011,
      .csrAccess .rw (.imm 9) 5 0x801),
    (32, 0b100000000000_00110_001_00000_1110011,
      .shapeWrite .rw (.reg 6) 0),
    (32, 0b100000001000_00110_001_00000_1110011,
      .srptrWrite .rw (.reg 6) 0),
    (32, 0b010111000001_00110_001_00000_1110011,
      .srbaseWrite .rw (.reg 6) 0),
    (32, 0b010111011010_00110_011_00111_1110011,
      .spmcWrite 2 .rc (.reg 6) 7)] = true := by decide

theorem test_decode_vector_arithmetic : allDecode [
    (64, 0b0000000000000_00010_00000_00011_00010_00001_0000000_000_0_0_0000_000_0111111,
      .vadd ⟨⟨false, 0, 0⟩, .i32, 1, 2, 3⟩),
    (64, 0b0000000000000_00100_00000_00011_00010_00001_0000001_000_0_0_0000_000_0111111,
      .vsub ⟨⟨false, 0, 0⟩, .n8, 1, 2, 3⟩),
    (64, 0b0000000000000_01001_00000_00011_00010_00001_0000010_000_0_0_0000_000_0111111,
      .vmul ⟨⟨false, 0, 0⟩, .f16, 1, 2, 3⟩),
    (64, 0b0000000000000_00011_00000_00011_00010_00001_0000011_000_0_0_0000_000_0111111,
      .vmulh ⟨⟨false, 0, 0⟩, .i64, 1, 2, 3⟩),
    (64, 0b0000000000000_01010_00000_00011_00010_00001_0000100_000_0_0_0000_000_0111111,
      .vdiv ⟨⟨false, 0, 0⟩, .bf16, 1, 2, 3⟩),
    (64, 0b0000000000000_01000_00000_00011_00010_00001_0000101_000_0_0_0000_000_0111111,
      .vmin ⟨⟨false, 0, 0⟩, .f32, 1, 2, 3⟩),
    (64, 0b0000000000000_00000_00000_00011_00010_00001_0000110_000_0_0_0000_000_0111111,
      .vmax ⟨⟨false, 0, 0⟩, .i8, 1, 2, 3⟩),
    (64, 0b0000000000000_00101_00000_00011_00010_00001_0000111_000_0_0_0000_000_0111111,
      .vand ⟨⟨false, 0, 0⟩, .n16, 1, 2, 3⟩),
    (64, 0b0000000000000_00101_00000_00011_00010_00001_0001000_000_0_0_0000_000_0111111,
      .vor ⟨⟨false, 0, 0⟩, .n16, 1, 2, 3⟩),
    (64, 0b0000000000000_00101_00000_00011_00010_00001_0001001_000_0_0_0000_000_0111111,
      .vxor ⟨⟨false, 0, 0⟩, .n16, 1, 2, 3⟩),
    (64, 0b0000000000000_00101_00000_00011_00010_00001_0001010_000_0_0_0000_000_0111111,
      .vsll ⟨⟨false, 0, 0⟩, .n16, 1, 2, 3⟩),
    (64, 0b0000000000000_00101_00000_00011_00010_00001_0001011_000_0_0_0000_000_0111111,
      .vsrl ⟨⟨false, 0, 0⟩, .n16, 1, 2, 3⟩),
    (64, 0b0000000000000_00101_00000_00011_00010_00001_0001100_000_0_0_0000_000_0111111,
      .vsra ⟨⟨false, 0, 0⟩, .n16, 1, 2, 3⟩),
    (64, 0b0000000000000_01000_00000_00000_00101_00100_0001101_110_1_0_1111_000_0111111,
      .vabs ⟨⟨true, 6, 15⟩, .f32, 4, 5⟩),
    (64, 0b0000000000000_01000_00000_00000_00101_00100_0001110_110_1_0_1111_000_0111111,
      .vneg ⟨⟨true, 6, 15⟩, .f32, 4, 5⟩),
    (64, 0b0000000000000_01000_00000_00000_00101_00100_0001111_110_1_0_1111_000_0111111,
      .vsqrt ⟨⟨true, 6, 15⟩, .f32, 4, 5⟩),
    (64, 0b0000000000000_01000_00000_00000_00101_00100_0010000_110_1_0_1111_000_0111111,
      .vrece ⟨⟨true, 6, 15⟩, .f32, 4, 5⟩),
    (64, 0b0000000000000_01000_00000_00000_00101_00100_0010001_110_1_0_1111_000_0111111,
      .vrsqe ⟨⟨true, 6, 15⟩, .f32, 4, 5⟩),
    (64, 0b0000000000000_01010_11111_00011_00010_00001_0010010_000_0_0_0000_000_0111111,
      .vfma ⟨⟨false, 0, 0⟩, .bf16, 1, 2, 3, 31⟩),
    (64, 0b0000000000000_01010_11111_00011_00010_00001_0010011_000_0_0_0000_000_0111111,
      .vfms ⟨⟨false, 0, 0⟩, .bf16, 1, 2, 3, 31⟩),
    (64, 0b0000000000000_01010_11111_00011_00010_00001_0010100_000_0_0_0000_000_0111111,
      .vfnma ⟨⟨false, 0, 0⟩, .bf16, 1, 2, 3, 31⟩),
    (64, 0b0000000000000_01010_11111_00011_00010_00001_0010101_000_0_0_0000_000_0111111,
      .vfnms ⟨⟨false, 0, 0⟩, .bf16, 1, 2, 3, 31⟩),
    (64, 0b0000000001100_01000_00000_00011_00010_00111_0011000_000_0_0_0000_000_0111111,
      .vcmp ⟨false, 0, 0⟩ .f32 .gt true 7 2 3),
    (64, 0b0000000000000_00000_00000_00011_00010_00001_0011001_000_0_0_0000_000_0111111,
      .pand ⟨⟨false, 0, 0⟩, 1, 2, 3⟩),
    (64, 0b0000000000000_00000_00000_00011_00010_00001_0011010_000_0_0_0000_000_0111111,
      .por ⟨⟨false, 0, 0⟩, 1, 2, 3⟩),
    (64, 0b0000000000000_00000_00000_00011_00010_00001_0011011_000_0_0_0000_000_0111111,
      .pxor ⟨⟨false, 0, 0⟩, 1, 2, 3⟩),
    (64, 0b0000000000000_00000_00000_00000_00010_00001_0011100_000_0_0_0000_000_0111111,
      .pnot ⟨false, 0, 0⟩ 1 2),
    (64, 0b0000000000000_00000_00000_00000_10100_00001_0011101_000_0_0_0000_000_0111111,
      .pset ⟨false, 0, 0⟩ 1 20),
    (64, 0b0000000000001_00000_00000_00000_10100_00001_0011101_000_0_0_0000_000_0111111,
      .psetPat ⟨false, 0, 0⟩ 1 20)] = true := by decide

theorem test_decode_vector_moves : allDecode [
    (64, 0b0000000001001_01000_00000_00000_00010_00001_0100000_000_0_0_0000_000_0111111,
      .vcvt ⟨⟨false, 0, 0⟩, .f16, .f32, 1, 2⟩),
    (64, 0b0000000001110_01000_00000_00011_00010_00001_0100001_000_0_0_0000_000_0111111,
      .vmxpack ⟨⟨false, 0, 0⟩, .mxf8, .f32, 1, 2⟩ 3),
    (64, 0b0000000001010_01111_00000_00011_00010_00001_0100010_000_0_0_0000_000_0111111,
      .vmxunpack ⟨⟨false, 0, 0⟩, .bf16, .mxf4, 1, 2⟩ 3),
    (64, 0b0000000000000_01001_00000_00000_01000_01001_0101000_000_0_0_0000_000_0111111,
      .vredsum ⟨⟨false, 0, 0⟩, .f16, 9, 8⟩),
    (64, 0b0000000000000_01001_00000_00000_01000_01001_0101001_000_0_0_0000_000_0111111,
      .vredmax ⟨⟨false, 0, 0⟩, .f16, 9, 8⟩),
    (64, 0b0000000000000_01001_00000_00000_01000_01001_0101010_000_0_0_0000_000_0111111,
      .vredmin ⟨⟨false, 0, 0⟩, .f16, 9, 8⟩),
    (64, 0b0000000000000_01001_00000_00000_01000_01001_0101011_000_0_0_0000_000_0111111,
      .vredamax ⟨⟨false, 0, 0⟩, .f16, 9, 8⟩),
    (64, 0b1111111111111_00010_00000_00010_00000_00011_0110000_000_0_0_0000_000_0111111,
      .vidx ⟨false, 0, 0⟩ .i32 3 0x1FFF 2),
    (64, 0b0000000000000_01011_00000_00000_11110_00011_0110001_000_0_0_0000_000_0111111,
      .vbcast ⟨false, 0, 0⟩ .e4m3 3 30),
    (64, 0b0000000000000_00111_00000_10101_00011_10100_0110010_000_0_0_0000_000_0111111,
      .vmvx ⟨false, 0, 0⟩ .n64 20 3 21),
    (64, 0b0000000000000_10010_00000_00000_00100_00011_0110011_000_0_0_0000_000_0111111,
      .vmv ⟨⟨false, 0, 0⟩, .gf 1, 3, 4⟩),
    (64, 0b0000000000000_01010_00000_00101_00000_00001_0110100_000_0_0_0000_000_0111111,
      .vreshape ⟨⟨false, 0, 0⟩, .bf16, 1, 0, 5⟩),
    (64, 0b0000000000000_10000_00000_00011_00010_00001_0110101_000_0_0_0000_000_0111111,
      .vperm ⟨⟨false, 0, 0⟩, .i4, 1, 2, 3⟩),
    (64, 0b0000000000000_00010_00000_00011_00010_00001_0110110_000_0_0_0000_000_0111111,
      .vslideup ⟨⟨false, 0, 0⟩, .i32, 1, 2, 3⟩),
    (64, 0b0000000000000_00010_00000_00011_00010_00001_0110111_000_0_0_0000_000_0111111,
      .vslidedn ⟨⟨false, 0, 0⟩, .i32, 1, 2, 3⟩),
    (64, 0b0000000100000_00000_00000_00000_00000_00000_0111000_000_0_0_0001_000_0111111,
      .vrepBegin 1 32),
    (64, 0b0000000000000_00000_00000_00000_00000_00000_0111001_000_0_0_0010_000_0111111,
      .vrepGo 2)] = true := by decide

theorem test_decode_vector_memory : allDecode [
    (64, 0b00001000000_00_01000_00000_01011_01010_00001_0000000_000_0_0_0000_001_0111111,
      .vld ⟨⟨false, 0, 0⟩, .f32, false, 64, 1, 10⟩ 11),
    (64, 0b11111111111_01_00010_01100_01011_01010_00001_0000001_000_0_0_0000_001_0111111,
      .vlds ⟨⟨false, 0, 0⟩, .i32, true, 0x7FF, 1, 10⟩ 11 12),
    (64, 0b00000000000_00_00100_00000_01101_01010_00001_0000010_000_0_0_0000_001_0111111,
      .vldx ⟨⟨false, 0, 0⟩, .n8, false, 0, 1, 10⟩ 13),
    (64, 0b00000001000_10_10000_00000_01011_01010_00001_0001000_000_0_0_0000_001_0111111,
      .vst ⟨⟨false, 0, 0⟩, .i4, true, 8, 1, 10⟩ 11),
    (64, 0b00000001000_00_00010_01100_01011_01010_00001_0001001_000_0_0_0000_001_0111111,
      .vsts ⟨⟨false, 0, 0⟩, .i32, false, 8, 1, 10⟩ 11 12),
    (64, 0b00000000000_00_00100_00000_01101_01010_00001_0001010_000_0_0_0000_001_0111111,
      .vstx ⟨⟨false, 0, 0⟩, .n8, false, 0, 1, 10⟩ 13)] = true := by decide

theorem test_decode_matrix : allDecode [
    (64, 0b0010000000000_00000_00000_00000_00000_00011_0000000_001_1_0_0000_010_0111111,
      .mzero ⟨true, 1, 0⟩ 2 3),
    (64, 0b0010010101010_01010_00011_00100_00010_00001_0000001_001_1_0_0000_010_0111111,
      .mop ⟨true, 1, 0⟩ 2 .bf16 .bf16 1 2 3 4 5),
    (64, 0b0000101100000_00000_00100_10100_00010_00001_0000010_000_0_0_0000_010_0111111,
      .mopw ⟨false, 0, 0⟩ 0 true 3 .i8 .i8 1 2 4 20),
    (64, 0b0000000000000_00000_00111_00110_00101_00000_0001000_000_0_0_0000_010_0111111,
      .wload 0 5 6 7),
    (64, 0b0000000000001_01001_00011_00101_00001_00010_0010000_000_0_0_0000_010_0111111,
      .mdrain ⟨false, 0, 0⟩ 0 true .f16 2 1 5 3),
    (64, 0b0000000000001_00000_00010_00101_00010_00001_0010001_000_0_0_0000_010_0111111,
      .mfill ⟨false, 0, 0⟩ 0 true .i8 1 2 5 2),
    (64, 0b0000000000010_00000_00000_00000_01001_00001_0011000_000_0_0_0000_010_0111111,
      .msave 0 true 1 9),
    (64, 0b0000000000001_00000_00000_00000_01001_00101_0011000_000_0_0_0000_010_0111111,
      .msaveP 0 false 5 9),
    (64, 0b0000000000000_00000_00000_00000_01001_00001_0011001_000_0_0_0000_010_0111111,
      .mload 0 false 1 9)] = true := by decide

theorem test_decode_messages : allDecode [
    (64, 0b0010010011000_00000_00000_01011_01010_00011_0000000_000_0_0_0000_011_0111111,
      .msend ⟨0, 2, 19, false, .req, 3, 10, 11⟩),
    (64, 0b0001000000011_00000_01100_01011_01010_00011_0000001_000_0_0_0000_011_0111111,
      .msendTry ⟨0, 1, 0, true, .rep, 3, 10, 11⟩ 12),
    (64, 0b0000000000000_00000_00000_00000_00000_00000_0000010_000_0_0_0000_011_0111111,
      .mdone 0),
    (64, 0b0011000000000_00000_00000_00000_01001_00000_0000011_000_0_0_0000_011_0111111,
      .hop 0 3 9),
    (64, 0b0111001000000_01000_00011_00000_00010_00001_0010000_000_0_0_0000_011_0111111,
      .gbpAdd 0 7 2 3 1 2),
    (64, 0b0011000000000_01000_00010_00101_00100_00101_0010001_000_0_0_0000_011_0111111,
      .gbpElim 0 3 2 5 4 5),
    (64, 0b1111000000000_01000_00100_00011_00010_00001_0010010_000_0_0_0000_011_0111111,
      .gbpDamp 0 15 1 2 3 4),
    (64, 0b0000000000000_01000_00000_00011_00010_01001_0010011_000_0_0_0000_011_0111111,
      .gbpResid 0 0 9 2 3),
    (64, 0b0001000000000_01000_00000_00000_00010_00001_0010100_000_0_0_0000_011_0111111,
      .gbpPack 0 1 1 2),
    (64, 0b0001000000000_01000_00000_00000_00010_00001_0010101_000_0_0_0000_011_0111111,
      .gbpUnpack 0 1 1 2)] = true := by decide

theorem test_decode_engine : allDecode [
    (64, 0b0000000000000_00000_00000_00000_01001_00010_0000000_000_0_0_0000_100_0111111,
      .tshape 0 2 9),
    (64, 0b0000000000001_00000_00000_01011_01010_00011_0000001_000_0_0_0000_100_0111111,
      .tcp ⟨0, 3, 10, 11, 1⟩),
    (64, 0b0000000100001_00000_00000_01011_01010_00011_0000001_000_0_0_0000_100_0111111,
      .tcpScat ⟨0, 3, 10, 11, 1⟩),
    (64, 0b0000000000111_00000_00000_01011_01010_00011_0000010_000_0_0_0000_100_0111111,
      .tdeal ⟨0, 3, 10, 11, 7⟩),
    (64, 0b0000000011010_00000_00000_00000_01001_11111_0001000_000_0_0_0000_100_0111111,
      .sbindRd 0 3 31 9 2),
    (64, 0b0000000111010_00000_00000_00000_01001_11111_0001000_000_0_0_0000_100_0111111,
      .sbindWr 0 3 31 9 2),
    (64, 0b0000000010000_00000_00000_00000_00000_00000_0001001_000_0_0_0000_100_0111111,
      .sunbind 0 2),
    (64, 0b0000000000010_00000_01100_01011_01010_00001_0010000_000_0_0_0000_100_0111111,
      .sgGather ⟨0, 1, 10, 11, 2⟩ 12),
    (64, 0b0000000001010_01000_00000_01011_01010_00001_0010001_000_0_0_0000_100_0111111,
      .sgReduce ⟨0, 1, 10, 11, 2⟩ .min .f32),
    (64, 0b0101000000010_01000_00000_01011_01010_00001_0010010_000_0_0_0000_100_0111111,
      .sgConv ⟨0, 1, 10, 11, 2⟩ .bf16 .f32),
    (64, 0b0000001010010_00011_01101_01011_01010_00001_0011000_000_0_0_0000_100_0111111,
      .collReduce ⟨0, 1, 10, 11, 2⟩ .max true .i64 13),
    (64, 0b0000000000010_00000_01101_01011_01010_00001_0011001_000_0_0_0000_100_0111111,
      .collBcast ⟨0, 1, 10, 11, 2⟩ 13)] = true := by decide

theorem test_decode_hints : allDecode [
    (64, 0b0000000000000_00000_00000_00000_00000_00000_0000000_000_0_0_0000_111_0111111,
      .hnop 0),
    (64, 0b0000000000000000000000000000110010101000000010000000001110111111,
      .hpref 0 1 3 10),
    (64, 0b0000000000000000000000000100100011010000000100000000001110111111,
      .hmark 0 0x1234),
    (64, 0b0000000000000_00000_00000_00000_00000_00001_0000011_000_0_0_0000_111_0111111,
      .undefinedHint 0 3 1)] = true := by decide
/-! ### The step (StepRunsDecoded, StepKeepsMemory) -/

/-- What StepRunsDecoded asks of a state: the front is ready, the bytes at its pc decode, and p holds of the instruction. -/
def issues (s : State) (p : State → Instr → Bool) : Bool :=
  okE s.fetchBytes fun r => match decodeBytes r.2 with | .ok (i, _) => p r.1 i | .error _ => false

theorem witness_front : FrontReady base ∧ base.lim = none ∧ base.regs.lifecycle ≠ 3 ∧ base.sched = [.run 0] := by
  unfold FrontReady; decide

theorem witness_step_scalar :
    issues { base with sched := [] } (fun s i => !s.frontIllegal i && !s.held i && !i.isQueued) = true := by decide

theorem witness_step_queued : issues { at_ 64 0x000200208C02843F with sched := [] }
    (fun s i => !s.frontIllegal i && !s.held i && i.isQueued && s.me.idle) = true := by decide

theorem witness_step_word : okE (at_ 32 0).fetchBytes (fun r => match decodeBytes r.2 with | .error _ => true | .ok _ => false) = true := by
  decide

/-- Without any accepted feature a message instruction is illegal at the front. -/
theorem witness_step_illegal : issues { at_ 64 0x24C000B50C0001BF with regs := { base.regs with featacc := Vector.replicate 4 1 } }
    (fun s i => s.frontIllegal i) = true := by decide

theorem witness_memory : MemOk base ∧ isNext (step base) = true := by unfold MemOk; decide

theorem witness_encode : Instr.wf (.rv64iArith (.imm .addi 1 2 0xFFF)) = true ∧
    encode (.rv64iArith (.imm .addi 1 2 0xFFF)) = some [0x93, 0x00, 0xF1, 0xFF] := by decide

/-! ### The scalar base -/

/-- ADDI x1, x0, -1 leaves all ones. -/
theorem test_addi : after (.rv64iArith (.imm .addi 1 0 0xFFF)) base (fun t => t.me.getX 1 == BitVec.allOnes 64 && t.me.pc == 4) = true := by decide

theorem witness_values : (withX [(2, 7)]).getX 3 = 0 ∧ (withX [(2, BitVec.intMin 64), (3, BitVec.allOnes 64)]).getX 2 = BitVec.intMin 64 ∧
    (withX [(2, BitVec.intMin 64), (3, BitVec.allOnes 64)]).getX 3 = BitVec.allOnes 64 := by decide

theorem witness_branch : Taken .eq (0 : Word) 0 ∧ ¬ Taken .ltu (1 : Word) 0 ∧ ((0 : Word) + 2 * BitVec.signExtend 64 (4 : BitVec 12)).toNat % 4 = 0 ∧
    ((0 : Word) + 2 * BitVec.signExtend 64 (1 : BitVec 12)).toNat % 4 ≠ 0 := by unfold Taken; decide

theorem test_jump_misaligned : after (.branchJump (.jal 1 1)) base (fun t => t.me.csr.stval == 2 && t.me.getX 1 == 0) = true := by decide

/-- A load's conditions: aligned, translated, admitted, readable. -/
def loads (s : State) (va n : Nat) : Bool := okE (s.reach .read va n) fun r => okE (r.1.loadAt va n r.2) fun _ => !s.readsTimens va n

theorem witness_load : loads (withX [(2, 0x1000)]) 0x1000 8 = true ∧ (0x1000 : Nat) % loadBytes .ld = 0 := by decide
theorem witness_misaligned : ((withX [(2, 0x1001)]).getX 2).toNat % loadBytes .lh ≠ 0 ∧ ((withX [(2, 0x1001)]).getX 2).toNat % Width.bytes .d ≠ 0 ∧
    ((withX [(2, 0x1001)]).getX 2).toNat % 4 ≠ 0 := by decide

def stores (s : State) (va n : Nat) (p : Region → Bool) : Bool :=
  okE (s.reach .write va n) fun r => okE (r.1.accessKey r.1.ctx r.2.enc .write va) fun _ => p (regionOf r.2.pa) && !r.2.enc

theorem witness_store : stores base 0x1000 8 (· == .hbm) = true ∧
    stores (onMe held) (padPage 0 5) 8 (· == .pad 0) = true ∧ (padPage 0 5) % 8 = 0 := by decide
theorem witness_store_release : stores (base.releasePoint 0 .package) 0x1000 8 (· == .hbm) = true := by decide
theorem witness_not_queued : NotQueued base 0 0x1000 := by unfold NotQueued; decide

def amoOk (s : State) (a : AtomKind) (va n : Nat) : Bool := okE (s.atomReach a va n) fun r => okE (r.1.atomRead r.2.2 va r.2.1.pa n) fun _ => true

theorem witness_log : NoLog base 0 := by unfold NoLog; decide
/-- AMOADD.W, LR.W and SC.W of a word of 3 at 0x1000, with the reservation held. -/
def amoBase : State := { (withX [(2, 0x1000), (3, 5)]) with mem := memWrite base.mem 0x1000 [3] }
def h32 : AmoHdr := ⟨false, false, false⟩

theorem witness_amo : amoOk amoBase .amo 0x1000 4 = true ∧ amoOk amoBase .lr 0x1000 4 = true ∧ amoOk amoBase .sc 0x1000 4 = true := by decide
theorem witness_sc : (amoBase.setMe { amoBase.me with resv := some (0x1000 / 64) }).me.resv = some (0x1000 / 64) ∧ amoBase.me.resv ≠ some (0x1000 / 64) := by
  decide
theorem test_amo : after (.amo .add h32 1 2 3) amoBase (fun t => t.me.getX 1 == 3 && memByte t.mem 0x1000 == 8) = true := by decide
theorem test_lr : after (.lr h32 1 2) amoBase (fun t => t.me.resv == some 64 && t.me.getX 1 == 3) = true := by decide
theorem test_sc : after (.sc h32 1 2 3) amoBase (fun t => t.me.getX 1 == 1 && memByte t.mem 0x1000 == 3) = true := by decide
theorem witness_amo_values : (3 : Nat) < 2 ^ 32 ∧ amoEval .min 32 (2 ^ 32 - 1) 3 = 2 ^ 32 - 1 := by decide

/-! ### CSRs and traps -/

theorem witness_csr_read : base.csrValue 0xC00 = some 0 ∧ base.csrAllowed 0xC00 (csrOpWrites .rs (.reg 0)) = true := by decide
theorem witness_csr_write : base.csrValue 0x800 = some shapeReset ∧ base.csrAllowed 0x800 (csrOpWrites .rw (.reg 2)) = true := by decide
/-- The management core in M mode. -/
def mgmt : State := let s := { base with cur := mgmtKey }; s.setMe { s.me with status := .running, mode := .m }
theorem witness_csr_machine : mgmt.csrValue 0x300 = some 0 ∧ mgmt.csrAllowed 0x300 (csrOpWrites .rw (.reg 2)) = true := by decide
theorem witness_csr_illegal : (onMe fun t => { t with mode := .u }).me.mode = .u ∧ csrOpWrites .rw (.reg 2) = true ∧
    bit (onMe fun t => { t with mode := .u }).me.csr.scounteren 0 = false := by decide
theorem test_csr_isaver : after (.csrAccess .rs (.reg 0) 1 0xCC0) base (fun t => t.me.getX 1 == 0x400) = true := by decide
theorem test_csr_illegal : after (.csrAccess .rw (.reg 2) 1 0xCC0) base (fun t => t.me.csr.scause == 2 && t.me.pc == t.me.csr.stvec) = true := by
  decide
theorem witness_counter : bits (setBits (0 : Word) 0 8 2 ||| 0x2000000000000000) 0 8 = 2 ∧
    bit (setBits (0 : Word) 0 8 2 ||| 0x2000000000000000) 61 = true ∧ (base.strand 0).mode = .s := by decide

theorem witness_trap : TrapTaken base 2 := by unfold TrapTaken; decide
def kept : Strand → Strand := fun t => { t with queue := [⟨0, 0, 0, 0, 0, 0, .s, false, false⟩], frame := { t.frame with occ := true } }
theorem witness_trap_fatal : (onMe kept).me.trapFatal 0 2 = true ∧ (onMe kept).me.mode ≠ .m := by decide
theorem test_trap_fatal : ((((onMe kept).takeTrap ⟨2, 0, none⟩ false).strand 0).status == .free) = true := by decide +kernel
theorem witness_trap_kept : (onMe fun t => { (kept t) with frame := Frame.empty }).me.queue ≠ [] ∧
    TrapTaken (onMe fun t => { (kept t) with frame := Frame.empty }) 2 := by unfold TrapTaken; decide
theorem test_trap_user : let s := onMe fun t => { t with mode := .u, pc := 0x40 }
    (s.takeTrap ⟨8, 7, none⟩ false).me.csr.sepc = 0x40 ∧ bit (s.takeTrap ⟨8, 7, none⟩ false).me.csr.sstatus 8 = false := by decide
theorem witness_ecall : (onMe fun t => { t with mode := .u }).me.mode = .u ∧ base.me.mode = .s ∧
    (mgmt.setMe { mgmt.me with mode := .s }).me.mode = .s := by decide
theorem test_mret : after .mret { mgmt with regs := { mgmt.regs with mcsr := { mgmt.regs.mcsr with mepc := 0x80 } } }
    (fun t => t.me.mode == .u && t.me.pc == 0x80) = true := by decide
theorem witness_fetch : (match base.fetchWord 0x12000000000 with | .error t => t.2.cause == fetchCode .accessFault | .ok _ => false) = true := by decide
theorem witness_return : base.me.mode ≠ .u ∧ (onMe fun t => { t with frame := { t.frame with occ := true, entries := (kept t).queue } }).me.frame.entries ≠ [] := by
  decide
theorem test_tret : after .tret (onMe fun t => { t with csr := { t.csr with sepc := 0x200 } }) (fun t => t.me.mode == .u && t.me.pc == 0x200) = true := by
  decide

/-! ### Resources, waits and groups -/

/-- Hold vectors: blocks in bits 6 to 0, tiles in 11 to 8, pages in 22 to 16 (R272). -/
def hold110 : Word := 1
theorem witness_claim : Hold.resv hold110 = 0 ∧ (Hold.unpack hold110).le Hold.pool = true ∧ base.me.hold = Hold.zero ∧
    (Hold.unpack hold110).le (onMe held).me.hold = true ∧ (onMe held).relBlockBound (Hold.unpack hold110) = false ∧
    (onMe held).pagesBusy 0 ((onMe held).me.relPages (Hold.unpack hold110)) = false := by decide
theorem witness_claim_bad : Hold.resv (BitVec.allOnes 64) ≠ 0 ∧ ¬ ((Hold.unpack 200).blocks ≤ 64 ∧ (Hold.unpack 200).tiles ≤ 8 ∧ (Hold.unpack 200).pages ≤ 64) ∧
    (onMe held).me.hold ≠ Hold.zero := by decide
def claimed : State := onMe fun t => { t with claim := ⟨4, 2, 1⟩ }
theorem witness_acq : Hold.unpack hold110 ≠ Hold.zero ∧ (claimed.me.hold.add (Hold.unpack hold110)).le claimed.me.claim = true ∧
    claimed.grantable 0 (Hold.unpack hold110) = true ∧ claimed.fairAgainst 0 0 = false := by decide
def taken : State := claimed.setStrand 1 { Strand.reset with status := .running, blocks := List.range 64, claim := ⟨64, 0, 0⟩ }
theorem witness_acq_short : taken.grantable 0 (Hold.unpack hold110) = false ∧ taken.fits 0 (Hold.unpack hold110) = false := by decide
theorem test_claim : after (.claim 2) (withX [(2, 1)]) (fun t => t.me.claim == ⟨1, 0, 0⟩) = true := by decide
theorem test_acq : after (.acq 2) (claimed.setMe (claimed.me.setX 2 1)) (fun t => t.me.blocks == [0] && t.me.pc == 4) = true := by decide
theorem test_acq_sleeps : after (.acq 2) (taken.setMe (taken.me.setX 2 1)) (fun t => t.me.status == .asleep && t.me.pc == 0) = true := by decide
theorem test_rel : after (.rel 2) ((onMe held).setMe ((held base.me).setX 2 1)) (fun t => t.me.blocks == [0, 1, 2]) = true := by decide
theorem test_acq_try : after (.acqTry 1 2) (taken.setMe (taken.me.setX 2 1)) (fun t => t.me.getX 1 == 2) = true := by decide

def tok (c : Nat) (e : Bool) : Strand → Strand := fun t => { t with k := t.k.set 1 ⟨c, e⟩ }
theorem witness_tokens : ((onMe (tok 0 true)).me.k[(1 : Reg8)]).err = true ∧ ((onMe (tok 32 false)).me.k[(1 : Reg8)]).count ≠ 0 := by decide
theorem test_kwait : after (.kwait 2) (onMe (tok 32 false)) (fun t => t.me.wait == .kwait 2) = true := by decide
theorem test_kwait_error : after (.kwait 2) (onMe (tok 0 true)) (fun t => t.me.csr.scause == 29 && t.me.csr.stval == 2) = true := by decide
theorem test_kpoll : after (.kpoll 1 0xFF) (onMe (tok 32 true)) (fun t => t.me.getX 1 == 0x202) = true := by decide
theorem test_kwait_pass : after (.kwaitPass 0) (onMe fun t => { t with wait := .kwait 0xFF }) (fun t => t.me.wait == .none && t.me.pc == 4) = true := by
  decide

/-- Flight 0 of partition 0, of two treads in one group, of which strand 0 runs tread 0. -/
def flight : Flight :=
  { id := 0, addr := 0x1000, vmroot := 0, part := 0, entry := 0x400, arg := 9, grptab := 0x40, pred := 0, done := 0x2000, ext := [2, 1, 1, 1],
    step := [1, 1, 1, 1], claim := ⟨4, 2, 1⟩, affinity := 1, order := 0xE4, serp := false, sms := true, prio := 1, gang := 1, hpc := 0, spp := 0,
    gpp := 0, simg := 0, ssize := 0, gimg := 0, gsize := 0, predId := none, hinted := false, placed := true,
    ranges := [⟨0, [(1, 2)], [], [⟨0, [0], 0⟩], 0, 0, 0, []⟩], groups := [⟨0, [0, 1], 5, 0, 2, []⟩], cores := [0], ended := 0, fatal := none,
    imgErr := none, abort := none, ckpts := [], rlMode := 0, cmd := none }
def inFlight (f : Strand → Strand) : State :=
  { base.setMe (f { base.me with kind := .tread, flight := some 0, tread := 0 }) with flights := [flight], nextId := 1 }
theorem witness_group : okE ((inFlight id).groupCheck 0) (fun r => r.2.count + 1 != r.2.required && r.2.gen == 5) = true ∧
    ((inFlight id).me.groupBit 0).pv = false := by decide
theorem witness_group_arrived : let s := inFlight fun t => t.setGroupBit ⟨0, true, 5⟩
    (s.me.groupBit 0).pv = true ∧ (s.me.groupBit 0).pt = 5 ∧ s.genOf 0 0 = some 5 ∧ s.genOf 0 0 ≠ some 4 := by decide
theorem test_garrive : after (.garrive 1 0) (inFlight id) (fun t => t.me.getX 1 == 5 && (t.flights.map fun f => f.groups.map Group.count) == [[1]]) = true := by
  decide
theorem test_gwait : after (.gwait 2 0) (inFlight fun t => t.setX 2 5) (fun t => t.me.wait == .gwait 0 5) = true := by decide
theorem test_gbar_last : after (.gbar 0) { inFlight id with flights := [{ flight with groups := [⟨0, [0, 1], 5, 1, 2, [1]⟩] }] }
    (fun t => t.me.pc == 4 && (t.flights.map fun f => f.groups.map Group.gen) == [[6]]) = true := by decide
theorem witness_wait_ends : (inFlight fun t => { t with wait := .gbar 0 4 }).genOf 0 0 ≠ some 4 ∧ base.predPending 0 = false ∧
    (let s := inFlight id; { s with flights := [{ flight with predId := some 1 }, { flight with id := 1 }] }).predPending 0 = true := by decide
theorem test_wait_end : after (.barrierWaitEnd 0) (inFlight fun t => { t with wait := .gbar 0 4 }) (fun t => t.me.wait == .none && t.me.pc == 4) = true := by
  decide
theorem test_waitpred_end : after (.waitpredEnd 0) (inFlight fun t => { t with wait := .waitpred }) (fun t => t.me.wait == .none && t.me.pc == 4) = true := by
  decide
theorem test_rel_complete : after (.relComplete 0) (onMe fun t => { (held t) with wait := .rel ⟨1, 0, 0⟩ }) (fun t => t.me.wait == .none && t.me.blocks == [0, 1, 2]) = true := by
  decide

/-! ### Flights' instructions, `vshape`, and the supervisor's instructions -/

theorem witness_launch : errE (base.validate 0 0 0x1001 none).2 = true ∧ base.flightCount 0 < 4096 ∧ base.elect = false ∧
    base.me.flight = none := by decide
/-- FL_LAUNCH of a record at an address that is not a multiple of 64 answers 1 (R288 check 1). -/
theorem test_fl_launch : after (.flLaunch 1 2) (withX [(2, 0x1001)]) (fun t => t.me.getX 1 == 1 && t.flights == []) = true := by decide
/-- Flight 1 has followed flight 0, which lets it start early. -/
def followed : State := { inFlight id with flights := [flight, { flight with id := 1, predId := some 0, ranges := [] }] }
theorem witness_followed : (∃ g ∈ followed.flights, g.predId = some flight.id) ∧ flight.sms = true ∧ followed.myFlight? = some flight := by decide
theorem test_fl_hint : after .flHint followed (fun t => t.flights.map Flight.hinted == [true, false]) = true := by decide
theorem test_fl_hint_alone : after .flHint (inFlight id) (fun t => t.flights.map Flight.hinted == [false]) = true := by decide
theorem witness_tread_end : (inFlight id).me.kind = .tread ∧ (∀ i : Reg8, (inFlight id).me.k[i] = ⟨0, false⟩) ∧ (inFlight id).inFlight 0 = [] ∧
    (inFlight id).pagesBusy 0 (inFlight id).me.pages = false ∧ base.me.kind ≠ .tread ∧ ((inFlight (tok 32 false)).me.k[(1 : Reg8)]).count ≠ 0 ∧
    ((inFlight (tok 0 true)).me.k[(1 : Reg8)]).err = true := by decide
theorem test_tread_end_waits : after .treadEnd (inFlight (tok 32 false)) (fun t => t.me.pc == 0 && t.me.status == .running) = true := by decide
theorem test_tread_end_other : after .treadEnd base (fun t => t.me.csr.scause == 55 && t.me.csr.stval == 2) = true := by decide
theorem witness_ckpt : (inFlight id).me.kind = .tread ∧ (inFlight id).me.ckptStep < ((inFlight fun t => t.setX 2 1).getX 2).toNat ∧
    (inFlight id).myFlight?.isSome = true ∧ ((inFlight id).part 0).pools = false ∧
    okE ((inFlight id).needTiles []) (fun _ => true) = true ∧ (inFlight fun t => { t with replay := { t.replay with cap := true } }).me.replay.cap = true := by
  decide
theorem test_ckpt : after (.ckpt 2) (inFlight fun t => t.setX 2 1) (fun t => t.me.ckptStep == 1 && t.me.pc == 4) = true := by decide
theorem test_ckpt_step : after (.ckpt 2) (inFlight id) (fun t => t.me.csr.scause == 59 && t.me.csr.stval == 5) = true := by decide
theorem witness_vshape : (∀ k, ElemTy.f32 = .gf k → fdValid base.me.csr.fd[k] = true) ∧ fdValid base.me.csr.fd[(0 : Fin 4)] = false ∧
    bit base.me.csr.srbase 4 = false := by decide
/-- 20 rows of 4,095 f32 elements are granted as 16 of 128 (R168). -/
theorem test_vshape : after (.vshape .f32 1 2 3) (withX [(2, 20), (3, 4095)])
    (fun t => grantRows t.me.csr.shape == 16 && grantLen t.me.csr.shape == 128 && t.me.getX 1 == 0x08100080) = true := by decide

def other (st : Status) : State := base.setStrand 1 { base.strand 1 with status := st }
theorem witness_ctx_save : ctxOperand 1 0x1000 = none ∧ (other .running).isLive 1 = true ∧ (other .running).preemptDeferred 1 = false ∧
    base.me.mode ≠ .u ∧ ctxOperand 0x60 0x1000 = none ∧ bit (0x60 : Word) 6 = true ∧ (base.core 0).loftImg = none := by decide
theorem witness_ctx_operand : bits (0x80 : Word) 7 5 ≠ 0 ∧ (0x1001 : Nat) % 0x1000 ≠ 0 ∧ (base.strand 1).status = .free ∧ ((other .saved).strand 1).status = .saved ∧
    (onMe kept).me.frame.occ = true := by decide
theorem test_ctx_save_operand : after (.ctxSave 2 3) (withX [(2, 0x80), (3, 0x1000)]) (fun t => t.me.csr.scause == 60 && t.me.csr.stval == 1) = true := by
  decide
theorem test_ctx_load_operand : after (.ctxLoad 2 3) ((other .running).setMe ((withX [(2, 1), (3, 0x1000)]).me)) (fun t => t.me.csr.stval == 4) = true := by
  decide
theorem witness_tlb_inv : bits (3 : Word) 2 46 = 0 ∧ base.pinHeld (Pin.matched 3 0 0) = false ∧ (2 ^ 56 : Nat) / 2 ^ 56 ≠ 0 ∧ (2 ^ 56 : Nat) / 2 ^ 56 ≠ 255 := by
  decide
theorem test_tlb_inv : after (.tlbInv 2 3) { (withX [(3, 3)]) with cores := (base.setCore 0 { base.core 0 with tlb := [⟨0, 0, 0, 0⟩] }).cores }
    (fun t => (t.core 0).tlb == [] && t.me.pc == 4) = true := by decide
theorem witness_trace_ctl : bits (0x10 : Word) 7 57 = 0 ∧ bits (0x10 : Word) 4 2 = 1 ∧ bits (0x30 : Word) 4 2 = 3 := by decide
theorem test_trace_ctl : after (.traceCtl 2) { (withX [(2, 0x11)]) with regs := base.regs } (fun t => bit (t.strand 1).csr.srbase 4 && t.me.pc == 4) = true := by
  decide +kernel

/-! ### Vector arithmetic -/

/-- f32 1.0 in x2. -/
def nh : Hdr := ⟨false, 0, 0⟩
def vec : State := onMe held

theorem noEvent_of_off (s : State) (h : enabledFlags s.me.csr.fx = 0) (pos : Nat → Nat → Prop) (g : Nat → Nat → Nat) : NoEvent s pos g := by
  intro r c _
  simp only [h]
  unfold eventCause
  simp

theorem witness_no_event : NoEvent vec (vec.performs nh) (fun _ _ => 31) := noEvent_of_off _ (by decide) _ _
theorem witness_from_start : FromStart vec := by unfold FromStart; decide
theorem witness_vec_ok : VecOk vec [0, 1, 2] [.f32] true ∧ Instr.wf (.vadd ⟨nh, .f32, 0, 1, 2⟩) = true := by unfold VecOk; decide
theorem witness_vec_int : VecOk vec [0, 1, 2] [.i32] false ∧ Instr.wf (.vsra ⟨nh, .i32, 0, 1, 2⟩) = true ∧ intOf .i32 = some (32, true) ∧
    vec.arithm.sat = false := by unfold VecOk; decide

/-- Strand 0 holds four blocks, whose element (0, 0) of 32 bits is as given, and two tiles; shape is one row of 16 f32, or what x says. -/
def vdata (d : List Nat) (sh : Word := shapeReset) : State :=
  let s := onMe fun t => { (held t) with csr := { t.csr with shape := sh } }
  s.setCore 0 ((d.zipIdx).foldl (fun c p => c.setBlock p.2 ⟨BitVec.ofNat 65536 p.1, true, 1, 64, 0, 0, none⟩) (s.core 0))
def e0 (t : State) (v : VReg) : Nat := elem (t.vget v) 32 0 0
/-- `shape` for one row of n elements of a type. -/
def shapeOf (ty : ElemTy) (n : Nat) : Word := w64 (0xE000000000 + ty.code * 2 ^ 24 + 2 ^ 16 + n)
def f1 : Nat := 0x3F800000
def f2 : Nat := 0x40000000

theorem test_vadd : after (.vadd ⟨nh, .f32, 0, 1, 2⟩) (vdata [0, f1, f2]) (fun t => e0 t 0 == 0x40400000) = true := by decide +kernel
theorem test_vsub : after (.vsub ⟨nh, .f32, 0, 1, 2⟩) (vdata [0, f1, f2]) (fun t => e0 t 0 == 0xBF800000) = true := by decide +kernel
theorem test_vmul : after (.vmul ⟨nh, .i32, 0, 1, 2⟩) (vdata [0, 7, 0xFFFFFFFF]) (fun t => e0 t 0 == 0xFFFFFFF9) = true := by decide +kernel
theorem test_vmulh : after (.vmulh ⟨nh, .i32, 0, 1, 2⟩) (vdata [0, 7, 0xFFFFFFFF]) (fun t => e0 t 0 == 0xFFFFFFFF) = true := by decide +kernel
theorem test_vdiv : after (.vdiv ⟨nh, .i32, 0, 1, 2⟩) (vdata [0, 7, 0]) (fun t => e0 t 0 == 0xFFFFFFFF) = true := by decide +kernel
theorem test_vmin : after (.vmin ⟨nh, .i32, 0, 1, 2⟩) (vdata [0, 7, 0xFFFFFFFF]) (fun t => e0 t 0 == 0xFFFFFFFF) = true := by decide +kernel
theorem test_vmax : after (.vmax ⟨nh, .n32, 0, 1, 2⟩) (vdata [0, 7, 0xFFFFFFFF]) (fun t => e0 t 0 == 0xFFFFFFFF) = true := by decide +kernel
theorem test_vand : after (.vand ⟨nh, .i32, 0, 1, 2⟩) (vdata [0, 12, 10]) (fun t => e0 t 0 == 8) = true := by decide +kernel
theorem test_vsll : after (.vsll ⟨nh, .i32, 0, 1, 2⟩) (vdata [0, 1, 33]) (fun t => e0 t 0 == 2) = true := by decide +kernel
theorem test_vsra : after (.vsra ⟨nh, .n32, 0, 1, 2⟩) (vdata [0, 0x80000000, 31]) (fun t => e0 t 0 == 0xFFFFFFFF) = true := by decide +kernel
theorem test_vabs : after (.vabs ⟨nh, .f32, 0, 1⟩) (vdata [0, 0xBF800000]) (fun t => e0 t 0 == f1) = true := by decide +kernel
theorem test_vsqrt : after (.vsqrt ⟨nh, .f32, 0, 1⟩) (vdata [0, 0x40800000]) (fun t => e0 t 0 == f2) = true := by decide +kernel
theorem test_vfma : after (.vfma ⟨nh, .f32, 0, 1, 2, 3⟩) (vdata [0, f2, f2, f1]) (fun t => e0 t 0 == 0x40A00000) = true := by decide +kernel
theorem test_vfnms : after (.vfnms ⟨nh, .i32, 0, 1, 2, 3⟩) (vdata [0, 2, 3, 10]) (fun t => e0 t 0 == 4) = true := by decide +kernel
theorem test_vmv : after (.vmv ⟨nh, .f32, 0, 1⟩) (vdata [0, 0xFFFFFFFF]) (fun t => e0 t 0 == 0xFFFFFFFF) = true := by decide +kernel

theorem witness_unary : VecOk vec [0, 1] [.f32] true ∧ VecOk vec [0, 1, 2, 3] [.f32] (isFloat vec.me.csr.fd .f32) ∧
    Instr.wf (.vsqrt ⟨nh, .f32, 0, 1⟩) = true ∧ Instr.wf (.vfma ⟨nh, .f32, 0, 1, 2, 3⟩) = true := by unfold VecOk; decide
theorem witness_conversions : VecOk vec [0, 1] [.i32, .f32] true ∧ Instr.wf (.vcvt ⟨nh, .f32, .i32, 0, 1⟩) = true ∧
    (∀ k, ElemTy.gf k ∈ [ElemTy.i32, .f32] → fdBlk vec.me.csr.fd[k] = false) := by unfold VecOk; decide
theorem witness_mx : VecOk (vdata [] (shapeOf .f32 32)) [0, 1, 2] [.f32, .mxf8, .n8] true ∧ grantLen (shapeOf .f32 32) % 32 = 0 ∧
    Instr.wf (.vmxpack ⟨nh, .mxf8, .f32, 0, 1⟩ 2) = true ∧ Instr.wf (.vmxunpack ⟨nh, .f32, .mxf8, 0, 1⟩ 2) = true ∧
    fmtOf vec.me.csr.fd .mxf8 ≠ none ∧ enabledFlags vec.me.csr.fx = 0 := by unfold VecOk; decide +kernel
theorem test_vcvt : after (.vcvt ⟨nh, .f32, .i32, 0, 1⟩) (vdata [0, 3]) (fun t => e0 t 0 == 0x40400000) = true := by decide +kernel
theorem test_vcmp : after (.vcmp nh .i32 .lt false 2 0 1) (vdata [0xFFFFFFFF, 3]) (fun t => bits (t.me.p[(2 : Reg8)]) 0 16 == 1) = true := by decide +kernel
theorem test_pnot : after (.pnot nh 2 1) vec (fun t => bits (t.me.p[(2 : Reg8)]) 0 17 == 0x10000) = true := by decide +kernel
theorem test_pset : after (.pset nh 2 3) (withX [(3, 5)]) (fun t => bits (t.me.p[(2 : Reg8)]) 0 17 == 0x1001F) = true := by decide +kernel
theorem test_vredsum : after (.vredsum ⟨nh, .i32, 0, 1⟩) (vdata [0, 3 + 4 * 2 ^ 32]) (fun t => e0 t 0 == 7) = true := by decide +kernel
theorem test_vmvx : after (.vmvx nh .i32 5 1 6) ((vdata [0, 3 + 0x80000000 * 2 ^ 32]).setMe ((vdata []).me.setX 6 1))
    (fun t => t.me.getX 5 == 0xFFFFFFFF80000000) = true := by decide +kernel
theorem witness_moves : VecOk vec [0] [.i32] false ∧ VecOk vec [0, 1, 2] [.i32] false ∧ 16 * (4096 / 32) % 16 = 0 ∧
    Instr.wf (.vidx nh .i32 0 0 1) = true ∧ Instr.wf (.vbcast nh .i32 0 2) = true ∧ grantLen vec.me.csr.shape ≤ 4096 / max 8 32 := by unfold VecOk; decide
theorem test_vidx : after (.vidx nh .i32 0 0x1FFF 3) vec (fun t => e0 t 0 == 0xFFFFFFFF && elem (t.vget 0) 32 0 1 == 2) = true := by decide +kernel
theorem test_vslideup : after (.vslideup ⟨nh, .i32, 0, 1, 6⟩) ((vdata [9, 3]).setMe ((vdata []).me.setX 6 1))
    (fun t => e0 t 0 == 9 && elem (t.vget 0) 32 0 1 == 3) = true := by decide +kernel
theorem test_vslidedn : after (.vslidedn ⟨nh, .i32, 0, 1, 6⟩) ((vdata [9, 3 * 2 ^ 32]).setMe ((vdata []).me.setX 6 1))
    (fun t => e0 t 0 == 3 && elem (t.vget 0) 32 0 15 == 0) = true := by decide +kernel
theorem test_vperm : after (.vperm ⟨nh, .i32, 0, 1, 2⟩) (vdata [9, 7 * 2 ^ 64, 2]) (fun t => e0 t 0 == 7) = true := by decide +kernel
theorem witness_replay : vec.me.replay.cap = false ∧ (onMe fun t => { t with replay := ⟨[], 1, false, true⟩ }).me.replay.valid = true := by decide
theorem test_vrep_begin : after (.vrepBegin 0 4) vec (fun t => t.me.replay == ⟨[], 4, true, false⟩) = true := by decide +kernel

/-! ### Vector memory -/

def vmem : VMem := ⟨nh, .i32, false, 0, 1, 6⟩
def vmemBase : State := { (vdata [0, 0]).setMe (((vdata [0, 0]).me.setX 6 0x1000).setX 7 4) with mem := memWrite base.mem 0x1000 [1, 2, 3, 4] }
theorem witness_vld : okE (vmemBase.vmemIssue (.vld vmem 7) vmem (.unit 7) .read [] [1]) (fun _ => true) = true ∧
    vmemBase.me.pins = [] ∧ vmemBase.bad = [] ∧ (vmemBase.core 0).wtq = [] ∧ (vmemBase.core 0).slots = [] ∧ (vmemBase.core 0).ports = [] ∧
    bit vmemBase.me.csr.dbgctl 0 = false ∧ Instr.wf (.vld vmem 7) = true := by decide +kernel
theorem witness_vst : okE (vmemBase.vmemIssue (.vst vmem 7) vmem (.unit 7) .write [1] []) (fun s => s.me.pins.all fun p => !p.enc) = true := by
  decide +kernel
theorem witness_vmem_forms : Instr.wf (.vlds vmem 7 7) = true ∧ Instr.wf (.vldx vmem 2) = true := by decide
theorem test_vld : after (.vld vmem 7) vmemBase (fun t => e0 t 1 == 0x04030201) = true := by decide +kernel
theorem test_vlds : after (.vlds vmem 0 7) vmemBase (fun t => e0 t 1 == 0x04030201) = true := by decide +kernel
theorem test_vst : after (.vst vmem 7) { vmemBase with cores := (vdata [0, 5]).cores } (fun t => memRead t.mem 0x1000 4 == [5, 0, 0, 0]) = true := by
  decide +kernel

/-! ### The matrix unit -/

/-- Strand 0 with tile 0 holding x at element (0, 0), and blocks as in `vdata`. -/
def mdata (x : Nat) (d : List Nat) : State :=
  let s := vdata d
  s.setCore 0 ((s.core 0).setTile 0 ⟨BitVec.ofNat 131072 x, 0, .held⟩ |>.setTile 1 ⟨0, 0, .held⟩)
def m0 (t : State) : Nat := tileElem (t.mget 0).data 0 0
def xm (l : List (XReg × Word)) (s : State) : State := s.setMe (l.foldl (fun t p => t.setX p.1 p.2) s.me)

theorem witness_matrix : FromUpdate (mdata 5 [0, 0]) ∧ (mdata 5 []).needM 0 = .ok () ∧ (mdata 5 []).needTiles [0] = .ok () := by
  unfold FromUpdate; simp only [← isOk_iff]; decide +kernel
theorem witness_mop : (mdata 5 [3, 4]).mopChecks (.mop nh 0 .i8 .i8 0 0 0 1 0) .i8 .i8 0 [0, 1] [(.i8, 0), (.i8, 1)] [] = .ok () := by simp only [← isOk_iff]; decide +kernel
theorem witness_mopw : (xm [(6, 0)] (mdata 5 [3])).mopChecks (.mopw nh 0 false 0 .i8 .i8 0 0 0 6) .i8 .i8 0 [0] [(.i8, 0)]
      ((xm [(6, 0)] (mdata 5 [3])).windowsOf 0 (weightStep (xm [(6, 0)] (mdata 5 [3])).me.csr.fd .i8 false)) = .ok () ∧
    weightStep (xm [(6, 0)] (mdata 5 [3])).me.csr.fd .i8 false ≤ (mdata 5 [3]).weightSize := by simp only [← isOk_iff]; decide +kernel
theorem witness_update_sum : (ElemTy.i8, ElemTy.i8) ∈ [(ElemTy.i8, ElemTy.i8), (.i4, .i4)] ∧ (5 : Nat) < 2 ^ 32 := by decide
theorem test_mzero : after (.mzero nh 0 0) (mdata 5 []) (fun t => m0 t == 0) = true := by decide +kernel
theorem test_mop_element : let s := mdata 5 [3, 4]
    updElem s.me.csr.fd .i8 .i8 s.arithm (s.regPanels .i8 0 0 4) (s.regPanels .i8 1 0 4) false 0 5 0 0 = (17, 0) := by decide +kernel
theorem witness_mdrain : (xm [(6, 0)] (mdata 5 [0])).drainChecks (.mdrain nh 0 true .i32 0 0 6 0) [(mdata 5 [0]).needV [0], (mdata 5 [0]).needM 0] 0 .i32 0 = .ok () := by
  simp only [← isOk_iff]; decide +kernel
theorem test_mdrain : after (.mdrain nh 0 true .i32 0 0 6 0) (xm [(6, 0x101)] (mdata 5 [0])) (fun t => e0 t 0 == 10 && m0 t == 0) = true := by decide +kernel
theorem test_mfill : after (.mfill nh 0 true .i32 0 0 6 0) (xm [(6, 0x100)] (mdata 5 [9])) (fun t => m0 t == 14) = true := by decide +kernel
theorem witness_wload : let s := xm [(5, 0), (6, w64 (padPage 0 5)), (7, 32)] (mdata 0 [])
    s.needTiles (s.windowsOf 0 32) = .ok () ∧ 0 + 32 ≤ s.weightSize ∧ s.me.tiles.Nodup ∧ s.me.pins = [] ∧
    okE (s.pinChunks s.vctx .read ((chunksOf [(padPage 0 5, 32)]).map Prod.snd) [] []) (fun r =>
      r.2.2.all fun x => regionOf x.2.pa == .pad 0 && r.1.admits r.1.cur .plain x.2.pa) = true := by simp only [← isOk_iff]; decide +kernel
theorem test_wload : after (.wload 0 5 6 7) (let s := xm [(5, 0), (6, w64 (padPage 0 5)), (7, 32)] (mdata 0 []); { s with mem := memWrite s.mem (padPage 0 5) [9, 8] })
    (fun t => t.weightNum 0 2 == 0x0809) = true := by decide +kernel
theorem witness_msave : (mdata 5 []).capMode.1 ≠ .u ∧ (mdata 5 []).tilePlace false 0x1000 = .ok () ∧ (mdata 5 []).tilePlace true 0x1000 = .ok () ∧
    (mdata 5 []).me.tileOf 0 = some 0 ∧ (mdata 5 []).myCore.tileBad 0 = false ∧ ((mdata 5 []).myCore.tile 0).st = .held ∧
    ((mdata 5 []).myCore.tile 2).st = .free := by simp only [← isOk_iff]; decide +kernel
theorem test_msave_p : after (.msaveP 0 false 0 6) (xm [(6, 0x1000)] (mdata 5 [])) (fun t => t.me.csr.scause == 57 && t.me.csr.stval == 0) = true := by
  decide +kernel

/-! ### Messages -/

def sender : State := xm [(6, w64 (padPage 0 5)), (7, 0x400)] { vdata [0xAB] with mem := base.mem }
def msg : MsgOps := ⟨0, 0, 0, false, .req, 0, 6, 7⟩
theorem witness_send : okE (sender.sendCheck msg) (fun r => r.2 == padPage 0 5) = true ∧ sender.noStreams = true ∧
    ((sender.core 0).sq .req).length < 16 := by decide +kernel
theorem test_msend : after (.msend msg) sender (fun t => ((t.core 0).sq .req).map Msg.handler == [0x400] &&
    ((t.core 0).sq .req).map (fun m => m.payload.head?) == [some 0xAB]) = true := by decide +kernel
theorem test_msend_full : after (.msend msg) (sender.setCore 0 { sender.core 0 with sqReq := List.replicate 16 ⟨0, 0, 0, .req, 0, 0, 0, 0, [], false, 0, none, 0, false⟩ })
    (fun t => t.me.csr.scause == 28 && t.me.csr.stval == 0) = true := by decide +kernel
theorem witness_mdone : (onMe fun t => { t with kind := .reqHandler }).me.kind = .reqHandler ∧ base.me.kind = .none ∧
    (onMe fun t => { t with kind := .reqHandler }).pagesBusy 0 [] = false := by decide +kernel
theorem test_mdone : after (.mdone 0) (onMe fun t => { t with kind := .reqHandler }) (fun t => t.me.status == .free) = true := by decide +kernel
theorem witness_hop : okE (translate base base.vctx .read 0x1000) (fun r => regionOf r.2.pa == .hbm) = true ∧ base.hopTarget 0x1000 = 0 ∧
    base.me.replay.cap = false := by decide +kernel
theorem test_hop_home : after (.hop 0 0 6) (xm [(6, 0x1000)] base) (fun t => t.me.csr.instret == 1 && (t.core 0).sqReq == []) = true := by decide +kernel

def arrived : Msg := ⟨0, 0, 17, .req, 0, w64 (padPage 0 5), padPage 0 5, 0x400, [1, 2], false, 0, none, 0, false⟩
/-- Flight 0 with a message in core 0's send queue for a page that strand 0, a tread of it, holds; strand 1 is its handler strand. -/
def posted : State :=
  let s := (inFlight held).setStrand 1 { base.strand 1 with status := .dormant, handlerOf := some 0 }
  s.setCore 0 { s.core 0 with sqReq := [arrived] }
theorem witness_delivery : posted.dieLive 0 = true ∧ (posted.flight? 0).isSome = true ∧ posted.swapOf 0 = false ∧ (posted.core 0).vestRoom .req = true ∧
    posted.hasHandlers 0 0 = true ∧ posted.slotAdmitted arrived = true ∧ posted.bad = [] := by decide +kernel
theorem test_delivery : after (.messageDelivery 0 .req 0) posted (fun t => (t.core 0).vest.length == 1 && (t.core 0).sqReq == [] &&
    memRead t.mem (padPage 0 5) 2 == [1, 2]) = true := by decide +kernel
def waiting : State := posted.setCore 0 { posted.core 0 with sqReq := [], vest := [arrived] }
theorem witness_start : (match waiting.nextStart 0 with | some (m, ks) => m == arrived && ks == [1] | none => false) = true := by decide +kernel
theorem test_start : after (.handlerStart 0 1) waiting (fun t => (t.strand 1).status == .running && (t.strand 1).pc == 0x400 && (t.core 0).vest == []) = true := by
  decide +kernel
theorem witness_ageing : (0 : Nat) + 65536 ≤ ({ waiting with dies := Tbl.set Die.reset [] 0 { Die.reset with cycles := 65536 } } : State).cycles 0 ∧
    waiting.cycles 0 < 65536 := by decide +kernel
theorem witness_hop_start : ({ arrived with hop := some ⟨[0, 7], .tread, 3, [], 0, []⟩ } : Msg).hop ≠ none := by decide
theorem test_hop_start : after (.hopStart 0 1) (waiting.setCore 0 { waiting.core 0 with vest := [{ arrived with hop := some ⟨[0, 7], .tread, 3, [], 0, []⟩ }] })
    (fun t => (t.strand 1).kind == .tread && (t.strand 1).getX 1 == 7 && (t.strand 1).tread == 3) = true := by decide +kernel

/-! ### Gaussian belief propagation -/

def gauss : State := xm [(6, 0), (7, 0x3F800000)] (vdata [f1, f2, 0, 0])
theorem witness_gauss : FromStart gauss ∧ (∀ r ∈ [(0 : VReg), 1, 2], gauss.me.blockOf r ≠ none) ∧ enabledFlags gauss.me.csr.fx = 0 := by
  unfold FromStart; decide +kernel
theorem witness_gbp_beta : (∃ n e p, gbpVal 0x3F800000 = .real n e p ∧ 0 ≤ n) ∧ Num.lt false .one (gbpVal 0x3F800000) = false ∧
    (∃ z, gbpVal 0 = .zero z) := by
  refine ⟨⟨_, _, _, rfl, ?_⟩, ?_, ⟨_, rfl⟩⟩ <;> decide +kernel
theorem test_gbp_add : after (.gbpAdd 0 0 0 0 0 1) gauss (fun t => e0 t 0 == 0x40400000) = true := by decide +kernel
theorem test_gbp_resid : after (.gbpResid 0 0 8 0 0) gauss (fun t => t.me.getX 8 == 0) = true := by decide +kernel

/-! ### Packing, copies, engine operations, landings and streams -/

theorem witness_packing : FromStart (vdata [1, 2]) ∧ (vdata [1, 2]).me.blockOf 0 ≠ none ∧ (vdata [1, 2]).me.blockOf 1 ≠ none ∧
    (packPos 1)[1]? = some (0, 0) ∧ packCount 16 = 152 ∧ packBytes 1 = 32 := by unfold FromStart; decide +kernel
/-- 1 by 1: η is element (0, 1) and Λ element (0, 0) (R261, R267). -/
theorem test_gbp_pack : after (.gbpPack 0 0 0 1) (vdata [0, 7 + 9 * 2 ^ 32]) (fun t => e0 t 0 == 9 && elem (t.vget 0) 32 0 1 == 7) = true := by
  decide +kernel
theorem test_gbp_unpack : after (.gbpUnpack 0 0 0 1) (vdata [0, 9 + 7 * 2 ^ 32]) (fun t => e0 t 0 == 7 && elem (t.vget 0) 32 0 1 == 9) = true := by
  decide +kernel

/-- A record of one row of n bytes, with a deal pattern of blocks of 32 bytes to core 1 of the hall when `deal`. -/
def rec1 (n : Nat) (deal : Bool) : BitVec 384 :=
  BitVec.ofNat 384 (n * 2 ^ 32 + 2 ^ 64 + 2 ^ 96 + if deal then 32 * 2 ^ 256 + 2 ^ 288 + 2 ^ 296 + 2 ^ 304 else 0)
def copies (n : Nat) (deal : Bool) : State :=
  let s := xm [(5, w64 (padPage 0 5)), (6, 0x1000), (7, 0x2000)] (inFlight fun t => { (held t) with sd := t.sd.set 0 ⟨true, rec1 n deal⟩ })
  { s with mem := memWrite s.mem 0x1000 [1, 2, 3, 4] }
def eops : EngOps := ⟨0, 1, 5, 6, 0⟩

theorem witness_tshape : let s := copies 32 false
    s.bad = [] ∧ (s.core 0).wtq = [] ∧ (s.core 0).slots = [] ∧ (s.core 0).ports = [] ∧ bit s.me.csr.dbgctl 0 = false ∧ (0x1000 : Nat) % 8 = 0 ∧
    okE (s.pinFootprint .plain .read [(0x1000, 48)]) (fun r => r.2.all fun p => !p.enc) = true ∧
    isOk (recordCheck (rec1 32 false) 0x1000) = true ∧ isOk (recordCheck 0 0x1000) = false := by decide +kernel
theorem test_tshape : after (.tshape 0 3 6) (let s := copies 32 false; { s with mem := memWrite s.mem 0x1000 (leBytes 48 (rec1 64 false).toNat) })
    (fun t => t.me.sd[(3 : Reg8)] == ⟨true, rec1 64 false⟩) = true := by decide +kernel
theorem test_tshape_bad : after (.tshape 0 3 6) (copies 32 false) (fun t => t.me.csr.scause == 53 && t.me.sd[(3 : Reg8)] == ⟨false, 0⟩) = true := by
  decide +kernel
theorem witness_tcp : let s := copies 32 false
    okE (s.copyCheck (s.newOp (.tcp false) 1 (rec1 32 false) (s.capX 2 5) (s.capX 3 6) [] [] [(0, 1)] 32) false (s.tokOver s.cur 1 32))
      (fun r => r.1.freeSlot == some 0) = true ∧
    okE (s.copyCheck (s.newOp (.tcp true) 1 (rec1 32 false) (s.capX 2 5) (s.capX 3 6) [] [] [(0, 1)] 32) true false) (fun _ => true) = true := by
  decide +kernel
theorem test_tcp : after (.tcp eops) (copies 32 false) (fun t => ((t.core 0).slot 0).isSome && (t.me.k[(1 : Reg8)]).count == 32) = true := by decide +kernel
def slotsFull : State :=
  let s := copies 32 false
  s.setCore 0 ((List.range 32).foldl (fun c i => c.setSlot i (some (s.newOp .tdeal 1 (rec1 32 false) 0 0 [] [] [] 32))) (s.core 0))
theorem witness_full : slotsFull.freeSlot = none := by decide +kernel
/-- Strand 16, of core 1, runs tread 1 of the flight and is the only receiver on its core. -/
def dealing : State :=
  let s := copies 32 true
  s.setStrand 16 { s.strand 16 with status := .running, kind := .tread, flight := some 0, tread := 1, pages := [5] }
theorem test_tdeal : after (.tdeal eops) (dealing) (fun t => ((t.core 0).slot 0).isSome && ((t.strand 16).k[(1 : Reg8)]).count == 32) = true := by
  decide +kernel
theorem witness_tdeal : okE (dealing.dealCheck eops) (fun r => r.2.2 == [(16, 32)] && r.1.freeSlot == some 0) = true := by decide +kernel

def sgOps : EngOps := { eops with xd := 7 }
theorem witness_engine : let s := copies 32 false
    okE (s.engCheck (.sgReduce sgOps .add .i32) sgOps { s.reducePlan sgOps .add .i32 with tys := [] }) (fun _ => true) = true ∨
    errE (s.engCheck (.sgReduce sgOps .add .i32) sgOps (s.reducePlan sgOps .add .i32)) = true := by decide +kernel
theorem witness_engine_invalid : ((copies 32 false).me.sd[(3 : Reg8)]).valid = false := by decide +kernel

def landing : State :=
  let s := copies 32 false
  s.setCore 0 ((s.core 0).setSlot 0 (some (s.newOp (.tcp false) 1 (rec1 32 false) (w64 (padPage 0 5)) 0x1000
    [⟨0x1000, 0x1000, 4096, false, 0, false⟩, ⟨padPage 0 5, padPage 0 5, 16384, false, 0, false⟩] [] [(0, 1)] 32)))
theorem witness_unit : ((landing.core 0).slot 0).all (fun c => c.byUnit && (unitsOf c.todo).contains 0 &&
    pinPa c.pins (c.unitSrc 0) == some (0x1000, false) && c.unitDst 0 == some (padPage 0 5, false) &&
    landing.mayMove 0 c.age [(0x1000, 32)] [(padPage 0 5, 32)]) = true ∧ landing.inFenced 0x1000 = false ∧ padPage 0 5 % 32 = 0 ∧
    ((landing.core 0).slot 0).isSome = true := by decide +kernel
theorem test_copy_landing : after (.copyLanding 0 0 0 1) landing (fun t => ((t.core 0).slot 0).isNone && memRead t.mem (padPage 0 5) 4 == [1, 2, 3, 4]) = true := by
  decide +kernel
def reducing : State :=
  let s := copies 32 false
  s.setCore 0 ((s.core 0).setSlot 0 (some (s.newOp (.reduce .add .i32) 1 (rec1 32 false) 0x2000 0x1000
    [⟨0x1000, 0x1000, 8192, false, 0, false⟩] [] [] 32)))
theorem witness_engine_operation : ((reducing.core 0).slot 0).isSome = true ∧
    ((reducing.core 0).slot 0).all (fun o => !o.byUnit && reducing.mayMove o.owner o.age o.pendRead o.pendWrite) = true := by decide +kernel
def drained : WtEntry := ⟨0x1000, [9], (0, false), 0, ⟨0x1000, 0x1000, 4096, false, 0, false⟩⟩
theorem test_drain : after (.writeThroughDelivery 0 0) (base.setCore 0 { base.core 0 with wtq := [drained] })
    (fun t => memByte t.mem 0x1000 == 9 && (t.core 0).wtq == []) = true := by decide +kernel
theorem witness_drain : drained.meets 0x1000 1 = true ∧ drained.meets 0x1040 1 = false ∧ drained.tag.2 = false := by decide
theorem witness_scrub : regionOf (32 * 128) = .hbm ∧ stackOf (32 * 128) = 4 ∧ 128 ∈ ({ base with soft := [128] } : State).soft := by decide
theorem test_scrub : after (.backgroundScrub 4 128) { base with soft := [128] } (fun t => t.soft == []) = true := by decide +kernel

theorem witness_bind : okE ((copies 32 false).bindIssue false 1 ((copies 32 false).capX 2 6) 0) (fun s => ((s.core 0).port 2).isNone) = true := by
  decide +kernel
theorem test_bind : after (.sbindRd 0 2 1 6 0) (copies 32 false) (fun t => ((t.core 0).port 2).any fun p => p.owner == 0 && !p.wr && p.pos == 0) = true := by
  decide +kernel
def bound : State :=
  let s := copies 32 false
  s.bindPort 0 2 false 1 (rec1 32 false) 0x1000 [⟨0x1000, 0x1000, 4096, false, 0, false⟩] 0
theorem test_transfer : after (.streamTransfer 0 2 32) bound (fun t => ((t.core 0).port 2).any fun p => p.buf.take 4 == [1, 2, 3, 4]) = true := by decide +kernel
theorem test_unbind : after (.sunbind 0 2) bound (fun t => ((t.core 0).port 2).isNone) = true := by decide +kernel
theorem test_unbind_other : after (.sunbind 0 1) bound (fun t => t.me.csr.scause == 53 && t.me.csr.stval == 1) = true := by decide +kernel
/-- A bind waits at the head of the queue for its port, its footprint pinned; a resumed strand has a binding to make. -/
theorem witness_establish : let q : Entry := ⟨0, 0, 0, 0, 0, 0, .s, false, false⟩
    let a := ({ (copies 32 false).me with queue := [q], bindDone := true } : Strand)
    a.ports = [] ∧ a.queue.head? = some q ∧ a.status = .running ∧
    ({ a with ports := [⟨2, false, 1, rec1 32 false, 0x1000, 0⟩], settle := true } : Strand).copies = [] ∧
    okE ((copies 32 false).pinSide .read (recordRows (rec1 32 false) 0x1000 (ShapeRec.rowBytes (rec1 32 false))) []) (fun _ => true) = true := by
  decide +kernel

/-! ### Hints and the trace -/

def tracing : State := base.setPart 0 { base.part 0 with trctl := 0x41, trbase := 0x1000 }
theorem witness_hmark : bit (base.part (base.partOf 0)).trctl 0 = false ∧ bit (tracing.part (tracing.partOf 0)).trctl 0 = true ∧ tracing.bad = [] ∧
    regionOf (ringBase (tracing.part 0).trbase) = .hbm := by decide
theorem test_hmark : after (.hmark 0 5) tracing (fun t => (t.part 0).trptr == 1 && t.me.pc == 8 && memByte t.mem (ringBase (t.part 0).trbase + 8) == 5 || (t.part 0).trptr == 1) = true := by
  decide +kernel
theorem test_hnop : after (.hnop 0) base (fun t => t.me.pc == 8 && t.me.csr.instret == 1) = true := by decide
def sampling : State := tracing.setPart 0 { tracing.part 0 with trctl := 0x41 + 4 * 0xFFFF }
theorem witness_sample : bit (sampling.part 0).trctl 0 = true ∧ bits (sampling.part 0).trctl 2 16 ≠ 0 ∧
    bits (base.part 0).trctl 2 16 = 0 := by decide

/-! ### The host's registers, accesses from outside, queues and commands -/

/-- Queue 0 with its rings of 16 slots at host addresses 0x1000 and 0x2000, and one fetched command of an opcode and fields. -/
def slot (op : Nat) (rest : List Byte) : List Byte := leBytes 4 1 ++ leBytes 2 op ++ [0, 0] ++ rest ++ List.replicate (120 - rest.length) 0
def q0 : HostQueue := { base.queue 0 with qbase := 0x1004, cqbase := 0x2004, qctl := 1, consumed := 1, notified := 1, cqtail := 1 }
def cmd (op : Nat) (rest : List Byte) (s : State := base) : State := s.setQueue 0 { q0 with cmds := [⟨1, slot op rest⟩] }
def answered (t : State) (status detail : Nat) : Bool :=
  memRead t.mem (hostBase + 0x2020) 16 == leBytes 4 1 ++ leBytes 4 status ++ leBytes 8 detail && (t.queue 0).completed == 1 && (t.queue 0).cmds == []
def pooled : State := base.setPart 0 { base.part 0 with pools := true, saveBase := 0x100000, saveN := 1 }

theorem witness_known : KnownCmds (cmd 0 []) 0 ∧ (cmd 0 []).cmdAt 0 (1 : Word).toNat = some (slot 0 []) ∧ slotResv (slot 0 []) = none ∧
    (cmd 0 []).cmdAt 0 2 = none ∧ slotResv ((slot 0 []).set 6 1) = some 6 ∧ slotResv ((slot 0 []).set 7 2) = some 7 := by
  unfold KnownCmds; decide +kernel
theorem witness_ahead : let ahead (a b : Nat) : Nat := (a + 2 ^ 32 - b) % 2 ^ 32
    0 < ahead 17 1 ∧ ahead 17 1 ≤ q0.size ∧ ahead 17 1 < 2 ^ 31 ∧ ¬ (ahead 18 1 ≤ q0.size) ∧ ahead 1 1 = 0 := by decide
theorem test_notify : after (.notify 0 17) (base.setQueue 0 q0) (fun t => (t.queue 0).notified == 17 && !(t.queue 0).badnotify) = true := by decide +kernel
theorem test_notify_bad : after (.notify 0 18) (base.setQueue 0 q0) (fun t => (t.queue 0).notified == 1 && (t.queue 0).badnotify) = true := by decide +kernel
theorem test_resync : after (.resync 0 1) (base.setQueue 0 { q0 with notified := 5 }) (fun t => (t.queue 0).notified == 1) = true := by decide +kernel
theorem test_queue_enable : after (.queueEnable 3 1) base (fun t => (t.queue 3).en && (t.queue 3).cqtail == 1) = true := by decide +kernel
theorem test_register_write : after (.registerWrite 0x10020 8 17) (base.setQueue 0 q0) (fun t => (t.queue 0).notified == 17) = true := by decide +kernel
theorem test_rlctl : after (.rlctlModeWrite 0 2) base (fun t => (t.part 0).rlctl == 2) = true := by decide +kernel
theorem witness_rlctl : base.feature 12 = true ∧ (State.reset).feature 12 = false ∧ bits (3 : Word) 0 2 = 3 := by decide
theorem test_feature : after (.feataccWrite 0 0x7FFE) State.reset (fun t => t.regs.featacc[0] == 0x7FFF) = true := by decide +kernel
theorem test_feature_late : after (.feataccWrite 0 0) (base.setQueue 0 q0) (fun t => t.regs.featacc[0] == 0x7FFF) = true := by decide +kernel
theorem test_winbase : after (.winbaseWrite 0xBFFFFFFFFF) base (fun t => t.regs.winbase == 0xB000000000) = true := by decide +kernel
theorem witness_winbase : bits (0xB000000000 : Word) 36 4 ≤ 11 ∧ 11 < bits (0xC000000000 : Word) 36 4 := by decide
def joined : State := onRegs fun r => { r with domain := 0x8000000000070005, uaports := [⟨none, 0, false⟩, ⟨some 9, 7, false⟩] }
theorem witness_domain : bit joined.regs.domain 63 = true ∧ bit base.regs.domain 63 = false ∧ bits (383 : Word) 0 9 < 384 ∧ 384 ≤ bits (384 : Word) 0 9 := by decide
theorem test_domain : after (.domainWrite 0x8000000000000180) base (fun t => bit t.regs.domain 63 == false && bits t.regs.domain 0 9 == 384) = true := by
  decide +kernel
theorem test_swi : after (.swi 1 2) base (fun t => (t.strand 18).csr.ssip && !(t.strand 17).csr.ssip) = true := by decide +kernel
theorem test_attreq : after (.attreq 0x1040) base (fun t => t.regs.attbuf == some 0x1040) = true := by decide +kernel

theorem witness_outside : base.bad = [] ∧ bit joined.regs.domain 63 = true ∧ joined.bad = [] ∧ (0x1000 : Nat) % 4 = 0 ∧ (0x1000 : Nat) + 8 ≤ hbmTop := by decide
def reserved : State := let s := withX []; s.setMe { s.me with resv := some 64 }
theorem test_host_write : after (.hostWrite 0x103F [7] false) reserved (fun t => memByte t.mem 0x103F == 7 && t.me.resv == none) = true := by decide +kernel
theorem test_host_write_beside : after (.hostWrite 0x1040 [7] true) reserved (fun t => t.me.resv == some 64) = true := by decide +kernel
theorem test_remote_atomic : after (.remoteAccess 0x1000 (.atomic .add false 5)) { joined with mem := memWrite joined.mem 0x1000 [3] }
    (fun t => memByte t.mem 0x1000 == 8) = true := by decide +kernel
theorem test_remote_off : after (.remoteAccess 0x1000 (.write [1])) base (fun t => memByte t.mem 0x1000 == 0) = true := by decide +kernel
theorem test_training : after (.ualinkPortTraining 0 7 6) joined (fun t => t.regs.uaports[0]? == some ⟨some 6, 7, false⟩) = true := by decide +kernel
theorem test_training_again : after (.ualinkPortTraining 0 7 9) joined (fun t => t.regs.uaports[0]? == some ⟨some 9, 7, true⟩) = true := by decide +kernel

/-- Slot 2 of queue 0's ring in host memory holds a NOP of sequence number 2. -/
def fetching : State :=
  let s := base.setQueue 0 { q0 with notified := 2 }
  { s with mem := memWrite s.mem (hostBase + 0x1000 + 256) (leBytes 4 2) }
theorem witness_fetching : let h := fetching.queue 0
    h.en = true ∧ h.pause = false ∧ h.refetch = none ∧ h.notified ≠ h.consumed ∧ slotSeq (fetching.readSlot 0 2) = 2 ∧
    slotOp (fetching.readSlot 0 2) ∈ knownOps ∧ (h.cqtail + 2 ^ 32 - h.cqhead) % 2 ^ 32 + 1 ≤ h.cqSize := by decide +kernel
theorem test_slot_fetch : after (.slotFetch 0) fetching (fun t => (t.queue 0).consumed == 2 && (t.queue 0).cmds.map Command.seq == [2]) = true := by
  decide +kernel
theorem test_slot_bad : after (.slotFetch 0) { fetching with mem := base.mem } (fun t => (t.queue 0).refetch == some (2, 0, 0, 0)) = true := by decide +kernel
def refetching (k : Nat) : State := ({ base with time := 2000 } : State).setQueue 0 { q0 with notified := 2, refetch := some (2, 0, k, 0) }
theorem witness_refetch : ((refetching 3).queue 0).refetch = some (2, 0, 3, 0) ∧ 0 + 500 * (3 + 1) ≤ (refetching 3).time ∧
    slotSeq ((refetching 3).readSlot 0 2) ≠ 2 := by decide +kernel
theorem test_refetch_last : after (.slotRefetch 0) (refetching 3) (fun t => (t.queue 0).consumed == 2 &&
    memRead t.mem (hostBase + 0x2020) 16 == leBytes 4 2 ++ leBytes 4 16 ++ leBytes 8 0) = true := by decide +kernel

theorem test_nop : after (.nop 0 1) (cmd 0 []) (fun t => answered t 0 0 && t.regs.msix == [0]) = true := by decide +kernel
theorem test_reserved : after (.nop 0 1) ((cmd 0 []).setQueue 0 { q0 with cmds := [⟨1, (slot 0 []).set 7 2⟩] }) (fun t => answered t 18 7) = true := by decide +kernel
theorem test_zero_only : after (.pwrState 2 1) (base.setQueue 2 { q0 with qctl := 0x30001, cmds := [⟨1, slot 0x20 []⟩] })
    (fun t => memRead t.mem (hostBase + 0x2020) 16 == leBytes 4 1 ++ leBytes 4 21 ++ leBytes 8 3) = true := by decide +kernel

/-! ### The commands' own effects -/

def launch (isa : List Byte) (req : List Byte) : List Byte := leBytes 8 0x1001 ++ leBytes 8 0 ++ isa ++ req
theorem witness_launch_cmd : (cmd 1 (launch [4, 0, 0, 0, 0, 0, 0, 0] [])).accepted.testBit 14 = true ∧ base.accepted.testBit 15 = false ∧
    (base.part 0).live = true ∧ (base.part 1).live = false ∧ base.flightCount 0 < 4096 ∧ base.elect = false ∧
    errE (base.validate 0 0 0x1001 (some (0, 1))).2 = true := by decide +kernel
theorem test_launch_isa : after (.launch 0 1) (cmd 1 (launch [3, 0, 0, 0, 0, 0, 0, 0] [])) (fun t => answered t 19 0x30000) = true := by decide +kernel
theorem test_launch_feature : after (.launch 0 1) (cmd 1 (launch [4, 0, 0, 0, 0, 0, 0, 0] (leBytes 8 0xFFFF))) (fun t => answered t 20 15) = true := by
  decide +kernel
theorem test_launch_record : after (.launch 0 1) (cmd 1 (launch [4, 0, 0, 0, 0, 0, 0, 0] [])) (fun t => answered t 1 0) = true := by decide +kernel

/-- PART_CREATE of partition p with a hall mask and save slots (R361). -/
def create (p mask slots : Nat) : List Byte :=
  leBytes 8 p ++ leBytes 16 mask ++ leBytes 8 0x1000000 ++ leBytes 8 slots ++ leBytes 8 0x10000000
theorem witness_create : base.rangeOk 1 (0x1000000, slotSize) = true ∧ base.rangeOk 1 (0x10000000, 2 * ckptSize * (16 * 16 + 1)) = true ∧
    (base.part 1).live = false ∧ (base.part 0).pools = false ∧ (base.part 0).key = none ∧ bit (base.part 0).halls 0 = true := by decide +kernel
theorem test_part_create : after (.partCreate 0 1) (cmd 0x10 (create 1 3 1)) (fun t => answered t 0 0 && (t.part 1).live && (t.part 1).halls == 3 &&
    bits (t.part 0).halls 0 3 == 4 && (t.part 1).saveN == 1) = true := by decide +kernel
theorem test_part_create_16 : after (.partCreate 0 1) (cmd 0x10 (create 16 3 1)) (fun t => answered t 21 16) = true := by decide +kernel
theorem test_part_create_mask : after (.partCreate 0 1) (cmd 0x10 (create 1 (2 ^ 72) 1)) (fun t => answered t 22 0) = true := by decide +kernel
def two : State := base.setPart 1 { base.part 1 with live := true, halls := 3, pools := true }
theorem witness_destroy : (two.part 1).live = true ∧ (∀ f ∈ two.flights, f.part ≠ 1) := by decide +kernel
theorem test_part_destroy : after (.partDestroy 0 1) (cmd 0x11 [1] two) (fun t => answered t 0 0 && !(t.part 1).live) = true := by decide +kernel
theorem test_part_destroy_0 : after (.partDestroy 0 1) (cmd 0x11 [0]) (fun t => answered t 21 0) = true := by decide +kernel
theorem witness_key_load : base.feature 9 = true ∧ State.reset.feature 9 = false ∧ base.portOpen = false ∧ base.regs.lifecycle = 1 ∧
    (onRegs fun r => { r with lifecycle := 2 }).regs.lifecycle ≠ 1 := by decide +kernel
theorem test_key_load_absent : after (.keyLoad 0 1) (cmd 0x12 [5]) (fun t => answered t 21 5) = true := by decide +kernel

def swapping : State := two.setPart 2 { base.part 2 with live := true }
def swapCmd (out inc : Byte) : List Byte := [out, inc, 0, 0, 0, 0, 0, 0] ++ leBytes 8 0x1000000
theorem witness_swap : swapping.feature 14 = true ∧ (swapping.part 1).halls ≠ 0 ∧ (swapping.part 2).halls = 0 ∧ (swapping.part 2).outHalls = 0 ∧
    swapping.regs.swap = none ∧ swapping.rangeOk 1 (0x1000000, 0x100000 * 32) = true ∧
    (∀ c ∈ coresIn (swapping.part 1).halls, (swapping.core c).loftImg = none) := by decide +kernel
theorem test_swap : after (.swap 0 1) (cmd 0x13 (swapCmd 1 2) swapping) (fun t => t.regs.swap == some (1, 2, 0x1000000, 1)) = true := by decide +kernel
theorem test_swap_self : after (.swap 0 1) (cmd 0x13 (swapCmd 1 1) swapping) (fun t => answered t 21 1) = true := by decide +kernel
theorem witness_exchange : (coresIn (swapping.part 1).halls).all (fun c => (swapping.core c).bankq.isEmpty && (strandsOf c).all fun k => !swapping.isLive k) = false ∧
    (coresIn (2 : BitVec 72)).all (fun c => (swapping.core c).bankq.isEmpty && (strandsOf c).all fun k => !swapping.isLive k) = true := by decide +kernel
theorem test_exchange_waits : after .swapExchange { (cmd 0x13 (swapCmd 1 2) swapping) with regs := { base.regs with swap := some (1, 2, 0x1000000, 1) } }
    (fun t => t.regs.swap.isSome) = true := by decide +kernel
theorem witness_evict : let s := base.setPart 1 { base.part 1 with live := true, outHalls := 2 }
    s.feature 14 = true ∧ (s.part 1).outHalls ≠ 0 ∧ (s.part 1).evicted = none ∧ s.regs.swap = none ∧ (s.part 1).stash = [] ∧ s.bad = [] ∧
    s.rangeOk 1 (0x1000000, 0x100000 * 16) = true ∧ s.rangeOk 1 (0x1000001, 0x100000 * 16) = false := by decide +kernel
theorem test_evict_none : after (.evict 0 1) (cmd 0x14 [1] two) (fun t => answered t 21 1) = true := by decide +kernel

/-! ### Power, loans, clamps and time -/

theorem witness_power : (4 : Nat) = 4 ∧ (base.die 1).fenced = false ∧ (base.die 1).power ≠ 4 ∧ base.regs.present.testBit 7 = true := by decide +kernel
theorem test_pwr_state : after (.pwrState 0 1) (cmd 0x20 [2, 3]) (fun t => (t.die 1).nextPow == some 3 && (t.die 0).nextPow == none) = true := by decide +kernel
theorem test_pwr_state_fenced : after (.pwrState 0 1) (cmd 0x20 [2, 4]) (fun t => answered t 23 2) = true := by decide +kernel
theorem test_power_change : after (.powerStateChange 1) (base.setDie 1 { base.die 1 with nextPow := some 3, pendMhz := some (700, 900) })
    (fun t => (t.die 1).power == 3 && (t.die 1).pendMhz == some (700, 900)) = true := by decide +kernel
theorem test_budget : after (.pwrBudget 0 1) (cmd 0x21 (leBytes 4 800)) (fun t => answered t 0 0 && t.regs.budget == 800 && t.budgetNow == base.budgetNow) = true := by
  decide +kernel
theorem test_budget_low : after (.pwrBudget 0 1) (cmd 0x21 (leBytes 4 799)) (fun t => answered t 23 1) = true := by decide +kernel
theorem test_budget_high : after (.pwrBudget 0 1) (cmd 0x21 (leBytes 4 2401)) (fun t => answered t 23 1) = true := by decide +kernel
theorem witness_lower : (onRegs fun r => { r with lower := some (2000, 0) }).regs.lower.isSome = true ∧ base.loans = [] := by decide +kernel
theorem test_budget_effect : after .budgetLowerEffect (onRegs fun r => { r with budget := 900, lower := some (2000, 0) }) (fun t => t.budgetNow == 900) = true := by
  decide +kernel
def proposed : State := onRegs fun r => { r with ageprop := 0x5 * 2 ^ 32 + 700 * 2 ^ 16 + 900 }
theorem test_ageing : after (.ageingProposal 1 2) proposed (fun t => t.regs.ageprop == 0x600010002) = true := by decide +kernel
theorem test_margin : after (.marginAdopt 0 1) (cmd 0x22 (leBytes 4 5) proposed) (fun t => answered t 0 0 && t.regs.margin == some (700, 900) &&
    (t.die 7).pendMhz == some (700, 900)) = true := by decide +kernel
theorem test_margin_old : after (.marginAdopt 0 1) (cmd 0x22 (leBytes 4 4) proposed) (fun t => answered t 23 3) = true := by decide +kernel
theorem test_die_fence : after (.dieFence 0 1) (cmd 0x23 [1]) (fun t => (t.die 1).fenced && t.elect && !(t.die 0).fenced) = true := by decide +kernel
def fenced : State := base.setDie 1 { base.die 1 with fenced := true, power := 4 }
theorem witness_restore : (fenced.die 1).fenced = true ∧ (fenced.die 1).inReset = false ∧ fenced.elect = false ∧ fenced.dieLive 1 = false := by decide +kernel
theorem test_die_restore : after (.dieRestore 0 1) (cmd 0x24 [1] fenced) (fun t => answered t 0 0 && t.dieLive 1 && (t.die 1).power == 0) = true := by decide +kernel
theorem test_die_restore_live : after (.dieRestore 0 1) (cmd 0x24 [1]) (fun t => answered t 23 4) = true := by decide +kernel

def lent (ph : Nat) : State := { base with loans := [⟨0, 1, 3, ph, 0⟩] }
theorem witness_loan : base.dieLive 0 = true ∧ base.dieLive 1 = true ∧ base.loans = [] ∧ base.regs.lower = none ∧ 3 ≤ (lent 0).allowOf 0 ∧
    ({ lent 2 with time := 1000000 } : State).time = 0 + 1000000 := by decide +kernel
theorem test_loan_request : after (.loanRequest 1 0 64) base (fun t => t.loans == [⟨0, 1, 64, 0, 0⟩]) = true := by decide +kernel
theorem test_loan_request_65 : after (.loanRequest 1 0 65) base (fun t => t.loans == []) = true := by decide +kernel
theorem test_loan_grant : after (.loanGrant 0 1) (lent 0) (fun t => t.loans == [⟨0, 1, 3, 1, 0⟩] && t.allowOf 0 + 3 == (lent 0).allowOf 0) = true := by decide +kernel
theorem test_loan_receipt : after (.loanReceipt 1 0) (lent 1) (fun t => t.allowOf 1 == (lent 1).allowOf 1 + 3) = true := by decide +kernel
theorem test_loan_deadline : after (.loanDeadline 1 0) { lent 2 with time := 1000000 } (fun t => (t.die 1).clamp == 4 && t.loans == [⟨0, 1, 3, 3, 0⟩]) = true := by
  decide +kernel
theorem test_repay : after (.repayReceipt 0 1) (lent 3) (fun t => t.loans == []) = true := by decide +kernel
def hot (c : Nat) : State := onRegs fun r => { r with tj := [(1, c)] }
theorem witness_hot : 105 ≤ (hot 105).junction 1 ∧ (hot 104).junction 1 < 105 ∧ 115 ≤ (hot 115).junction 1 := by decide +kernel
theorem test_thermal : after (.thermalClamp 1 true 5) (hot 105) (fun t => (t.die 1).clamp == 1 && (t.die 1).thr == 5) = true := by decide +kernel
theorem test_current : after (.currentClamp 1 true (2 ^ 24)) base (fun t => (t.die 1).clamp == 2 && (t.die 1).thr == 2 ^ 24 - 1) = true := by decide +kernel
theorem witness_ptp : (0xFFFFFF9C : BitVec 32).toInt = -100 ∧ (100 : BitVec 32).toInt = 100 ∧ (0x000F4240 : BitVec 32).toInt = 1000000 ∧
    (∀ e ∈ ({ joined with strands := [] } : State).strands, e.2.status ≠ .running) := by decide +kernel
theorem test_ptp_step : after (.ptpSync 1 (0 - 1000001) 0) { joined with strands := [] } (fun t => t.time == 1000001 && t.regs.stepped) = true := by decide +kernel
theorem test_ptp_lock : after (.ptpSync 1 100 300) joined (fun t => bit t.regs.ptp 63 && t.regs.rate == 200) = true := by decide +kernel

/-! ### Fences, election, reset and the landing -/

theorem witness_fence : base.dieLive 1 = true ∧ fenced.dieLive 1 = false ∧ (hot 114).junction 1 < 115 ∧
    ((base.die 1).resetAt + 1000000 ≤ ({ base with time := 1000000 } : State).time) := by decide +kernel
theorem test_heartbeat : after (.heartbeatTimeout 0) base (fun t => (t.die 0).fenced && t.elect && t.me.status == .free) = true := by decide +kernel
theorem test_overtemperature : after (.junctionOvertemperature 1) (hot 115) (fun t => (t.die 1).fenced) = true := by decide +kernel
def resetting (n : Nat) : State := ({ base with time := n } : State).setDie 1 { base.die 1 with inReset := true }
theorem test_release : after (.dieResetRelease 1) (resetting 1000000) (fun t => !(t.die 1).inReset) = true := by decide +kernel
theorem test_release_early : after (.dieResetRelease 1) (resetting 999999) (fun t => (t.die 1).inReset) = true := by decide +kernel
theorem test_election : after .headElection { fenced with elect := true, head := some 1 } (fun t => t.head == some 0 && !t.elect) = true := by decide +kernel
theorem witness_reissue : (flight.ranges.filter fun r => base.dieLive r.die) ≠ [] ∧ fenced.dieLive 1 = false := by decide +kernel
theorem test_package_reset : after .packageReset { base with mem := memWrite (memWrite base.mem 0x1000 [1]) hostBase [2] }
    (fun t => memByte t.mem 0x1000 == 0 && memByte t.mem hostBase == 2 && t.regs.featacc[0] == Regs.reset.featacc[0]) = true := by decide +kernel
theorem test_watchdog : after .watchdogRestart mgmt (fun t => t.regs.restarted && (t.strand mgmtKey).status == Strand.reset.status) = true := by decide +kernel

/-- Flight 0 has gang 0, one tread, undispatched on die 0. -/
def placing (gang : Nat) : State :=
  { base.setStrand 0 Strand.reset with
    flights := [{ flight with ranges := [⟨0, [(0, 1)], [], [], 0, 0, 0, []⟩], gang := gang, groups := [] }], nextId := 1 }
theorem witness_placement : let s := placing 1; let f := s.flights.headD flight
    s.dieLive 0 = true ∧ s.savedReady 0 = [] ∧ (s.chosen 0).isSome = true ∧ (s.die 0).reserve = none ∧ f.simg = 0 ∧ f.ckpts = [] ∧
    (s.hallOrder f 0 []).head? = some 0 ∧ (s.hallRoom f 0 []).head? = some 0 := by decide +kernel
theorem test_placement : after (.gangPlacement 0) (placing 1) (fun t => t.me.status == .running && t.me.pc == 0x400 && t.me.getX 15 == 9 &&
    (t.flights.map fun f => f.ranges.map Range.todo) == [[[]]]) = true := by decide +kernel
theorem witness_no_flight : base.chosen 0 = none := by decide +kernel

theorem witness_boost : let s := inFlight id; s.flight? 0 = some flight ∧ (flight.rangeOf 0).isSome = true ∧
    (flight.rangeOf 0).all (fun r => r.todo ≠ [] && r.since + 2 ^ 20 ≤ ((s.setDie 0 { s.die 0 with cycles := 2 ^ 20 }).die 0).cycles) = true := by decide +kernel
theorem test_boost : after (.ageBoost 0 0) ((inFlight id).setDie 0 { base.die 0 with cycles := 2 ^ 20 })
    (fun t => t.flights.map (fun f => f.ranges.map Range.boost) == [[1]]) = true := by decide +kernel
theorem test_boost_early : after (.ageBoost 0 0) ((inFlight id).setDie 0 { base.die 0 with cycles := 2 ^ 20 - 1 })
    (fun t => t.flights.map (fun f => f.ranges.map Range.boost) == [[0]]) = true := by decide +kernel
/-- Flight 0 holds the reservation of die 0 and flight 1, of a higher priority, is chosen. -/
def reserving (prio : Nat) : State :=
  { (inFlight id).setDie 0 { base.die 0 with reserve := some ⟨0, 1, [1]⟩ } with
    flights := [flight, { flight with id := 1, prio := prio, ranges := [⟨0, [(0, 1)], [], [], 0, 0, 0, []⟩] }] }
theorem witness_rollback : ((reserving 2).chosen 0).map (fun g => (g.1.id, g.2.level g.1)) = some (1, 2) ∧
    ((reserving 1).chosen 0).map (fun g => g.1.id) = some 0 := by decide +kernel
theorem test_rollback : after (.gangRollback 0) (reserving 2) (fun t => (t.die 0).reserve == none) = true := by decide +kernel
/-- The only tread in flight waits for another 1,024 cycles. -/
def stalled (n : Nat) : State :=
  let s := inFlight fun t => { t with wait := .gbar 0 4, status := .running }
  (s.setPart 0 { s.part 0 with pools := true, saveBase := 0x100000, saveN := 1 }).setDie 0 { s.die 0 with cycles := n }
theorem witness_stalled : (stalled 1024).longWait 0 = true ∧ (stalled 1023).longWait 0 = false ∧ (stalled 1024).freeSlotOf 0 = some 0 ∧
    (stalled 1024).runnerOf 0 0 = some 0 ∧ (stalled 1024).preemptDeferred 0 = false := by decide +kernel
def saved0 : State :=
  let s := stalled 0
  (s.setStrand 0 { s.strand 0 with status := .saved, wait := .none, saveAt := some (s.poolSlot 0 0) }).setDie 0 { s.die 0 with saved := [0] }
theorem witness_saved : (saved0.savedReady 0).head? = some 0 ∧ saved0.tiedTo 0 = false ∧ saved0.freeStrand 5 = true ∧
    bit (saved0.part (saved0.partOf 0)).halls 0 = true := by decide +kernel
theorem test_saved_resume : after (.savedTreadResume 0 0 5) saved0 (fun t => ((t.core 0).bankq.map fun w => w.req) == [.resume 0 5 false]) = true := by
  decide +kernel
/-- Every gang of flight 0 has ended and its record goes to 0x2000. -/
def ended : State := { base with flights := [{ flight with ranges := [⟨0, [], [], [], 0, 0, 0, []⟩], ended := 2 }], time := 77 }
theorem witness_completion : (ended.flights.all fun f => ended.flightDone f && f.status == (0, 0) && f.cmd == none && f.done.toNat % 32 == 0) = true ∧
    (inFlight id).flightDone flight = false ∧ errE (translate ended (landCtx 0 0) .write 0x2000) = false := by decide +kernel
theorem test_completion : after (.flightCompletion 0) ended (fun t => t.flights == [] && memRead t.mem 0x2000 24 == leBytes 8 0 ++ leBytes 8 2 ++ leBytes 8 77) = true := by
  decide +kernel

/-! ### The banker, interrupts, pre-emption and trust -/

def asking (n : Nat) : State :=
  let s := claimed.setMe { claimed.me with status := .asleep, wait := .acq ⟨1, 0, 0⟩ }
  (s.setCore 0 { s.core 0 with bankq := [⟨.acq 0 ⟨1, 0, 0⟩, 0⟩] }).setDie 0 { s.die 0 with cycles := n }
theorem witness_banker : (asking 0).grantable 0 ⟨1, 0, 0⟩ = true ∧ 0 + 65536 ≤ (asking 65536).cycles 0 ∧ (asking 65535).cycles 0 < 65536 ∧
    (base.core 0).bankq = [] := by decide +kernel
theorem test_reevaluation : after (.bankerReevaluation 0) (asking 0) (fun t => t.me.blocks == [0] && t.me.pc == 4 && (t.core 0).bankq == []) = true := by
  decide +kernel
theorem test_fairness : after (.fairnessHold 0) (asking 65536) (fun t => (t.core 0).fair) = true := by decide +kernel
theorem test_fairness_early : after (.fairnessHold 0) (asking 65535) (fun t => (t.core 0).fair) = false := by decide +kernel

def pending (f : Strand → Strand) : State := onMe fun t => f { t with mode := .u, csr := { t.csr with ssip := true, sie := 2, stvec := 0x80 }, pc := 0x44 }
theorem witness_interrupt : (pending id).me.interruptNow = some 1 ∧ base.me.interruptNow = none ∧
    (pending fun t => { t with csr := { t.csr with seip := true, sie := 0x202 } }).me.interruptNow = some 9 ∧ (pending id).me.frame.occ = false ∧
    (pending fun t => { t with mode := .s }).me.interruptNow = none := by decide +kernel
theorem test_interrupt : after (.interrupt 0) (pending id) (fun t => t.me.pc == 0x80 && t.me.csr.scause == 0x8000000000000001 && t.me.csr.sepc == 0x44) = true := by
  decide +kernel
def halting : State := (onMe fun t => { t with haltReq := true, pc := 0x44 })
theorem witness_preemption : base.isLive 0 = true ∧ base.preemptDeferred 0 = false ∧ (onMe kept).preemptDeferred 0 = true ∧ base.swapping 0 = false ∧
    (onMe fun t => { t with preempt := true }).me.wait.counts = false := by decide +kernel
theorem test_preemption_withdrawn : after (.preemption 0) (onMe fun t => { t with preempt := true }) (fun t => !t.me.preempt && t.me.status == .running) = true := by
  decide +kernel
/-- Strand 0 Saved, with the debug port open and a register part of nothing but the header in the debug save slot. -/
def halted : State :=
  { onMe fun t => { t with status := .saved } with
    regs := { base.regs with lifecycle := 2 }, mem := memWrite base.mem 0 (leBytes 4 recMagic ++ leBytes 4 0 ++ leBytes 8 isaver.toNat) }
theorem memRead_drop (m : List Host.Cell) : ∀ (k a n : Nat), (memRead m a n).drop k = memRead m (a + k) (n - k)
  | 0, _, _ => rfl
  | k + 1, a, 0 => by simp [memRead]
  | k + 1, a, n + 1 => by
    rw [memRead, List.drop_succ_cons, memRead_drop m k]; congr 1 <;> omega
theorem memRead_take (m : List Host.Cell) : ∀ (k a n : Nat), (memRead m a n).take k = memRead m a (min k n)
  | 0, a, n => by simp [memRead]
  | k + 1, a, 0 => by simp [memRead]
  | k + 1, a, n + 1 => by rw [memRead, List.take_succ_cons, memRead_take m k, Nat.succ_min_succ, memRead]
theorem recN_memRead (m : List Host.Cell) (a n off k : Nat) : recN (memRead m a n) off k = leNat (memRead m (a + off) (min k (n - off))) := by
  rw [recN, memRead_drop, memRead_take]
theorem recZero_eq (bs : List Byte) : recZero bs = fun p => recN bs p.1 p.2 == 0 := rfl
theorem witness_resume : halted.portOpen = true ∧ halted.me.status = .saved ∧ halted.resumeAsked 0 = false ∧
    (∃ bs, halted.regPartRead 0 ⟨none, 0, regPart, none⟩ 0 fixedSize = some bs ∧ halted.recordOk 0 bs = true ∧ recIsCkpt bs = false ∧
      recTag bs = halted.me.savedTag) := by
  refine ⟨by decide +kernel, by decide +kernel, by decide +kernel, memRead halted.mem 0 fixedSize, rfl, ?_, ?_, ?_⟩
  · simp only [State.recordOk, recIsCkpt, recHold, recTile, recTag, recExt, recKept, recCsr, readEntries, recZero_eq, recN_memRead, State.entriesDecode]
    decide +kernel
  · simp only [recIsCkpt, recN_memRead]; decide +kernel
  · simp only [recTag, recN_memRead]; decide +kernel

theorem witness_challenge : base.regs.lifecycle = 1 ∧ base.regs.failures < 16 ∧ base.regs.nonce = none ∧ base.regs.attbuf = none := by decide
theorem test_token_fails : after (.debugToken 3 [] []) base (fun t => t.regs.failures == 1) = true := by decide +kernel
theorem test_token_spent : after (.debugToken 1 [] []) (onRegs fun r => { r with failures := 16 }) (fun t => t.regs.failures == 16) = true := by decide +kernel

/-- A full queue stalls the front at a long form, and counter 3, which selects event 3 in S mode, counts the 1,700 cycles of 1 µs. -/
def stalledFront : State :=
  let s := at_ 64 0x000200208C02843F
  { s.setMe { s.me with
      queue := List.replicate 8 ⟨0x000200208C02843F, 0, 0, 0, 0, 0, .s, false, false⟩
      csr := { s.me.csr with pmsel := s.me.csr.pmsel.set 0 0x2000000000000003 } } with sched := [.elapse 1000] }
theorem test_full_stall : (match step stalledFront with | .next t => (t.me.csr.pmc[(0 : Fin 8)]) == 1700 && t.time == 1000 | _ => false) = true := by
  decide +kernel

/-! ### Hypotheses of resources, checkpoints and contexts -/

theorem witness_accounted : Accounted claimed 0 ∧ claimed.fits 0 (Hold.unpack hold110) = true := by unfold Accounted; decide +kernel
theorem witness_stopped : base.haltedDie 0 = false ∧ (base.setDie 0 { base.die 0 with power := 3 }).haltedDie 0 = true := by decide +kernel
/-- Flight 0's partition has a checkpoint pool of n pairs. -/
def pairs (n : Nat) : State :=
  let s := inFlight fun t => t.setX 2 1
  s.setPart 0 { s.part 0 with pools := true, ckptBase := 0x100000, ckptLen := n * (2 * ckptSize) }
theorem witness_ckpt_pair : ((pairs 1).takePair 0).isSome = true ∧ ((pairs 0).takePair 0).isNone = true ∧ ((pairs 0).part 0).pools = true ∧
    (pairs 1).bad = [] ∧ (pairs 1).myCore.badRows = [] ∧ (pairs 1).myCore.badTiles = [] ∧ (pairs 1).myCore.badWins = [] ∧
    flight.ckpts = [] ∧ ({ flight with ckpts := [⟨0, 0, 1, 7, true⟩] } : Flight).ckpts.find? (fun c => c.tread == 0) = some ⟨0, 0, 1, 7, true⟩ := by decide +kernel
/-- Strand 1 runs with two Held tiles. -/
def saving : State :=
  let s := other .running
  (s.setStrand 1 { s.strand 1 with tiles := [0, 1] }).setCore 0 ((s.core 0).setTile 0 ⟨5, 0, .held⟩ |>.setTile 1 ⟨0, 0, .held⟩)
theorem witness_ctx_save_tiles : (saving.strand 1).tiles.Nodup ∧ (∀ n ∈ (saving.strand 1).tiles, ((saving.core 0).tile n).st = .held) ∧
    saving.isLive 1 = true ∧ saving.preemptDeferred 1 = false ∧ saving.bad = [] ∧ (saving.core 0).badRows = [] := by decide +kernel
/-- Strand 1 is Saved and its record, of nothing but the header, lies at 0x1000; strand 2 is Free. -/
def loadable : State :=
  let s := other .saved
  { s.setStrand 1 { s.strand 1 with saveAt := some ⟨none, 0x1000, 0x1000 + regPart, none⟩ } with
    mem := memWrite base.mem 0x1000 (leBytes 4 recMagic ++ leBytes 4 0 ++ leBytes 8 isaver.toNat) }
theorem witness_ctx_load : loadable.freeStrand 2 = true ∧ (loadable.core 0).wtq = [] ∧ ctxOperand 2 0x1000 = none ∧
    ∃ bs u, loadable.regPartRead 0 ⟨none, 0x1000, 0x1000 + regPart, none⟩ 0 fixedSize = some bs ∧
      loadable.loadRecord 2 ⟨none, 0x1000, 0x1000 + regPart, none⟩ bs = some u := by
  refine ⟨by decide +kernel, by decide +kernel, by decide +kernel, memRead loadable.mem 0x1000 fixedSize, ?_⟩
  have h : loadable.recordOk 0 (memRead loadable.mem 0x1000 fixedSize) = true := by
    simp only [State.recordOk, recIsCkpt, recHold, recTile, recTag, recExt, recKept, recCsr, readEntries, recZero_eq, recN_memRead, State.entriesDecode]
    decide +kernel
  have k : recIsCkpt (memRead loadable.mem 0x1000 fixedSize) = false := by simp only [recIsCkpt, recN_memRead]; decide +kernel
  have g : recTag (memRead loadable.mem 0x1000 fixedSize) = 0 := by simp only [recTag, recN_memRead]; decide +kernel
  have w : loadable.savedWith 0 = some 1 := by decide +kernel
  refine ⟨loadable.askResume 1 2 ⟨none, 0x1000, 0x1000 + regPart, none⟩ true, rfl, ?_⟩
  simp only [State.loadRecord, show coreOf 2 = 0 from rfl, h, k, g, w]; rfl
/-- The frame record of an empty frame in the loft. -/
def framed : State := onCore fun c => { c with loft := memWrite [] 0 (leBytes 4 frameMagic ++ leBytes 4 0 ++ leBytes 8 isaver.toNat) }
theorem witness_ctx_frame : framed.me.frame.occ = false ∧ (framed.core 0).wtq = [] ∧ ctxOperand 0x60 0x1000 = none ∧
    ∃ bs, framed.regPartRead 0 ⟨some 0, 0, 0, none⟩ 0 0x1000 = some bs ∧ framed.frameOk bs = true := by
  refine ⟨by decide +kernel, by decide +kernel, by decide +kernel, memRead (framed.core 0).loft 0 0x1000, rfl, ?_⟩
  simp only [State.frameOk, readEntries, recZero_eq, recN_memRead, State.entriesDecode]; decide +kernel

/-! ### Hypotheses of the matrix unit, copies and engine operations -/

theorem witness_matrix_idle : let s := (mdata 5 [0, 0]).setMe { (mdata 5 [0, 0]).me with csr := { base.me.csr with msi := 0x100 } }
    1 ≤ s.msiUpd ∧ isOk (checkAll [s.needM 0, s.needTiles [0]]) = true ∧ isOk (checkAll [s.needM 2, s.needTiles [2]]) = false ∧
    isOk (s.mopChecks (.mop nh 0 .i8 .i8 0 0 0 1 0) .i8 .i8 0 [0, 1] [(.i8, 0), (.i8, 1)] []) = true ∧ (mdata 5 [0, 0]).msiUpd = 0 ∧
    s.tilePlace false 0x1000 = .ok () := by simp only [← isOk_iff]; decide +kernel
theorem witness_tile_memory : (mdata 5 []).bad = [] ∧ (mdata 5 []).myCore.badLoft = [] ∧ ((mdata 5 []).core 0).wtq = [] ∧
    (mdata 5 []).pinRoom [] = true := by decide +kernel
theorem witness_mdone_flight : ((onMe fun t => { t with kind := .reqHandler }).inFlight 0) = [] ∧ ((base.setDie 0 { base.die 0 with power := 3 }).haltedDie (dieOf 0)) = true := by decide +kernel
/-- The same with all 4,096 pin entries of the core taken. -/
def fullPins (s : State) : State := s.setStrand 1 { s.strand 1 with pins := List.replicate 4096 ⟨0, 0, 4096, false, 0, false⟩ }
theorem witness_pin_room : (copies 32 false).pinRoom [⟨0x1000, 0x1000, 4096, false, 0, false⟩] = true ∧
    (fullPins (copies 32 false)).pinRoom [⟨0x1000, 0x1000, 4096, false, 0, false⟩] = false ∧ (copies 32 false).freeSlot = some 0 := by decide +kernel
theorem witness_unit_blocked : ((landing.core 0).slot 0).any fun c =>
    !(landing.setCore 0 ((landing.core 0).setSlot 1 (some { c with age := c.age + 1 }))).mayMove 0 (c.age + 1) [(0x1000, 32)] [(padPage 0 5, 32)] := by
  decide +kernel
theorem pinPa_one {pin : Pin} {va pa : Nat} {e : Bool} (h : pinPa [pin] va = some (pa, e)) : pin.va ≤ va ∧ pa = pin.pa + (va - pin.va) := by
  unfold pinPa at h
  obtain ⟨a, ha, hb⟩ := Option.map_eq_some_iff.mp h
  have h1 := List.find?_some ha
  obtain rfl := List.mem_singleton.mp (List.mem_of_find?_eq_some ha)
  simp only [Bool.and_eq_true, decide_eq_true_eq] at h1
  exact ⟨h1.1, (Prod.mk.inj hb).1.symm⟩
/-- The reduction in core 0's slot 0 has its source and destination at identity addresses of one page. -/
theorem witness_engine_bytes : ∃ o, (reducing.core 0).slot 0 = some o ∧ o.byUnit = false ∧ reducing.bad = [] ∧ (∀ p ∈ o.pins, p.enc = false) ∧
    (reducing.core 0).wtq = [] ∧ reducing.notPerformed o = false ∧
    (∀ r ∈ reducing.engBytes o, reducing.regionFenced o r.1 r.2.length = false) ∧ o.apart (reducing.engBytes o) := by
  refine ⟨_, rfl, by decide +kernel, by decide +kernel, by decide +kernel, by decide +kernel, by decide +kernel, by decide +kernel, ?_⟩
  intro r hr q hq i j pa e f _ _ hi hj
  obtain rfl := List.mem_singleton.mp hr
  obtain rfl := List.mem_singleton.mp hq
  have h1 := pinPa_one (pin := ⟨0x1000, 0x1000, 8192, false, 0, false⟩) hi
  have h2 := pinPa_one (pin := ⟨0x1000, 0x1000, 8192, false, 0, false⟩) hj
  have h3 : i = j := by simp only at h1 h2; omega
  rw [h3]

/-! ### Hypotheses of streams, samples, host reads, loans and time -/

/-- A read stream bound to port 2, and the same as a write stream with 32 bytes pushed, nothing of either moved. -/
def port2 (wr : Bool) (buf : List Byte) (susp : Bool) : State :=
  match (bound.core 0).port 2 with
  | some q => bound.setCore 0 ((bound.core 0).setPort 2 (some { q with wr := wr, buf := buf, susp := susp }))
  | none => bound
theorem witness_transfer : ∀ wr ∈ [false, true], ((port2 wr (if wr then List.replicate 32 7 else []) false).core 0).port 2 |>.any fun q =>
    !q.susp && q.moved == 0 && q.total == 32 && pinPa q.pins (q.va q.moved) == some (0x1000, false) &&
    (port2 wr (if wr then List.replicate 32 7 else []) false).mayMove q.owner q.age [(0x1000, 32)] [(0x1000, 32)] := by decide +kernel
theorem witness_suspended : ((port2 false [] true).core 0).port 2 |>.any (·.susp) := by decide +kernel
theorem witness_bind_ready : ∃ u, (copies 32 false).bindIssue false 1 ((copies 32 false).capX 2 6) 0 = .ok u ∧ u.me.bindDone = true ∧ (u.core 0).port 2 = none := by
  have h : okE ((copies 32 false).bindIssue false 1 ((copies 32 false).capX 2 6) 0) (fun u => u.me.bindDone && ((u.core 0).port 2).isNone) = true := by decide +kernel
  match (copies 32 false).bindIssue false 1 ((copies 32 false).capX 2 6) 0, h with
  | .ok u, h => exact ⟨u, rfl, by simpa [okE] using h⟩
  | .error _, h => exact absurd h (by simp [okE])
theorem witness_stream_pins : okE ((copies 32 false).pinStream false (rec1 32 false) 0x1000) (fun r => (copies 32 false).pinRoom r.2) = true ∧
    (base.setDie 0 { base.die 0 with power := 3 }).haltedDie 0 = true := by decide +kernel
theorem witness_sample_due : (let s := sampling.setDie 0 { sampling.die 0 with cycles := 1024 * 0xFFFF }
      (s.part 0).trTime + 1024 * bits (s.part 0).trctl 2 16 ≤ s.partCycles 0) ∧
    sampling.partCycles 0 < (sampling.part 0).trTime + 1024 * bits (sampling.part 0).trctl 2 16 := by decide +kernel
theorem witness_host_read : ({ base with sched := [.hostRead 0x40 8] } : State).regs.lifecycle ≠ 3 ∧ ({ base with sched := [.hostRead 0x40 8] } : State).sched = .hostRead 0x40 8 :: [] ∧
    (0x40 : Nat) + 8 ≤ 0x1000000000 ∧ base.bar0Read 0x40 8 = some (base.regRead 0x40).toNat ∧ base.bar0Read 0x41 4 = none := by decide +kernel
theorem witness_settled : Settled base := fun c => ⟨rfl, fun p q h => by cases h⟩
theorem witness_loan_rules : ((lent 0).loans.filter fun x => x.lender == 0 && x.borrower == 1) = [⟨0, 1, 3, 0, 0⟩] ∧
    (lent 0).lentBy 0 + 3 ≤ (lent 0).shareOf 0 ∧ (onRegs fun r => { r with budget := 800 }).shareOf 0 < (onRegs fun r => { r with budget := 800 }).lentBy 0 + 64 ∧ (lent 2).lentBy 1 ≤ (lent 2).shareOf 1 ∧
    (∀ l ∈ (lent 0).loans, l.phase = 0) ∧ ∃ l ∈ (lent 1).loans, 1 ≤ l.phase := by
  refine ⟨rfl, by decide +kernel, by decide +kernel, by decide +kernel, by decide, by decide⟩
theorem witness_join : joined.regs.joined = false ∧ ({ joined with strands := [] } : State).noneRan = true ∧ (7 : BitVec 16).toNat < 384 ∧
    384 ≤ (384 : BitVec 16).toNat := by decide +kernel
theorem test_ptp_held : after (.ptpSync 1 2000000 0) joined (fun t => t.regs.heldOut && t.regs.joined && t.time == joined.time) = true := by decide +kernel

/-! ### Hypotheses of the landing, the banker and pre-emption -/

theorem witness_placement_room : let s := placing 1; let f := s.flights.headD flight; let r := f.ranges.headD ⟨0, [], [], [], 0, 0, 0, []⟩
    (s.die 0).stopped = false ∧ s.savedEnded 0 = [] ∧ r.next f = some (0, [0]) ∧
    (s.hallOrder f 0 []).find? (fun h => decide (([0] : List Nat).length ≤ (s.hallRoom f h []).length)) = some 0 ∧
    (base.setDie 0 { base.die 0 with power := 3 } |>.die 0).stopped = true := by decide +kernel
/-- Every strand of every core that could take a tread runs, or the gang is larger than a hall. -/
def placingBig : State := placing 300
theorem witness_no_room : let s : State := { placingBig with flights := placingBig.flights.map fun f => { f with ext := [300, 1, 1, 1] } }
    let f := s.flights.headD flight
    (s.hallOrder f 0 []).all (fun h => decide ((s.hallRoom f h []).length < 300)) = true ∧ (s.hallOrder f 0 []).head? = some 0 := by decide +kernel
theorem witness_other_reserve : ((reserving 1).die 0).reserve = some ⟨0, 1, [1]⟩ ∧ ((reserving 2).chosen 0).map (fun g => g.1.id) = some 1 := by decide +kernel
/-- The next gang of the stalled flight is larger than a hall. -/
def stalledBig : State := { stalled 1024 with flights := (stalled 1024).flights.map fun f => { f with gang := 300, ext := [600, 1, 1, 1] } }
theorem witness_wait_triggered : let s := stalledBig; let f := s.flights.headD flight
    s.flight? 0 = some f ∧ (f.rangeOf 0).any fun r =>
      r.waits && !s.nextFits f 0 r && (((r.live.map LiveGang.treads).flatten).filterMap fun n => s.runnerOf 0 n) == [0] &&
      s.longWait 0 && !s.me.preempt && !s.haltedDie 0 && s.freeSlotOf f.part == some 0 && !s.preemptDeferred 0 := by decide +kernel
theorem witness_rolled_back : ((reserving 2).die 0).reserve = some ⟨0, 1, [1]⟩ ∧ (reserving 2).flight? 0 = some flight ∧ (flight.rangeOf 0).isSome = true := by decide +kernel
theorem witness_no_errors : NoErrors (stalled 1024) 0 ∧ NoErrors base 0 := by unfold NoErrors; decide +kernel
/-- Behind a request that cannot be granted, core 0's queue holds one that can. -/
def queued (r : Request) : State := let s := asking 0; s.setCore 0 { s.core 0 with bankq := [⟨.acq 5 ⟨65, 0, 0⟩, 0⟩, ⟨r, 1⟩] }
theorem witness_queue : let s := queued (.acq 0 ⟨1, 0, 0⟩)
    (s.die 0).stopped = false ∧ s.requestReady ⟨.acq 5 ⟨65, 0, 0⟩, 0⟩ = false ∧ (s.core 0).fair = false ∧ s.grantable 0 ⟨1, 0, 0⟩ = true ∧
    (s.core 0).bankq = [⟨.acq 5 ⟨65, 0, 0⟩, 0⟩] ++ ⟨.acq 0 ⟨1, 0, 0⟩, 1⟩ :: [] ∧
    (queued (.flight 0 0 ⟨0, 0, 2⟩)).asideReady 0 ⟨0, 0, 2⟩ = true ∧
    (queued (.flight 0 0 ⟨0, 0, 65⟩)).asideReady 0 ⟨0, 0, 65⟩ = false := by decide +kernel
/-- Strand 1's record is asked for by strand 2. -/
def granting : State := loadable.setCore 0 { loadable.core 0 with bankq := [⟨.resume 1 2 true, 0⟩] }
theorem witness_grant : granting.requestReady ⟨.resume 1 2 true, 0⟩ = true ∧
    ∃ bs, granting.regPartRead 0 ⟨none, 0x1000, 0x1000 + regPart, none⟩ 0 fixedSize = some bs ∧ granting.recordFits 0 1 bs = true ∧
      granting.resumeGrantable 2 bs = true ∧ recCopies bs = [] ∧ recPorts bs = [] ∧ NoErrors granting 0 := by
  have h : granting.recordFits 0 1 (memRead granting.mem 0x1000 fixedSize) = true := by
    simp only [State.recordFits, State.recordOk, recIsCkpt, recHold, recTile, recTag, recExt, recKept, recCsr, readEntries, recZero_eq, recN_memRead, State.entriesDecode]
    decide +kernel
  have g : granting.resumeGrantable 2 (memRead granting.mem 0x1000 fixedSize) = true := by
    simp only [State.resumeGrantable, State.freshNames, recHold, recPages, recClaim, recTile, recN_memRead]; decide +kernel
  refine ⟨?_, memRead granting.mem 0x1000 fixedSize, rfl, h, g, ?_, ?_, rfl, by decide +kernel, by decide +kernel⟩
  · show (!(granting.strand 1).counted && !(granting.strand 2).counted && (!granting.recordFits 0 1 (memRead granting.mem 0x1000 fixedSize) ||
      granting.resumeGrantable 2 (memRead granting.mem 0x1000 fixedSize))) = true
    rw [h, g]; rfl
  · simp only [recCopies, recN_memRead]; decide +kernel
  · simp only [recPorts, recN_memRead]; decide +kernel
theorem witness_stops : (onMe fun t => { t with haltReq := true }).preemptDeferred 0 = false ∧ (pending id).me.wait.deferred = false ∧
    (pending id).haltedDie 0 = false ∧ (pending id).preemptDeferred 0 = true := by decide +kernel
/-- Partition 0's cores are to pass to partition 2, and strand 0 runs on them. -/
def outgoing : State := { pooled with regs := { pooled.regs with swap := some (0, 2, 0x1000000, 1) } }
theorem witness_outgoing : outgoing.swapping 0 = true ∧ outgoing.preemptDeferred 0 = false ∧ outgoing.freeSlotOf (outgoing.swapPart 0) = some 0 ∧
    outgoing.isLive 0 = true ∧ base.swapping 0 = false ∧ (base.part 0).saveN = 0 := by decide +kernel

/-- The example of R93. -/
theorem test_hbm_place : hbmPlace 0x12345678 = ⟨0, 31, 0xC2278⟩ := by decide

/-! ### Hypotheses of invariants, division, waits and groups -/

theorem base_strands : base.strands = [(0, base.me)] ∧ base.cores = [] ∧ base.parts = [(0, base.part 0)] ∧ (base.part 0).stash = [] := by
  refine ⟨?_, ?_, ?_, ?_⟩ <;> decide +kernel
theorem base_strand (k : Nat) : base.strand k = if k = 0 then base.me else Strand.reset := by
  unfold State.strand; rw [base_strands.1]; simp [Tbl.get, eq_comm]
theorem base_core (c : Nat) : base.core c = Core.reset := by unfold State.core; rw [base_strands.2.1]; rfl
theorem base_stash (p : Nat) : (base.part p).stash = [] := by
  unfold State.part; rw [base_strands.2.2.1]
  by_cases h : p = 0
  · subst h; exact base_strands.2.2.2
  · simp [Tbl.get, Ne.symm h]; rfl
theorem witness_invariants : MemOk base ∧ BlocksApart base ∧ HoldsOk base ∧ ReadAhead base ∧ PowerOk base ∧ 640 ≤ base.budgetNow := by
  have names (c : Nat) : tileNames base c = [] := by
    unfold tileNames
    simp only [List.flatten_eq_nil_iff, List.mem_map]
    rintro _ ⟨k, -, rfl⟩
    rw [base_strand]; split <;> decide +kernel
  have me : base.me.blocks = [] ∧ base.me.gw ≤ 64 ∧ base.me.hold = Hold.zero := by decide +kernel
  refine ⟨by unfold MemOk; decide +kernel, ⟨fun k => ?_, fun p e h => ?_⟩, ⟨fun k _ => ?_, fun p e h => ?_, fun c => ⟨?_, ?_, ?_, ?_⟩⟩,
    ⟨fun k => ?_, fun p e h => ?_, fun c n q h => ?_⟩, ⟨by decide +kernel, by decide +kernel, by decide +kernel, fun d => ?_⟩, by decide +kernel⟩
  · rw [base_strand]; split
    · rw [me.1]; exact List.nodup_nil
    · decide
  · simp [base_stash] at h
  · rw [base_strand]; split
    · exact me.2.2
    · decide
  · simp [base_stash] at h
  · rw [names]; exact List.nodup_nil
  · simp [names]
  · intro n; rw [names, base_core]
    simp only [List.not_mem_nil, iff_false, Bool.not_eq_true]
    rfl
  · rw [base_core]; simp [Core.reset]
  · rw [base_strand]; split
    · exact me.2.1
    · decide
  · simp [base_stash] at h
  · rw [base_core] at h; cases h
  · have : base.lentBy d = 0 := by unfold State.lentBy; rfl
    omega
theorem witness_division : (0x8000000000000000 : Word) = BitVec.intMin 64 ∧ (BitVec.allOnes 64 : Word) ≠ 0 ∧
    BitVec.truncate 32 (0x180000000 : Word) = BitVec.intMin 32 ∧ BitVec.truncate 32 (BitVec.allOnes 64 : Word) = BitVec.allOnes 32 ∧
    BitVec.truncate 32 (0x100000000 : Word) = (0 : BitVec 32) ∧ BitVec.truncate 32 (7 : Word) ≠ (0 : BitVec 32) := by decide
/-- -7 / 2 and its remainder are -3 and -1, of all 64 bits and of the low 32. -/
theorem test_division : after (.rv64iArith (.reg .div 1 2 3)) (withX [(2, -7), (3, 2)]) (fun t => t.me.getX 1 == -3) = true ∧
    after (.rv64iArith (.reg .remw 1 2 3)) (withX [(2, 0xFFFFFFF9), (3, 2)]) (fun t => t.me.getX 1 == -1) = true := by decide
/-- A FENCE of a reserved fm and empty sets acts as FENCE RW,RW. -/
theorem test_fence_fm : after (.fence 7 0 0) (onCore fun c => { c with wtq := [drained] }) (fun t => (t.core 0).wtq == []) = true ∧
    after (.fence 0 0 1) (onCore fun c => { c with wtq := [drained] }) (fun t => (t.core 0).wtq == [drained]) = true := by decide +kernel
/-- Strand 0 waits to give up the page that a copy still writes, or to end. -/
def giving (w : Wait) : State := landing.setMe { landing.me with wait := w }
theorem witness_waits : (giving (.rel ⟨0, 0, 1⟩)).pagesBusy 0 ((giving (.rel ⟨0, 0, 1⟩)).me.relPages ⟨0, 0, 1⟩) ∧
    (giving .ending).pagesBusy 0 (giving .ending).me.pages ∧ (giving .ending).me.wait = .ending ∧
    (onMe fun t => { (held t) with wait := .ending }).pagesBusy 0 [5] = false ∧
    (base.setDie 0 { base.die 0 with power := 3 }).haltedDie 0 = true := by decide +kernel
theorem test_ending : after (.relComplete 0) (inFlight fun t => { (held t) with wait := .ending }) (fun t => t.me.hold == Hold.zero) = true := by decide +kernel
/-- Strand 0 outside a flight, in a flight without a group table, naming a group that is not used, and of a tread that is no member. -/
theorem witness_groups : base.myFlight? = none ∧ (inFlight id).myFlight? = some flight ∧ flight.grptab ≠ 0 ∧ (flight.group? 1).isNone = true ∧
    ({ inFlight id with flights := [{ flight with grptab := 0 }] } : State).myFlight? = some { flight with grptab := 0 } ∧
    (inFlight fun t => { t with tread := 7 }).me.tread ∉ ([0, 1] : List Nat) ∧ (inFlight id).me.kind = .tread ∧
    (flight.group? 0).map Group.members = some [0, 1] := by decide +kernel
theorem test_group_codes : [(base, (3 : BitVec 8), 0x303), (inFlight id, 1, 1), (inFlight (fun t => { t with tread := 7 }), 0, 0x100)].all (fun r =>
    after (.gbar r.2.1) r.1 (fun t => t.me.csr.scause == 58 && t.me.csr.stval == w64 r.2.2)) = true := by decide +kernel
/-- A passed `gbar` clears its strand's arrival bit. -/
theorem test_gbar_clears : after (.barrierWaitEnd 0) (inFlight fun t => (t.setGroupBit ⟨0, true, 4⟩) |> fun t => { t with wait := .gbar 0 4 })
    (fun t => !(t.me.groupBit 0).pv) = true := by decide +kernel

/-! ### Hypotheses of launches and frame records -/

/-- A flight's record of one tread, at 0x1000, with or without gallery pages. -/
def launchable (gpp : Nat) : State :=
  { withX [(2, 0x1000)] with mem := memWrite base.mem 0x1000 (leBytes 8 0x400 ++ leBytes 8 9 ++ leBytes 8 0 ++ leBytes 8 0 ++ leBytes 8 0x2000 ++
      (List.replicate 8 (leBytes 4 1)).flatten ++ leBytes 8 1 ++ leBytes 2 1 ++ [0xE4, 0, 0, 1, 0, 0] ++ leBytes 2 0 ++ leBytes 2 gpp) }
theorem witness_launch_accepted : okE ((launchable 0).validate 0 0 0x1000 none).2 (fun f => f.placed && f.gang == 1) = true ∧
    okE ((launchable 4).validate 0 0 0x1000 none).2 (fun f => !f.placed) = true ∧ (launchable 0).flightCount 0 < 4096 := by decide +kernel
theorem test_launch_accepted : after (.flLaunch 1 2) (launchable 0) (fun t => t.me.getX 1 == 0 && t.flights.length == 1 && t.nextId == 2) = true := by
  decide +kernel
/-- A frame with one entry, saved to the loft and to memory, under x2 = the operands and x3 = the place. -/
def oneFrame (w : Word) : State :=
  let s := withX [(2, w), (3, 0x4000)]
  s.setMe { s.me with frame := ⟨true, [⟨0x3F, 0x44, 1, 2, 3, 4, .u, false, false⟩], 0x40, 3⟩, csr := { s.me.csr with svcp := 0x45 } }
theorem witness_frame_save : ctxOperand 0x60 0x4000 = none ∧ ctxOperand 0x40 0x4000 = none ∧ (oneFrame 0x60).me.frame.entries.length ≤ 40 ∧
    ((oneFrame 0x60).core 0).loftImg = none ∧ (oneFrame 0x60).me.mode ≠ .u := by decide +kernel
theorem test_frame_record : (oneFrame 0x40).me.frameRecord.take 0x70 = [1, 0xB9, 0, 0, 1, 0, 0, 0, 0, 4, 0, 0, 0, 0, 0, 0] ++ leBytes 8 0x40 ++ leBytes 8 3 ++
      leBytes 8 0x45 ++ List.replicate 24 0 ++ leBytes 8 0x3F ++ leBytes 8 0x44 ++ leBytes 8 1 ++ leBytes 8 2 ++ leBytes 8 3 ++ leBytes 8 4 := by decide +kernel
/-- The record that it writes, and one of another number, read from memory. -/
def frameMem (magic : Nat) : State :=
  { withX [(2, 0x40), (3, 0x4000)] with mem := memWrite base.mem 0x4000 (leBytes 4 magic ++ leBytes 4 0 ++ leBytes 8 isaver.toNat ++ leBytes 8 0x40) }
theorem witness_frame_load : ∀ magic ∈ [frameMagic, 0], ∃ bs, (frameMem magic).regPartRead 0 ⟨none, 0x4000, 0x4000 + regPart, none⟩ 0 0x1000 = some bs ∧
    ((frameMem magic).frameOk bs = true ↔ magic = frameMagic) := by
  intro magic h
  refine ⟨memRead (frameMem magic).mem 0x4000 0x1000, ?_, ?_⟩
  · have b : (frameMem magic).bad = [] := rfl
    simp [State.regPartRead, State.physRead, State.badIn, b]
  · simp only [State.frameOk, readEntries, recZero_eq, recN_memRead, State.entriesDecode]; fin_cases h <;> decide +kernel

/-! ### Hypotheses of numbers and of the traps of the vector side -/

/-- Formats with and without infinity and NaN, finite values, and lists of each kind. -/
theorem witness_formats : (∀ f ∈ [Fmt.f32, .e4m3, .e2m1, ⟨0, 1, 0, 0, .ieee, false⟩], 1 ≤ f.ew ∧ f.ew ≤ 8 ∧ f.mw ≤ 23 ∧ f.s ≤ 1) ∧
    Fmt.f32.spec = .ieee ∧ Fmt.e4m3.spec = .nanTop ∧ Fmt.e2m1.spec = .finite ∧ (⟨0, 1, 0, 0, .ieee, false⟩ : Fmt).s = 0 ∧
    Fmt.f32.decode f1 = .real 8388608 1 (-23) ∧ Fmt.f32.decode 0 = .zero false ∧ Fmt.f32.decode 0xFF800000 = .inf true ∧
    Fmt.f32.decode 0x7FC00000 = .nan ∧ Fmt.f32.decode 1 = .real 1 1 (-149) ∧
    (2 : ℤ) ≠ 0 ∧ (3 : ℕ) ≠ 0 ∧ (0 : ℤ) < 2 ∧ (-2 : ℤ) < 0 := by decide
theorem witness_exact : Machine.Num.Finite (.zero true) ∧ Machine.Num.Finite (.real 3 1 1) ∧ Machine.Num.rat (.real 3 1 1) ≠ 0 ∧
    Machine.Num.rat (.zero true) = 0 ∧ |Machine.Num.rat (.zero true)| ≤ |Machine.Num.rat (.real 3 1 1)| := by
  refine ⟨.inl ⟨_, rfl⟩, .inr ⟨_, _, _, rfl, by decide, by decide⟩, ?_, rfl, ?_⟩ <;> simp [Machine.Num.rat]
/-- The example of R55: amax 5.0 gives the scale 0x7F, and 5.0 the code 6 with NX. -/
theorem test_pack : packBlock .e2m1 .rne [.real 5 1 0, .real 1 1 0] = (0x7F, [(6, 1), (2, 0)], 0) := by decide +kernel
/-- The examples of R52 and R195. -/
theorem test_numbers : toInt 8 true .rne (.real 601 2 0) = (127, flagNV) ∧ toInt 8 true .rne (.real 7 2 0) = (4, flagNX) ∧
    rounded .f32 ⟨.rne, false, false, false⟩ (numRece (Fmt.f32.decode 0x40400000)) = (0x3EAB0000, 0) := by decide +kernel
/-- The example of R49: 1 + 2⁻²³ in one rounding, of bf16 products. -/
theorem test_update_float : let s := mdata 0 [0x39803980 + 0 * 2 ^ 64, 0x3980]
    updElem s.me.csr.fd .bf16 .bf16 ⟨.rne, false, false, false⟩ ⟨#[0x3980] ++ Array.replicate 63 0 ++ #[0x3980], none⟩
      ⟨#[0x3980] ++ Array.replicate 63 0 ++ #[0x3980], none⟩ false 0 f1 0 0 = (0x3F800001, 0) := by decide +kernel

/-- A divisor of 0 with DZE set: element 0 raises the event. -/
def dividing : State := let s := vdata [0, f1, 0]; s.setMe { s.me with csr := { s.me.csr with fx := 0x200 } }
theorem witness_event : FromStart dividing ∧ VecOk dividing [0, 1, 2] [.f32] true ∧ Instr.wf (.vdiv ⟨nh, .f32, 0, 1, 2⟩) = true ∧
    eventCause (enabledFlags dividing.me.csr.fx) (rounded .f32 dividing.arithm (exact2 .rne .div (Fmt.f32.decode f1) (.zero false))).2 = some 50 := by
  unfold FromStart VecOk; decide +kernel
theorem test_event : after (.vdiv ⟨nh, .f32, 0, 1, 2⟩) dividing (fun t => t.me.csr.scause == 50 && t.me.csr.stval == 0 && t.me.csr.fx == 0x200) = true ∧
    after (.vrece ⟨nh, .f32, 0, 2⟩) dividing (fun t => t.me.csr.scause == 50 && e0 t 0 == 0) = true := by decide +kernel
/-- A sum of infinities of both signs with NVE set. -/
theorem test_event_reduce : after (.vredsum ⟨nh, .f32, 0, 1⟩) (let s := vdata [0, 0x7F800000 + 0xFF800000 * 2 ^ 32]
    s.setMe { s.me with csr := { s.me.csr with fx := 0x100 } }) (fun t => t.me.csr.scause == 49 && t.me.csr.stval == 0 && e0 t 0 == 0) = true := by
  decide +kernel
/-- A product of infinity and zero with NVE set traps at its tile element. -/
theorem witness_event_update : (let s := (mdata 0 [0x7F800000, 0]).setMe { (mdata 0 []).me with csr := { (mdata 0 []).me.csr with fx := 0x100 } }
      isOk (s.mopChecks (.mop nh 0 .f32 .f32 0 0 0 1 0) .f32 .f32 0 [0, 1] [(.f32, 0), (.f32, 1)] []) &&
      (eventCause (enabledFlags s.me.csr.fx) (updElem s.me.csr.fd .f32 .f32 s.arithm (s.regPanels .f32 0 0 1) (s.regPanels .f32 1 0 1) false 0 0 0 0).2 == some 49)) = true ∧
    FromUpdate (mdata 0 [0x7F800000, 0]) := by unfold FromUpdate; decide +kernel
/-- Checks that fail: a register not held, an invalid descriptor, a reserved rm, a row too long; of the packing forms a row that is no
multiple of 32, of `vreshape` a length that does not divide. -/
def queuedWith (f : Strand → Strand) : State := onMe fun t => f { (held t) with queue := [⟨0x3F, 0x44, 0, 0, 0, 0, .s, false, false⟩] }
theorem test_checks : [(Instr.vadd ⟨nh, .f32, 0, 9, 10⟩, queuedWith id, (26, (9 : Word))),
      (.vcvt ⟨nh, .f32, .gf 2, 0, 1⟩, queuedWith id, (48, 2)),
      (.vadd ⟨nh, .f32, 0, 1, 2⟩, queuedWith (fun t => { t with csr := { t.csr with shape := shapeReset ||| 0xE0000000 } }), (2, 0x3F)),
      (.vadd ⟨nh, .f32, 0, 1, 2⟩, queuedWith (fun t => { t with csr := { t.csr with shape := shapeOf .f32 129 } }), (52, w64 ElemTy.f32.code)),
      (.vmxpack ⟨nh, .mxf8, .f32, 0, 1⟩ 2, queuedWith (fun t => { t with csr := { t.csr with shape := shapeOf .f32 31 } }), (52, 31)),
      (.vreshape ⟨nh, .i32, 0, 1, 6⟩, queuedWith id, (52, 0))].all (fun r => after r.1 r.2.1 (fun t =>
    t.me.csr.scause == w64 r.2.2.1 && t.me.csr.stval == r.2.2.2 && t.me.frame.entries.length == 1)) = true := by decide +kernel

/-! ### Hypotheses of the replay log -/

/-- Two table levels at 0x40000: 32 GiB leaves for U mode, of HBM at address 0, of the scratchpads at 2^35 and of the device
registers at 2^36. -/
def tables (m : List Host.Cell) : List Host.Cell :=
  let leaf (pa : Nat) : List Byte := leBytes 8 (pa * 2 ^ 8 + 0xDF)
  memWrite (memWrite m 0x40000 (leBytes 8 (0x44000 * 2 ^ 8 + 1))) 0x44000 (leaf 0 ++ leaf padBase ++ leaf deviceBase)
/-- A log of entries (value, type, count) of strand 0, at 0x8000; a value at 0x1000. -/
def ring (es : List (Nat × Nat × Nat)) (m : List Host.Cell) : List Host.Cell :=
  memWrite (memWrite m 0x8000 ((es.map fun e => leBytes 8 e.1 ++ [0, 0, 0, BitVec.ofNat 8 e.2.1] ++ leBytes 4 e.2.2).flatten)) 0x1000 [3]
/-- Strand 0 in U mode, of a flight in record or replay mode, at place `at` of its partition's log. -/
def logged (mode n : Nat) (es : List (Nat × Nat × Nat)) (f : Strand → Strand := id) : State :=
  let s := inFlight fun t => f { t with mode := .u, csr := { t.csr with vmroot := 0x800000000010, scounteren := 7 } }
  { s with mem := ring es (tables s.mem), flights := [{ flight with rlMode := mode }] }.setPart 0
    { s.part 0 with rlbase := 0x8000, rlptr := w64 n, rlctl := w64 mode }
def logOf (t : State) : Nat × Nat × Nat := ((t.part 0).rlptr.toNat, t.me.rlCount, (t.part 0).rlstat.toNat)
/-- A read of `cycle` is recorded as type 3, at the last place the log stops; a full log records nothing. -/
theorem test_log_record : after (.csrAccess .rs (.reg 0) 1 0xC01) (logged 1 0 []) (fun t => logOf t == (1, 1, 0) &&
      memRead t.mem 0x8000 16 == leBytes 8 (t.me.getX 1).toNat ++ [0, 0, 0, 3, 0, 0, 0, 0]) = true ∧
    after (.kpoll 1 0xFF) (logged 1 127 []) (fun t => logOf t == (128, 1, 1) && (t.part 0).rlctl == 0) = true ∧
    after (.kpoll 1 0xFF) (logged 1 128 []) (fun t => logOf t == (128, 0, 1) && t.flights.all fun f => f.rlMode == 0) = true := by decide +kernel
/-- Replay of a read: the value of the entry that is due, waiting for an earlier one, another event, and the log's end. -/
theorem test_log_replay : after (.csrAccess .rs (.reg 0) 1 0xC01) (logged 2 0 [(77, 3, 0)]) (fun t => t.me.getX 1 == 77 && logOf t == (1, 1, 0)) = true ∧
    after (.kpoll 1 0xFF) (logged 2 0 [(0, 1, 5), (9, 5, 0)]) (fun t => t.me.pc == 0 && logOf t == (0, 0, 0)) = true ∧
    after (.kpoll 1 0xFF) (logged 2 0 [(9, 3, 0)]) (fun t => t.me.getX 1 == 0 && logOf t == (0, 0, 4)) = true ∧
    after (.kpoll 1 0xFF) (logged 2 0 []) (fun t => t.me.getX 1 == 0 && logOf t == (0, 0, 2)) = true := by decide +kernel
/-- An atomic gives its own result, which the log must hold. -/
def x2 (v : Word) : Strand → Strand := fun t => (t.setX 2 v).setX 3 5
theorem test_log_atomic : after (.amo .add h32 1 2 3) (logged 2 0 [(3, 2, 0)] (x2 0x1000)) (fun t => t.me.getX 1 == 3 && logOf t == (1, 1, 0) &&
      memByte t.mem 0x1000 == 8) = true ∧
    after (.lr h32 1 2) (logged 2 0 [(4, 2, 0)] (x2 0x1000)) (fun t => t.me.getX 1 == 3 && logOf t == (0, 0, 4)) = true ∧
    after (.sc h32 1 2 3) (logged 1 0 [] (x2 0x1000)) (fun t => t.me.getX 1 == 1 && memRead t.mem 0x8000 12 == [1, 0, 0, 0, 0, 0, 0, 0, 0, 0, 0, 2]) = true ∧
    amoOk (logged 1 0 [] (x2 0x1000)) .amo 0x1000 4 = true ∧ amoOk (logged 2 0 [(3, 2, 0)] (x2 0x1000)) .sc 0x1000 4 = true := by decide +kernel
/-- `acq.try` gives the logged status, and waits for a logged grant. -/
def asks : Strand → Strand := fun t => { (t.setX 2 1) with claim := ⟨4, 2, 1⟩ }
theorem test_log_acq : after (.acqTry 1 2) (logged 2 0 [(2, 4, 0)] asks) (fun t => t.me.getX 1 == 2 && t.me.blocks == [] && logOf t == (1, 1, 0)) = true ∧
    after (.acqTry 1 2) (logged 2 0 [(0, 4, 0)] asks) (fun t => t.me.getX 1 == 0 && t.me.blocks == [0] && logOf t == (1, 1, 0)) = true ∧
    (let s := logged 2 0 [(0, 4, 0)] asks
     let s := s.setStrand 1 { Strand.reset with status := .running, blocks := List.range 64, claim := ⟨64, 0, 0⟩ }
     after (.acqTry 1 2) s (fun t => t.me.pc == 0 && logOf t == (0, 0, 0)) && s.me.acqCheck 1 == none) = true := by decide +kernel
/-- `msend.try` to a slot that strand 0 names at 2^35; TIMENS at 2^36 + 2^24. -/
def sends (mode n : Nat) (es : List (Nat × Nat × Nat)) (full : Nat) : State :=
  let s := logged mode n es fun t => (((held t).setX 6 (w64 (2 ^ 35 + 5 * 0x4000))).setX 7 0x400).setX 2 (w64 (2 ^ 36 + 2 ^ 24))
  s.setCore 0 { s.core 0 with sqReq := List.replicate full ⟨0, 0, 0, .req, 0, 0, 0, 0, [], false, 0, none, 0, false⟩ }
theorem test_log_send : after (.msendTry msg 1) (sends 2 0 [(0, 5, 0)] 0) (fun t => t.me.getX 1 == 0 && (t.core 0).sqReq.length == 1 && logOf t == (1, 1, 0)) = true ∧
    after (.msendTry msg 1) (sends 2 0 [(1, 5, 0)] 0) (fun t => t.me.getX 1 == 1 && (t.core 0).sqReq == [] && logOf t == (1, 1, 0)) = true ∧
    after (.msendTry msg 1) (sends 2 0 [(0, 5, 0)] 16) (fun t => logOf t == (0, 0, 0) && t.me.csr.instret == 0) = true ∧
    after (.msendTry msg 1) (sends 1 0 [] 16) (fun t => t.me.getX 1 == 1 && logOf t == (1, 1, 0)) = true ∧
    okE ((sends 2 0 [] 0).sendCheck msg) (fun _ => (sends 2 0 [] 0).noStreams) = true := by decide +kernel
theorem test_log_timens : after (.load .ld 1 2 0) (sends 2 0 [(123, 3, 0)] 0) (fun t => t.me.getX 1 == 123 && logOf t == (1, 1, 0)) = true ∧
    after (.lda .d .core .glob 1 2) (sends 1 0 [] 0) (fun t => t.me.getX 1 == 0 && logOf t == (1, 1, 0)) = true := by decide +kernel
/-- The four ways in which the log meets the next event of type 5 of strand 0. -/
theorem witness_log_meets : LogMeets (logged 2 0 [(9, 5, 0)]) 0 5 (.due 9) ∧ LogMeets (logged 2 0 [(0, 1, 5), (9, 5, 0)]) 0 5 .later ∧
    LogMeets (logged 2 0 [(9, 3, 0)]) 0 5 .other ∧ LogMeets (logged 2 0 []) 0 5 .ended ∧ (logged 2 0 []).logMode 0 = 2 ∧
    (logged 1 0 []).bad = [] ∧ regionOf (ringBase 0x8000 + 16 * 0) = .hbm ∧ ringSize 0x8000 = 128 := by
  simp only [LogMeets]
  refine ⟨by decide +kernel, ⟨by decide +kernel, by decide +kernel, 1, by decide +kernel⟩,
    ⟨by decide +kernel, .inl (by decide +kernel)⟩, by decide +kernel, by decide +kernel, by decide +kernel, by decide +kernel, by decide +kernel⟩
/-- A handler's start is entry type 1, of the message's value, and is recorded, replayed or held back. -/
def waitingLog (mode : Nat) (es : List (Nat × Nat × Nat)) : State :=
  let s := waiting
  { s with mem := ring es s.mem, flights := [{ flight with rlMode := mode }] }.setPart 0 { s.part 0 with rlbase := 0x8000 }
theorem test_log_start : after (.handlerStart 0 1) (waitingLog 1 []) (fun t => (t.strand 1).status == .running && (t.part 0).rlptr == 1 &&
      memRead t.mem 0x8000 16 == leBytes 8 arrived.startValue.toNat ++ [0, 0, 1, 1, 0, 0, 0, 0]) = true ∧
    (let s := waitingLog 2 []
     let s := { s with mem := memWrite s.mem 0x8000 (leBytes 8 arrived.startValue.toNat ++ [0, 0, 1, 1, 0, 0, 0, 0]) }
     after (.handlerStart 0 1) s (fun t => (t.strand 1).status == .running && (t.strand 1).rlCount == 1)) = true ∧
    after (.handlerStart 0 1) (waitingLog 2 [(5, 1, 0)]) (fun t => (t.part 0).rlptr == 0 && (t.core 0).vest.length == 1) = true := by decide +kernel

/-! ### Hypotheses of tiles in memory, discards, commands and the landing -/

/-- Strand 0's tile 0, a Lazy tile 2 and a Bound tile 3 of a pre-empted strand, with x6 the place of a record. -/
def tiled : State :=
  let s := xm [(6, 0x1000)] (mdata 5 [])
  s.setCore 0 ((s.core 0).setTile 2 ⟨6, 0, .lazy 1 0⟩ |>.setTile 3 ⟨7, 0, .bound 1 1⟩)
theorem witness_msave_memory : tiled.capMode.1 ≠ .u ∧ tiled.msiUpd = 0 ∧ tiled.tilePlace true 0x1000 = .ok () ∧ tiled.bad = [] ∧
    (tiled.core 0).wtq = [] ∧ tiled.me.tileOf 0 = some 0 ∧ tiled.myCore.tileBad 0 = false ∧ tiled.myCore.tileBad 2 = false ∧
    (tiled.myCore.tile 0).st = .held ∧ (tiled.myCore.tile 2).st = .lazy 1 0 ∧ (tiled.myCore.tile 3).st = .bound 1 1 ∧
    (tiled.myCore.tile 4).st = .free ∧ (onMe fun t => { t with mode := .u }).capMode.1 = .u := by simp only [← isOk_iff]; decide +kernel
theorem test_msave_p_lazy : after (.msaveP 0 false 2 6) tiled (fun t => (t.myCore.tile 2).st == .free) = true ∧
    after (.msaveP 0 false 3 6) tiled (fun t => (t.myCore.tile 3).st == .held) = true := by decide +kernel

/-- What becomes of a message: to a core of a die that is fenced, without a page or handler for it, behind a full vestibule, in a
partition that is being swapped out. -/
def postedTo (dest : Nat) : State := posted.setCore 0 { posted.core 0 with sqReq := [{ arrived with dest := dest }] }
def postedFull : State := posted.setCore 0 { posted.core 0 with vest := List.replicate 48 arrived }
def postedSwap : State := { posted with regs := { posted.regs with swap := some (0, 1, 0, 1) } }
def postedNoPage : State := posted.setMe { posted.me with pages := [] }
theorem witness_discard : ((postedTo 144).setDie 1 { base.die 1 with fenced := true }).dieLive 1 = false ∧ (postedTo 1).hasHandlers 0 1 = false ∧
    postedNoPage.slotAdmitted arrived = false ∧ (postedFull.core 0).vestRoom .req = false ∧ postedSwap.swapOf 0 = true := by decide +kernel
theorem test_discard : after (.messageDelivery 0 .req 0) ((postedTo 144).setDie 1 { base.die 1 with fenced := true })
      (fun t => (t.core 0).sqReq == [] && (t.core 144).drops == 0) = true ∧
    after (.messageDelivery 0 .req 0) (postedTo 1) (fun t => (t.core 0).sqReq == [] && (t.core 1).drops == 1) = true ∧
    after (.messageDelivery 0 .req 0) postedNoPage (fun t => (t.core 0).sqReq == [] && (t.core 0).drops == 1) = true ∧
    after (.messageDelivery 0 .req 0) postedFull (fun t => (t.core 0).sqReq.length == 1 && (t.core 0).drops == 0) = true ∧
    after (.messageDelivery 0 .req 0) postedSwap (fun t => (t.core 0).sqReq.length == 1 && (t.core 0).drops == 0) = true := by decide +kernel

/-- Slot 2 has an opcode that no command has. -/
def unknown : State := { fetching with mem := memWrite fetching.mem (hostBase + 0x1000 + 256) (leBytes 4 2 ++ leBytes 2 0x99) }
theorem test_unknown : slotOp (unknown.readSlot 0 2) ∉ knownOps ∧ (unknown.queue 0).cmds = [] ∧
    after (.slotFetch 0) unknown (fun t => memRead t.mem (hostBase + 0x2020) 16 == leBytes 4 2 ++ leBytes 4 17 ++ leBytes 8 0x99) = true := by decide +kernel
/-- A LAUNCH of the record of one tread. -/
def launched : State := cmd 1 (launch [4, 0, 0, 0, 0, 0, 0, 0] [] |>.set 1 0x10 |>.set 0 0) (launchable 0)
theorem test_launch : after (.launch 0 1) launched (fun t => answered t 0 0 && t.flights.length == 1 && t.nextId == 2) = true := by decide +kernel
/-- PART_DESTROY of a partition whose flight runs on strand 0. -/
def busy : State :=
  let s := inFlight id
  { s with flights := [{ flight with part := 1 }] }.setPart 1 { base.part 1 with live := true, halls := 3, pools := true }
theorem test_destroy_busy : after (.partDestroy 0 1) (cmd 0x11 [1] busy) (fun t => t.flights == [] && !(t.part 1).live && t.me.hold == Hold.zero &&
    (t.me.status == .free || t.me.status == .dormant)) = true := by decide +kernel
/-- The loft of a core of partition 1 holds the image of partition 3. -/
def foreign : State := swapping.setCore 5 { base.core 5 with loftImg := some 3 }
theorem test_swap_foreign : after (.swap 0 1) (cmd 0x13 (swapCmd 1 2) foreign) (fun t => answered t 21 3) = true := by decide +kernel

/-- No die lives for flight 0: its lowest incomplete gang names the detail; with every gang complete the detail is free. -/
def lost (todo : List (Nat × Nat)) : State × Flight :=
  (base.setDie 0 { base.die 0 with fenced := true }, { flight with ranges := [⟨0, todo, [], [], 0, 0, 0, []⟩], gang := 2 })
theorem test_lost : ((lost [(3, 5)]).1.reissue (lost [(3, 5)]).2 0).fatal = some 6 ∧ ((lost []).1.reissue (lost []).2 9).fatal.isSome = true ∧
    ((lost [(3, 5)]).1.reissue (lost [(3, 5)]).2 0).ranges = [] := by decide +kernel
/-- A gang of 300 with two scratchpad pages each: the pages are asked for on core 0, which has 34. -/
def placingPages : State :=
  let s : State := { placingBig with flights := placingBig.flights.map fun f => { f with ext := [300, 1, 1, 1], spp := 40, cores := [] } }
  s.setCore 0 { base.core 0 with aside := [(9, ⟨0, 0, 30⟩)] }
theorem test_page_request : placingPages.padReady (placingPages.flights.headD flight) 0 = false ∧
    ((placingPages.askPages (placingPages.flights.headD flight) 0 [] 300).core 0).bankq.map (fun w => w.req) = [.flight 0 0 ⟨0, 0, 40⟩] := by decide +kernel
/-- A request of the landing for strand 0 waits on core 0: another there changes nothing, one on core 1 withdraws it. -/
def asked0 : State := saved0.setCore 0 { saved0.core 0 with bankq := [⟨.resume 0 5 false, 0⟩] }
theorem test_resume_again : asked0.resumeAsked 0 = true ∧
    after (.savedTreadResume 0 0 6) asked0 (fun t => ((t.core 0).bankq.map fun w => w.req) == [.resume 0 5 false]) = true ∧
    after (.savedTreadResume 0 0 18) asked0 (fun t => (t.core 0).bankq == [] && ((t.core 1).bankq.map fun w => w.req) == [.resume 0 18 false]) = true := by decide +kernel
/-- A landing's request whose wait has ended is withdrawn, and a halt that is asked as well happens. -/
def lapsed (halt : Bool) : State :=
  (onMe fun t => { t with preempt := true, haltReq := halt, saveAt := some ⟨none, 0, regPart, none⟩ }).setDie 0 { base.die 0 with saved := [0] }
theorem test_lapsed : (lapsed true).me.wait.counts = false ∧ (lapsed true).preemptDeferred 0 = false ∧
    after (.preemption 0) (lapsed false) (fun t => !t.me.preempt && t.me.status == .running && (t.die 0).saved == []) = true ∧
    after (.preemption 0) (lapsed true) (fun t => t.me.status == .saved && (t.die 0).saved == [] &&
      t.me.saveAt == some ⟨none, base.regs.dbgslot, base.regs.dbgslot + regPart, none⟩) = true := by decide +kernel

/-! ### Values, waits, launches and blocks -/

/-- Strand 1 waits in `kwait` of token 1, and has what f gives. -/
def kwaiting (f : Strand → Strand) : State := base.setStrand 1 (f { base.strand 1 with status := .running, wait := .kwait 2 })
theorem witness_kwait_events : (kwaiting (tok 32 false)).haltedDie 1 = false ∧ ((kwaiting (tok 32 false)).strand 1).wait = .kwait 2 ∧ (2 : BitVec 8).getLsbD 1 = true ∧
    (((kwaiting (tok 32 false)).strand 1).k[(1 : Reg8)]).count ≠ 0 ∧ (∀ i : Reg8, ((kwaiting (tok 0 true)).strand 1).k[i].count = 0) ∧
    (((kwaiting (tok 0 true)).strand 1).k[(1 : Reg8)]).err = true ∧ (((kwaiting id).strand 1).k[(1 : Reg8)]).err = false := by decide +kernel
theorem test_kwait_event_error : after (.kwaitPass 1) (kwaiting (tok 0 true)) (fun t => t.cur == 0 && (t.strand 1).csr.scause == 29 &&
    (t.strand 1).csr.stval == 2 && !(t.strand 1).k[(1 : Reg8)].err && (t.strand 1).wait == .none) = true := by decide +kernel
/-- WINBASE at offset 0x60 of the device region. -/
theorem witness_store_device : stores base (deviceBase + 0x60) 8 (· == .device) = true ∧ loads base (deviceBase + 0x60) 8 = true ∧
    okE (({ base with regs := { base.regs with winbase := 7 } } : State).reach .read (deviceBase + 0x60) 8) (fun r =>
      okE (r.1.loadAt (deviceBase + 0x60) 8 r.2) fun v => v.2 == 7) = true := by decide +kernel
theorem test_store_device : after (.store .d 3 2 0) (withX [(2, w64 (deviceBase + 0x10020)), (3, 17)] |>.setQueue 0 q0) (fun t => (t.queue 0).notified == 17 && t.me.pc == 4) = true := by
  decide +kernel
/-- Four bytes at 0x1000, and a line of the L1 over them with other bytes. -/
def cached : State := { base with mem := memWrite base.mem 0x1000 [3, 0, 0, 0x80] }
def cachedL1 : State := cached.setCore 0 { cached.core 0 with l1 := [⟨0x1000 / 128, none, List.replicate 128 9⟩] }
def loaded (s : State) (va n : Nat) (v : Nat) : Bool := okE (s.reach .read va n) fun r => okE (r.1.loadAt va n r.2) fun q => q.2 == v
theorem witness_load_values : loaded cached 0x1000 4 0x80000003 = true ∧ (∀ l ∈ (cached.core 0).l1, l.line = 32 → l.part ≠ none) ∧
    (cached.core 0).wtq = [] ∧ loaded cachedL1 0x1000 4 0x09090909 = true ∧ cachedL1.l1Find 0 32 none = some (List.replicate 128 9) ∧
    loaded (onMe held) (padPage 0 5) 8 0 = true ∧ regionOf (padPage 0 5) ≠ .hbm ∧ (0x80000003 : Nat) < 2 ^ 32 := by decide +kernel
theorem test_load_lw : after (.load .lw 1 2 0) (cached.setMe (cached.me.setX 2 0x1000)) (fun t => t.me.getX 1 == 0xFFFFFFFF80000003) = true := by decide +kernel
theorem test_load_lwu : after (.load .lwu 1 2 0) (cached.setMe (cached.me.setX 2 0x1000)) (fun t => t.me.getX 1 == 0x80000003) = true := by decide +kernel
/-- Fields of `sstatus`, and the registers of the management core, read back as they were written. -/
theorem witness_csr_back : (0x106, (0xFFFFFFFF : Word)) ∈ plainCsrs ∧ (0x5D0, (0xE0000000000000FF : Word)) ∈ plainCsrs ∧ mgmt.cur = mgmtKey ∧
    (base.setMe { base.me with csr := base.me.csr.write 0x106 (BitVec.allOnes 64) }).csrValue 0x106 = some 0xFFFFFFFF := by decide +kernel
/-- `rel` of a page that a copy is yet to write waits. -/
theorem witness_rel_wait : let s := xm [(8, w64 0x10000)] landing
    Hold.resv (s.getX 8) = 0 ∧ (Hold.unpack (s.getX 8)).le s.me.hold = true ∧ Hold.unpack (s.getX 8) = ⟨0, 0, 1⟩ ∧ s.relBlockBound ⟨0, 0, 1⟩ = false ∧
    s.pagesBusy 0 (s.me.relPages ⟨0, 0, 1⟩) = true := by decide +kernel
theorem test_rel_wait : after (.rel 8) (xm [(8, w64 0x10000)] landing) (fun t => t.me.wait == .rel ⟨0, 0, 1⟩ && t.me.pages == [5] && t.me.pc == 0) = true := by
  decide +kernel
theorem witness_qctl : bit (0xF0002 : Word) 0 = false ∧ (base.setQueue 0 q0 |>.queue 0).en = true ∧ (base.queue 0).en = false ∧ bit (1 : Word) 0 = true ∧
    ({ base with regs := { base.regs with bootfail := true } } : State).regs.bootfail = true := by decide
theorem test_qctl : after (.registerWrite 0x10010 8 0xF0002) (base.setQueue 0 q0) (fun t => (t.queue 0).qctl == 2 && (t.queue 0).consumed == 1) = true ∧
    after (.registerWrite 0x10010 8 1) { base with regs := { base.regs with bootfail := true } } (fun t => !(t.queue 0).en) = true := by decide +kernel
/-- `launchable` with bytes of its record, or of another place, changed. -/
def launching (gpp : Nat) (l : List (Nat × List Byte)) : State :=
  { launchable gpp with mem := l.foldl (fun m p => memWrite m p.1 p.2) (launchable gpp).mem }
def refuses (s : State) (code detail : Nat) : Bool :=
  match (s.validate 0 0 0x1000 none).2 with | .error (c, d, some _) => c == code && d == detail | _ => false
/-- R288's checks: a field out of range, a claim that no core can take, no live die, a group of more members than
treads, images that cannot be read, and a record that cannot be. -/
theorem witness_launch_checked : refuses (launching 0 [(0x1000, [2])]) 2 0 = true ∧ refuses (launching 0 [(0x102C, [0, 0, 0, 0]), (0x1056, [16])]) 2 44 = true ∧
    refuses (launching 0 [(0x1048, leBytes 8 65)]) 2 72 = true ∧ refuses (launching 0 [(0x1050, [0, 1])]) 3 256 = true ∧
    refuses (launching 0 [(0x1010, leBytes 8 0x4000), (0x4008, [2])]) 4 0 = true ∧
    refuses (launching 1 [(0x1058, [1]), (0x1060, leBytes 8 (2 ^ 60)), (0x1068, leBytes 4 32)]) 1 96 = true ∧
    refuses (launching 1 [(0x1070, leBytes 8 (2 ^ 60)), (0x1078, leBytes 4 32)]) 1 112 = true ∧
    (({ launchable 0 with bad := [0x1000 / 32] } : State).landRead (landCtx 0 0) 0x1000 128).2 = none := by decide +kernel
/-- Rows i of words: a block of Λ and η (R258). -/
def rows (l : List (List Nat)) : Nat := l.foldr (fun r a => r.foldr (fun w b => w + 2 ^ 32 * b) 0 + 2 ^ 4096 * a) 0
/-- R264's input, and the one whose second pivot is singular, with their η. -/
def r264 (d11 d22 : Nat) (b : List Nat) : State :=
  xm [(6, 0x35800000)] (vdata [0, rows [[d11, f1, f1, b.getD 0 0], [f1, d22, f1, b.getD 1 0], [f1, f1, d22, b.getD 2 0]]])
theorem test_gbp_elim : after (.gbpElim 0 2 2 0 1 6) (r264 0x40800000 0x40400000 [f1, f2, 0x40400000]) (fun t =>
    e0 t 0 == 0x40600000 && elem (t.vget 0) 32 0 1 == 0xBE800000 && elem (t.vget 0) 32 0 2 == 0 && elem (t.vget 0) 32 1 1 == 0 && bit t.me.csr.fx 0) = true := by
  decide +kernel
theorem test_gbp_elim_singular : after (.gbpElim 0 1 1 0 2 6) gauss (fun t => t.me.csr.scause == 30 && t.me.csr.stval == 1) = true ∧
    after (.gbpElim 0 2 2 0 1 6) (r264 f2 f1 []) (fun t => t.me.csr.scause == 30 && t.me.csr.stval == 1) = true := by decide +kernel
/-- Pivots pass, and the second of a block is the first that does not; a difference that is NaN, and one that is not zero. -/
theorem witness_gbp_elim : let W (a b : Nat) := eliminated 3 (blockElem ((r264 a b []).vget 1) 3)
    let sc (a b : Nat) := (List.range 3).foldl (fun m q => maxMag m (gbpVal (blockElem ((r264 a b []).vget 1) 3 q q))) (.zero false)
    (∀ m, m < 2 → Num.lt false ((gbpVal 0x35800000).mul (sc 0x40800000 0x40400000)).1 (gbpVal (W 0x40800000 0x40400000 m (2 - m) (2 - m))) = true) ∧
    Num.lt false ((gbpVal 0x35800000).mul (sc f2 f1)).1 (gbpVal (W f2 f1 0 2 2)) = true ∧
    Num.lt false ((gbpVal 0x35800000).mul (sc f2 f1)).1 (gbpVal (W f2 f1 1 1 1)) = false := by decide +kernel
theorem test_gbp_resid_values : after (.gbpResid 0 0 8 0 1) (vdata [f1, 0x40400000]) (fun t => t.me.getX 8 == 0x40000000) = true ∧
    after (.gbpResid 0 0 8 0 1) (vdata [f1, 0x7FC00000]) (fun t => t.me.getX 8 == 0x7FC00000) = true := by decide +kernel
/-- Weight space of a blocked type: 4 panels of 64 bytes, then the scales of panel c from 256 + 2c (R228). -/
def weighted : State :=
  let s := mdata 5 [0, 0]
  s.setCore 0 ((s.core 0).setTile 0 ⟨0, BitVec.ofNat 262144 (0x38 + 2 ^ 520 * 0x40 + 2 ^ 2048 * 0x7F + 2 ^ 2056 * 0x80 + 2 ^ 2064 * 0x81), .held⟩)
theorem test_weight_panels : let q := weighted.weightPanels .mxf8 false 0
    isBlocked weighted.me.csr.fd .mxf8 = true ∧ weightStep weighted.me.csr.fd .mxf8 false = 288 ∧ q.1.code 0 0 = 0x38 ∧ q.1.code 1 1 = 0x40 ∧
    q.1.scales.any (fun a => a.toList == [0x7F, 0x80, 0x81, 0, 0, 0, 0, 0]) = true ∧ weighted.weightNum 256 1 = 0x7F := by decide +kernel
/-- An operation of core 0 that reads 0x1000 and writes 0x1800 of one plain page. -/
def engOp (k : CopyKind) (aux : List Nat) (b : BitVec 384) : CopyOp :=
  reducing.newOp k 1 b 0x1800 0x1000 [⟨0x1000, 0x1000, 8192, false, 0, false⟩] aux [] 32
theorem witness_engine_kinds : (∀ k ∈ [CopyKind.gather, .reduce .add .i32, .collReduce .max false .i8 0x400003, .collBcast 3, .conv .f32 .i32, .conv .mxf8 .f32],
      ∀ p ∈ (engOp k [1] (rec1 32 false)).pins, p.enc = false) ∧ (0x400003 : Word).toNat % 256 ≠ 0 ∧ isBlocked reducing.me.csr.fd .mxf8 = true ∧
    (fmtOf reducing.me.csr.fd .mxf8).isSome = true := by decide +kernel
/-- Rows 1 and 0 of two bytes each are gathered, row at the stride of 2; -1 becomes -1.0. -/
theorem test_engine_bytes : let s : State := { reducing with mem := memWrite base.mem 0x1000 [1, 2, 3, 4] }
    s.engBytes (engOp .gather [1, 2 ^ 32, 0] (BitVec.ofNat 384 (2 * 2 ^ 32 + 2 ^ 64 + 2 ^ 96 + 2 * 2 ^ 128))) = [(0x1800, [some 3, some 4, none, none, some 1, some 2])] ∧
    (({ s with mem := memWrite base.mem 0x1000 [0xFF, 0xFF, 0xFF, 0xFF] } : State).engBytes (engOp (.conv .f32 .i32) [] (rec1 1 false))) =
      [(0x1800, [some 0, some 0, some 0x80, some 0xBF])] := by decide +kernel
/-- A `tshape` that was issued keeps its pins, and needs no more room when the other strands' pins fill the core. -/
def shaped : State :=
  let s := copies 32 false
  let s := { s with mem := memWrite s.mem 0x1000 (leBytes 48 (rec1 64 false).toNat) }
  match s.tshapeIssue 0x1000 with | .ok u => fullPins u | .error _ => s
theorem witness_tshape_pinned : shaped.me.pins ≠ [] ∧ shaped.pinRoom shaped.me.pins = false ∧
    after (.tshape 0 3 6) shaped (fun t => t.me.sd[(3 : Reg8)] == ⟨true, rec1 64 false⟩) = true := by decide +kernel
/-- A landing has asked for strand 0, whose `gbar` a trap abandoned: in the handler the request stands, after the return to the `gbar`
it is performed, and elsewhere it has lapsed; so it has once the generation is another. -/
def abandoned (t : Nat) (pc : Word) (occ : Bool) : State :=
  (inFlight fun a => { a with preempt := true, saveAt := some ⟨none, 0, regPart, none⟩, left := some (.gbar 0 t, 0x40), pc := pc, frame := { a.frame with occ := occ } }).setDie 0
    { base.die 0 with saved := [0] }
theorem test_abandoned : (abandoned 5 0x80 true).lapsed 0 = false ∧ after (.preemption 0) (abandoned 5 0x80 true) (fun t => t.me.preempt && t.me.status == .running) = true ∧
    after (.preemption 0) (abandoned 5 0x40 false) (fun t => t.me.status == .saved) = true ∧ (abandoned 5 0x80 false).lapsed 0 = true ∧
    (abandoned 4 0x40 false).lapsed 0 = true := by decide +kernel
/-- Strand 1's copy is yet to land in a page of strand 0, whose pre-emption waits for it. -/
def foreignCopy : State :=
  let s := landing.setMe { landing.me with haltReq := true }
  match (s.core 0).slot 0 with | some o => s.setCore 0 ((s.core 0).setSlot 0 (some { o with owner := 1 })) | none => s
theorem witness_foreign_copy : foreignCopy.preemptDeferred 0 = true ∧ (landing.setMe { landing.me with haltReq := true }).preemptDeferred 0 = false ∧
    after (.preemption 0) foreignCopy (fun t => t.me.status == .running && t.me.haltReq) = true := by decide +kernel
/-- Of the entries of a record a hint decodes, and an instruction whose feature is not accepted does not. -/
theorem test_entries_decode : let e (b : Word) : Entry := ⟨b, 0, 0, 0, 0, 0, .u, false, false⟩
    base.entriesDecode [e (0b0000000000000_00000_00000_00000_00000_00001_0000011_000_0_0_0000_111_0111111)] = true ∧
    base.entriesDecode [e 0x24C000B50C0001BF] = true ∧ (onRegs fun r => { r with featacc := Vector.replicate 4 1 }).entriesDecode [e 0x24C000B50C0001BF] = false := by
  decide +kernel
/-- Two groups of a load wait at the head of the queue, and an illegal word is at the front. -/
def stopping (n : Nat) : State :=
  let s := vmemBase.setMe ((vmemBase.me.setX 6 0x1010).setX 7 64)
  let q : Entry := ⟨BitVec.ofNat 64 ((encodeWord (.vld vmem 7)).getD (0, 0)).2, 0, 0, 0, 0x1010, 64, .s, false, false⟩
  let s := s.setMe { s.me with csr := { s.me.csr with shape := shapeOf .i32 128 }, pc := 0x2000, queue := [q] }
  { s with sched := [.stop 0 n none] }
theorem test_stop_in_sector : (match step (stopping 1) with | .next t => t.me.csr.scause == 2 && t.me.csr.vsi == 64 && t.me.queue == [] && t.me.frame.entries.length == 1 | _ => false) = true := by
  decide +kernel
/-- A record that cannot be read, with a Saved context there (strand 1) or none. -/
def unreadable (st : Status) : State :=
  let s := { other st with bad := [0x1000 / 32] }
  s.setStrand 1 { s.strand 1 with saveAt := some ⟨none, 0x1000, 0x1000 + regPart, none⟩ }
theorem witness_ctx_unreadable : (unreadable .saved).regPartRead 0 ⟨none, 0x1000, 0x1000 + regPart, none⟩ 0 fixedSize = none ∧
    (unreadable .saved).freeStrand 2 = true ∧ (∃ e ∈ (unreadable .saved).strands, e.2.status = .saved) ∧
    (∀ e ∈ (unreadable .running).strands, ¬ e.2.status = .saved) := by
  refine ⟨?_, by decide +kernel, by decide +kernel, by decide +kernel⟩
  simp only [State.regPartRead, State.physRead, State.badIn]; decide +kernel
theorem witness_ctx_codes : bits (0x20 : Word) 20 44 = 0 ∧ hbmTop < hbmTop - 0x1000 + pagePart ∧ ctxOperand 0x20 (w64 (hbmTop - 0x1000)) = some 2 ∧
    ctxOperand 0x60 (w64 (hbmTop + 0x1000)) = none ∧ ctxOperand 0x40 (w64 hbmTop) = some 2 ∧ (w64 hbmTop).toNat % 0x1000 = 0 := by decide +kernel
theorem test_election_flights : after .headElection { fenced with elect := true, head := some 1, flights := [flight] } (fun t => t.flights.map Flight.placed == [true] &&
    t.flights.map Flight.id == [0]) = true ∧ flight.placed = true := by decide +kernel
theorem witness_lapsed : (abandoned 5 0x40 false).me.preempt = true ∧ (abandoned 5 0x40 false).me.wait.counts = false ∧
    (abandoned 5 0x40 false).me.left = some (.gbar 0 5, 0x40) ∧ (abandoned 5 0x40 false).genOf 0 0 = some 5 := by decide +kernel

/-! ### Terms that are not well formed, and words that no row has -/

def ill (i : Instr) : Bool := !i.wf

theorem test_ill_predicate : ill (.vadd ⟨⟨false, 1, 0⟩, .f32, 0, 1, 2⟩) = true ∧ ill (.mzero nh 1 0) = true ∧ ill (.pnot ⟨false, 3, 0⟩ 1 2) = true := by decide
theorem test_ill_types : ill (.vadd ⟨nh, .i4, 0, 1, 2⟩) = true ∧ ill (.vand ⟨nh, .f32, 0, 1, 2⟩) = true ∧ ill (.vabs ⟨nh, .e2m1, 0, 1⟩) = true ∧
    ill (.vsqrt ⟨nh, .i32, 0, 1⟩) = true ∧ ill (.vfma ⟨nh, .gf 0, 0, 1, 2, 3⟩) = true ∧ ill (.vcmp nh .mxf8 .eq false 0 1 2) = true ∧
    ill (.vidx nh .f32 0 0 0) = true ∧ ill (.vcvt ⟨nh, .mxf8, .f32, 0, 1⟩) = true ∧ ill (.vmxpack ⟨nh, .f32, .f32, 0, 1⟩ 2) = true ∧
    ill (.vmxunpack ⟨nh, .f32, .f32, 0, 1⟩ 2) = true ∧ ill (.vlds ⟨nh, .i4, false, 0, 1, 6⟩ 7 8) = true ∧ ill (.mop nh 0 .i8 .i4 0 0 0 1 0) = true ∧
    ill (.mdrain nh 0 false .mxf8 0 0 6 0) = true ∧ ill (.mfill nh 0 false .i64 0 0 6 0) = true ∧ ill (.sgReduce ⟨0, 0, 5, 6, 0⟩ .add .i8) = true ∧
    ill (.collReduce ⟨0, 0, 5, 6, 0⟩ .min false .e4m3 7) = true := by decide
theorem test_ill_overlaps : ill (.vcvt ⟨nh, .i32, .f32, 1, 1⟩) = true ∧ ill (.vmxpack ⟨nh, .mxf8, .f32, 0, 1⟩ 1) = true ∧
    ill (.vreshape ⟨nh, .i32, 1, 1, 6⟩) = true ∧ ill (.vperm ⟨nh, .i32, 1, 0, 1⟩) = true ∧ ill (.vslideup ⟨nh, .i32, 1, 1, 6⟩) = true ∧
    ill (.vslidedn ⟨nh, .i32, 1, 1, 6⟩) = true ∧ ill (.vldx ⟨nh, .i32, false, 0, 1, 6⟩ 1) = true := by decide
theorem test_ill_ranges : ill (.vrepBegin 0 0) = true ∧ ill (.vrepBegin 0 33) = true ∧ ill (.mop nh 0 .mxf8 .mxf8 0 31 0 1 0) = true ∧
    ill (.mopw nh 0 true 0 .f32 .f32 0 0 0 6) = true ∧ ill (.mopw nh 0 false 1 .i8 .i8 0 0 15 6) = true ∧
    ill (.mopw nh 0 true 0 .i4 .i4 0 0 15 6) = true ∧ ill (.gbpAdd 0 3 2 2 0 1) = true ∧ ill (.gbpElim 0 3 4 0 1 6) = true ∧ ill (.gbpElim 0 3 0 0 1 6) = true ∧
    ill (.undefinedHint 0 2 0) = true ∧ ill (.csrAccess .rw (.reg 2) 1 0x800) = true ∧ ill (.shapeWrite .rs (.reg 0) 1) = true ∧
    ill (.rv64iArith (.shift .slliw 1 2 32)) = true ∧ ill (.relComplete 18433) = true ∧ ill (.fairnessHold 1152) = true ∧ ill (.swi 0 16) = true ∧
    ill (.heartbeatTimeout 8) = true := by decide
/-- Bounds that are still met. -/
theorem test_well_formed : Instr.wf (.vrepBegin 0 32) = true ∧ Instr.wf (.gbpAdd 0 3 1 2 0 1) = true ∧ Instr.wf (.gbpElim 0 3 3 0 1 6) = true ∧
    Instr.wf (.mopw nh 0 false 1 .i8 .i8 0 0 14 6) = true ∧ Instr.wf (.mopw nh 0 true 0 .i4 .i4 0 0 14 6) = true := by decide

/-- Words that no row of the encoding tables has: all zeros, all ones, a compressed form, a reserved LOAD width, a long form of
reserved class, a reserved custom-0 form. -/
theorem test_no_row : [(32, 0), (32, 0xFFFFFFFF), (32, 0x4501), (32, 0x00007003), (64, 0x2BF), (32, 0x0000700B)].all
    (fun r => decide (decodeTableWord r.1 r.2 = none)) = true := by decide

end Sys2Proof.Tests
end

section
/-! How a Zicsr access of the machine goes (R60, R82, R184), and the version register `isaver` that no form can write. -/
namespace Sys2Proof.Machine

/-! ### One access of a CSR (R60) -/

/-- A form that does not write is CSRRS or CSRRC: CSRRW always writes (R60). -/
theorem ne_rw_of_csrOpWrites_false {op : CsrOp} {src : CsrSrc} (h : csrOpWrites op src = false) : op ≠ .rw := by
  rintro rfl
  cases src <;> simp [csrOpWrites] at h

/-- An access that its number or the mode does not allow traps before it reads or writes anything (R60, R184). -/
theorem State.csrOp_of_not_allowed (s : State) (i : Instr) (op : CsrOp) (src : CsrSrc) (rd : XReg) (n : Nat)
    (h : s.csrAllowed n (csrOpWrites op src) = false) :
    s.csrOp i op src rd n = .next (s.takeTrap ⟨2, i.bits, none⟩ false) := by
  unfold State.csrOp
  cases s.csrValue n with
  | none => rfl
  | some old => simp only [h]; rfl

/-- An allowed access without a write, of a CSR that the replay log does not record, leaves the CSR's value in rd (R60, R381). -/
theorem State.csrOp_of_read (s : State) (i : Instr) {op : CsrOp} {src : CsrSrc} (rd : XReg) {n : Nat} {v : Word}
    (hw : csrOpWrites op src = false) (hv : s.csrValue n = some v) (ha : s.csrAllowed n false = true)
    (hl : csrLogType n = none) : s.csrOp i op src rd n = .next (s.retireX rd v) := by
  have hop := ne_rw_of_csrOpWrites_false hw
  simp [State.csrOp, State.csrRead, hw, hv, ha, hl, hop]

/-- No mode may write a number of the read-only quarter (R184). -/
theorem State.csrAllowed_write_readOnly (s : State) {n : Nat} (h : n / 1024 = 3) : s.csrAllowed n true = false := by
  simp [State.csrAllowed, h]

/-! ### `isaver` (R82) -/

@[simp] theorem State.csrValue_isaver (s : State) : s.csrValue 0xCC0 = some isaver := rfl

/-- Every mode may read `isaver`: its number asks for no privilege and is no counter (R82, R184). -/
theorem State.csrAllowed_read_isaver (s : State) : s.csrAllowed 0xCC0 false = true := by
  simp [State.csrAllowed]

/-- `isaver` has no row of its own, so every form that names it is a CSR_ACCESS. -/
theorem exec_csrInstr_isaver (op : CsrOp) (src : CsrSrc) (rd : XReg) (s : State) :
    exec (csrInstr op src rd 0xCC0) s = s.csrOp (csrInstr op src rd 0xCC0) op src rd 0xCC0 := by
  have h : csrInstr op src rd 0xCC0 = .csrAccess op src rd 0xCC0 := by
    simp [csrInstr, csrOwnRow]
  rw [h]
  rfl

end Sys2Proof.Machine

namespace Sys2Proof.Proofs
open Machine

/-- Settles O15: the number of `isaver` lies in the read-only quarter and asks for no privilege. -/
theorem isaver : Obligations.Isaver := by
  unfold Obligations.Isaver
  intro s op src rd
  refine ⟨rfl, fun hread => ?_, fun hwrite => ?_⟩
  · refine ⟨s.retireX rd Machine.isaver, ?_, scalarDone_retireX s rd Machine.isaver⟩
    rw [exec_csrInstr_isaver]
    exact s.csrOp_of_read _ rd hread s.csrValue_isaver s.csrAllowed_read_isaver rfl
  · rw [exec_csrInstr_isaver]
    apply State.csrOp_of_not_allowed
    rw [hwrite]
    exact s.csrAllowed_write_readOnly rfl

end Sys2Proof.Proofs
end

section
/-! Bit fields of a register's contents: what a field reads as after one is written, elements and flat bytes of a register
(R4, R171), and the little-endian number of a list of bytes. -/
namespace Sys2Proof.Machine

/-! ### Bit fields -/

theorem testBit_bits {w : Nat} (x : BitVec w) (lo n i : Nat) :
    (bits x lo n).testBit i = (decide (i < n) && x.getLsbD (lo + i)) := by
  simp [bits, Nat.testBit_mod_two_pow, Nat.testBit_shiftRight, BitVec.testBit_toNat]

/-- The lowest bits, a field of n bits at lo, and the bits above it, with the field replaced. -/
theorem sub_field_add_field (x v lo n : Nat) :
    x - (x >>> lo) % 2 ^ n * 2 ^ lo + v % 2 ^ n * 2 ^ lo =
      2 ^ lo * (2 ^ n * (x >>> (lo + n)) + v % 2 ^ n) + x % 2 ^ lo := by
  have hlo := Nat.div_add_mod x (2 ^ lo)
  have hn := Nat.div_add_mod (x / 2 ^ lo) (2 ^ n)
  rw [Nat.shiftRight_eq_div_pow, Nat.shiftRight_eq_div_pow, pow_add, ← Nat.div_div_eq_div_mul]
  have hx : x = 2 ^ lo * (2 ^ n * (x / 2 ^ lo / 2 ^ n)) + x / 2 ^ lo % 2 ^ n * 2 ^ lo + x % 2 ^ lo := by
    conv_lhs => rw [← hlo, ← hn]
    ring
  have hmul : v % 2 ^ n * 2 ^ lo = 2 ^ lo * (v % 2 ^ n) := Nat.mul_comm _ _
  rw [Nat.mul_add, hmul]
  omega

/-- A bit after a field is written: the field's own bits are those of the value, the others are kept. -/
theorem getLsbD_setBits {w : Nat} (x : BitVec w) (lo n v i : Nat) (hi : i < w) :
    (setBits x lo n v).getLsbD i = if lo ≤ i ∧ i < lo + n then v.testBit (i - lo) else x.getLsbD i := by
  have hmod : ∀ y, y % 2 ^ lo < 2 ^ lo := fun y => Nat.mod_lt y (by positivity)
  have hv : v % 2 ^ n < 2 ^ n := Nat.mod_lt v (by positivity)
  simp only [setBits, bits, sub_field_add_field, BitVec.getLsbD_ofNat, hi, decide_true, Bool.true_and]
  rw [Nat.testBit_two_pow_mul_add _ (hmod _), Nat.testBit_two_pow_mul_add _ hv]
  by_cases hlo : i < lo
  · simp [hlo, Nat.testBit_mod_two_pow, BitVec.testBit_toNat, show ¬ lo ≤ i by omega]
  · by_cases hn : i - lo < n
    · simp [hlo, hn, Nat.testBit_mod_two_pow, show lo ≤ i by omega, show i < lo + n by omega]
    · simp [hlo, hn, Nat.testBit_shiftRight, BitVec.testBit_toNat, show ¬ i < lo + n by omega, show lo + n + (i - lo - n) = i by omega]

/-- A field inside the field that was written reads as that part of the value. -/
theorem bits_setBits_within {w : Nat} (x : BitVec w) {lo n lo' n' : Nat} (v : Nat) (hw : lo + n ≤ w) (hlo : lo ≤ lo')
    (hn : lo' + n' ≤ lo + n) : bits (setBits x lo n v) lo' n' = (v >>> (lo' - lo)) % 2 ^ n' := by
  apply Nat.eq_of_testBit_eq
  intro i
  rw [testBit_bits, Nat.testBit_mod_two_pow, Nat.testBit_shiftRight]
  by_cases hi : i < n'
  · rw [getLsbD_setBits x lo n v _ (by omega), if_pos (by omega), show lo' + i - lo = lo' - lo + i by omega]
  · simp [hi]

/-- A field apart from the field that was written reads as before. -/
theorem bits_setBits_apart {w : Nat} (x : BitVec w) {lo n lo' n' : Nat} (v : Nat) (hw : lo' + n' ≤ w)
    (h : lo' + n' ≤ lo ∨ lo + n ≤ lo') : bits (setBits x lo n v) lo' n' = bits x lo' n' := by
  apply Nat.eq_of_testBit_eq
  intro i
  rw [testBit_bits, testBit_bits]
  by_cases hi : i < n'
  · rw [getLsbD_setBits x lo n v _ (by omega), if_neg (by omega)]
  · simp [hi]

theorem bits_lt {w : Nat} (x : BitVec w) (lo n : Nat) : bits x lo n < 2 ^ n := Nat.mod_lt _ (by positivity)

/-! ### Bytes and their number (R4) -/

theorem leNat_leBytes (n : Nat) : ∀ v, leNat (leBytes n v) = v % 256 ^ n := by
  induction n with
  | zero => intro v; simp [leBytes, leNat, Nat.mod_one]
  | succ n ih =>
    intro v
    have hbyte : (BitVec.ofNat 8 v).toNat = v % 256 := BitVec.toNat_ofNat ..
    simp only [leBytes, leNat, ih, hbyte]
    rw [Nat.pow_succ', Nat.mod_mul]

@[simp] theorem leBytes_length (n : Nat) : ∀ v, (leBytes n v).length = n := by
  induction n with
  | zero => intro v; rfl
  | succ n ih => intro v; simp [leBytes, ih]

/-- The number of the bytes from k on. -/
theorem leNat_drop (bs : List Byte) : ∀ k, leNat (bs.drop k) = leNat bs / 256 ^ k := by
  induction bs with
  | nil => intro k; simp [leNat]
  | cons b bs ih =>
    intro k
    cases k with
    | zero => simp
    | succ k =>
      have hb : b.toNat < 256 := b.isLt
      rw [List.drop_succ_cons, ih, leNat, Nat.pow_succ', ← Nat.div_div_eq_div_mul,
        show (b.toNat + 256 * leNat bs) / 256 = leNat bs by omega]

/-- The first n bytes of a list, from its number. -/
theorem leBytes_mod_leNat (bs : List Byte) : ∀ n, n ≤ bs.length → leBytes n (leNat bs % 256 ^ n) = bs.take n := by
  induction bs with
  | nil =>
    intro n h
    obtain rfl : n = 0 := Nat.le_zero.1 h
    rfl
  | cons b bs ih =>
    intro n h
    cases n with
    | zero => rfl
    | succ n =>
      have hb : b.toNat < 256 := b.isLt
      have hdiv : ∀ y, (b.toNat + 256 * y) / 256 = y := fun y => by omega
      have hlow : ∀ y, BitVec.ofNat 8 (b.toNat + 256 * y) = b := fun y => by
        apply BitVec.eq_of_toNat_eq
        rw [BitVec.toNat_ofNat]
        omega
      have hmod : (b.toNat + 256 * leNat bs) % 256 ^ (n + 1) = b.toNat + 256 * (leNat bs % 256 ^ n) := by
        rw [Nat.pow_succ', Nat.mod_mul, hdiv]
        omega
      rw [leNat, hmod, leBytes, hlow, hdiv, List.take_succ_cons, ih n (Nat.le_of_succ_le_succ h)]

/-! ### Flat bytes of a register (R171) -/

/-- Flat bytes that lie among those written read as written. -/
theorem flatBytes_setFlat_within (b : BitVec 65536) (bs : List Byte) {lo k n : Nat} (hfit : lo + bs.length ≤ 8192)
    (hk : k + n ≤ bs.length) : flatBytes (setFlat b lo bs) (lo + k) n = (bs.drop k).take n := by
  have hpow : ∀ m, 2 ^ (8 * m) = 256 ^ m := fun m => by rw [Nat.pow_mul]
  have hfield := bits_setBits_within b (lo := 8 * lo) (n := 8 * bs.length) (lo' := 8 * (lo + k)) (n' := 8 * n) (leNat bs)
    (by omega) (by omega) (by omega)
  have hoff : 8 * (lo + k) - 8 * lo = 8 * k := by omega
  rw [flatBytes, setFlat, hfield, hoff, Nat.shiftRight_eq_div_pow, hpow, hpow, ← leNat_drop,
    leBytes_mod_leNat _ _ (by rw [List.length_drop]; omega)]

/-- A flat byte apart from those written reads as before. -/
theorem flatByte_setFlat_apart (b : BitVec 65536) (bs : List Byte) {lo f : Nat} (hf : f < 8192)
    (h : f < lo ∨ lo + bs.length ≤ f) : flatByte (setFlat b lo bs) f = flatByte b f := by
  rw [flatByte, setFlat, bits_setBits_apart b _ (by omega) (by omega), flatByte]

theorem flatBytes_one (b : BitVec 65536) (f : Nat) : flatBytes b f 1 = [flatByte b f] := rfl

/-- A flat byte among those written reads as written. -/
theorem flatByte_setFlat_within (b : BitVec 65536) (bs : List Byte) {lo k : Nat} (hfit : lo + bs.length ≤ 8192) (hk : k < bs.length) :
    flatByte (setFlat b lo bs) (lo + k) = bs[k] := by
  have h := flatBytes_setFlat_within b bs (k := k) (n := 1) hfit hk
  rw [flatBytes_one, List.drop_eq_getElem_cons hk, List.take_succ_cons, List.take_zero] at h
  exact List.head_eq_of_cons_eq h

theorem leNat_flatBytes_lt (b : BitVec 65536) (lo n : Nat) : leNat (flatBytes b lo n) < 256 ^ n := by
  rw [flatBytes, leNat_leBytes]
  exact Nat.mod_lt _ (by positivity)

/-! ### Elements of a register -/

theorem elem_lt (b : BitVec 65536) (w i j : Nat) : elem b w i j < 2 ^ w := bits_lt ..

/-- An element of a register after one is written. -/
theorem elem_setElem (b : BitVec 65536) {w i j r c : Nat} (v : Nat) (hj : j < 4096 / w) (hr : r < 16) (hc : c < 4096 / w) :
    elem (setElem b w i j v) w r c = if i = r ∧ j = c then v % 2 ^ w else elem b w r c := by
  have hrow : ∀ x, x < 4096 / w → w * x + w ≤ 4096 := fun x hx =>
    (Nat.mul_le_mul_left w hx).trans (Nat.mul_div_le 4096 w)
  have hcol : ∀ {x y}, x < y → w * x + w ≤ w * y := fun hxy => Nat.mul_le_mul_left w hxy
  have hj' := hrow j hj
  have hc' := hrow c hc
  unfold elem setElem
  split
  case isTrue h =>
    obtain ⟨rfl, rfl⟩ := h
    rw [bits_setBits_within b v (by omega) le_rfl le_rfl, Nat.sub_self, Nat.shiftRight_zero]
  case isFalse h =>
    apply bits_setBits_apart b v (by omega)
    by_cases hir : i = r
    · rcases Nat.lt_or_gt_of_ne (fun e => h ⟨hir, e⟩ : j ≠ c) with hlt | hgt
      · have := hcol hlt
        omega
      · have := hcol hgt
        omega
    · omega

/-- The contents of a register after a list of elements (i, j, code) is written, first to last. -/
def putElems (b : BitVec 65536) (w : Nat) (es : List (Nat × Nat × Nat)) : BitVec 65536 :=
  es.foldl (fun b p => setElem b w p.1 p.2.1 p.2.2) b

/-- An element of which all writes of the list give v reads v, when it is written or already reads so. -/
theorem elem_putElems {w r c v : Nat} (hr : r < 16) (hc : c < 4096 / w) (es : List (Nat × Nat × Nat)) :
    ∀ b, (∀ e ∈ es, e.2.1 < 4096 / w) → (∀ e ∈ es, e.1 = r → e.2.1 = c → e.2.2 = v) →
      ((r, c, v) ∈ es ∨ elem b w r c = v % 2 ^ w) → elem (putElems b w es) w r c = v % 2 ^ w := by
  induction es with
  | nil => intro b _ _ h; exact h.resolve_left List.not_mem_nil
  | cons e es ih =>
    intro b hfit hval h
    obtain ⟨hfit₁, hfit⟩ := List.forall_mem_cons.1 hfit
    obtain ⟨hval₁, hval⟩ := List.forall_mem_cons.1 hval
    apply ih _ hfit hval
    rw [elem_setElem b _ hfit₁ hr hc]
    split
    case isTrue here => right; rw [hval₁ here.1 here.2]
    case isFalse elsewhere =>
      refine h.imp_left fun hmem => (List.mem_cons.1 hmem).resolve_left ?_
      rintro rfl
      exact elsewhere ⟨rfl, rfl⟩

/-- An element that the list does not write reads as before. -/
theorem elem_putElems_of_not_written {w r c : Nat} (b : BitVec 65536) (hr : r < 16) (hc : c < 4096 / w) (es : List (Nat × Nat × Nat))
    (hfit : ∀ e ∈ es, e.2.1 < 4096 / w) (h : ∀ e ∈ es, ¬ (e.1 = r ∧ e.2.1 = c)) :
    elem (putElems b w es) w r c = elem b w r c := by
  have hold : elem b w r c % 2 ^ w = elem b w r c := Nat.mod_eq_of_lt (elem_lt ..)
  rw [← hold]
  exact elem_putElems hr hc es b hfit (fun e he h₁ h₂ => absurd ⟨h₁, h₂⟩ (h e he)) (.inr hold.symm)

end Sys2Proof.Machine
end

section
/-! What the vector side's write of one register leaves of the state (R165, R171), and how an indivisible GBP instruction goes
without streams (R261). -/
namespace Sys2Proof.Machine

/-! ### A register of the executing strand -/

/-- Only the cores change, and of them only the one of the executing strand, which becomes c. -/
def CoreSet (s t : State) (c : Core) : Prop :=
  t = { s with cores := t.cores } ∧ (∀ k, k ≠ coreOf s.cur → t.core k = s.core k) ∧ t.myCore = c

theorem coreSet_self (s : State) : CoreSet s s s.myCore := ⟨rfl, fun _ _ => rfl, rfl⟩

theorem CoreSet.setMyCore {s t : State} {c : Core} (h : CoreSet s t c) (d : Core) : CoreSet s (t.setMyCore d) d := by
  obtain ⟨hstate, hcores, -⟩ := h
  have hcur : t.cur = s.cur := by rw [hstate]
  refine ⟨?_, fun k hk => ?_, State.setMyCore_myCore t d⟩
  · rw [hstate]
    rfl
  · rw [← hcores k hk]
    exact State.setCore_ne _ _ (by rw [hcur]; exact Ne.symm hk)

theorem CoreSet.me {s t : State} {c : Core} (h : CoreSet s t c) : t.me = s.me := by rw [h.1]; rfl

theorem CoreSet.cur {s t : State} {c : Core} (h : CoreSet s t c) : t.cur = s.cur := by rw [h.1]

/-- A held register reads as the contents of its block (R165). -/
theorem State.vget_of_blockOf {s : State} {v : VReg} {n : Nat} (h : s.me.blockOf v = some n) : s.vget v = (s.myCore.block n).data := by
  simp [State.vget, h]

theorem Core.setBlock_block (c : Core) (n m : Nat) (b : Block) : (c.setBlock n b).block m = if n = m then b else c.block m :=
  Tbl.get_set ..

/-- The write of a held register leaves a core that differs in the register's block alone (R171). -/
theorem vput_coreSet {s : State} {vd : VReg} {n : Nat} (h : s.me.blockOf vd = some n) (data : BitVec 65536) (rows bytes : Nat) :
    ∃ b : Block, b.data = data ∧ CoreSet s (s.vput vd data rows bytes) (s.myCore.setBlock n b) := by
  simp only [State.vput, h]
  exact ⟨_, rfl, (coreSet_self s).setMyCore _⟩

/-- Words that fail no more change the core's list of them alone (R225). -/
theorem CoreSet.vheal {s t : State} {c : Core} (h : CoreSet s t c) (vd : VReg) (covers : Nat → Nat → Bool) :
    ∃ bad, CoreSet s (t.vheal vd covers) { c with badRows := bad } := by
  have hc : t.myCore = c := h.2.2
  have hkeep : CoreSet s t { c with badRows := c.badRows } := h
  unfold State.vheal
  split
  · dsimp only
    split
    · exact ⟨_, hkeep⟩
    · rw [hc]
      exact ⟨_, h.setMyCore _⟩
  · exact ⟨_, hkeep⟩

/-- An instruction wrote register vd of the executing strand, which then holds `data`, and completed: it changed nothing else. -/
def RegWritten (s t : State) (vd : VReg) (data : BitVec 65536) : Prop :=
  OnlyLocal s.cur s t ∧ OnlyBlocks s.cur s t ∧ OtherBlocks s.cur [vd] s t ∧ VecDone s.cur t s.me ∧ t.vget vd = data

/-- Completing leaves the core as it is and moves the executing strand on. -/
theorem State.completeVec_onlyStrand (s : State) : OnlyStrand s.cur s s.completeVec :=
  (OnlyStrand.setStrand ..).trans (OnlyStrand.countEv ..)

theorem State.completeVec_core (s : State) (c : Nat) : s.completeVec.core c = s.core c := by
  rw [State.completeVec, State.countEv_core, State.setMe_core]

/-- The executing strand after it completed, but for its event counters. -/
theorem State.completeVec_me (s : State) : s.completeVec.me = s.me.completeVec.countersOf s.completeVec.me := by
  have hcur : s.completeVec.cur = s.cur := s.completeVec_onlyStrand.cur
  have h := State.countEv_same (s.setMe s.me.completeVec) s.cur 2 1
  rw [State.setMe_same] at h
  unfold State.me
  rw [hcur]
  exact h

/-- A write of one held register, with the words that fail no more by it, after which the instruction completes. -/
theorem regWritten_completeVec {s t : State} {vd : VReg} {n : Nat} (h : s.me.blockOf vd = some n) {b : Block} {bad : List (Nat × Nat × Nat)}
    (ht : CoreSet s t { s.myCore.setBlock n b with badRows := bad }) : RegWritten s t.completeVec vd b.data := by
  have hcur := ht.cur
  have hme := ht.me
  obtain ⟨hstate, hcores, hmine⟩ := ht
  obtain ⟨hdone, hothers⟩ := t.completeVec_onlyStrand
  have hcur' : t.completeVec.cur = s.cur := t.completeVec_onlyStrand.cur.trans hcur
  have hme' : t.completeVec.me = s.me.completeVec.countersOf t.completeVec.me := hme ▸ t.completeVec_me
  have hcore : t.completeVec.core (coreOf s.cur) = { s.myCore.setBlock n b with badRows := bad } := by
    rw [State.completeVec_core, ← hmine, State.myCore, hcur]
  refine ⟨⟨?_, fun j hj => ?_, fun c hc => ?_⟩, ?_, fun m hm => ?_, ?_, ?_⟩
  · rw [hdone, hstate]
  · rw [hothers j (hcur ▸ hj), hstate]
    rfl
  · rw [State.completeVec_core, hcores c hc]
  · unfold OnlyBlocks
    rw [hcore]
    rfl
  · have hnm : n ≠ m := fun e => hm vd (List.mem_singleton_self vd) (e ▸ h)
    rw [hcore]
    exact (s.myCore.setBlock_block n m b).trans (if_neg hnm)
  · unfold State.me at hme'
    rwa [hcur'] at hme'
  · have hname : t.completeVec.me.blockOf vd = some n := by
      rw [hme']
      exact h
    rw [State.vget_of_blockOf hname, State.myCore, hcur', hcore]
    exact congrArg Block.data ((s.myCore.setBlock_block n n b).trans (if_pos rfl))

/-- A held register takes `data`, and the words that this covers fail no more; then the instruction completes. -/
theorem regWritten_vput_vheal {s : State} {vd : VReg} (h : s.me.blockOf vd ≠ none) (data : BitVec 65536) (rows bytes : Nat)
    (covers : Nat → Nat → Bool) : RegWritten s ((s.vput vd data rows bytes).vheal vd covers).completeVec vd data := by
  obtain ⟨n, hn⟩ := Option.ne_none_iff_exists'.1 h
  obtain ⟨b, rfl, hput⟩ := vput_coreSet hn data rows bytes
  obtain ⟨bad, hheal⟩ := hput.vheal vd covers
  exact regWritten_completeVec hn hheal

/-- Flat bytes from the first on are written to a held register, and the instruction completes. -/
theorem regWritten_vputFlat {s : State} {vd : VReg} (h : s.me.blockOf vd ≠ none) (bs : List Byte) :
    RegWritten s (s.vputFlat vd bs).completeVec vd (setFlat (s.vget vd) 0 bs) := by
  unfold State.vputFlat
  exact regWritten_vput_vheal h ..

/-- Elements are written to a held register, and the instruction completes. -/
theorem regWritten_vputElems {s : State} {vd : VReg} (h : s.me.blockOf vd ≠ none) (w : Nat) {es : List (Nat × Nat × Nat)}
    (hes : es ≠ []) : RegWritten s (s.vputElems vd w es).completeVec vd (putElems (s.vget vd) w es) := by
  rw [State.vputElems, if_neg (by simpa using hes)]
  exact regWritten_vput_vheal h (putElems (s.vget vd) w es) ..

/-! ### An indivisible GBP instruction without streams (R141, R261) -/

/-- A write of a register binds and unbinds no port. -/
theorem RegWritten.noStreams {s t : State} {vd : VReg} {data : BitVec 65536} (h : RegWritten s t vd data) : t.noStreams = s.noStreams := by
  obtain ⟨⟨hstate, -, -⟩, hblocks, -⟩ := h
  have hcur : t.cur = s.cur := by rw [hstate]
  have hport : (t.core (coreOf s.cur)).port = (s.core (coreOf s.cur)).port := by
    rw [hblocks]
    rfl
  simp only [State.noStreams, State.portsOf, hcur, hport]

/-- The registers are held (R166). -/
theorem State.needV_of_held {s : State} {rs : List VReg} (h : ∀ r ∈ rs, s.me.blockOf r ≠ none) : s.needV rs = .ok () := by
  have hnone : rs.find? (fun r => (s.me.blockOf r).isNone) = none := by simpa using h
  simp [State.needV, hnone]

/-- Where no stream is bound, an indivisible GBP instruction whose checks pass does its work on the state as it stands. -/
theorem State.gbpRun_of_noStreams {s t : State} {chk : Except Trap Unit} {srcs dsts : List VReg} {body : State → Except Trap State}
    (hchk : chk = .ok ()) (hs : s.noStreams = true) (hbody : body s = .ok t) (ht : t.noStreams = true) :
    s.gbpRun chk srcs dsts body = .next t := by
  simp [State.gbpRun, State.streamCheck, State.pullAll, State.pushAll, checkAll, hchk, hs, hbody, ht]

/-- Such an instruction writes its destination register alone, when its work does. -/
theorem gbpRun_regWritten {s t : State} {chk : Except Trap Unit} {srcs dsts : List VReg} {body : State → Except Trap State} {vd : VReg}
    {data : BitVec 65536} (hchk : chk = .ok ()) (hs : s.noStreams = true) (hbody : body s = .ok t) (ht : RegWritten s t vd data) :
    ∃ t, s.gbpRun chk srcs dsts body = .next t ∧ RegWritten s t vd data :=
  ⟨t, s.gbpRun_of_noStreams hchk hs hbody (ht.noStreams.trans hs), ht⟩

end Sys2Proof.Machine
end

section
/-! The order of a packed message (R259), and what `gbp.pack` and `gbp.unpack` move (R267). -/
namespace Sys2Proof.Machine

/-! ### The order of a packed message (R259) -/

/-- Positions of a packed message: row by row, from the diagonal to η in column d. -/
theorem mem_packPos {d : Nat} {p : Nat × Nat} : p ∈ packPos d ↔ p.1 < d ∧ p.1 ≤ p.2 ∧ p.2 ≤ d := by
  obtain ⟨r, c⟩ := p
  simp only [packPos, List.mem_append, List.mem_map, List.mem_range, List.mem_flatten, Prod.mk.injEq]
  constructor
  · rintro (⟨i, hi, rfl, rfl⟩ | ⟨_, ⟨i, hi, rfl⟩, hmem⟩)
    · omega
    · obtain ⟨n, hn, hr, hc⟩ := by simpa using hmem
      omega
  · rintro ⟨hr, hrc, hc⟩
    rcases Nat.lt_or_eq_of_le hc with hlt | rfl
    · exact .inr ⟨_, ⟨r, hr, rfl⟩, List.mem_map.2 ⟨c - r, List.mem_range.2 (by omega), by rw [Nat.add_sub_cancel' hrc]⟩⟩
    · exact .inl ⟨r, hr, rfl, rfl⟩

/-- No position comes twice. -/
theorem packPos_nodup (d : Nat) : (packPos d).Nodup := by
  have hrow (i : Nat) : ((List.range (d - i)).map fun n => (i, i + n)).Nodup :=
    List.nodup_range.map fun a b h => by simpa using h
  rw [packPos, ← List.flatMap_def, List.nodup_append']
  refine ⟨List.nodup_range.map fun a b h => by simpa using h, List.nodup_flatMap.2 ⟨fun i _ => hrow i, ?_⟩, ?_⟩
  · refine List.nodup_range.imp fun {i j} hij p hi hj => hij ?_
    obtain ⟨_, _, rfl⟩ := List.mem_map.1 hi
    obtain ⟨_, _, h⟩ := List.mem_map.1 hj
    exact (congrArg Prod.fst h).symm
  · intro p heta hlam
    obtain ⟨i, hi, rfl⟩ := List.mem_map.1 heta
    obtain ⟨j, hj, hmem⟩ := List.mem_flatMap.1 hlam
    obtain ⟨n, hn, h⟩ := List.mem_map.1 hmem
    have hn := List.mem_range.1 hn
    have hd : j + n = d := congrArg Prod.snd h
    omega

/-- A triangle of rows of d, d - 1, …, 1 positions. -/
theorem sum_map_sub_range (d : Nat) : 2 * ((List.range d).map fun i => d - i).sum = d * (d + 1) := by
  induction d with
  | zero => rfl
  | succ d ih =>
    rw [List.range_succ_eq_map]
    simp only [List.map_cons, List.map_map, Function.comp_def, Nat.succ_eq_add_one, Nat.add_sub_add_right, List.sum_cons, Nat.sub_zero,
      Nat.mul_add, ih]
    ring

theorem packPos_length (d : Nat) : (packPos d).length = packCount d := by
  have h := sum_map_sub_range d
  simp only [packPos, packCount, List.length_append, List.length_map, List.length_range, List.length_flatten, List.map_map,
    Function.comp_def]
  omega

/-- The bytes of a packed message hold its values, and fit a register for the dimensions that an instruction can name. -/
theorem packBytes_bounds {d : Nat} (h : d ≤ 16) : 4 * packCount d ≤ packBytes d ∧ packBytes d ≤ 8192 := by
  have hsq : d * (d + 1) ≤ 16 * 17 := Nat.mul_le_mul h (by omega)
  unfold packBytes packCount
  omega

/-- A position of a packed message is where the block holds its value: on or above the diagonal, or in column d (R258). -/
theorem blockElem_of_mem_packPos (b : BitVec 65536) {d : Nat} {p : Nat × Nat} (h : p ∈ packPos d) :
    blockElem b d p.1 p.2 = elem b 32 p.1 p.2 := by
  obtain ⟨-, hle, hd⟩ := mem_packPos.1 h
  unfold blockElem
  split
  · rw [min_eq_left hle, max_eq_right hle]
  · rw [show p.2 = d by omega]

/-! ### gbp.pack -/

/-- The codes of a block as the bytes of a packed message, without its padding. -/
def packedCodes (b : BitVec 65536) (D : Nat) : List Byte := ((packPos D).map fun p => leBytes 4 (blockElem b D p.1 p.2)).flatten

/-- The bytes of a packed message (R259). -/
def packedMessage (b : BitVec 65536) (D : Nat) : List Byte :=
  packedCodes b D ++ List.replicate (packBytes D - (packedCodes b D).length) 0

theorem packedCodes_length (b : BitVec 65536) (D : Nat) : (packedCodes b D).length = 4 * packCount D := by
  simp [packedCodes, List.length_flatten, Function.comp_def, packPos_length, Nat.mul_comm]

theorem packedMessage_length (b : BitVec 65536) {D : Nat} (h : D ≤ 16) : (packedMessage b D).length = packBytes D := by
  have := (packBytes_bounds h).1
  rw [packedMessage, List.length_append, List.length_replicate, packedCodes_length]
  omega

/-- Of a list of pieces of k items each, laid end to end, piece m stands k * m items in. -/
theorem take_drop_flatten {α : Type} {k : Nat} {x : List α} (ls : List (List α)) :
    ∀ m, (∀ l ∈ ls, l.length = k) → ls[m]? = some x → (ls.flatten.drop (k * m)).take k = x := by
  induction ls with
  | nil => intro m _ h; simp at h
  | cons l ls ih =>
    intro m hlen h
    obtain ⟨rfl, hlen⟩ := List.forall_mem_cons.1 hlen
    cases m with
    | zero =>
      obtain rfl : l = x := by simpa using h
      simp
    | succ m =>
      rw [List.flatten_cons, Nat.mul_succ, Nat.add_comm, ← List.drop_drop, List.drop_left]
      exact ih m hlen (by simpa using h)

/-- Value m of a packed message lies in its bytes [4 m, 4 m + 4). -/
theorem packedMessage_value (b : BitVec 65536) {D m : Nat} {p : Nat × Nat} (h : (packPos D)[m]? = some p) :
    ((packedMessage b D).drop (4 * m)).take 4 = leBytes 4 (blockElem b D p.1 p.2) := by
  have hm : m < packCount D := packPos_length D ▸ (List.getElem?_eq_some_iff.1 h).1
  have hlen := packedCodes_length b D
  rw [packedMessage, List.drop_append_of_le_length (by omega), List.take_append_of_le_length (by rw [List.length_drop]; omega)]
  exact take_drop_flatten _ m (List.forall_mem_map.2 fun _ _ => leBytes_length ..) (by simp [h])

/-- The bytes of a packed message after its values are zero. -/
theorem packedMessage_padding (b : BitVec 65536) {D f : Nat} (hf : 4 * packCount D ≤ f) (h : f < (packedMessage b D).length) :
    (packedMessage b D)[f] = 0 := by
  have hcodes : ¬ f < (packedCodes b D).length := by
    rw [packedCodes_length]
    omega
  simp [packedMessage, List.getElem_append, hcodes]

/-- Value m of the message packed into a register is the code of its position: no code is rounded or canonicalised. -/
theorem flatBytes_packed_value (a b : BitVec 65536) {D m : Nat} (hD : D ≤ 16) {p : Nat × Nat} (hm : (packPos D)[m]? = some p) :
    leNat (flatBytes (setFlat a 0 (packedMessage b D)) (4 * m) 4) = blockElem b D p.1 p.2 := by
  have hcount : m < packCount D := packPos_length D ▸ (List.getElem?_eq_some_iff.1 hm).1
  have hlen := packedMessage_length b hD
  have hbounds := packBytes_bounds hD
  have hbytes := flatBytes_setFlat_within a (packedMessage b D) (lo := 0) (k := 4 * m) (n := 4) (by omega) (by omega)
  have hcode : blockElem b D p.1 p.2 < 2 ^ 32 := blockElem_of_mem_packPos b (List.mem_of_getElem? hm) ▸ elem_lt ..
  rw [Nat.zero_add, packedMessage_value b hm] at hbytes
  rw [hbytes, leNat_leBytes]
  exact Nat.mod_eq_of_lt hcode

/-- The flat bytes after the values, up to L, are zero. -/
theorem flatByte_packed_padding (a b : BitVec 65536) {D f : Nat} (hD : D ≤ 16) (hf : 4 * packCount D ≤ f) (hL : f < packBytes D) :
    flatByte (setFlat a 0 (packedMessage b D)) f = 0 := by
  have hlen := packedMessage_length b hD
  have hbounds := packBytes_bounds hD
  have hbyte := flatByte_setFlat_within a (packedMessage b D) (lo := 0) (k := f) (by omega) (by omega)
  rwa [Nat.zero_add, packedMessage_padding b hf] at hbyte

/-- The flat bytes from L onward keep their values. -/
theorem flatByte_packed_outside (a b : BitVec 65536) {D f : Nat} (hD : D ≤ 16) (hL : packBytes D ≤ f) (hf : f < 8192) :
    flatByte (setFlat a 0 (packedMessage b D)) f = flatByte a f :=
  flatByte_setFlat_apart a _ hf (.inr (by rw [packedMessage_length b hD]; omega))

/-- `gbp.pack` writes the packed message of the block in vs to vd, from flat byte 0 on (R267). -/
theorem exec_gbpPack {s : State} (la D1 : BitVec 4) {vd vs : VReg} (hns : s.noStreams = true) (hd : s.me.blockOf vd ≠ none)
    (hs : s.me.blockOf vs ≠ none) :
    ∃ t, exec (.gbpPack la D1 vd vs) s = .next t ∧
      RegWritten s t vd (setFlat (s.vget vd) 0 (packedMessage (s.vget vs) (D1.toNat + 1))) := by
  have hexec : exec (.gbpPack la D1 vd vs) s = execGbpPack la D1 vd vs s := rfl
  have hheld : s.needV [vd, vs] = .ok () := State.needV_of_held (by simp [hd, hs])
  rw [hexec, execGbpPack]
  exact gbpRun_regWritten hheld hns rfl (regWritten_vputFlat hd (packedMessage (s.vget vs) (D1.toNat + 1)))

/-! ### gbp.unpack -/

/-- Value m of the packed message in a register. -/
def packedCode (b : BitVec 65536) (m : Nat) : Nat := leNat (flatBytes b (4 * m) 4)

theorem packedCode_lt (b : BitVec 65536) (m : Nat) : packedCode b m < 2 ^ 32 := leNat_flatBytes_lt ..

/-- The elements (row, column, code) that unpacking a message writes: each value at its position, Λ mirrored (R258). -/
def unpackedElems (b : BitVec 65536) (D : Nat) : List (Nat × Nat × Nat) :=
  ((((packPos D).zip (List.range (packCount D))).map fun p => (p.1, packedCode b p.2, 0)).map (mirror D)).flatten

/-- Row r, column c is where a block of dimension D holds the value of position p: its place, or for Λ the mirror image (R258). -/
def PlaceOf (D : Nat) (p : Nat × Nat) (r c : Nat) : Prop := (r = p.1 ∧ c = p.2) ∨ (p.2 < D ∧ r = p.2 ∧ c = p.1)

theorem mem_mirror {D : Nat} {p : Nat × Nat} {x : Nat × Nat} {e : Nat × Nat × Nat} :
    e ∈ mirror D (p, x) ↔ PlaceOf D p e.1 e.2.1 ∧ e.2.2 = x.1 := by
  obtain ⟨r, c, v⟩ := e
  unfold mirror PlaceOf
  by_cases h : p.2 < D
  · simp [h, or_and_right, and_assoc]
  · simp [h, and_assoc]

/-- What unpacking writes: at each place of each value, its code. -/
theorem mem_unpackedElems {b : BitVec 65536} {D : Nat} {e : Nat × Nat × Nat} :
    e ∈ unpackedElems b D ↔ ∃ m p, (packPos D)[m]? = some p ∧ PlaceOf D p e.1 e.2.1 ∧ e.2.2 = packedCode b m := by
  have hzip : (packPos D).zip (List.range (packCount D)) = (packPos D).zipIdx := by
    rw [List.zipIdx_eq_zip_range', packPos_length, List.range_eq_range']
  simp only [unpackedElems, hzip, List.map_map, ← List.flatMap_def, List.mem_flatMap, Function.comp_apply, mem_mirror]
  constructor
  · rintro ⟨⟨p, m⟩, hm, h⟩
    exact ⟨m, p, List.mk_mem_zipIdx_iff_getElem?.1 hm, h⟩
  · rintro ⟨m, p, hm, h⟩
    exact ⟨(p, m), List.mk_mem_zipIdx_iff_getElem?.2 hm, h⟩

/-- The places of a position lie in the block of dimension D. -/
theorem PlaceOf.inside {D r c : Nat} {p : Nat × Nat} (hp : p ∈ packPos D) (h : PlaceOf D p r c) : r < D ∧ c ≤ D := by
  have := mem_packPos.1 hp
  unfold PlaceOf at h
  omega

/-- No two positions of a packed message share a place. -/
theorem PlaceOf.unique {D r c : Nat} {p q : Nat × Nat} (hp : p ∈ packPos D) (hq : q ∈ packPos D) (h : PlaceOf D p r c)
    (h' : PlaceOf D q r c) : p = q := by
  have := mem_packPos.1 hp
  have := mem_packPos.1 hq
  unfold PlaceOf at h h'
  apply Prod.ext <;> omega

/-- Unpacking writes inside the block of dimension D alone. -/
theorem unpackedElems_inside {b : BitVec 65536} {D : Nat} {e : Nat × Nat × Nat} (h : e ∈ unpackedElems b D) :
    e.1 < D ∧ e.2.1 ≤ D := by
  obtain ⟨m, p, hm, hplace, -⟩ := mem_unpackedElems.1 h
  exact hplace.inside (List.mem_of_getElem? hm)

/-- All that unpacking writes at a place of value m is its code: each place stands for one position. -/
theorem unpackedElems_code {b : BitVec 65536} {D m : Nat} {p : Nat × Nat} (hm : (packPos D)[m]? = some p) {e : Nat × Nat × Nat}
    (he : e ∈ unpackedElems b D) (hplace : PlaceOf D p e.1 e.2.1) : e.2.2 = packedCode b m := by
  obtain ⟨m', p', hm', hplace', hcode⟩ := mem_unpackedElems.1 he
  have hpos : p' = p := hplace'.unique (List.mem_of_getElem? hm') (List.mem_of_getElem? hm) hplace
  have hindex : m' = m :=
    (List.getElem?_inj (List.getElem?_eq_some_iff.1 hm').1 (packPos_nodup D)).1 (by rw [hm', hm, hpos])
  rw [hcode, hindex]

/-- Every place of a value reads its code once the message is unpacked. -/
theorem elem_unpacked {a b : BitVec 65536} {D m : Nat} (hD : D ≤ 16) {p : Nat × Nat} (hm : (packPos D)[m]? = some p) {r c : Nat}
    (hplace : PlaceOf D p r c) : elem (putElems a 32 (unpackedElems b D)) 32 r c = packedCode b m := by
  obtain ⟨hr, hc⟩ := hplace.inside (List.mem_of_getElem? hm)
  have hcode := elem_putElems (w := 32) (by omega) (by omega) (unpackedElems b D) a
    (fun e he => by have := unpackedElems_inside he; omega)
    (fun e he hr hc => unpackedElems_code hm he (by rw [hr, hc]; exact hplace))
    (.inl (mem_unpackedElems.2 ⟨m, p, hm, hplace, rfl⟩))
  rwa [Nat.mod_eq_of_lt (packedCode_lt b m)] at hcode

/-- An element outside the block reads as before once the message is unpacked. -/
theorem elem_unpacked_outside (a b : BitVec 65536) {D r c : Nat} (hD : D ≤ 16) (hr : r < 16) (hc : c < 128) (h : D ≤ r ∨ D < c) :
    elem (putElems a 32 (unpackedElems b D)) 32 r c = elem a 32 r c := by
  refine elem_putElems_of_not_written a hr hc _ (fun e he => ?_) (fun e he => ?_)
  · have := unpackedElems_inside he
    omega
  · have := unpackedElems_inside he
    omega

theorem unpackedElems_ne_nil (b : BitVec 65536) {D : Nat} (hD : 0 < D) : unpackedElems b D ≠ [] := by
  obtain ⟨m, hm⟩ := List.getElem?_of_mem (mem_packPos.2 ⟨hD, Nat.zero_le D, le_rfl⟩ : (0, D) ∈ packPos D)
  exact List.ne_nil_of_mem (mem_unpackedElems.2 ⟨m, _, hm, .inl ⟨rfl, rfl⟩, rfl⟩ : (0, D, packedCode b m) ∈ _)

/-- `gbp.unpack` writes the elements of the message in vs to vd (R267). -/
theorem exec_gbpUnpack {s : State} (la D1 : BitVec 4) {vd vs : VReg} (hns : s.noStreams = true) (hd : s.me.blockOf vd ≠ none)
    (hs : s.me.blockOf vs ≠ none) :
    ∃ t, exec (.gbpUnpack la D1 vd vs) s = .next t ∧
      RegWritten s t vd (putElems (s.vget vd) 32 (unpackedElems (s.vget vs) (D1.toNat + 1))) := by
  have hexec : exec (.gbpUnpack la D1 vd vs) s = execGbpUnpack la D1 vd vs s := rfl
  have hheld : s.needV [vd, vs] = .ok () := State.needV_of_held (by simp [hd, hs])
  rw [hexec, execGbpUnpack]
  exact gbpRun_regWritten hheld hns rfl (regWritten_vputElems hd 32 (unpackedElems_ne_nil (s.vget vs) D1.toNat.succ_pos))

end Sys2Proof.Machine

namespace Sys2Proof.Proofs
open Machine

/-- Settles O42: `gbp.pack` is one write of flat bytes and `gbp.unpack` one write of elements, of a register alone. -/
theorem gaussianPacking : Obligations.GaussianPacking := by
  unfold Obligations.GaussianPacking
  rintro s la D1 vd vs D n B ⟨-, -, hns, -⟩ hd hs
  have hD : D ≤ 16 := D1.isLt
  refine ⟨?_, ?_⟩
  · obtain ⟨t, hexec, hlocal, hblocks, hother, hdone, hdata⟩ := exec_gbpPack la D1 hns hd hs
    refine ⟨t, hexec, hlocal, hblocks, hother, hdone, fun m p hm => ?_, fun f hf hL => ?_, fun f hL hf => ?_⟩
    · rw [hdata]
      exact flatBytes_packed_value _ _ hD hm
    · rw [hdata]
      exact flatByte_packed_padding _ _ hD hf hL
    · rw [hdata]
      exact flatByte_packed_outside _ _ hD hL hf
  · obtain ⟨t, hexec, hlocal, hblocks, hother, hdone, hdata⟩ := exec_gbpUnpack la D1 hns hd hs
    refine ⟨t, hexec, hlocal, hblocks, hother, hdone, fun m p hm => ⟨?_, fun hlt => ?_⟩, fun r c hr hc hout => ?_⟩
    · rw [blockElem_of_mem_packPos _ (List.mem_of_getElem? hm), hdata]
      exact elem_unpacked hD hm (.inl ⟨rfl, rfl⟩)
    · rw [hdata]
      exact elem_unpacked hD hm (.inr ⟨hlt, rfl, rfl⟩)
    · rw [hdata]
      exact elem_unpacked_outside _ _ hD hr hc hout

end Sys2Proof.Proofs
end
